-- ==== Sys2Proof/Word.lean ====
section
/-! DEFINITION. The plain words of the T640: bytes on its two ports, the numbers that name its positions, circuits,
functions and profiles, its millisecond time base, and the ten-place images and six-place position sets. -/

namespace Sys2Proof

/-- One byte of a tractor-port frame or of a chain telegram (R174). -/
abbrev Byte := BitVec 8

/-- A place in the chain, P1 to P6 counted from the tractor; P1 is 0 (section 3 of the front matter). -/
abbrev Pos := Fin 6

/-- A circuit of one position, C1 to C12; C1 is 0. -/
abbrev Circ := Fin 12

/-- A lamp function, F1 to F10 (R1); F1 is 0. -/
abbrev Fn := Fin 10

/-- A profile number, 0 to 7 (R6). -/
abbrev ProfileNo := Fin 8

/-- A reading of the one millisecond time base kept from hard reset (Conventions, Time). -/
abbrev Time := Nat

/-- The 32-bit value a module reports in its IDENT (R21). -/
abbrev Identity := BitVec 32

/-- An 11-bit identifier of the tractor bus (R8). -/
abbrev CanId := BitVec 11

/-- The on/off state of the ten functions, laid out as the lamp command frame lays them out: F1 in bit 0 (R1, R175). -/
abbrev Image := BitVec 10

/-- A set of functions, F1 in bit 0. -/
abbrev FnSet := BitVec 10

/-- A set of positions, P1 in bit 0. -/
abbrev PosSet := BitVec 6

/-- The six positions in ascending order. -/
def allPos : List Pos := [0, 1, 2, 3, 4, 5]

/-- The twelve circuits of a position in ascending order. -/
def allCirc : List Circ := [0, 1, 2, 3, 4, 5, 6, 7, 8, 9, 10, 11]

/-- The ten functions in ascending order. -/
def allFn : List Fn := [0, 1, 2, 3, 4, 5, 6, 7, 8, 9]

end Sys2Proof
end

