-- ==== Sys2Proof/Syntax.lean ====
section
/-! DEFINITION. The commands of the T640: one constructor of `Instr` per row of spec/opcode_table.json, with what the
event or request of that row carries. Nothing here says what a command does. -/

namespace Sys2Proof

/-- The forms a frame on the tractor bus can have (R159). -/
inductive FrameFormat where
  | standardData
  | extended
  | remote
deriving DecidableEq, Repr

/-- A frame on the tractor bus as it arrives (R159): its form, its 11-bit identifier and data bytes. For a management
request of a named code, `data` holds the bytes AFTER byte 0, which is the code the command's constructor names (R176);
for a lamp command frame and for a request of unknown code it holds all data bytes. -/
structure BusFrame where
  format : FrameFormat
  ident  : CanId
  data   : List Byte
deriving DecidableEq, Repr

/-- An upstream telegram of known kind as received (R177): the three header bytes after the kind, and the bytes
received after the header, which are payload and CRC-16 when the telegram is complete. -/
structure UpTelegram where
  address : Byte
  tag     : Byte
  length  : Byte
  rest    : List Byte
deriving DecidableEq, Repr

/-- The commands of the T640, in the order of spec/opcode_table.json. -/
inductive Instr where
  /-- HARD_RESET (R171). -/
  | hardReset
  /-- CONNECT_CHANGE (R25): the raw CONNECT input takes this level (true is high). -/
  | connectChange (high : Bool)
  /-- CONNECT_DEBOUNCED_RISE (R24, R25). -/
  | connectDebouncedRise
  /-- CONNECT_DEBOUNCED_FALL (R25). -/
  | connectDebouncedFall
  /-- LAMP_COMMAND_FRAME (R160): all data bytes. -/
  | lampCommandFrame (f : BusFrame)
  /-- UNKNOWN_REQUEST (R163): all data bytes; byte 0 is no request code. -/
  | unknownRequest (f : BusFrame)
  /-- IDENTIFY (R165), code 0x01. -/
  | identify (f : BusFrame)
  /-- ENTER_SETUP (R166), code 0x02. -/
  | enterSetup (f : BusFrame)
  /-- ENTER_RUN (R167), code 0x03. -/
  | enterRun (f : BusFrame)
  /-- WRITE_MAP_ROW (R5), code 0x10. -/
  | writeMapRow (f : BusFrame)
  /-- READ_MAP_ROW (R5), code 0x11. -/
  | readMapRow (f : BusFrame)
  /-- WRITE_PROFILE_A (R7), code 0x12. -/
  | writeProfileA (f : BusFrame)
  /-- WRITE_PROFILE_B (R7), code 0x13. -/
  | writeProfileB (f : BusFrame)
  /-- READ_PROFILE_A (R7), code 0x14. -/
  | readProfileA (f : BusFrame)
  /-- READ_PROFILE_B (R7), code 0x15. -/
  | readProfileB (f : BusFrame)
  /-- WRITE_SETTING (R9), code 0x16. -/
  | writeSetting (f : BusFrame)
  /-- READ_SETTING (R9), code 0x17. -/
  | readSetting (f : BusFrame)
  /-- COMMIT (R169), code 0x04. -/
  | commit (f : BusFrame)
  /-- COMMIT_COMPLETE (R170). -/
  | commitComplete
  /-- RESTART (R172), code 0x05. -/
  | restart (f : BusFrame)
  /-- RESTART_CHAIN (R173), code 0x06. -/
  | restartChain (f : BusFrame)
  /-- READ_POSITION (R165), code 0x20. -/
  | readPosition (f : BusFrame)
  /-- READ_CIRCUIT (R165), code 0x21. -/
  | readCircuit (f : BusFrame)
  /-- READ_FAULT (R158), code 0x22. -/
  | readFault (f : BusFrame)
  /-- CLEAR_HEALED (R157), code 0x23. -/
  | clearHealed (f : BusFrame)
  /-- SNAPSHOT_COUNTERS (R52), code 0x24. -/
  | snapshotCounters (f : BusFrame)
  /-- READ_SNAPSHOT (R52), code 0x25. -/
  | readSnapshot (f : BusFrame)
  /-- FULL_CHECK (R125), code 0x26. -/
  | fullCheck (f : BusFrame)
  /-- FORGET_BASELINES (R106), code 0x27. -/
  | forgetBaselines (f : BusFrame)
  /-- FORGET_HISTORY (R113), code 0x28. -/
  | forgetHistory (f : BusFrame)
  /-- FRAME_CARRIED (R159). -/
  | frameCarried
  /-- TELLTALE_SPACING_EXPIRY (R150). -/
  | telltaleSpacingExpiry
  /-- TELLTALE_PERIOD_EXPIRY (R151). -/
  | telltalePeriodExpiry
  /-- COMMAND_SILENCE_EXPIRY (R149). -/
  | commandSilenceExpiry
  /-- OPERATING_SECOND (R142). -/
  | operatingSecond
  /-- POLL_DUE (R60). -/
  | pollDue
  /-- CHECK_BUDGET_READY (R121). -/
  | checkBudgetReady
  /-- DOWNSTREAM_TELEGRAM_DONE (R39): whether a module begins an answer at the moment the line falls idle (R18). -/
  | downstreamTelegramDone (answerBegins : Bool)
  /-- REPORT (R47): a telegram of kind 0x21 ends; whether another answer begins at that moment (R18). -/
  | report (t : UpTelegram) (answerBegins : Bool)
  /-- IDENT (R48): a telegram of kind 0x22 ends; whether another answer begins at that moment (R18). -/
  | ident (t : UpTelegram) (answerBegins : Bool)
  /-- ENUM_TIMEOUT (R26) of a position's attempt. -/
  | enumTimeout (p : Pos)
  /-- QUERY_WINDOW_END (R32) of a position. -/
  | queryWindowEnd (p : Pos)
  /-- LOSS_INTERVAL_EXPIRY (R30) of a position. -/
  | lossIntervalExpiry (p : Pos)
  /-- ABSENCE_INTERVAL_EXPIRY (R32) of a position. -/
  | absenceIntervalExpiry (p : Pos)
  /-- DEADLINE (R67) of the entry with this tag. -/
  | deadline (tag : Nat)
  /-- LINK_ERROR_INTERVAL_END (R49). -/
  | linkErrorIntervalEnd
  /-- BAD_UPSTREAM_TELEGRAM (R178): all bytes received; whether another answer begins at that moment (R18). -/
  | badUpstreamTelegram (bytes : List Byte) (answerBegins : Bool)
deriving DecidableEq, Repr

end Sys2Proof
end

