-- ==== Sys2Proof/Config.lean ====
section
/-! DEFINITION. What the part fixes for good: the quantities of R12, the codes of R165, and the one value the manual
leaves to the device, its revision, which has no body here. -/

namespace Sys2Proof.Config

/-- The device revision, 0 to 255 (R165). The manual gives no value, so none can be proved of it. DESIGN CHOICE, log
entry 1: a free value. -/
opaque deviceRevision : Byte

/-- Vendor code (R165). -/
def vendorCode : Nat := 0x2E61
/-- Part code (R165). -/
def partCode : Nat := 0x0640

/-- CHECK telegrams per position within one check window (R12). -/
def checkBudget : Nat := 4
/-- Live CHECK entries per position (R12). -/
def liveChecksPerPos : Nat := 2
/-- Enumeration and QUERY answer timeout in ms (R12, R32). -/
def enumTimeoutMs : Nat := 20
/-- Enumeration attempts (R12). -/
def enumAttempts : Nat := 3
/-- Answer slot per position in ms (R12). -/
def answerSlotMs : Nat := 4
/-- Deadline margin in ms (R12). -/
def deadlineMarginMs : Nat := 20
/-- Link error interval in ms (R12). -/
def linkIntervalMs : Nat := 10000
/-- CONNECT debounce in ms (R12). -/
def debounceMs : Nat := 100
/-- Expectation Queue capacity (R12). -/
def queueCapacity : Nat := 16
/-- A POLL or CHECK is allocated only while fewer than this many are live (R12, R61). -/
def pollCheckLimit : Nat := 12
/-- Minimum telltale spacing in ms (R12). -/
def spacingMs : Nat := 50
/-- History Cache capacity (R12). -/
def cacheCapacity : Nat := 8
/-- Fault list capacity (R12). -/
def faultCapacity : Nat := 32
/-- The longest a COMMIT takes, in ms (R12, R169). -/
def commitMs : Nat := 300
/-- The tag of the untracked SET, of liveness POLLs, ENUMs and QUERYs (R18, R53). -/
def untrackedTag : Nat := 255
/-- The bound of the link and event counters (R51). -/
def counterMax : Nat := 65535
/-- The bound of the operating-second count (R142). -/
def secondMax : Nat := 4294967295

end Sys2Proof.Config
end

