-- ==== Sys2Proof/Machine/State.lean ====
section
/-! DEFINITION. The state of the T640, block by block as section 2.1 of the front matter lists the blocks, all plain
data; the reasons a command can stop (none does); and the state right after a hard reset. -/

namespace Sys2Proof.Machine

/-! ### Map Tables (chapter 1) -/

/-- One row of the circuit map (R2); `none` is UNUSED. -/
structure MapRow where
  function    : Option Fn
  profile     : ProfileNo
  checkEnable : Bool
  critical    : Bool
deriving DecidableEq, Repr

/-- The defaults of R2. -/
def MapRow.default : MapRow := ⟨none, 0, false, false⟩

/-- One profile (R6), with the symbols n, vn, s, Is, Il of half A and Lo, Lp, Uo, settle, K, pulse, learn of half B. -/
structure Profile where
  nominalCurrent : Nat
  nominalVoltage : Nat
  slope          : Nat
  shortCurrent   : Nat
  leakCurrent    : Nat
  openLimit      : Nat
  partialLimit   : Nat
  overloadLimit  : Nat
  settle         : Nat
  confirmCount   : Nat
  checkPulse     : Nat
  learn          : Bool
deriving DecidableEq, Repr

/-- The defaults of R6. -/
def Profile.default : Profile := ⟨500, 240, 9, 3000, 40, 20, 70, 140, 60, 2, 0, true⟩

/-- The fourteen settings (R8), in the order of their numbers, in the units of R8. -/
structure Settings where
  pollPeriod      : Nat
  lossInterval    : Nat
  absenceInterval : Nat
  darkDwell       : Nat
  checkInterval   : Nat
  checkWindow     : Nat
  supplyFloor     : Nat
  linkThreshold   : Nat
  commandSilence  : Nat
  telltalePeriod  : Nat
  commandId       : Nat
  telltaleId      : Nat
  requestId       : Nat
  responseId      : Nat
deriving DecidableEq, Repr

/-- The defaults of R8. -/
def Settings.default : Settings := ⟨250, 300, 5, 1000, 10, 50, 180, 12, 1000, 500, 0x3A0, 0x3A8, 0x3B0, 0x3B8⟩

/-- What the Settings Store holds and the tables in use hold alike (R168): 72 rows, 8 profiles, 14 settings. -/
structure Tables where
  map      : Vector (Vector MapRow 12) 6
  profiles : Vector Profile 8
  settings : Settings
deriving DecidableEq, Repr

/-- The default tables (R2, R6, R8). -/
def Tables.default : Tables :=
  ⟨Vector.replicate 6 (Vector.replicate 12 MapRow.default), Vector.replicate 8 Profile.default, Settings.default⟩

/-- The operating mode (R13). -/
inductive Mode where
  | setup
  | run
deriving DecidableEq, Repr

/-- The Map Tables block: the tables in use, the mode, the 72 row and 8 profile touched marks (R14). -/
structure MapTables where
  tables         : Tables
  mode           : Mode
  rowTouched     : Vector (Vector Bool 12) 6
  profileTouched : Vector Bool 8
deriving DecidableEq, Repr

/-! ### Chain Master (chapter 2) -/

/-- The five position states (R24). -/
inductive PosState where
  | absent
  | probing
  | active
  | lost
  | passive
deriving DecidableEq, Repr

/-- The three counters of a place in the chain (R51). -/
structure PosCounters where
  linkErrorsTotal : Nat
  missedAnswers   : Nat
  superseded      : Nat
deriving DecidableEq, Repr

/-- A position record (R23), with the position's part of the enumeration state: the timeout of an outstanding ENUM
(R26) and the end of an outstanding QUERY's awaiting window (R32). -/
structure Position where
  state          : PosState
  identity       : Option Identity
  circuitCount   : Option Nat
  downstreamLoad : Bool
  lastHeard      : Option Time
  lostSince      : Option Time
  probeAttempts  : Nat
  supplyLow      : Bool
  feedLost       : Bool
  linkDegraded   : Bool
  identityClash  : Bool
  linkErrors     : Nat
  counters       : PosCounters
  enumTimeout    : Option Time
  queryUntil     : Option Time
deriving DecidableEq, Repr

/-- Three zero counters. -/
def PosCounters.zero : PosCounters := ⟨0, 0, 0⟩

/-- The ABSENT values of R23, over the three counters the place keeps. -/
def Position.absent (k : PosCounters) : Position :=
  ⟨.absent, none, none, false, none, none, 0, false, false, false, false, 0, k, none, none⟩

/-- The six chain-wide counters (R51). -/
structure ChainCounters where
  badTelegrams     : Nat
  staleReports     : Nat
  untrackedChanges : Nat
  skippedPolls     : Nat
  droppedRequests  : Nat
  malformedFrames  : Nat
deriving DecidableEq, Repr

/-- Six zero counters. -/
def ChainCounters.zero : ChainCounters := ⟨0, 0, 0, 0, 0, 0⟩

/-- The counter snapshot: a copy of all 24 counters (R52). -/
structure Snapshot where
  positions : Vector PosCounters 6
  chain     : ChainCounters
deriving DecidableEq, Repr

/-- A request of the enumeration state for the transmitter (R39, step 2). -/
inductive LinkRequest where
  | enum (p : Pos)
  | query (p : Pos)
deriving DecidableEq, Repr

/-- A downstream telegram (R18, R177) by its fields. -/
inductive Downstream where
  | set (tag delay : Nat) (masks : Vector (BitVec 12) 6)
  | poll (tag : Nat)
  | check (tag : Nat) (p : Pos) (c : Circ) (pulse : Nat)
  | enum (p : Pos)
  | query (p : Pos)
deriving DecidableEq, Repr

/-- What the half-duplex chain port is doing (R18): free, sending a downstream telegram, or receiving an answer. -/
inductive Line where
  | free
  | sending (t : Downstream)
  | receiving
deriving DecidableEq, Repr

/-- The Chain Master block. `changeTimes` is the change-time vector, `none` standing for settled (R38); `linkRequests`
holds the pending ENUM and QUERYs in the order they became pending (R39); `linkIntervalEnd` is the end of the running
link error interval (R49). CONNECT's raw level, the time it took that level, and its debounced level stand here (R25). -/
structure Chain where
  positions        : Vector Position 6
  transmitted      : Image
  changeTimes      : Vector (Option Time) 10
  linkRequests     : List LinkRequest
  livenessPoll     : Bool
  line             : Line
  connectRaw       : Bool
  connectSince     : Time
  connectDebounced : Bool
  linkIntervalEnd  : Time
  counters         : ChainCounters
  snapshot         : Snapshot
deriving DecidableEq, Repr

/-! ### Expectation Queue (chapter 3) -/

/-- The kind of an entry (R54). -/
inductive EntryKind where
  | change
  | resync
  | poll
  | check
deriving DecidableEq, Repr

/-- The state of an entry (R56). -/
inductive EntryState where
  | waiting
  | pending
  | complete
  | expired
deriving DecidableEq, Repr

/-- A reading of a REPORT as it arrived: the circuit number byte, the current in mA, the protected flag (R21, R55). -/
structure Reading where
  circuit : Nat
  current : Nat
  prot    : Bool
deriving DecidableEq, Repr

/-- An answer kept by an entry for one position (R55). -/
structure Answer where
  pos        : Pos
  supply     : Nat
  superseded : Bool
  readings   : List Reading
deriving DecidableEq, Repr

/-- The target of a CHECK entry (R54). -/
structure CheckTarget where
  pos   : Pos
  circ  : Circ
  pulse : Nat
deriving DecidableEq, Repr

/-- The fields an entry takes at its transmission (R41, R42, R54), present together; `overtaken` is the fact of R64
fixed then. -/
structure Transmission where
  time        : Time
  delay       : Nat
  deadline    : Time
  changeTimes : Vector (Option Time) 10
  generation  : Nat
  overtaken   : Bool
deriving DecidableEq, Repr

/-- One entry of the Expectation Queue (R54). `changed` is empty but for a CHANGE; `target` is present for a CHECK. -/
structure Entry where
  tag      : Nat
  kind     : EntryKind
  state    : EntryState
  image    : Option Image
  changed  : FnSet
  target   : Option CheckTarget
  tx       : Option Transmission
  required : PosSet
  answered : PosSet
  answers  : List Answer
deriving DecidableEq, Repr

/-- The Expectation Queue block: the live entries, oldest first (R53), the tag counter, the untracked slot and
generation (R62), and the last poll due time the schedule of R60 counts from. -/
structure Queue where
  entries    : List Entry
  tagCounter : Nat
  slot       : Option Image
  generation : Nat
  lastPoll   : Time
deriving DecidableEq, Repr

/-! ### The per-circuit records (chapters 4 to 7) -/

/-- The verdicts (R90 to R92). -/
inductive Verdict where
  | good
  | partialDraw
  | openCircuit
  | overload
  | short
  | stuckOn
  | darkOk
  | present
deriving DecidableEq, Repr

/-- A circuit's last reading (R95). -/
structure LastReading where
  current         : Nat
  supply          : Nat
  expected        : Nat
  ratio           : Nat
  verdict         : Verdict
  againstBaseline : Bool
  withdrawn       : Bool
  kind            : EntryKind
deriving DecidableEq, Repr

/-- A baseline record (R100). -/
inductive Baseline where
  | none
  | learning (count currentSum voltageSum : Nat)
  | learned (current voltage : Nat)
deriving DecidableEq, Repr

/-- The condition of a circuit (R127). -/
inductive Condition where
  | unknown
  | sound
  | degraded
  | failedOpen
  | overloaded
  | shorted
  | stuckOn
deriving DecidableEq, Repr

/-- The records kept side by side for one circuit: reconciliation (R79), baseline (R100), condition (R127), and the
last-check time and due mark of the Check Scheduler (R114). -/
structure Circuit where
  candidate : Option Verdict
  agreement : Nat
  last      : Option LastReading
  baseline  : Baseline
  condition : Condition
  lastCheck : Option Time
  due       : Bool
deriving DecidableEq, Repr

/-- The records of a circuit after a hard reset (R79, R100, R114, R127). -/
def Circuit.clear : Circuit := ⟨none, 0, none, .none, .unknown, none, false⟩

/-! ### History Cache (chapter 5) -/

/-- A filled slot of a cache entry (R107). -/
structure Slot where
  profile : ProfileNo
  current : Nat
  voltage : Nat
deriving DecidableEq, Repr

/-- An entry of the History Cache (R107). -/
structure CacheEntry where
  identity : Identity
  slots    : Vector (Option Slot) 12
deriving DecidableEq, Repr

/-! ### Check Scheduler (chapter 6) -/

/-- The part of the Check Scheduler that is not per circuit (R114). -/
structure Checks where
  times       : Vector (List Time) 6
  lastServed  : Option Pos
  budgetStart : Time
deriving DecidableEq, Repr

/-! ### Image Builder (chapter 8) -/

/-- A function's telltale state (R145). -/
inductive FnState where
  | absent
  | off
  | onOk
  | degraded
  | fault
  | unverified
deriving DecidableEq, Repr

/-- The summary (R146). -/
inductive Summary where
  | none
  | amber
  | red
deriving DecidableEq, Repr

/-- The telltale image (R150). -/
structure Telltale where
  functions    : Vector FnState 10
  positions    : Vector PosState 6
  linkDegraded : Vector Bool 6
  summary      : Summary
  commandStale : Bool
  overflow     : Bool
  activeFaults : Nat
deriving DecidableEq, Repr

/-- The fault kinds (R130, R152). -/
inductive FaultKind where
  | openCircuit
  | partialDraw
  | overload
  | short
  | stuckOn
  | feedLoss
  | linkDegraded
  | identityClash
deriving DecidableEq, Repr

/-- The key that names a fault (R152); a position-level kind has no circuit. -/
structure FaultKey where
  pos  : Pos
  circ : Option Circ
  kind : FaultKind
deriving DecidableEq, Repr

/-- An entry of the fault list (R152). -/
structure FaultEntry where
  sequence  : Nat
  key       : FaultKey
  firstSeen : Nat
  count     : Nat
  active    : Bool
deriving DecidableEq, Repr

/-- The Image Builder block (R142). `secondDue` is the end of the running operating second; `lastFrame` and
`framePending` are the frame schedule. -/
structure ImageBuilder where
  retired      : Image
  untracked    : FnSet
  telltale     : Telltale
  lampAlert    : Bool
  faults       : List FaultEntry
  overflow     : Bool
  sequence     : Nat
  opSeconds    : Nat
  secondDue    : Time
  lastFrame    : Option Time
  framePending : Bool
  commandStale : Bool
deriving DecidableEq, Repr

/-! ### Tractor Port (chapter 9) -/

/-- What a frame in the transmit list is: a telltale frame, the response to the request in the buffer, or the response
a COMMIT's completion hands (R170), which empties no buffer. -/
inductive TxKind where
  | telltale
  | response
  | commitResponse
deriving DecidableEq, Repr

/-- A frame handed to the Tractor Port for sending (R159). -/
structure TxFrame where
  kind  : TxKind
  ident : CanId
  data  : List Byte
deriving DecidableEq, Repr

/-- The Tractor Port block: the commanded image (R161), the time of the last command frame (R149), the request buffer
(R162), the transmit list, oldest first (R159), and the identifiers on which frames are taken at this moment (R11). -/
structure Port where
  commanded   : Image
  lastCommand : Time
  request     : Option (List Byte)
  transmit    : List TxFrame
  commandId   : CanId
  requestId   : CanId
deriving DecidableEq, Repr

/-! ### Settings Store (chapter 9) -/

/-- A commit in progress (R169): when it began and the contents taken for writing. -/
structure Commit where
  start    : Time
  contents : Tables
deriving DecidableEq, Repr

/-- The Settings Store: its contents, whether its checksum agrees with them (R168), the store-invalid flag, and the
commit in progress, whose presence is the commit-in-progress flag (R169). -/
structure Store where
  contents    : Tables
  valid       : Bool
  invalidFlag : Bool
  commit      : Option Commit
deriving DecidableEq, Repr

/-! ### The whole machine -/

/-- The state of the T640, with the model's own inputs: the queue of waiting commands, first in first out, and what the
chain line brings in the milliseconds to come (log entry 7). -/
structure State where
  now      : Time
  tables   : MapTables
  chain    : Chain
  queue    : Queue
  circuits : Vector (Vector Circuit 12) 6
  cache    : List CacheEntry
  checks   : Checks
  image    : ImageBuilder
  port     : Port
  store    : Store
  /-- Whether an answer begins on a line that is idle, one place for each millisecond to come (R18); none past its end. -/
  arrivals : List Bool
  pending  : List Instr
deriving DecidableEq, Repr

/-- The reasons a command faults. The manual gives every event an effect, so there is none: no command faults (safe). -/
inductive Fault where
deriving DecidableEq, Repr

/-- The reasons a command is refused. -/
inductive Refusal where
  /-- A row of the command table with no meaning in this model; no arm of `exec` raises it (safe). -/
  | notModelled (mnemonic : String)
deriving DecidableEq, Repr

/-- The telltale image a part in SETUP shows with nothing coupled (R145, R146). -/
def Telltale.initial : Telltale :=
  ⟨Vector.replicate 10 .unverified, Vector.replicate 6 .absent, Vector.replicate 6 false, .none, false, false, 0⟩

/-- The machine right after a hard reset whose Settings Store has never been written, with CONNECT low: every field at
its hard-reset value, the tables at their defaults, the mode SETUP, and the first telltale frame handed (R171, R151,
R175). The store's contents and CONNECT's level are no reset values of the manual; log entries 2 and 3 name them. -/
def State.reset : State where
  now := 0
  tables := ⟨Tables.default, .setup, Vector.replicate 6 (Vector.replicate 12 false), Vector.replicate 8 false⟩
  chain := {
    positions := Vector.replicate 6 (Position.absent PosCounters.zero)
    transmitted := 0
    changeTimes := Vector.replicate 10 none
    linkRequests := []
    livenessPoll := false
    line := .free
    connectRaw := false
    connectSince := 0
    connectDebounced := false
    linkIntervalEnd := 10000
    counters := ChainCounters.zero
    snapshot := ⟨Vector.replicate 6 PosCounters.zero, ChainCounters.zero⟩ }
  queue := ⟨[], 0, none, 0, 0⟩
  circuits := Vector.replicate 6 (Vector.replicate 12 Circuit.clear)
  cache := []
  checks := ⟨Vector.replicate 6 [], none, 0⟩
  image := {
    retired := 0
    untracked := 0
    telltale := Telltale.initial
    lampAlert := false
    faults := []
    overflow := false
    sequence := 0
    opSeconds := 0
    secondDue := 1000
    lastFrame := some 0
    framePending := false
    commandStale := false }
  port := {
    commanded := 0
    lastCommand := 0
    request := none
    transmit := [⟨.telltale, 0x3A8, [0x6D, 0xDB, 0xB6, 0x2D, 0, 0, 0, 0]⟩]
    commandId := 0x3A0
    requestId := 0x3B0 }
  store := ⟨Tables.default, false, true, none⟩
  arrivals := []
  pending := []

end Sys2Proof.Machine
end

