-- ==== Sys2Proof/Machine/Operands.lean ====
section
/-! DEFINITION. Message formats (chapter 10): how the fields of frames and telegrams are read from bytes and laid out
in bytes, the encodings of names, the CRC-16, and the tests of R178. Nothing here reads or changes the state. -/

namespace Sys2Proof.Machine

/-! ### Bytes and bit fields (R174) -/

/-- Byte `i` of a frame, 0 where the frame has none. -/
def byteAt (d : List Byte) (i : Nat) : Nat := (d.getD i 0).toNat

/-- Bits `lo` to `lo + width - 1` of a number. -/
def bitsAt (n lo width : Nat) : Nat := (n >>> lo) % 2 ^ width

/-- The number of `k` bytes of a frame from byte `i` on, low byte first (R174). -/
def numberAt (d : List Byte) (i : Nat) : Nat → Nat
  | 0 => 0
  | k + 1 => byteAt d i + 256 * numberAt d (i + 1) k

/-- The lowest `k` bytes of a number, low byte first (R174). -/
def leBytes : Nat → Nat → List Byte
  | 0, _ => []
  | k + 1, n => BitVec.ofNat 8 n :: leBytes k (n / 256)

/-- A flag at its bit place. -/
def flagBit (b : Bool) (place : Nat) : Nat := if b then 2 ^ place else 0

/-- A byte that numbers things from 1 to `k` (positions, circuits): 0 and what lies above `k` are out of range. -/
def indexOf (k n : Nat) : Option (Fin k) := if h : 1 ≤ n ∧ n ≤ k then some ⟨n - 1, by omega⟩ else none

/-- A byte that numbers profiles, 0 to 7. -/
def profileOf (n : Nat) : Option ProfileNo := if h : n < 8 then some ⟨n, h⟩ else none

/-- The function byte of a map row: 0 UNUSED, 1 to 10 F1 to F10, otherwise undefined (R176). -/
def functionOf (n : Nat) : Option (Option Fn) :=
  if n = 0 then some none else (indexOf 10 n).map some

/-- The function byte of a map row as a response carries it (R176). -/
def functionByte : Option Fn → Nat
  | none => 0
  | some f => f.val + 1

/-! ### Encodings of names (R175, R176) -/

def PosState.code : PosState → Nat
  | .absent => 0
  | .probing => 1
  | .active => 2
  | .lost => 3
  | .passive => 4

def FnState.code : FnState → Nat
  | .absent => 0
  | .off => 1
  | .onOk => 2
  | .degraded => 3
  | .fault => 4
  | .unverified => 5

def Summary.code : Summary → Nat
  | .none => 0
  | .amber => 1
  | .red => 2

def Condition.code : Condition → Nat
  | .unknown => 0
  | .sound => 1
  | .degraded => 2
  | .failedOpen => 3
  | .overloaded => 4
  | .shorted => 5
  | .stuckOn => 6

def Verdict.code : Verdict → Nat
  | .good => 1
  | .partialDraw => 2
  | .openCircuit => 3
  | .overload => 4
  | .short => 5
  | .stuckOn => 6
  | .darkOk => 7
  | .present => 8

def EntryKind.code : EntryKind → Nat
  | .change => 0
  | .resync => 1
  | .poll => 2
  | .check => 3

def FaultKind.code : FaultKind → Nat
  | .openCircuit => 1
  | .partialDraw => 2
  | .overload => 3
  | .short => 4
  | .stuckOn => 5
  | .feedLoss => 6
  | .linkDegraded => 7
  | .identityClash => 8

/-- The statuses of R163 with the codes of R176. -/
inductive Status where
  | ok
  | okClamped
  | refusedMode
  | badIndex
  | badValue
  | busy
  | inconsistent
deriving DecidableEq, Repr

def Status.code : Status → Nat
  | .ok => 0
  | .okClamped => 1
  | .refusedMode => 2
  | .badIndex => 3
  | .badValue => 4
  | .busy => 5
  | .inconsistent => 6

/-- What a request is answered with: a status and up to six field bytes (R163). -/
structure Reply where
  status : Status
  fields : List Byte
deriving DecidableEq, Repr

/-- An answer with a status alone. -/
def Reply.only (st : Status) : Reply := ⟨st, []⟩

/-- The eight bytes of a response: the request's code, the status, the fields, and zeros to the end (R176). -/
def Reply.bytes (code : Byte) (r : Reply) : List Byte :=
  (code :: BitVec.ofNat 8 r.status.code :: r.fields ++ List.replicate 6 0).take 8

/-! ### Lamp command and telltale frames (R175) -/

/-- The image of a lamp command frame of two bytes: F1 to F10 in its first ten places, the rest not read. -/
def lampImage (d : List Byte) : Image := BitVec.ofNat 10 (numberAt d 0 2)

/-- Fields of `width` bits laid side by side, the first lowest. -/
def sideBySide (width : Nat) : List Nat → Nat
  | [] => 0
  | n :: ns => n + 2 ^ width * sideBySide width ns

/-- The 64-bit number of a telltale frame (R175). -/
def Telltale.number (t : Telltale) : Nat :=
  sideBySide 3 (allFn.map fun f => t.functions[f].code)
    + 2 ^ 30 * sideBySide 3 (allPos.map fun p => t.positions[p].code)
    + 2 ^ 48 * sideBySide 1 (allPos.map fun p => t.linkDegraded[p].toNat)
    + 2 ^ 54 * t.summary.code
    + flagBit t.commandStale 56 + flagBit t.overflow 57 + 2 ^ 58 * t.activeFaults

/-- The eight bytes of a telltale frame. -/
def Telltale.bytes (t : Telltale) : List Byte := leBytes 8 t.number

/-! ### Profile halves (R176): one 48-bit number each -/

/-- Half A of a profile as one number, with a response's touched mark in bit 47. -/
def packHalfA (p : Profile) (touched : Bool) : Nat :=
  p.nominalCurrent + 2 ^ 12 * p.nominalVoltage + 2 ^ 21 * p.slope + 2 ^ 26 * p.shortCurrent + 2 ^ 38 * p.leakCurrent
    + flagBit touched 47

/-- Half B of a profile as one number, with a response's touched mark in bit 43. -/
def packHalfB (p : Profile) (touched : Bool) : Nat :=
  p.openLimit + 2 ^ 8 * p.partialLimit + 2 ^ 16 * p.overloadLimit + 2 ^ 25 * p.settle + 2 ^ 34 * p.confirmCount
    + 2 ^ 37 * p.checkPulse + flagBit p.learn 42 + flagBit touched 43

/-- Profile `p` with the fields of half A as a request's 48 bits give them, unclamped. -/
def rawHalfA (n : Nat) (p : Profile) : Profile :=
  { p with
    nominalCurrent := bitsAt n 0 12, nominalVoltage := bitsAt n 12 9, slope := bitsAt n 21 5,
    shortCurrent := bitsAt n 26 12, leakCurrent := bitsAt n 38 10 }

/-- Profile `p` with the fields of half B as a request's 48 bits give them, unclamped. -/
def rawHalfB (n : Nat) (p : Profile) : Profile :=
  { p with
    openLimit := bitsAt n 0 8, partialLimit := bitsAt n 8 8, overloadLimit := bitsAt n 16 9, settle := bitsAt n 25 9,
    confirmCount := bitsAt n 34 3, checkPulse := bitsAt n 37 5, learn := bitsAt n 42 1 == 1 }

/-! ### Chain telegrams (R177, R178) -/

/-- One bit of the CRC-16's shift register, generator x^16 + x^12 + x^5 + 1. -/
def crcShift (crc : BitVec 16) : BitVec 16 :=
  if crc.msb then (crc <<< 1) ^^^ 0x1021 else crc <<< 1

/-- `k` shifts of the register. -/
def crcShifts : Nat → BitVec 16 → BitVec 16
  | 0, crc => crc
  | k + 1, crc => crcShifts k (crcShift crc)

/-- The register after one more byte, its bits taken most significant first. -/
def crcByte (crc : BitVec 16) (b : Byte) : BitVec 16 := crcShifts 8 (crc ^^^ (b.zeroExtend 16 <<< 8))

/-- The CRC-16 of a header and payload, from 0xFFFF, without a final inversion (R177). -/
def crc16 (bytes : List Byte) : BitVec 16 := bytes.foldl crcByte 0xFFFF

/-- A CRC-16 as it stands at the end of a telegram, high byte first (R177). -/
def crcBytes (crc : BitVec 16) : List Byte := [(crc >>> 8).truncate 8, crc.truncate 8]

/-- The payload of an upstream telegram: the bytes its length byte calls for. -/
def telegramPayload (t : UpTelegram) : List Byte := t.rest.take t.length.toNat

/-- Tests 1 and 2 of R178 for a telegram of this kind: it is complete and its CRC agrees. -/
def telegramSound (kind : Byte) (t : UpTelegram) : Bool :=
  t.rest.length == t.length.toNat + 2 &&
    t.rest.drop t.length.toNat == crcBytes (crc16 (kind :: t.address :: t.tag :: t.length :: telegramPayload t))

/-- The fields of a REPORT that passed R178 (R21). -/
structure ReportFields where
  pos        : Pos
  tag        : Nat
  superseded : Bool
  load       : Bool
  farEnd     : Nat
  supply     : Nat
  readings   : List Reading
deriving DecidableEq, Repr

/-- The fields of an IDENT that passed R178 (R21). -/
structure IdentFields where
  pos      : Pos
  identity : Identity
  count    : Nat
  load     : Bool
  farEnd   : Nat
deriving DecidableEq, Repr

/-- The readings of a REPORT's payload after its first three bytes, three bytes each: circuit number, then the current
in bits 0 to 11 and the protected flag in bit 15 (R177). -/
def readingsOf : List Byte → List Reading
  | c :: lo :: hi :: more =>
    ⟨c.toNat, bitsAt (lo.toNat + 256 * hi.toNat) 0 12, bitsAt hi.toNat 7 1 == 1⟩ :: readingsOf more
  | _ => []

/-- A REPORT telegram, or none when R178 finds it bad (tests 1, 2, 4 and 5; test 3 is the kind, 0x21). -/
def parseReport (t : UpTelegram) : Option ReportFields :=
  let len := t.length.toNat
  let d := telegramPayload t
  let supply := numberAt d 1 2
  if telegramSound 0x21 t then
    match indexOf 6 t.address.toNat with
    | some p =>
      if 3 ≤ len ∧ len % 3 = 0 ∧ len ≤ 39 ∧ supply ≤ 400 then
        some {
          pos := p, tag := t.tag.toNat, superseded := bitsAt (byteAt d 0) 0 1 == 1,
          load := bitsAt (byteAt d 0) 1 1 == 1, farEnd := bitsAt (byteAt d 0) 4 4, supply := supply,
          readings := readingsOf (d.drop 3) }
      else none
    | none => none
  else none

/-- An IDENT telegram, or none when R178 finds it bad (tests 1, 2, 4 and 6; test 3 is the kind, 0x22). -/
def parseIdent (t : UpTelegram) : Option IdentFields :=
  let d := telegramPayload t
  let count := byteAt d 4
  if telegramSound 0x22 t then
    match indexOf 6 t.address.toNat with
    | some p =>
      if t.length.toNat = 6 ∧ 1 ≤ count ∧ count ≤ 12 then
        some {
          pos := p, identity := BitVec.ofNat 32 (numberAt d 0 4), count := count,
          load := bitsAt (byteAt d 5) 1 1 == 1, farEnd := bitsAt (byteAt d 5) 4 4 }
      else none
    | none => none
  else none

/-- The bytes of a whole telegram with its header read off, or none when the header is cut short. -/
def splitHeader : List Byte → Option (Byte × UpTelegram)
  | kind :: address :: tag :: length :: rest => some (kind, ⟨address, tag, length, rest⟩)
  | _ => none

/-- Header, payload and CRC-16 of a telegram (R177). -/
def telegramBytes (kind address tag : Nat) (payload : List Byte) : List Byte :=
  let body := BitVec.ofNat 8 kind :: BitVec.ofNat 8 address :: BitVec.ofNat 8 tag :: BitVec.ofNat 8 payload.length
    :: payload
  body ++ crcBytes (crc16 body)

/-- A downstream telegram as the chain port carries it, with the addresses and tags of R18 (R177). -/
def Downstream.bytes : Downstream → List Byte
  | .set tag delay masks =>
    telegramBytes 0x11 0 tag (BitVec.ofNat 8 delay :: allPos.flatMap fun p => leBytes 2 masks[p].toNat)
  | .poll tag => telegramBytes 0x12 0 tag []
  | .check tag p c pulse => telegramBytes 0x13 (p.val + 1) tag [BitVec.ofNat 8 (c.val + 1), BitVec.ofNat 8 pulse]
  | .enum p => telegramBytes 0x14 (p.val + 1) Config.untrackedTag []
  | .query p => telegramBytes 0x15 (p.val + 1) Config.untrackedTag []

end Sys2Proof.Machine
end

