-- ==== Sys2Proof/Machine/Ops.lean ====
section
/-! DEFINITION. The named operations over the state that every family shares: reading and updating one position, one
circuit, one row; saturating counts; times lying in the past; the sets of functions and positions; fitted rows; mode and
table checks of chapter 1. -/

namespace Sys2Proof.Machine

/-! ### Fixed tables, counts and times -/

/-- Update place `i` of a fixed table. -/
def upd {α : Type} {n : Nat} (v : Vector α n) (i : Fin n) (f : α → α) : Vector α n := v.set i (f v[i])

/-- A fixed table with every place rewritten from its index and its old value. -/
def mapIdx {α : Type} {n : Nat} (v : Vector α n) (f : Fin n → α → α) : Vector α n := Vector.ofFn fun i => f i v[i]

/-- `n + k`, stopping at `bound` (Conventions, Numbers: saturating). -/
def satAdd (bound n k : Nat) : Nat := min bound (n + k)

/-- A counter of R51 after `k` more. -/
def bump (n k : Nat) : Nat := satAdd Config.counterMax n k

/-- The time `t` lies at least `interval` in the past. -/
def past (t interval now : Time) : Bool := t + interval ≤ now

/-- The first operation whose test holds is applied, else the state stands. -/
def State.when (s : State) (b : Bool) (f : State → State) : State := if b then f s else s

/-- Whether function `f` is in a set, or on in an image. -/
def on (i : BitVec 10) (f : Fn) : Bool := i.getLsbD f.val

/-- The functions whose state differs between two images. -/
def differing (a b : Image) : FnSet := a ^^^ b

/-- The set holding position `p` alone. -/
def posBit (p : Pos) : PosSet := 1#6 <<< p.val

/-- Whether a set holds position `p`. -/
def hasPos (ps : PosSet) (p : Pos) : Bool := ps.getLsbD p.val

/-- A set with position `p` put in. -/
def addPos (ps : PosSet) (p : Pos) : PosSet := ps ||| posBit p

/-- A set with position `p` taken out. -/
def dropPos (ps : PosSet) (p : Pos) : PosSet := ps &&& ~~~ (posBit p)

/-- How many positions a set holds. -/
def sizePos (ps : PosSet) : Nat := allPos.countP (hasPos ps)

/-- The positions meeting a test, as a set. -/
def posSetOf (test : Pos → Bool) : PosSet := allPos.foldl (fun ps p => if test p then addPos ps p else ps) 0

/-- The functions meeting a test, as a set. -/
def fnSetOf (test : Fn → Bool) : FnSet :=
  allFn.foldl (fun fs f => if test f then fs ||| (1#10 <<< f.val) else fs) 0

/-- The position before `p`, if `p` is not P1. -/
def prevPos (p : Pos) : Option Pos := if p.val = 0 then none else some ⟨p.val - 1, by omega⟩

/-- The position after `p`, if `p` is not P6. -/
def nextPos (p : Pos) : Option Pos := if h : p.val + 1 < 6 then some ⟨p.val + 1, h⟩ else none

/-! ### Reading the blocks -/

/-- The record of position `p` (R23). -/
def State.posAt (s : State) (p : Pos) : Position := s.chain.positions[p]

/-- The records of circuit `c` of position `p`. -/
def State.circAt (s : State) (p : Pos) (c : Circ) : Circuit := s.circuits[p][c]

/-- The circuit-map row of circuit `c` of position `p` (R2). -/
def State.rowAt (s : State) (p : Pos) (c : Circ) : MapRow := s.tables.tables.map[p][c]

/-- The profile the row of circuit `c` of position `p` names (R6). -/
def State.profileAt (s : State) (p : Pos) (c : Circ) : Profile := s.tables.tables.profiles[(s.rowAt p c).profile]

/-- The settings as held (R10). -/
def State.settings (s : State) : Settings := s.tables.tables.settings

/-- ACTIVE or LOST: the position states that hold an identity and a circuit count (R23). -/
def PosState.onChain : PosState → Bool
  | .active => true
  | .lost => true
  | _ => false

/-- Whether a position is ACTIVE. -/
def State.isActive (s : State) (p : Pos) : Bool := (s.posAt p).state == .active

/-- The positions ACTIVE at this moment. -/
def State.activeSet (s : State) : PosSet := posSetOf s.isActive

/-- A known circuit count reaches circuit `c`. -/
def countReaches (count : Option Nat) (c : Circ) : Bool :=
  match count with
  | some n => c.val + 1 ≤ n
  | none => false

/-- Whether the row of circuit `c` of position `p` is mapped and fitted (R3). -/
def State.fitted (s : State) (p : Pos) (c : Circ) : Bool :=
  (s.rowAt p c).function.isSome && countReaches (s.posAt p).circuitCount c

/-- The row's function is in the set or on in the image; an UNUSED row's is not. -/
def MapRow.onIn (r : MapRow) (i : BitVec 10) : Bool :=
  match r.function with
  | some f => on i f
  | none => false

/-! ### Updating the blocks -/

/-- Rewrite the record of position `p`. -/
def State.updPos (s : State) (p : Pos) (f : Position → Position) : State :=
  { s with chain := { s.chain with positions := upd s.chain.positions p f } }

/-- Rewrite the records of circuit `c` of position `p`. -/
def State.updCirc (s : State) (p : Pos) (c : Circ) (f : Circuit → Circuit) : State :=
  { s with circuits := upd s.circuits p fun cs => upd cs c f }

/-- Rewrite the records of the twelve circuits of position `p`. -/
def State.updCircs (s : State) (p : Pos) (f : Circ → Circuit → Circuit) : State :=
  { s with circuits := upd s.circuits p fun cs => mapIdx cs f }

/-- Rewrite the records of all 72 circuits. -/
def State.mapCircuits (s : State) (f : Pos → Circ → Circuit → Circuit) : State :=
  { s with circuits := mapIdx s.circuits fun p cs => mapIdx cs (f p) }

/-- Rewrite the Chain Master block. -/
def State.updChain (s : State) (f : Chain → Chain) : State := { s with chain := f s.chain }

/-- Rewrite the chain-wide counters (R51). -/
def State.updCounters (s : State) (f : ChainCounters → ChainCounters) : State :=
  s.updChain fun ch => { ch with counters := f ch.counters }

/-- Rewrite the Expectation Queue block. -/
def State.updQueue (s : State) (f : Queue → Queue) : State := { s with queue := f s.queue }

/-- Rewrite the Image Builder block. -/
def State.updImage (s : State) (f : ImageBuilder → ImageBuilder) : State := { s with image := f s.image }

/-- Rewrite the Tractor Port block. -/
def State.updPort (s : State) (f : Port → Port) : State := { s with port := f s.port }

/-- Rewrite the Map Tables block. -/
def State.updTables (s : State) (f : MapTables → MapTables) : State := { s with tables := f s.tables }

/-- Rewrite the Check Scheduler block. -/
def State.updChecks (s : State) (f : Checks → Checks) : State := { s with checks := f s.checks }

/-- Rewrite the Settings Store block. -/
def State.updStore (s : State) (f : Store → Store) : State := { s with store := f s.store }

/-! ### Ranges of the tables (R6, R8) and the consistency checks (R16) -/

/-- `n` replaced by the nearer bound when it lies outside `lo` to `hi`. -/
def clamp (lo hi n : Nat) : Nat := max lo (min hi n)

/-- Half A of a profile with each field clamped to its range (R6, R7). -/
def clampHalfA (p : Profile) : Profile :=
  { p with
    nominalCurrent := clamp 10 4000 p.nominalCurrent, nominalVoltage := clamp 100 300 p.nominalVoltage,
    slope := clamp 0 16 p.slope, shortCurrent := clamp 100 4095 p.shortCurrent, leakCurrent := clamp 5 500 p.leakCurrent }

/-- Half B of a profile with each numeric field clamped to its range (R6, R7). -/
def clampHalfB (p : Profile) : Profile :=
  { p with
    openLimit := clamp 5 50 p.openLimit, partialLimit := clamp 10 99 p.partialLimit,
    overloadLimit := clamp 101 250 p.overloadLimit, settle := clamp 2 250 p.settle,
    confirmCount := clamp 1 4 p.confirmCount, checkPulse := clamp 0 20 p.checkPulse }

/-- Every field of a profile lies in its range (R6). -/
def Profile.inRange (p : Profile) : Bool := clampHalfA (clampHalfB p) == p

/-- The check of R16 a profile fails first, numbered 1 to 3, if it fails one. -/
def Profile.failedCheck (p : Profile) : Option Nat :=
  if p.partialLimit ≤ p.openLimit then some 1
  else if p.shortCurrent ≤ p.nominalCurrent then some 2
  else if p.nominalCurrent ≤ p.leakCurrent then some 3
  else none

/-- The first profile that fails R16, with the check it fails: `(profile, check)`. -/
def firstInconsistent (ps : Vector Profile 8) : Option (Nat × Nat) :=
  ([0, 1, 2, 3, 4, 5, 6, 7] : List ProfileNo).findSome? fun i => ps[i].failedCheck.map fun k => (i.val, k)

/-- The mode a reset leaves over these tables (R13): RUN when the profiles pass R16. -/
def modeOver (t : Tables) : Mode := if (firstInconsistent t.profiles).isNone then .run else .setup

/-- The range of a setting by its number (R8); settings 11 to 14 are 11-bit identifiers. -/
def settingRange : Nat → Nat × Nat
  | 1 => (100, 1000)
  | 2 => (100, 2000)
  | 3 => (1, 30)
  | 4 => (200, 10000)
  | 5 => (1, 600)
  | 6 => (20, 200)
  | 7 => (80, 300)
  | 8 => (1, 255)
  | 9 => (200, 5000)
  | 10 => (100, 2000)
  | _ => (0, 0x7FF)

/-- The value held for a setting, by its number 1 to 14 (R8). -/
def Settings.read (t : Settings) : Nat → Nat
  | 1 => t.pollPeriod
  | 2 => t.lossInterval
  | 3 => t.absenceInterval
  | 4 => t.darkDwell
  | 5 => t.checkInterval
  | 6 => t.checkWindow
  | 7 => t.supplyFloor
  | 8 => t.linkThreshold
  | 9 => t.commandSilence
  | 10 => t.telltalePeriod
  | 11 => t.commandId
  | 12 => t.telltaleId
  | 13 => t.requestId
  | _ => t.responseId

/-- The settings with one value written, by its number 1 to 14 (R9). -/
def Settings.write (t : Settings) (i v : Nat) : Settings :=
  match i with
  | 1 => { t with pollPeriod := v }
  | 2 => { t with lossInterval := v }
  | 3 => { t with absenceInterval := v }
  | 4 => { t with darkDwell := v }
  | 5 => { t with checkInterval := v }
  | 6 => { t with checkWindow := v }
  | 7 => { t with supplyFloor := v }
  | 8 => { t with linkThreshold := v }
  | 9 => { t with commandSilence := v }
  | 10 => { t with telltalePeriod := v }
  | 11 => { t with commandId := v }
  | 12 => { t with telltaleId := v }
  | 13 => { t with requestId := v }
  | _ => { t with responseId := v }

/-- The identifier settings other than `i` (R9). -/
def otherIds (i : Nat) : List Nat := [11, 12, 13, 14].filter (· != i)

/-- An identifier setting as the 11 bits on the bus. -/
def canId (n : Nat) : CanId := BitVec.ofNat 11 n

end Sys2Proof.Machine
end

