-- ==== Sys2Proof/Machine/Flags.lean ====
section
/-! DEFINITION. The fault list (section 8.5) and the four position condition flags (section 7.5) with the adds, heals
and removals they hand to it, and the link error count that drives LINK_DEGRADED (section 2.11). -/

namespace Sys2Proof.Machine

/-! ### The fault list (R152 to R157) -/

/-- Whether the list holds an entry with this key. -/
def ImageBuilder.holds (ib : ImageBuilder) (k : FaultKey) : Bool := ib.faults.any (·.key == k)

/-- The count of active entries (R150). -/
def ImageBuilder.activeFaults (ib : ImageBuilder) : Nat := ib.faults.countP (·.active)

/-- A new entry at the end of the list, which takes its number from the sequence counter (R153). -/
def faultAppend (k : FaultKey) (ib : ImageBuilder) : ImageBuilder :=
  { ib with
    faults := ib.faults ++ [⟨ib.sequence, k, ib.opSeconds, 1, true⟩]
    sequence := (ib.sequence + 1) % 65536 }

/-- An add reaching a key's entry: a healed one becomes active and counts one more occurrence; an active one stands
(R153, R130). -/
def FaultEntry.reactivate (e : FaultEntry) : FaultEntry :=
  if e.active then e else { e with active := true, count := satAdd 255 e.count 1 }

/-- An add (R153, R154): reactivate the key's entry; else make a new one, evicting the oldest healed entry of a full
list; else set the overflow flag. -/
def faultAdd (k : FaultKey) (ib : ImageBuilder) : ImageBuilder :=
  if ib.holds k then
    { ib with faults := ib.faults.map fun e => if e.key == k then e.reactivate else e }
  else if ib.faults.length < Config.faultCapacity then faultAppend k ib
  else if ib.faults.any (!·.active) then
    faultAppend k { ib with faults := ib.faults.eraseP (!·.active) }
  else { ib with overflow := true }

/-- A heal (R155): the key's entry, if the list holds one, is healed. -/
def faultHeal (k : FaultKey) (ib : ImageBuilder) : ImageBuilder :=
  { ib with faults := ib.faults.map fun e => if e.key == k then { e with active := false } else e }

/-- A removal (R156): the position's entries leave the list; a list left empty clears the overflow flag. -/
def faultRemove (p : Pos) (ib : ImageBuilder) : ImageBuilder :=
  let kept := ib.faults.filter (·.key.pos != p)
  { ib with faults := kept, overflow := ib.overflow && !kept.isEmpty }

/-- An add handed to the fault list (R130). -/
def State.add (s : State) (k : FaultKey) : State := s.updImage (faultAdd k)

/-- A heal handed to the fault list (R130). -/
def State.heal (s : State) (k : FaultKey) : State := s.updImage (faultHeal k)

/-- A removal handed to the fault list (R130). -/
def State.removeFaults (s : State) (p : Pos) : State := s.updImage (faultRemove p)

/-- The key of a position-level fault. -/
def posFault (p : Pos) (kind : FaultKind) : FaultKey := ⟨p, none, kind⟩

/-- The fault kind of a condition, if the condition is faulted (R130). -/
def Condition.fault : Condition → Option FaultKind
  | .unknown => none
  | .sound => none
  | .degraded => some .partialDraw
  | .failedOpen => some .openCircuit
  | .overloaded => some .overload
  | .shorted => some .short
  | .stuckOn => some .stuckOn

/-- The four failed conditions (R127). -/
def Condition.failed : Condition → Bool
  | .failedOpen => true
  | .overloaded => true
  | .shorted => true
  | .stuckOn => true
  | _ => false

/-- The heal of a circuit's fault, handed when its condition was faulted (R129, R131, R133). -/
def State.healCondition (s : State) (p : Pos) (c : Circ) (old : Condition) : State :=
  match old.fault with
  | some k => s.heal ⟨p, some c, k⟩
  | none => s

/-- The add of a circuit's fault, handed when its new condition is faulted (R129). -/
def State.addCondition (s : State) (p : Pos) (c : Circ) (new : Condition) : State :=
  match new.fault with
  | some k => s.add ⟨p, some c, k⟩
  | none => s

/-! ### The position flags (R135 to R139) -/

/-- SUPPLY_LOW set or cleared by an answer's supply test (R136). -/
def State.setSupplyLow (s : State) (p : Pos) (low : Bool) : State := s.updPos p fun r => { r with supplyLow := low }

/-- FEED_LOST set, with its add when it was clear (R137). -/
def State.raiseFeedLost (s : State) (p : Pos) : State :=
  if (s.posAt p).feedLost then s
  else (s.updPos p fun r => { r with feedLost := true }).add (posFault p .feedLoss)

/-- FEED_LOST cleared, with its heal when it was set (R137). -/
def State.clearFeedLost (s : State) (p : Pos) : State :=
  if (s.posAt p).feedLost then (s.updPos p fun r => { r with feedLost := false }).heal (posFault p .feedLoss)
  else s

/-- LINK_DEGRADED set, with its add when it was clear (R138). -/
def State.raiseLinkDegraded (s : State) (p : Pos) : State :=
  if (s.posAt p).linkDegraded then s
  else (s.updPos p fun r => { r with linkDegraded := true }).add (posFault p .linkDegraded)

/-- LINK_DEGRADED cleared at an interval end, with its heal (R138). -/
def State.clearLinkDegraded (s : State) (p : Pos) : State :=
  (s.updPos p fun r => { r with linkDegraded := false }).heal (posFault p .linkDegraded)

/-- Whether another ACTIVE or LOST position holds this identity (R28). -/
def State.heldElsewhere (s : State) (p : Pos) (i : Identity) : Bool :=
  allPos.any fun q => q != p && (s.posAt q).state.onChain && (s.posAt q).identity == some i

/-- One position's IDENTITY_CLASH mark re-evaluated when `i` has left the chain elsewhere: it clears, with its heal, when
the position holds `i` and no other ACTIVE or LOST position does any more (R28, R139). -/
def State.reviewClash (i : Identity) (s : State) (p : Pos) : State :=
  if (s.posAt p).identityClash && (s.posAt p).identity == some i && !s.heldElsewhere p i then
    (s.updPos p fun r => { r with identityClash := false }).heal (posFault p .identityClash)
  else s

/-- The marks of the positions that hold `i`, in ascending order (R139). -/
def State.reviewClashes (s : State) (i : Option Identity) : State :=
  match i with
  | some i => allPos.foldl (State.reviewClash i) s
  | none => s

/-! ### Link errors (R49) -/

/-- `n` more on the link error count of the current interval; LINK_DEGRADED sets when that takes it above the
threshold held now (R49, R10). A count that does not change sets nothing. -/
def State.addLinkErrors (s : State) (p : Pos) (n : Nat) : State :=
  let s1 := s.updPos p fun r => { r with linkErrors := bump r.linkErrors n }
  if n ≠ 0 ∧ s.settings.linkThreshold < (s1.posAt p).linkErrors then s1.raiseLinkDegraded p else s1

/-- A far-end error count: added to the link errors total and to the link error count (R49). -/
def State.addFarEnd (s : State) (p : Pos) (n : Nat) : State :=
  (s.updPos p fun r =>
    { r with counters := { r.counters with linkErrorsTotal := bump r.counters.linkErrorsTotal n } }).addLinkErrors p n

/-- A missed answer: the counter and the link error count each rise by 1 (R50). -/
def State.addMissed (s : State) (p : Pos) : State :=
  (s.updPos p fun r =>
    { r with counters := { r.counters with missedAnswers := bump r.counters.missedAnswers 1 } }).addLinkErrors p 1

/-- One position's part of a link error interval's end (R49). -/
def State.endLinkInterval (s : State) (p : Pos) : State :=
  let s1 :=
    if (s.posAt p).linkDegraded && decide ((s.posAt p).linkErrors ≤ s.settings.linkThreshold / 2) then
      s.clearLinkDegraded p
    else s
  s1.updPos p fun r => { r with linkErrors := 0 }

end Sys2Proof.Machine
end

