-- ==== Sys2Proof/Machine/Telltale.lean ====
section
/-! DEFINITION. The Image Builder's telltale image, LAMP_ALERT and telltale frames (sections 8.2 to 8.4). -/

namespace Sys2Proof.Machine

/-! ### Composition (R143 to R149) -/

/-- Whether the row of circuit `c` of position `p` maps function `f`. -/
def State.maps (s : State) (f : Fn) (p : Pos) (c : Circ) : Bool := (s.rowAt p c).function == some f

/-- Some circuit of the considered set of `f` meets a test on its condition: a circuit whose row maps `f`, at an ACTIVE or
LOST position, fitted or not (R144). -/
def State.considered (s : State) (f : Fn) (test : Condition → Bool) : Bool :=
  allPos.any fun p => (s.posAt p).state.onChain && allCirc.any fun c => s.maps f p c && test (s.circAt p c).condition

/-- Some serving position of `f` meets a test: a position, in any state, with a row that maps `f` (R144). -/
def State.serving (s : State) (f : Fn) (test : Position → Bool) : Bool :=
  allPos.any fun p => allCirc.any (s.maps f p) && test (s.posAt p)

/-- A function's telltale state: the first of the seven tests of R145 that holds. Faults come ahead of doubt there, at a LOST
position and at one with SUPPLY_LOW or FEED_LOST too. -/
def State.fnState (s : State) (f : Fn) : FnState :=
  if s.tables.mode == .setup then .unverified
  else if s.considered f Condition.failed then .fault
  else if s.considered f (· == .degraded) then .degraded
  else if on s.image.untracked f
      || s.serving f (fun r => r.state == .lost || r.state == .passive)
      || s.serving f (fun r => r.supplyLow || r.feedLost)
      || (on s.image.retired f && s.considered f (· == .unknown)) then .unverified
  else if !s.considered f (fun _ => true) && !s.serving f (fun r => r.state == .passive) then .absent
  else if on s.image.retired f then .onOk
  else .off

/-- Some circuit at an ACTIVE or LOST position, whose row meets a test, is in a condition that meets another (R146). -/
def State.anyMapped (s : State) (row : MapRow → Bool) (test : Condition → Bool) : Bool :=
  allPos.any fun p => (s.posAt p).state.onChain &&
    allCirc.any fun c => (s.rowAt p c).function.isSome && row (s.rowAt p c) && test (s.circAt p c).condition

/-- The summary (R146). -/
def State.summary (s : State) : Summary :=
  if s.anyMapped MapRow.critical Condition.failed || allPos.any (fun p => (s.posAt p).feedLost) then .red
  else if s.anyMapped (fun _ => true) (fun k => k.fault.isSome)
      || allPos.any (fun p => (s.posAt p).linkDegraded || (s.posAt p).identityClash) then .amber
  else .none

/-- The telltale image composed from its inputs as they stand (R143, R148, R150). -/
def State.compose (s : State) : Telltale where
  functions := Vector.ofFn s.fnState
  positions := Vector.ofFn fun p => (s.posAt p).state
  linkDegraded := Vector.ofFn fun p => (s.posAt p).linkDegraded
  summary := s.summary
  commandStale := s.image.commandStale
  overflow := s.image.overflow
  activeFaults := s.image.activeFaults

/-! ### Frames (R150, R151, R159) -/

/-- A frame joins the transmit list; a telltale frame takes the place of one still waiting (R159). -/
def handTo (fr : TxFrame) (list : List TxFrame) : List TxFrame :=
  if fr.kind == .telltale && list.any (·.kind == .telltale) then
    list.map fun g => if g.kind == .telltale then fr else g
  else list ++ [fr]

/-- A telltale frame is handed, with the image as it stands, on the telltale identifier held now; its time is now and the
pending mark clears (R150). -/
def State.handTelltale (s : State) : State :=
  let fr : TxFrame := ⟨.telltale, canId s.settings.telltaleId, s.image.telltale.bytes⟩
  let s1 := s.updPort fun po => { po with transmit := handTo fr po.transmit }
  s1.updImage fun ib => { ib with lastFrame := some s.now, framePending := false }

/-- Whether the spacing of R150 lets a frame go now. -/
def State.frameMayGo (s : State) : Bool :=
  match s.image.lastFrame with
  | some t => past t Config.spacingMs s.now
  | none => true

/-- The end of every event that changes an input of the telltale image: one composition from the inputs as they then
stand (R143); LAMP_ALERT follows the summary (R147); a changed image sets the pending mark, and the frame goes now
when the spacing allows (R150). -/
def State.recompose (s : State) : State :=
  let img := s.compose
  let s1 := s.updImage fun ib => { ib with telltale := img, lampAlert := img.summary == .red }
  if img == s.image.telltale then s1
  else
    let s2 := s1.updImage fun ib => { ib with framePending := true }
    if s2.frameMayGo then s2.handTelltale else s2

/-- TELLTALE_SPACING_EXPIRY (R150): with the pending mark set and the last frame 50 ms in the past, a frame goes. -/
def State.spacingExpiry (s : State) : State :=
  if s.image.framePending && s.frameMayGo then s.handTelltale else s

/-- Whether the last frame lies the telltale period in the past (R151). -/
def State.periodOver (s : State) : Bool :=
  match s.image.lastFrame with
  | some t => past t s.settings.telltalePeriod s.now
  | none => false

/-- TELLTALE_PERIOD_EXPIRY (R151): a frame goes, whether or not the image has changed. -/
def State.periodExpiry (s : State) : State := if s.periodOver then s.handTelltale else s

/-- Whether the command stale bit is due to set (R149). -/
def State.silenceOver (s : State) : Bool :=
  !s.image.commandStale && past s.port.lastCommand s.settings.commandSilence s.now

/-- COMMAND_SILENCE_EXPIRY (R149): the command stale bit sets. The caller recomposes the image. -/
def State.silenceExpiry (s : State) : State :=
  if s.silenceOver then s.updImage fun ib => { ib with commandStale := true } else s

/-- Whether an operating second ends (R142). -/
def State.secondOver (s : State) : Bool := decide (s.image.secondDue ≤ s.now)

/-- OPERATING_SECOND (R142): the count rises by 1 and stops at its maximum. -/
def State.secondEnd (s : State) : State :=
  if s.secondOver then
    s.updImage fun ib =>
      { ib with opSeconds := satAdd Config.secondMax ib.opSeconds 1, secondDue := ib.secondDue + 1000 }
  else s

end Sys2Proof.Machine
end

