-- ==== Sys2Proof/Machine/Baselines.lean ====
section
/-! DEFINITION. The Baseline Unit and the History Cache (chapter 5). -/

namespace Sys2Proof.Machine

/-! ### Learning (R101 to R104) -/

/-- A handed reading's first step: a NONE record begins LEARNING with nothing in its sums (R101). -/
def Baseline.begin : Baseline → Baseline
  | .none => .learning 0 0 0
  | b => b

/-- A sample: a GOOD reading added to a LEARNING record, the fourth completing it (R102, R103). -/
def Baseline.sample (m v : Nat) : Baseline → Baseline
  | .learning n sm sv =>
    if n + 1 = 4 then .learned ((sm + m + 2) / 4) ((sv + v + 2) / 4) else .learning (n + 1) (sm + m) (sv + v)
  | b => b

/-- A reading handed to the Baseline Unit (R96, R101, R102, R104): a LEARNED record takes no step; another begins to learn,
and a GOOD reading judged against nominal is a sample. -/
def Baseline.take (m v : Nat) (verdict : Verdict) (againstBaseline : Bool) (b : Baseline) : Baseline :=
  if verdict == .good && !againstBaseline then b.begin.sample m v else b.begin

/-! ### The History Cache (R107 to R113) -/

/-- The cache's other entries, in their order. -/
def cacheWithout (i : Identity) (cache : List CacheEntry) : List CacheEntry := cache.filter (·.identity != i)

/-- Slot `c` restored to circuit `c` of position `p`, when R109 lets it be: the row mapped and fitted, the profile number
equal, and the profile learning. -/
def State.restoreSlot (s : State) (p : Pos) (slots : Vector (Option Slot) 12) (c : Circ) (k : Circuit) : Circuit :=
  match slots[c] with
  | some sl =>
    if s.fitted p c && (s.rowAt p c).profile == sl.profile && (s.profileAt p c).learn then
      { k with baseline := .learned sl.current sl.voltage }
    else k
  | none => k

/-- The lookup of an accepted identity (R108): a hit restores the slots R109 allows and moves the entry to the front; a
miss changes nothing. -/
def State.lookup (s : State) (p : Pos) (i : Identity) : State :=
  match s.cache.find? (·.identity == i) with
  | some e =>
    let s1 := s.updCircs p (s.restoreSlot p e.slots)
    { s1 with cache := e :: cacheWithout i s.cache }
  | none => s

/-- The slot a circuit's record forms at a write-back: filled when the record is LEARNED (R110). -/
def State.slotOf (s : State) (p : Pos) (c : Circ) : Option Slot :=
  match (s.circAt p c).baseline with
  | .learned b vb => some ⟨(s.rowAt p c).profile, b, vb⟩
  | _ => none

/-- The slots placed in the cache under an identity (R111): an entry of that identity is replaced and moves to the front;
else a new entry is made at the front when a slot is filled, the least recent leaving a full cache. -/
def placeSlots (i : Identity) (slots : Vector (Option Slot) 12) (cache : List CacheEntry) : List CacheEntry :=
  if cache.any (·.identity == i) then ⟨i, slots⟩ :: cacheWithout i cache
  else if allCirc.any fun c => slots[c].isSome then ⟨i, slots⟩ :: cache.take (Config.cacheCapacity - 1)
  else cache

/-- The write-back of a departing position (R110 to R112): skipped when IDENTITY_CLASH is set or no identity is held. -/
def State.writeBack (s : State) (p : Pos) : State :=
  if (s.posAt p).identityClash then s
  else
    match (s.posAt p).identity with
    | some i => { s with cache := placeSlots i (Vector.ofFn (s.slotOf p)) s.cache }
    | none => s

/-! ### Starting again -/

/-- The baseline records of one position return to NONE (R106). -/
def State.forgetPos (s : State) (p : Pos) : State := s.updCircs p fun _ k => { k with baseline := .none }

/-- FORGET BASELINES by its selector: 0 for all positions, 1 to 6 for one (R106). -/
def State.forgetBaselines (s : State) (p : Option Pos) : State :=
  match p with
  | some p => s.forgetPos p
  | none => s.mapCircuits fun _ _ k => { k with baseline := .none }

end Sys2Proof.Machine
end

