-- ==== Sys2Proof/Machine/Reconcile.lean ====
section
/-! DEFINITION. The Reconciler and the Condition Unit's verdict table: from one answer handed at a retirement to verdicts,
last readings, confirmation and conditions (chapters 4 and 7). -/

namespace Sys2Proof.Machine

/-! ### Expected current and ratio (R87 to R89) -/

/-- A quotient rounded to the nearest whole number, a half away from zero (R87); `d` is positive. -/
def roundDiv (a : Int) (d : Nat) : Int :=
  if 0 ≤ a then ((2 * a.natAbs + d) / (2 * d) : Nat) else -((2 * a.natAbs + d) / (2 * d) : Nat)

/-- The compensation term q (R87). -/
def compensation (b vb v s : Nat) : Int := roundDiv ((b : Int) * s * ((v : Int) - vb)) (16 * vb)

/-- The expected current e: b + q, clamped to 1 to 4095 mA (R88). -/
def expected (b vb v s : Nat) : Nat := max 1 (min 4095 ((b : Int) + compensation b vb v s).toNat)

/-- The ratio r: the whole part of m × 100 ÷ e, saturating at 255 (R89). -/
def ratio (m e : Nat) : Nat := min 255 (m * 100 / e)

/-! ### Verdicts (R84, R90 to R92) -/

/-- The commanded state of a reading (R84). -/
inductive Commanded where
  | on
  | off
  | checked
deriving DecidableEq, Repr

/-- The verdict of a used reading by the ladder of its commanded state (R90, R91, R92). -/
def verdictOf (k : Commanded) (pr : Profile) (m r : Nat) (prot : Bool) : Verdict :=
  match k with
  | .on =>
    if prot || decide (pr.shortCurrent ≤ m) then .short
    else if r < pr.openLimit then .openCircuit
    else if r < pr.partialLimit then .partialDraw
    else if pr.overloadLimit < r then .overload
    else .good
  | .off => if pr.leakCurrent < m then .stuckOn else .darkOk
  | .checked => if r < pr.openLimit then .openCircuit else .present

/-! ### Which readings are used (R83, R85) -/

/-- The measurement time of an entry transmitted as `tx` (R85): a CHECK measures at the end of its pulse. -/
def measuredAt (e : Entry) (tx : Transmission) : Time :=
  tx.time + tx.delay + (match e.target with | some t => t.pulse | none => 0)

/-- The settle test of R85 for a function and a settle interval. -/
def settled (e : Entry) (tx : Transmission) (f : Fn) (settle : Nat) : Bool :=
  match tx.changeTimes[f] with
  | some t => decide (t + settle ≤ measuredAt e tx)
  | none => true

/-- Whether the entry judges circuit `c` of a position: a CHECK judges its target alone (R83). -/
def judges (e : Entry) (p : Pos) (c : Circ) : Bool :=
  match e.target with
  | some t => t.pos == p && t.circ == c
  | none => true

/-- The commanded state of a circuit under an entry (R84). -/
def commandedState (e : Entry) (f : Fn) : Commanded :=
  if e.kind == .check then .checked
  else
    match e.image with
    | some i => if on i f then .on else .off
    | none => .off

/-- A used reading with what the Reconciler makes of it (R80, step 3). -/
structure Judged where
  circ            : Circ
  commanded       : Commanded
  current         : Nat
  supply          : Nat
  expected        : Nat
  ratio           : Nat
  verdict         : Verdict
  againstBaseline : Bool
deriving DecidableEq, Repr

/-- The reference values of a circuit: b, vb and whether they are its baseline (R86). -/
def State.reference (s : State) (p : Pos) (c : Circ) : Nat × Nat × Bool :=
  match (s.circAt p c).baseline with
  | .learned b vb => (b, vb, true)
  | _ => ((s.profileAt p c).nominalCurrent, (s.profileAt p c).nominalVoltage, false)

/-- The judgement of a reading that is used (R86 to R92). -/
def State.judge (s : State) (e : Entry) (a : Answer) (f : Fn) (c : Circ) (rd : Reading) : Judged :=
  let pr := s.profileAt a.pos c
  let ref := s.reference a.pos c
  let ex := expected ref.1 ref.2.1 a.supply pr.slope
  let r := ratio rd.current ex
  let k := commandedState e f
  ⟨c, k, rd.current, a.supply, ex, r, verdictOf k pr rd.current r rd.prot, ref.2.2⟩

/-- The used reading of circuit `c` in an answer, if it has one: the first reading of its number, of a mapped and fitted
row, of a circuit the entry judges, past its settle interval (R83, R85). -/
def State.usedReading (s : State) (e : Entry) (tx : Transmission) (a : Answer) (c : Circ) : Option Judged :=
  match a.readings.find? (fun rd => rd.circuit == c.val + 1), (s.rowAt a.pos c).function with
  | some rd, some f =>
    if s.fitted a.pos c && judges e a.pos c && settled e tx f (s.profileAt a.pos c).settle then
      some (s.judge e a f c rd)
    else none
  | _, _ => none

/-- The used readings of an answer in ascending circuit order. -/
def State.usedReadings (s : State) (e : Entry) (tx : Transmission) (a : Answer) : List Judged :=
  allCirc.filterMap (s.usedReading e tx a)

/-! ### Feed loss (R93, R94) -/

/-- The used readings commanded on. -/
def litReadings (js : List Judged) : List Judged := js.filter (·.commanded == .on)

/-- Feed loss holds: at least two used commanded-on readings, every one OPEN (R93). -/
def feedLoss (js : List Judged) : Bool :=
  decide (2 ≤ (litReadings js).length) && (litReadings js).all (·.verdict == .openCircuit)

/-- Step 4 of R80: FEED_LOST sets when feed loss holds, clears when a used commanded-on reading is not OPEN, else
stands (R93, R94). -/
def State.feedTest (s : State) (p : Pos) (js : List Judged) : State :=
  if feedLoss js then s.raiseFeedLost p
  else if (litReadings js).any (·.verdict != .openCircuit) then s.clearFeedLost p
  else s

/-! ### Conditions (R128, R129) -/

/-- The condition a confirmed verdict moves a circuit to (R128). -/
def moveCondition : Verdict → Condition → Condition
  | .good, _ => .sound
  | .present, .unknown => .sound
  | .present, .failedOpen => .sound
  | .present, k => k
  | .partialDraw, _ => .degraded
  | .openCircuit, _ => .failedOpen
  | .overload, _ => .overloaded
  | .short, _ => .shorted
  | .stuckOn, _ => .stuckOn
  | .darkOk, .stuckOn => .sound
  | .darkOk, k => k

/-- A move to SOUND that returns the baseline record to NONE (R105): from DEGRADED, FAILED_OPEN, OVERLOADED or SHORTED. -/
def repaired (old new : Condition) : Bool :=
  new == .sound && (old == .degraded || old == .failedOpen || old == .overloaded || old == .shorted)

/-- A confirmed verdict taken by the Condition Unit (R129): condition, baseline, heal, add. -/
def State.confirm (s : State) (p : Pos) (c : Circ) (v : Verdict) : State :=
  let old := (s.circAt p c).condition
  let new := moveCondition v old
  if new = old then s
  else
    let s1 := s.updCirc p c fun k =>
      { k with condition := new, baseline := if repaired old new then .none else k.baseline }
    (s1.healCondition p c old).addCondition p c new

/-! ### Recording and confirmation (R95 to R98) -/

/-- The candidate and agreement count after a verdict, for a confirm count K (R97). -/
def agree (kCount : Nat) (v : Verdict) (k : Circuit) : Circuit :=
  if k.candidate == some v then { k with agreement := min kCount (k.agreement + 1) }
  else { k with candidate := some v, agreement := 1 }

/-- Whether feed loss withdraws a used reading's verdict (R93). -/
def withdrawnIn (loss : Bool) (j : Judged) : Bool := loss && j.commanded == .on

/-- A used reading recorded as its circuit's last reading (R95). -/
def State.record (s : State) (p : Pos) (kind : EntryKind) (loss : Bool) (j : Judged) : State :=
  s.updCirc p j.circ fun k =>
    { k with last := some ⟨j.current, j.supply, j.expected, j.ratio, j.verdict, j.againstBaseline,
                           withdrawnIn loss j, kind⟩ }

/-- A used reading handed to the Baseline Unit where R96 requires: commanded on, not withdrawn, its profile learning. -/
def State.handBaseline (s : State) (p : Pos) (loss : Bool) (j : Judged) : State :=
  if j.commanded == .on && !withdrawnIn loss j && (s.profileAt p j.circ).learn then
    s.updCirc p j.circ fun k => { k with baseline := k.baseline.take j.current j.supply j.verdict j.againstBaseline }
  else s

/-- A used reading taken to confirmation (R97), its verdict passed on when the count stands at K (R98). -/
def State.toConfirmation (s : State) (p : Pos) (loss : Bool) (j : Judged) : State :=
  if withdrawnIn loss j then s
  else
    let kCount := (s.profileAt p j.circ).confirmCount
    let s1 := s.updCirc p j.circ (agree kCount j.verdict)
    if (s1.circAt p j.circ).agreement = kCount then s1.confirm p j.circ j.verdict else s1

/-- Step 5 of R80 for one used reading. -/
def State.takeReading (p : Pos) (kind : EntryKind) (loss : Bool) (s : State) (j : Judged) : State :=
  ((s.record p kind loss j).handBaseline p loss j).toConfirmation p loss j

/-- One answer handed to the Reconciler at the retirement of its entry: the five steps of R80. -/
def State.reconcile (s : State) (e : Entry) (tx : Transmission) (a : Answer) : State :=
  if a.superseded then s
  else if a.supply < s.settings.supplyFloor then s.setSupplyLow a.pos true
  else
    let s2 := s.setSupplyLow a.pos false
    let js := s2.usedReadings e tx a
    js.foldl (State.takeReading a.pos e.kind (feedLoss js)) (s2.feedTest a.pos js)

/-! ### Clearing (R99, R131) -/

/-- A circuit's candidate and agreement count cleared (R99). -/
def Circuit.clearCandidate (k : Circuit) : Circuit := { k with candidate := none, agreement := 0 }

end Sys2Proof.Machine
end

