-- ==== Sys2Proof/Machine/Queue.lean ====
section
/-! DEFINITION. The Expectation Queue (chapter 3): allocation, the untracked slot, completion, retirement, the removal of
a position that leaves ACTIVE, and the flush. -/

namespace Sys2Proof.Machine

/-! ### Allocation (R53, R57 to R61) -/

/-- Fewer than 16 entries are live (R53). -/
def Queue.hasRoom (q : Queue) : Bool := decide (q.entries.length < Config.queueCapacity)

/-- A POLL or CHECK entry (R60, R61). -/
def Entry.isPollCheck (e : Entry) : Bool := e.kind == .poll || e.kind == .check

/-- A CHANGE or RESYNC entry, whose SET goes at step 1 of R39. -/
def Entry.isSet (e : Entry) : Bool := e.kind == .change || e.kind == .resync

/-- Room for a POLL or CHECK: fewer than 16 entries live, fewer than 12 of them POLL and CHECK (R60, R61). -/
def Queue.hasPollCheckRoom (q : Queue) : Bool :=
  q.hasRoom && decide (q.entries.countP Entry.isPollCheck < Config.pollCheckLimit)

/-- A CHANGE or RESYNC can be allocated: room, and the untracked slot empty (R57, R59). -/
def Queue.canTrack (q : Queue) : Bool := q.hasRoom && q.slot.isNone

/-- A new entry joins at the tail, WAITING, with the tag counter's value, and the counter advances, from 254 to 0 (R53). -/
def Queue.allocate (q : Queue) (kind : EntryKind) (image : Option Image) (changed : FnSet)
    (target : Option CheckTarget) : Queue :=
  { q with
    entries := q.entries ++ [⟨q.tagCounter, kind, .waiting, image, changed, target, none, 0, 0, []⟩]
    tagCounter := (q.tagCounter + 1) % 255 }

/-- A diversion to the untracked slot: the slot takes the commanded image, the flags of `changed` set, the counter rises
(R58, R59). -/
def State.divert (s : State) (changed : FnSet) : State :=
  ((s.updQueue fun q => { q with slot := some s.port.commanded }).updImage fun ib =>
      { ib with untracked := ib.untracked ||| changed }).updCounters fun k =>
        { k with untrackedChanges := bump k.untrackedChanges 1 }

/-- A change of the commanded image from `old`, already made: a CHANGE entry in RUN when it can be tracked, else a
diversion (R57, R58). -/
def State.requestChange (s : State) (old : Image) : State :=
  let changed := differing old s.port.commanded
  if s.tables.mode == .run && s.queue.canTrack then
    s.updQueue fun q => q.allocate .change (some s.port.commanded) changed none
  else s.divert changed

/-- A RESYNC request: an entry in RUN when it can be tracked, else a diversion that flags every function on (R59). -/
def State.requestResync (s : State) : State :=
  if s.tables.mode == .run && s.queue.canTrack then
    s.updQueue fun q => q.allocate .resync (some s.port.commanded) 0 none
  else s.divert s.port.commanded

/-- A due POLL in RUN: an entry, or a skipped poll counted (R60). -/
def State.requestPoll (s : State) : State :=
  if s.queue.hasPollCheckRoom then s.updQueue fun q => q.allocate .poll none 0 none
  else s.updCounters fun k => { k with skippedPolls := bump k.skippedPolls 1 }

/-! ### Retirement (R69 to R73) -/

/-- COMPLETE or EXPIRED: the states in which a head retires (R69). -/
def EntryState.final : EntryState → Bool
  | .complete => true
  | .expired => true
  | _ => false

/-- The first step of retirement: the stashed answers go to the Reconciler in ascending position order (R70). -/
def State.handAnswers (s : State) (e : Entry) : State :=
  match e.tx with
  | some tx =>
    allPos.foldl (fun s p =>
      match e.answers.find? (·.pos == p) with
      | some a => s.reconcile e tx a
      | none => s) s
  | none => s

/-- The entry is overtaken: fixed at its transmission (R64). -/
def Entry.overtaken (e : Entry) : Bool :=
  match e.tx with
  | some tx => tx.overtaken
  | none => false

/-- The second step: the retired image becomes the entry's, unless it has none or is overtaken (R71). -/
def State.setRetired (s : State) (e : Entry) : State :=
  match e.image with
  | some i => if e.overtaken then s else s.updImage fun ib => { ib with retired := i }
  | none => s

/-- The third step: the untracked flags clear when the entry was transmitted and not overtaken, its generation is the
current one and the slot is empty (R72). -/
def State.clearUntracked (s : State) (e : Entry) : State :=
  match e.tx with
  | some tx =>
    if !tx.overtaken && tx.generation == s.queue.generation && s.queue.slot.isNone then
      s.updImage fun ib => { ib with untracked := 0 }
    else s
  | none => s

/-- One entry's retirement (R70 to R73); `rest` are the entries behind it, which the queue then holds. -/
def State.retireOne (s : State) (e : Entry) (rest : List Entry) : State :=
  (((s.handAnswers e).setRetired e).clearUntracked e).updQueue fun q => { q with entries := rest }

/-- The cascade of R69 over the live entries, oldest first: it stops at the first that is WAITING or PENDING. -/
def State.retireFrom : List Entry → State → State
  | [], s => s
  | e :: rest, s => if e.state.final then retireFrom rest (s.retireOne e rest) else s

/-- The retirements due at an event (R69). -/
def State.retire (s : State) : State := State.retireFrom s.queue.entries s

/-! ### Completion, expiry, shrinking (R65 to R68) -/

/-- Rewrite the live entry of this tag. -/
def State.updEntry (s : State) (tag : Nat) (f : Entry → Entry) : State :=
  s.updQueue fun q => { q with entries := q.entries.map fun e => if e.tag == tag then f e else e }

/-- The live entry of this tag, if there is one. -/
def Queue.find (q : Queue) (tag : Nat) : Option Entry := q.entries.find? (·.tag == tag)

/-- A WAITING CHECK completes empty, and retires if it is the head (R65). -/
def State.completeEmpty (s : State) (tag : Nat) : State :=
  (s.updEntry tag fun e => { e with state := .complete }).retire

/-- An answer stashed in an entry, which becomes COMPLETE when every required position has answered (R66). -/
def Entry.stash (e : Entry) (a : Answer) : Entry :=
  let answered := addPos e.answered a.pos
  { e with
    answered := answered
    answers := e.answers ++ [a]
    state := if answered == e.required then .complete else e.state }

/-- Whether an entry awaits the answer of position `p` (R47): it requires `p`, has no answer from `p`, and has not
expired. -/
def Entry.awaits (e : Entry) (p : Pos) : Bool :=
  hasPos e.required p && !hasPos e.answered p && e.state != .expired

/-- A position taken out of one live entry (R68). -/
def Entry.without (e : Entry) (p : Pos) : Entry :=
  let e1 :=
    { e with
      required := dropPos e.required p
      answered := dropPos e.answered p
      answers := e.answers.filter (·.pos != p) }
  let targeted := match e.target with | some t => t.pos == p | none => false
  if e.state == .waiting && targeted then { e1 with state := .complete }
  else if e.state == .pending && e1.answered == e1.required then { e1 with state := .complete }
  else e1

/-- A position that leaves ACTIVE (R31): it is taken out of every live entry (R68), its due marks clear (R124), and the
retirements this brings about are taken. A CHECK it completes behind a head that is not final stays live until it retires (R68, R69,
R117), although the position may be PROBING or PASSIVE before then (DEDUCED against R124's words, log entry 25). -/
def State.leaveActive (s : State) (p : Pos) : State :=
  ((s.updCircs p fun _ k => { k with due := false }).updQueue fun q =>
    { q with entries := q.entries.map (·.without p) }).retire

/-- Whether an entry's deadline has passed with required positions missing (R67). -/
def Entry.overdue (e : Entry) (now : Time) : Bool :=
  e.state == .pending && e.answered != e.required &&
    (match e.tx with | some tx => decide (tx.deadline ≤ now) | none => false)

/-- An entry expires: each missing position is counted (R50), and it retires if it is the head (R67). The missing positions
are counted in ascending order, which is that of their LINK_DEGRADED adds (DESIGN CHOICE, log entry 19). -/
def State.expire (s : State) (e : Entry) : State :=
  let s1 := s.updEntry e.tag fun e => { e with state := .expired }
  (allPos.foldl (fun s p => if hasPos e.required p && !hasPos e.answered p then s.addMissed p else s) s1).retire

/-! ### The flush (R74, R75) -/

/-- Every live entry is discarded, unapplied (R74). -/
def State.flush (s : State) : State := s.updQueue fun q => { q with entries := [] }

/-- After the flush of SETUP entry the slot takes the commanded image, when it is empty and the commanded image differs
from the transmitted one (R75). -/
def State.divertUnsent (s : State) : State :=
  if s.queue.slot.isNone && s.port.commanded != s.chain.transmitted then
    s.divert (differing s.port.commanded s.chain.transmitted)
  else s

end Sys2Proof.Machine
end

