-- ==== Sys2Proof/Machine/Checks.lean ====
section
/-! DEFINITION. The Check Scheduler (chapter 6): eligibility, the run, the choice within a position, the check budget,
and FULL CHECK's marks. -/

namespace Sys2Proof.Machine

/-! ### Eligibility (R115, R116) -/

/-- The circuit's function is off in the transmitted image, and has been for at least the dark dwell: a dark-since time
that lies the dark dwell in the past, settled counting as longer than any (R115, test 4 of R116). -/
def State.darkLongEnough (s : State) (p : Pos) (c : Circ) : Bool :=
  match (s.rowAt p c).function with
  | some f =>
    !on s.chain.transmitted f &&
      (match s.chain.changeTimes[f] with
       | some t => past t s.settings.darkDwell s.now
       | none => true)
  | none => false

/-- Tests 1 to 5 of R116. -/
def State.checkable (s : State) (p : Pos) (c : Circ) : Bool :=
  s.isActive p && s.fitted p c
    && (s.rowAt p c).checkEnable && decide (0 < (s.profileAt p c).checkPulse)
    && s.darkLongEnough p c
    && (s.circAt p c).condition != .stuckOn && (s.circAt p c).condition != .shorted

/-- Test 6 of R116: never checked, or the check interval past, or marked due. -/
def State.checkDue (s : State) (p : Pos) (c : Circ) : Bool :=
  (s.circAt p c).due ||
    (match (s.circAt p c).lastCheck with
     | some t => past t (s.settings.checkInterval * 1000) s.now
     | none => true)

/-- Whether an entry is a CHECK of a position, and of its circuit `c` where one is given. -/
def Entry.checksAt (e : Entry) (p : Pos) (c : Option Circ) : Bool :=
  e.kind == .check &&
    (match e.target with
     | some t => t.pos == p && (match c with | some c => t.circ == c | none => true)
     | none => false)

/-- A circuit is eligible for a check (R116). -/
def State.eligible (s : State) (p : Pos) (c : Circ) : Bool :=
  s.checkable p c && s.checkDue p c && !s.queue.entries.any (·.checksAt p (some c))

/-! ### The run (R117, R118) -/

/-- Whether a circuit checked at `a` last goes before one checked at `b`: never before any time, then the earlier (R118). -/
def checkedBefore (a b : Option Time) : Bool :=
  match a, b with
  | none, some _ => true
  | some t, some u => decide (t < u)
  | _, _ => false

/-- The eligible circuit of a position whose last check lies furthest in the past, the lower number between equals
(R118). -/
def State.chooseCheck (s : State) (p : Pos) : Option Circ :=
  allCirc.foldl (fun best c =>
    if s.eligible p c then
      match best with
      | none => some c
      | some b => if checkedBefore (s.circAt p c).lastCheck (s.circAt p b).lastCheck then some c else best
    else best) none

/-- The positions in round-robin order, starting after the last served (R117). -/
def roundFrom : Option Pos → List Pos
  | none => allPos
  | some p => allPos.rotate (p.val + 1)

/-- The run over the positions left (R117): each that is ACTIVE, has fewer than two live CHECKs and an eligible circuit
asks for one CHECK entry; the run ends when the queue refuses. -/
def State.runChecks : List Pos → State → State
  | [], s => s
  | p :: ps, s =>
    if s.isActive p && decide (s.queue.entries.countP (·.checksAt p none) < Config.liveChecksPerPos) then
      match s.chooseCheck p with
      | some c =>
        if s.queue.hasPollCheckRoom then
          let target : CheckTarget := ⟨p, c, (s.profileAt p c).checkPulse⟩
          runChecks ps ((s.updQueue fun q => q.allocate .check none 0 (some target)).updChecks fun k =>
            { k with lastServed := some p })
        else s
      | none => runChecks ps s
    else runChecks ps s

/-- A run of the Check Scheduler (R117). -/
def State.checkRun (s : State) : State := State.runChecks (roundFrom s.checks.lastServed) s

/-! ### The check budget (R120 to R122) -/

/-- The target position's budget allows a CHECK now: the budget start lies a window in the past, and fewer than four of
the position's check times lie less than a window in the past (R120). -/
def State.budgetAllows (s : State) (p : Pos) : Bool :=
  past s.checks.budgetStart s.settings.checkWindow s.now
    && decide (s.checks.times[p].countP (fun t => !past t s.settings.checkWindow s.now) < Config.checkBudget)

/-- A list of check times with one more at its end, the oldest leaving a list of five (R120). -/
def pushCheckTime (t : Time) (ts : List Time) : List Time :=
  (ts ++ [t]).drop (ts.length + 1 - Config.checkBudget)

/-- What a CHECK's transmission leaves with the Check Scheduler: the time in the position's list, the circuit's last-check
time, its due mark clear (R122, steps 2 to 4). -/
def State.checkSent (s : State) (t : CheckTarget) : State :=
  (s.updChecks fun k => { k with times := upd k.times t.pos (pushCheckTime s.now) }).updCirc t.pos t.circ fun k =>
    { k with lastCheck := some s.now, due := false }

/-- The check state at a soft or chain restart: lists empty, no position served, the budget start now (R114, R121). -/
def State.restartChecks (s : State) : State :=
  s.updChecks fun _ => ⟨Vector.replicate 6 [], none, s.now⟩

/-! ### FULL CHECK (R125) -/

/-- The number FULL CHECK answers: how many circuits meet tests 1 to 5 of R116, marked before or not. A circuit marked before
that fails one of them now keeps its mark and is not counted (DEDUCED, log entry 22). -/
def State.checkableCount (s : State) : Nat :=
  (allPos.map fun p => allCirc.countP (s.checkable p)).sum

/-- The due mark set on every circuit that meets tests 1 to 5 of R116 (R125). -/
def State.markDue (s : State) : State :=
  s.mapCircuits fun p c k => if s.checkable p c then { k with due := true } else k

end Sys2Proof.Machine
end

