-- ==== Sys2Proof/Machine/Transmit.lean ====
section
/-! DEFINITION. The downstream transmitter (section 2.9): the pick of R39 and what each telegram's transmission does
(R26, R32, R40 to R45, R122). -/

namespace Sys2Proof.Machine

/-! ### What a SET carries (R43, R44) and when answers are due (R45) -/

/-- The mask of position `p` for an image: the fitted rows whose function is on (R43). -/
def State.maskOf (s : State) (i : Image) (p : Pos) : BitVec 12 :=
  allCirc.foldl (fun m c =>
    if s.fitted p c && (s.rowAt p c).onIn i then m ||| (1#12 <<< c.val) else m) 0

/-- The six masks of a SET (R43). -/
def State.masks (s : State) (i : Image) : Vector (BitVec 12) 6 := Vector.ofFn (s.maskOf i)

/-- The measurement delay: the largest settle interval among the profiles of fitted circuits of ACTIVE positions whose
function is in `fs`, 0 when there is none (R44). -/
def State.delayOver (s : State) (fs : FnSet) : Nat :=
  allPos.foldl (fun d p =>
    if s.isActive p then
      allCirc.foldl (fun d c =>
        if s.fitted p c && (s.rowAt p c).onIn fs then max d (s.profileAt p c).settle else d) d
    else d) 0

/-- The functions whose settle intervals make an entry's delay (R44). -/
def Entry.delaySet (e : Entry) (i : Image) : FnSet := if e.kind == .change then e.changed else i

/-- The deadline of a telegram sent now (R45): a SET's or POLL's by the size of its required set, a CHECK's by its
pulse. -/
def deadlineFrom (now : Time) (e : Entry) (delay : Nat) (required : PosSet) : Time :=
  match e.target with
  | some t => now + t.pulse + Config.deadlineMarginMs
  | none => now + delay + Config.deadlineMarginMs + Config.answerSlotMs * sizePos required

/-- A younger live entry has been transmitted: what makes a POLL or CHECK overtaken (R64). -/
def Queue.youngerSent (q : Queue) (tag : Nat) : Bool :=
  ((q.entries.dropWhile (·.tag != tag)).drop 1).any (·.tx.isSome)

/-! ### The line and the image on the chain -/

/-- The port begins a telegram (R18). -/
def State.beginTelegram (s : State) (t : Downstream) : State := s.updChain fun ch => { ch with line := .sending t }

/-- Steps 1 and 2 of R41: the change times of the functions that differ, then the transmitted image. -/
def State.imageSent (s : State) (i : Image) : State :=
  s.updChain fun ch =>
    { ch with
      changeTimes := mapIdx ch.changeTimes fun f t => if on (differing i ch.transmitted) f then some s.now else t
      transmitted := i }

/-- The fields an entry takes at its transmission, and its state (R41, R42, R64); a required set that is empty leaves it
COMPLETE. -/
def State.transmitEntry (s : State) (e : Entry) (i : Image) (delay : Nat) (required : PosSet) : State :=
  s.updEntry e.tag fun e =>
    { e with
      image := some i
      tx := some {
        time := s.now, delay := delay, deadline := deadlineFrom s.now e delay required,
        changeTimes := s.chain.changeTimes, generation := s.queue.generation,
        overtaken := e.isPollCheck && s.queue.youngerSent e.tag }
      required := required
      state := if required = 0 then .complete else .pending }

/-! ### The five kinds of telegram -/

/-- A CHANGE or RESYNC entry's SET (R41). -/
def State.sendSet (s : State) (e : Entry) : State :=
  let i := e.image.getD 0
  let s1 := s.imageSent i
  let delay := s1.delayOver (e.delaySet i)
  ((s1.beginTelegram (.set e.tag delay (s1.masks i))).transmitEntry e i delay s1.activeSet).retire

/-- The untracked slot's SET (R41, R62): tag 255, no entry; the slot empties and the generation advances. -/
def State.sendSlot (s : State) (i : Image) : State :=
  let delay := s.delayOver (differing i s.chain.transmitted)
  let s1 := s.imageSent i
  (s1.beginTelegram (.set Config.untrackedTag delay (s1.masks i))).updQueue fun q =>
    { q with slot := none, generation := (q.generation + 1) % 65536 }

/-- A pending ENUM (R26) or QUERY (R32), taken off the front of its list. -/
def State.sendLink (s : State) (r : LinkRequest) (rest : List LinkRequest) : State :=
  let s1 := s.updChain fun ch => { ch with linkRequests := rest }
  match r with
  | .enum p =>
    (s1.updPos p fun k =>
      { k with probeAttempts := k.probeAttempts + 1, enumTimeout := some (s.now + Config.enumTimeoutMs) }).beginTelegram
        (.enum p)
  | .query p =>
    (s1.updPos p fun k => { k with queryUntil := some (s.now + Config.enumTimeoutMs) }).beginTelegram (.query p)

/-- A CHECK entry's CHECK (R42, R122): required of its target alone, when that is ACTIVE (R64). -/
def State.sendCheck (s : State) (e : Entry) (t : CheckTarget) : State :=
  let required := if s.isActive t.pos then posBit t.pos else 0
  (((s.beginTelegram (.check e.tag t.pos t.circ t.pulse)).transmitEntry e s.chain.transmitted 0 required).checkSent
    t).retire

/-- A POLL entry's POLL (R42). -/
def State.sendPoll (s : State) (e : Entry) : State :=
  ((s.beginTelegram (.poll e.tag)).transmitEntry e s.chain.transmitted 0 s.activeSet).retire

/-- The liveness POLL of SETUP (R40). -/
def State.sendLiveness (s : State) : State :=
  (s.updChain fun ch => { ch with livenessPoll := false }).beginTelegram (.poll Config.untrackedTag)

/-! ### The pick (R39) -/

/-- Step 4: the oldest WAITING POLL; in SETUP, a pending liveness POLL. -/
def State.pickPoll (s : State) : State :=
  match s.queue.entries.find? (fun e => e.state == .waiting && e.kind == .poll) with
  | some e => s.sendPoll e
  | none => if s.tables.mode == .setup && s.chain.livenessPoll then s.sendLiveness else s

/-- Whether a CHECK's target circuit has its function on in the transmitted image (R65). -/
def State.targetLit (s : State) (t : CheckTarget) : Bool := (s.rowAt t.pos t.circ).onIn s.chain.transmitted

/-- Step 3, over the WAITING CHECKs of these tags, oldest first: one whose function has come on completes empty and the
search goes on (R65), the first whose budget allows it is sent (R120), one the budget blocks is passed over; then
step 4. -/
def State.pickCheck : List Nat → State → State
  | [], s => s.pickPoll
  | tag :: tags, s =>
    match s.queue.find tag with
    | some e =>
      match e.target with
      | some t =>
        if s.targetLit t then pickCheck tags (s.completeEmpty tag)
        else if s.budgetAllows t.pos then s.sendCheck e t
        else pickCheck tags s
      | none => pickCheck tags s
    | none => pickCheck tags s

/-- The tags of the WAITING CHECK entries, oldest first. -/
def Queue.waitingChecks (q : Queue) : List Nat :=
  (q.entries.filter fun e => e.state == .waiting && e.kind == .check).map (·.tag)

/-- The transmitter's pick, when it is free (R39): the oldest WAITING CHANGE or RESYNC, else the untracked slot; then the
ENUM or QUERY pending first; then CHECKs and POLLs. -/
def State.transmit (s : State) : State :=
  if s.chain.line != .free then s
  else
    match s.queue.entries.find? (fun e => e.state == .waiting && e.isSet) with
    | some e => s.sendSet e
    | none =>
      match s.queue.slot with
      | some i => s.sendSlot i
      | none =>
        match s.chain.linkRequests with
        | r :: rest => s.sendLink r rest
        | [] => State.pickCheck s.queue.waitingChecks s

/-- DOWNSTREAM_TELEGRAM_DONE (R39): the line falls idle; when a module begins an answer at that moment the answer is taken
first (R18), else the transmitter makes its pick. -/
def State.telegramDone (s : State) (answerBegins : Bool) : State :=
  match s.chain.line with
  | .sending _ =>
    if answerBegins then s.updChain fun ch => { ch with line := .receiving }
    else (s.updChain fun ch => { ch with line := .free }).transmit
  | _ => s

/-- The line at the end of an upstream telegram (R18): free, or receiving when another answer begins at that moment. -/
def State.answerEnds (s : State) (answerBegins : Bool) : State :=
  s.updChain fun ch =>
    { ch with
      line := match ch.line with
        | .sending t => .sending t
        | _ => if answerBegins then .receiving else .free }

end Sys2Proof.Machine
end

