-- ==== Sys2Proof/Machine/Chain.lean ====
section
/-! DEFINITION. The Chain Master's positions (sections 2.4 to 2.8) and upstream telegrams (section 2.10): probing,
identification, loss and return, going ABSENT and its cascade, REPORT and IDENT. -/

namespace Sys2Proof.Machine

/-! ### Probing (R24, R26) -/

/-- The pending ENUM and QUERY of position `p` are dropped. -/
def State.dropRequests (s : State) (p : Pos) : State :=
  s.updChain fun ch =>
    { ch with linkRequests := ch.linkRequests.filter fun r => r != .enum p && r != .query p }

/-- Position `p` begins probing: PROBING, no attempt made, an ENUM pending (R24). -/
def State.beginProbe (s : State) (p : Pos) : State :=
  (s.updPos p fun r => { r with state := .probing, probeAttempts := 0 }).updChain fun ch =>
    { ch with linkRequests := ch.linkRequests ++ [.enum p] }

/-- The position after `p` begins probing when `p` is ACTIVE with its downstream-load flag set and it is ABSENT (R24). -/
def State.probeNext (s : State) (p : Pos) : State :=
  match nextPos p with
  | some q =>
    if s.isActive p && (s.posAt p).downstreamLoad && (s.posAt q).state == .absent then s.beginProbe q else s
  | none => s

/-- P1 begins probing, when it is ABSENT: at a rise of debounced CONNECT, and at a soft or chain restart that finds it
high (R25). -/
def State.probeFirst (s : State) : State := if (s.posAt 0).state == .absent then s.beginProbe 0 else s

/-! ### Going ABSENT (R35, R36) -/

/-- A circuit's records at step 2 of R35, R95, R99, R124: cleared whole. -/
def State.clearCircuits (s : State) (p : Pos) : State := s.updCircs p fun _ _ => Circuit.clear

/-- The four condition flags clear, with no heal (R140). -/
def State.clearFlags (s : State) (p : Pos) : State :=
  s.updPos p fun r =>
    { r with supplyLow := false, feedLost := false, linkDegraded := false, identityClash := false }

/-- Steps 1 to 4 of R35: write-back, circuits, fault removal, flags. -/
def State.takeOff (s : State) (p : Pos) : State :=
  (((s.writeBack p).clearCircuits p).removeFaults p).clearFlags p

/-- The record takes its ABSENT values, keeping its three counters; what was pending for it is dropped (R35). -/
def State.makeAbsent (s : State) (p : Pos) : State :=
  (s.updPos p fun r => Position.absent r.counters).dropRequests p

/-- One position becomes ABSENT (R35): from ACTIVE it first leaves ACTIVE (R31); from ACTIVE or LOST it is taken off and
the marks of others that held its identity are reviewed; from PROBING or PASSIVE its record alone is cleared. -/
def State.goAbsent (s : State) (p : Pos) : State :=
  match (s.posAt p).state with
  | .absent => s
  | .probing => s.makeAbsent p
  | .passive => s.makeAbsent p
  | .active => (((s.leaveActive p).takeOff p).makeAbsent p).reviewClashes (s.posAt p).identity
  | .lost => ((s.takeOff p).makeAbsent p).reviewClashes (s.posAt p).identity

/-- The cascade from position `p`: it and every higher position become ABSENT, in ascending order (R36). -/
def State.cascade (s : State) (p : Pos) : State :=
  (allPos.filter fun q => decide (p ≤ q)).foldl State.goAbsent s

/-- The cascade from `p`, after which `p` begins probing again when the position before it is ACTIVE with its flag set
(R36, R24). -/
def State.cascadeFrom (s : State) (p : Pos) : State :=
  match prevPos p with
  | some q => (s.cascade p).probeNext q
  | none => s.cascade p

/-! ### Loss and absence (R30, R32) -/

/-- Whether an ACTIVE position's last-heard time lies the loss interval in the past (R30). -/
def State.lossDue (s : State) (p : Pos) : Bool :=
  (s.posAt p).state == .active &&
    (match (s.posAt p).lastHeard with
     | some t => past t s.settings.lossInterval s.now
     | none => false)

/-- LOSS_INTERVAL_EXPIRY (R30): the position leaves ACTIVE and is LOST from now. -/
def State.lossExpiry (s : State) (p : Pos) : State :=
  if s.lossDue p then
    (s.leaveActive p).updPos p fun r => { r with state := .lost, lostSince := some s.now }
  else s

/-- Whether a LOST position's LOST-since time lies the absence interval in the past (R32). -/
def State.absenceDue (s : State) (p : Pos) : Bool :=
  (s.posAt p).state == .lost &&
    (match (s.posAt p).lostSince with
     | some t => past t (s.settings.absenceInterval * 1000) s.now
     | none => false)

/-- ABSENCE_INTERVAL_EXPIRY (R32): the position and every higher one go ABSENT; it may be probed again at once (R24). -/
def State.absenceExpiry (s : State) (p : Pos) : State := if s.absenceDue p then s.cascadeFrom p else s

/-- Whether a PROBING position's attempt times out (R26). -/
def State.enumOver (s : State) (p : Pos) : Bool :=
  (s.posAt p).state == .probing &&
    (match (s.posAt p).enumTimeout with
     | some t => decide (t ≤ s.now)
     | none => false)

/-- ENUM_TIMEOUT (R26): a new ENUM becomes pending, or after the third attempt the position is PASSIVE (R29). -/
def State.enumExpiry (s : State) (p : Pos) : State :=
  if s.enumOver p then
    if (s.posAt p).probeAttempts < Config.enumAttempts then
      (s.updPos p fun r => { r with enumTimeout := none }).updChain fun ch =>
        { ch with linkRequests := ch.linkRequests ++ [.enum p] }
    else s.updPos p fun r => { r with enumTimeout := none, state := .passive }
  else s

/-- Whether a QUERY's awaiting window has ended (R32). -/
def State.queryOver (s : State) (p : Pos) : Bool :=
  match (s.posAt p).queryUntil with
  | some t => decide (t ≤ s.now)
  | none => false

/-- QUERY_WINDOW_END (R32): the window closes and the position stays LOST. -/
def State.queryExpiry (s : State) (p : Pos) : State :=
  if s.queryOver p then s.updPos p fun r => { r with queryUntil := none } else s

/-! ### Hearing an ACTIVE or LOST position (R46) -/

/-- The downstream-load flag as a telegram carries it: set, it may start a probe of the next position; clear, a PROBING or
PASSIVE next position goes ABSENT (R24, R26, R29, R46). -/
def State.setLoad (s : State) (p : Pos) (load : Bool) : State :=
  let s1 := s.updPos p fun r => { r with downstreamLoad := load }
  if load then s1.probeNext p
  else
    match nextPos p with
    | some q =>
      if (s.posAt q).state == .probing || (s.posAt q).state == .passive then s1.cascade q else s1
    | none => s1

/-- QUERY handling at a LOST position: a QUERY becomes pending when none is pending or outstanding (R32). -/
def State.askQuery (s : State) (p : Pos) : State :=
  if (s.posAt p).state == .lost && (s.posAt p).queryUntil.isNone && !s.chain.linkRequests.contains (.query p) then
    s.updChain fun ch => { ch with linkRequests := ch.linkRequests ++ [.query p] }
  else s

/-- The last-heard time and the downstream-load flag of a position heard (R46). -/
def State.heard (s : State) (p : Pos) (load : Bool) : State :=
  (s.updPos p fun r => { r with lastHeard := some s.now }).setLoad p load

/-! ### REPORT (R46, R47) -/

/-- The stale-report counter rises (R47). -/
def State.countStale (s : State) : State := s.updCounters fun k => { k with staleReports := bump k.staleReports 1 }

/-- The bad-telegram counter rises; nothing of the telegram is read (R19, R178). -/
def State.countBad (s : State) : State := s.updCounters fun k => { k with badTelegrams := bump k.badTelegrams 1 }

/-- The effects of R46 of a REPORT from an ACTIVE or LOST position. -/
def State.reportHeard (s : State) (r : ReportFields) : State :=
  let s1 := (s.heard r.pos r.load).addFarEnd r.pos r.farEnd
  let s2 := s1.when r.superseded fun s => s.updPos r.pos fun k =>
    { k with counters := { k.counters with superseded := bump k.counters.superseded 1 } }
  s2.askQuery r.pos

/-- The match of R47: the answer is stashed in the live entry that awaits it, or the REPORT is stale. -/
def State.matchReport (s : State) (r : ReportFields) : State :=
  match s.queue.find r.tag with
  | some e =>
    if e.awaits r.pos then
      (s.updEntry r.tag fun e => e.stash ⟨r.pos, r.supply, r.superseded, r.readings⟩).retire
    else s.countStale
  | none => s.countStale

/-- A REPORT that passed R178, attributed to its position (R46, R47). -/
def State.takeReport (s : State) (r : ReportFields) : State :=
  if (s.posAt r.pos).state.onChain then (s.reportHeard r).matchReport r else s.countStale

/-! ### IDENT (R27, R33, R34, R48) -/

/-- Step 1 of R27, with what becomes ACTIVE at step 4 and the awaiting window's end (R34, step 3): the record of an
identified position. -/
def identifyRecord (now : Time) (i : IdentFields) (clash : Bool) (r : Position) : Position :=
  { r with
    identity := some i.identity
    circuitCount := some i.count
    downstreamLoad := i.load
    lastHeard := some now
    lostSince := none
    identityClash := clash
    enumTimeout := none
    queryUntil := none }

/-- An IDENT accepted from a PROBING position, or from a LOST position after its departing unit was taken off: steps 1 to
6 of R27, and the IDENTITY_CLASH fault handed when they are finished (R139). -/
def State.acceptIdent (s : State) (i : IdentFields) : State :=
  let clash := s.heldElsewhere i.pos i.identity
  let s1 := s.updPos i.pos (identifyRecord s.now i clash)
  let s3 := if clash then s1 else s1.lookup i.pos i.identity
  let s4 := ((s3.updPos i.pos fun r => { r with state := .active }).dropRequests i.pos).addFarEnd i.pos i.farEnd
  let s6 := (s4.requestResync).probeNext i.pos
  s6.when clash fun s => s.add (posFault i.pos .identityClash)

/-- Step 2 of R33: a changed circuit count is recorded, and a circuit that was fitted and no longer is starts again, the
fault it held healed. Fitted is read from the count alone, as R5 reads it for an unmapped row, so that no unfitted circuit
keeps a condition (R3, R146): the circuit of a row UNUSED at that moment starts again too (DEDUCED, log entry 21). -/
def State.recount (s : State) (p : Pos) (new : Nat) : State :=
  let old := (s.posAt p).circuitCount
  let s1 := s.updPos p fun r => { r with circuitCount := some new }
  allCirc.foldl (fun s c =>
    if countReaches old c && !countReaches (some new) c then
      (s.updCirc p c fun k =>
        { k with candidate := none, agreement := 0, last := none, baseline := .none, condition := .unknown }).healCondition
          p c (s.circAt p c).condition
    else s) s1

/-- A warm return: a LOST position answers a QUERY with the identity held (R33). Its step 1 is the hearing of R46. -/
def State.warmReturn (s : State) (i : IdentFields) : State :=
  let s1 := (s.heard i.pos i.load).addFarEnd i.pos i.farEnd
  let s2 := s1.recount i.pos i.count
  let s3 := s2.updPos i.pos fun r => { r with state := .active, lostSince := none, queryUntil := none }
  (s3.requestResync).probeNext i.pos

/-- An identity change at a warm return (R34): the departing unit taken off, the marks of others reviewed, the arriving
unit identified. Its far-end error count is added once, at step 4 of R27 (DESIGN CHOICE, log entry 8). -/
def State.identityChange (s : State) (i : IdentFields) : State :=
  let s0 := s.heard i.pos i.load
  let old := (s0.posAt i.pos).identity
  let s1 := (s0.takeOff i.pos).updPos i.pos fun r => { r with linkErrors := 0, identity := none }
  (s1.reviewClashes old).acceptIdent i

/-- An IDENT that passed R178, attributed to its position (R46, R48). One that comes after the absence expiry (R32) or after
the load was gone (R26) finds its position ABSENT and is discarded; where the position was probed again at once (R24, R36) it
finds it PROBING and is accepted, whether or not the new ENUM was sent (DEDUCED, log entry 24). -/
def State.takeIdent (s : State) (i : IdentFields) : State :=
  match (s.posAt i.pos).state with
  | .probing => s.acceptIdent i
  | .active => (s.heard i.pos i.load).addFarEnd i.pos i.farEnd
  | .lost =>
    if (s.posAt i.pos).queryUntil.isSome then
      if (s.posAt i.pos).identity = some i.identity then s.warmReturn i else s.identityChange i
    else ((s.heard i.pos i.load).addFarEnd i.pos i.farEnd).askQuery i.pos
  | .absent => s
  | .passive => s

/-! ### The end of an upstream telegram (R19, R178) -/

/-- A telegram of kind 0x21 ends: bad, or a REPORT (R178). -/
def State.reportEnds (s : State) (t : UpTelegram) : State :=
  match parseReport t with
  | some r => s.takeReport r
  | none => s.countBad

/-- A telegram of kind 0x22 ends: bad, or an IDENT (R178). -/
def State.identEnds (s : State) (t : UpTelegram) : State :=
  match parseIdent t with
  | some i => s.takeIdent i
  | none => s.countBad

/-- A telegram ends whose kind is read from its bytes; one with its header cut short, or of another kind, is bad (R178). -/
def State.telegramEnds (s : State) (bytes : List Byte) : State :=
  match splitHeader bytes with
  | some (kind, t) =>
    if kind = 0x21 then s.reportEnds t else if kind = 0x22 then s.identEnds t else s.countBad
  | none => s.countBad

/-! ### CONNECT (R25) -/

/-- CONNECT_CHANGE: the raw input takes a level; a change starts the debounce of the new level (R25). -/
def State.connectTo (s : State) (high : Bool) : State :=
  if s.chain.connectRaw = high then s
  else s.updChain fun ch => { ch with connectRaw := high, connectSince := s.now }

/-- Whether the debounced level changes to `high` now: the raw input has held it for 100 ms (R25). -/
def State.debounced (s : State) (high : Bool) : Bool :=
  s.chain.connectRaw == high && s.chain.connectDebounced != high && past s.chain.connectSince Config.debounceMs s.now

/-- CONNECT_DEBOUNCED_RISE (R24, R25): P1 begins probing. -/
def State.connectRise (s : State) : State :=
  if s.debounced true then (s.updChain fun ch => { ch with connectDebounced := true }).probeFirst else s

/-- CONNECT_DEBOUNCED_FALL (R25): P1 and every higher position go ABSENT. -/
def State.connectFall (s : State) : State :=
  if s.debounced false then (s.updChain fun ch => { ch with connectDebounced := false }).cascade 0 else s

/-! ### Link error interval (R49) -/

/-- Whether the link error interval has ended (R49). -/
def State.linkIntervalOver (s : State) : Bool := decide (s.chain.linkIntervalEnd ≤ s.now)

/-- LINK_ERROR_INTERVAL_END (R49): every position in turn, and the next interval begins. -/
def State.linkIntervalExpiry (s : State) : State :=
  if s.linkIntervalOver then
    (allPos.foldl State.endLinkInterval s).updChain fun ch =>
      { ch with linkIntervalEnd := ch.linkIntervalEnd + Config.linkIntervalMs }
  else s

/-! ### POLL due (R40, R60) -/

/-- Whether a POLL is due (R60). -/
def State.pollOver (s : State) : Bool := past s.queue.lastPoll s.settings.pollPeriod s.now

/-- POLL_DUE (R60): in RUN the POLL is decided, and then the Check Scheduler takes its run; in SETUP a liveness POLL
becomes pending (R40). A POLL that is ready while the line is free goes before the run (R39, section 6.8). The due time
taken lies one poll period after the one before it, also when it is taken late (R60, R10; log entry 6). -/
def State.pollExpiry (s : State) : State :=
  if s.pollOver then
    let s1 := s.updQueue fun q => { q with lastPoll := q.lastPoll + s.settings.pollPeriod }
    match s1.tables.mode with
    | .run => ((s1.requestPoll.transmit).checkRun).transmit
    | .setup => (s1.updChain fun ch => { ch with livenessPoll := true }).transmit
  else s

end Sys2Proof.Machine
end

