-- ==== Sys2Proof/Machine/ChainCommands.lean ====
section
/-! DEFINITION. The meanings of the commands of the chain port: CONNECT, telegrams, and the timers of the Chain Master and
the Expectation Queue. A timer's command acts when its time has come and finds nothing to do before (log entry 5).
Each event ends with one composition of the telltale image (R143). -/

namespace Sys2Proof.Machine

/-- CONNECT_CHANGE (R25). -/
def execConnectChange (high : Bool) (s : State) : Host.Outcome State Fault Refusal := .next (s.connectTo high)

/-- CONNECT_DEBOUNCED_RISE (R24, R25): P1 begins probing, and its ENUM goes when the line is free. -/
def execConnectDebouncedRise (s : State) : Host.Outcome State Fault Refusal :=
  .next (if s.debounced true then s.connectRise.transmit.recompose else s)

/-- CONNECT_DEBOUNCED_FALL (R25). -/
def execConnectDebouncedFall (s : State) : Host.Outcome State Fault Refusal :=
  .next (if s.debounced false then s.connectFall.recompose else s)

/-- POLL_DUE (R60, R40, R117). -/
def execPollDue (s : State) : Host.Outcome State Fault Refusal :=
  .next (if s.pollOver then s.pollExpiry.recompose else s)

/-- A held-back CHECK has become sendable while the transmitter is free, or one the search would complete empty (R121,
R65). -/
def State.checkReady (s : State) : Bool :=
  s.chain.line == .free && s.queue.entries.any fun e =>
    e.state == .waiting && e.kind == .check &&
      (match e.target with
       | some t => s.targetLit t || s.budgetAllows t.pos
       | none => false)

/-- CHECK_BUDGET_READY (R121): the free transmitter makes its pick. -/
def execCheckBudgetReady (s : State) : Host.Outcome State Fault Refusal :=
  .next (if s.checkReady then s.transmit.recompose else s)

/-- DOWNSTREAM_TELEGRAM_DONE (R39). -/
def execDownstreamTelegramDone (answerBegins : Bool) (s : State) : Host.Outcome State Fault Refusal :=
  .next (s.telegramDone answerBegins).recompose

/-- REPORT (R46, R47, R178): the telegram's effects, then the transmitter's pick (R18). -/
def execReport (t : UpTelegram) (answerBegins : Bool) (s : State) : Host.Outcome State Fault Refusal :=
  .next ((s.answerEnds answerBegins).reportEnds t).transmit.recompose

/-- IDENT (R46, R48, R178): the telegram's effects, then the transmitter's pick (R18). -/
def execIdent (t : UpTelegram) (answerBegins : Bool) (s : State) : Host.Outcome State Fault Refusal :=
  .next ((s.answerEnds answerBegins).identEnds t).transmit.recompose

/-- BAD_UPSTREAM_TELEGRAM (R178, R19): counted as bad, then the transmitter's pick. Bytes that are in truth a complete
REPORT or IDENT telegram are taken as such. -/
def execBadUpstreamTelegram (bytes : List Byte) (answerBegins : Bool) (s : State) :
    Host.Outcome State Fault Refusal :=
  .next ((s.answerEnds answerBegins).telegramEnds bytes).transmit.recompose

/-- ENUM_TIMEOUT (R26). -/
def execEnumTimeout (p : Pos) (s : State) : Host.Outcome State Fault Refusal :=
  .next (if s.enumOver p then (s.enumExpiry p).transmit.recompose else s)

/-- QUERY_WINDOW_END (R32). -/
def execQueryWindowEnd (p : Pos) (s : State) : Host.Outcome State Fault Refusal := .next (s.queryExpiry p)

/-- LOSS_INTERVAL_EXPIRY (R30). -/
def execLossIntervalExpiry (p : Pos) (s : State) : Host.Outcome State Fault Refusal :=
  .next (if s.lossDue p then (s.lossExpiry p).recompose else s)

/-- ABSENCE_INTERVAL_EXPIRY (R32): the position may begin probing again, so the transmitter may have an ENUM to send. -/
def execAbsenceIntervalExpiry (p : Pos) (s : State) : Host.Outcome State Fault Refusal :=
  .next (if s.absenceDue p then (s.absenceExpiry p).transmit.recompose else s)

/-- DEADLINE (R67): of the live entry of this tag, when it is PENDING with positions missing and the time has come. -/
def execDeadline (tag : Nat) (s : State) : Host.Outcome State Fault Refusal :=
  .next (match s.queue.find tag with
    | some e => if e.overdue s.now then (s.expire e).recompose else s
    | none => s)

/-- LINK_ERROR_INTERVAL_END (R49). -/
def execLinkErrorIntervalEnd (s : State) : Host.Outcome State Fault Refusal :=
  .next (if s.linkIntervalOver then s.linkIntervalExpiry.recompose else s)

end Sys2Proof.Machine
end

