-- ==== Sys2Proof/Machine/ImageCommands.lean ====
section
/-! DEFINITION. The meanings of the Image Builder's timer commands: frame spacing and period, command silence, operating
second (chapter 8). -/

namespace Sys2Proof.Machine

/-- TELLTALE_SPACING_EXPIRY (R150). -/
def execTelltaleSpacingExpiry (s : State) : Host.Outcome State Fault Refusal := .next s.spacingExpiry

/-- TELLTALE_PERIOD_EXPIRY (R151). -/
def execTelltalePeriodExpiry (s : State) : Host.Outcome State Fault Refusal := .next s.periodExpiry

/-- COMMAND_SILENCE_EXPIRY (R149). -/
def execCommandSilenceExpiry (s : State) : Host.Outcome State Fault Refusal :=
  .next (if s.silenceOver then s.silenceExpiry.recompose else s)

/-- OPERATING_SECOND (R142). -/
def execOperatingSecond (s : State) : Host.Outcome State Fault Refusal := .next s.secondEnd

end Sys2Proof.Machine
end

