-- ==== Sys2Proof/Machine/Clock.lean ====
section
/-! DEFINITION. The part's clock: which timer commands are due at this moment, and the passing of a millisecond. The
manual fixes no order between timers that run out at one moment; the order here is the model's (log entry 4). -/

namespace Sys2Proof.Machine

/-- A command, when it is due. -/
def dueIf (b : Bool) (i : Instr) : List Instr := if b then [i] else []

/-- Whether a commit has run as long as a commit can (R169). -/
def State.commitOver (s : State) : Bool :=
  match s.store.commit with
  | some k => past k.start Config.commitMs s.now
  | none => false

/-- Whether a telltale frame held back by the spacing is due (R150). -/
def State.spacingOver (s : State) : Bool := s.image.framePending && s.frameMayGo

/-- The timer commands due now. -/
def State.dueCommands (s : State) : List Instr :=
  dueIf s.secondOver .operatingSecond
    ++ dueIf s.linkIntervalOver .linkErrorIntervalEnd
    ++ dueIf (s.debounced true) .connectDebouncedRise
    ++ dueIf (s.debounced false) .connectDebouncedFall
    ++ (allPos.filter s.enumOver).map .enumTimeout
    ++ (allPos.filter s.queryOver).map .queryWindowEnd
    ++ (allPos.filter s.lossDue).map .lossIntervalExpiry
    ++ (allPos.filter s.absenceDue).map .absenceIntervalExpiry
    ++ (s.queue.entries.filter (·.overdue s.now)).map (fun e => .deadline e.tag)
    ++ dueIf s.pollOver .pollDue
    ++ dueIf s.checkReady .checkBudgetReady
    ++ dueIf s.silenceOver .commandSilenceExpiry
    ++ dueIf s.spacingOver .telltaleSpacingExpiry
    ++ dueIf s.periodOver .telltalePeriodExpiry
    ++ dueIf s.commitOver .commitComplete

/-- The line when a millisecond begins: an answer that begins on an idle line is received (R18). -/
def Line.hear (answerBegins : Bool) : Line → Line
  | .free => if answerBegins then .receiving else .free
  | l => l

/-- A millisecond passes (Conventions, Time), with what the line brings in it (R18, log entry 7). -/
def State.tick (s : State) : State :=
  { s with
    now := s.now + 1
    chain := { s.chain with line := s.chain.line.hear (s.arrivals.headD false) }
    arrivals := s.arrivals.tail }

end Sys2Proof.Machine
end

