-- ==== Sys2Proof/Machine/Resets.lean ====
section
/-! DEFINITION. The three resets as each block's rules give them (R37, R38, R78, R114, R142, R171 to R173), the entries
into SETUP and RUN (R166, R167, R17), and the Settings Store (R168 to R170). -/

namespace Sys2Proof.Machine

/-- No touched mark set (R14). -/
def State.clearMarks (s : State) : State :=
  s.updTables fun t =>
    { t with
      rowTouched := Vector.replicate 6 (Vector.replicate 12 false), profileTouched := Vector.replicate 8 false }

/-! ### Hard reset (R171) -/

/-- The tables a hard reset loads: the store's when it is valid, else the defaults (R171). -/
def Store.load (st : Store) : Tables := if st.valid then st.contents else Tables.default

/-- The mode a hard reset leaves (R13). -/
def Store.loadMode (st : Store) : Mode := if st.valid then modeOver st.contents else .setup

/-- A hard reset, from RESET going low to its end (R171): every block at its hard-reset state, tables and mode from the
store, a commit in progress lost, and the telltale image composed and handed. CONNECT's level, the store's contents and
validity, and the model's inputs are no part of what a reset changes. The line is free afterwards, also where an answer was
being received (DESIGN CHOICE, log entry 23). -/
def State.hardReset (s : State) : State :=
  let t := s.store.load
  let s1 : State :=
    { State.reset with
      tables := { State.reset.tables with tables := t, mode := s.store.loadMode }
      chain := { State.reset.chain with connectRaw := s.chain.connectRaw }
      image := { State.reset.image with lastFrame := none }
      port := { State.reset.port with
        transmit := [], commandId := canId t.settings.commandId, requestId := canId t.settings.requestId }
      store := ⟨s.store.contents, s.store.valid, !s.store.valid, none⟩
      arrivals := s.arrivals
      pending := s.pending }
  let img := s1.compose
  (s1.updImage fun ib => { ib with telltale := img, lampAlert := img.summary == .red }).handTelltale

/-! ### Soft restart (R172) -/

/-- The Chain Master's part of a soft restart (R38). The line and a telegram in progress are kept (R18). -/
def Chain.softRestart (ch : Chain) : Chain :=
  { ch with
    positions := Vector.replicate 6 (Position.absent PosCounters.zero)
    transmitted := 0
    changeTimes := Vector.replicate 10 none
    linkRequests := []
    livenessPoll := false
    counters := ChainCounters.zero
    snapshot := ⟨Vector.replicate 6 PosCounters.zero, ChainCounters.zero⟩ }

/-- The Image Builder's part of a soft restart (R142, R149). -/
def ImageBuilder.softRestart (ib : ImageBuilder) : ImageBuilder :=
  { ib with
    retired := 0, untracked := 0, faults := [], overflow := false, sequence := 0, commandStale := false }

/-- P1 begins probing when a restart finds debounced CONNECT high (R25). -/
def State.probeAfterRestart (s : State) : State := if s.chain.connectDebounced then s.probeFirst else s

/-- A soft restart (R172): every block at its soft-restart state, the mode from the test of R16, P1 probing when debounced
CONNECT is high, the telltale image recomposed. -/
def State.softRestart (s : State) : State :=
  let s1 : State :=
    { s.clearMarks with
      chain := s.chain.softRestart
      queue := ⟨[], 0, none, 0, s.now⟩
      circuits := Vector.replicate 6 (Vector.replicate 12 Circuit.clear)
      image := s.image.softRestart
      port := { s.port with commanded := 0, lastCommand := s.now } }
  let s2 := (s1.updTables fun t => { t with mode := modeOver t.tables }).restartChecks
  s2.probeAfterRestart.transmit.recompose

/-! ### Chain restart (R37, R173) -/

/-- A chain restart: the flush first, so that no entry is left for the departing positions to complete (R77), the cascade
from P1 with write-back, the check state emptied, and the enumeration begun again. -/
def State.chainRestart (s : State) : State :=
  ((s.flush.cascade 0).restartChecks).probeAfterRestart.transmit.recompose

/-! ### SETUP and RUN (R166, R167, R17) -/

/-- Every circuit's candidate verdict absent and agreement count 0 (R99). -/
def State.clearCandidates (s : State) : State := s.mapCircuits fun _ _ k => k.clearCandidate

/-- Entry into SETUP from RUN: the four steps of R166. -/
def State.setupEntry (s : State) : State :=
  (((s.updTables fun t => { t with mode := .setup }).flush).divertUnsent).clearCandidates.transmit.recompose

/-- A circuit counts as touched at RUN entry: its row's mark, or that of the profile its row names (R14). -/
def State.touched (s : State) (p : Pos) (c : Circ) : Bool :=
  s.tables.rowTouched[p][c] || s.tables.profileTouched[(s.rowAt p c).profile]

/-- The heals of R131, in ascending position and circuit order. -/
def State.healAll (s : State) : State :=
  allPos.foldl (fun s p => allCirc.foldl (fun s c => s.healCondition p c (s.circAt p c).condition) s) s

/-- Step 2 of RUN entry on one circuit: a touched baseline to NONE, the condition UNKNOWN, the candidate cleared (R17). -/
def Circuit.atRunEntry (touched : Bool) (k : Circuit) : Circuit :=
  { k.clearCandidate with baseline := if touched then .none else k.baseline, condition := .unknown }

/-- RUN entry that has passed R16: the four steps of R17, then what R167 adds. -/
def State.runEntry (s : State) : State :=
  let s1 := s.updTables fun t => { t with mode := .run }
  let s2 := s1.healAll.mapCircuits fun p c k => k.atRunEntry (s.touched p c)
  let s4 := s2.clearMarks.requestResync
  (s4.updChain fun ch => { ch with livenessPoll := false }).transmit.recompose

/-! ### The Settings Store (R169, R170) -/

/-- A commit begins: the store invalid, the tables as they stand taken, the request buffer empty (R169). -/
def State.beginCommit (s : State) : State :=
  (s.updStore fun st => { st with valid := false, commit := some ⟨s.now, s.tables.tables⟩ }).updPort fun po =>
    { po with request := none }

end Sys2Proof.Machine
end

