-- ==== Sys2Proof/Machine/Requests.lean ====
section
/-! DEFINITION. The Tractor Port: which frames it takes (R159), lamp command frames (R160), the request buffer (R162),
and every management request with its statuses and response fields (chapter 9, layouts R176). -/

namespace Sys2Proof.Machine

/-! ### Lamp command frames (R160) -/

/-- A frame on the command identifier (R160): two data bytes refresh the command silence and, when their image differs,
change the commanded image and request a CHANGE; any other number is malformed and counted. -/
def State.takeCommandFrame (s : State) (d : List Byte) : State :=
  if d.length = 2 then
    let s1 := (s.updPort fun po => { po with lastCommand := s.now }).updImage fun ib => { ib with commandStale := false }
    if lampImage d = s.port.commanded then s1.recompose
    else
      ((s1.updPort fun po => { po with commanded := lampImage d }).requestChange s.port.commanded).transmit.recompose
  else s.updCounters fun k => { k with malformedFrames := bump k.malformedFrames 1 }

/-! ### The request buffer and responses (R162, R163) -/

/-- What handles a request: from its eight bytes and the state, the state after and the answer, none for an accepted
COMMIT (R162). -/
abbrev Handler := List Byte → State → State × Option Reply

/-- A response handed to the transmit list (R162, R163). -/
def State.handResponse (s : State) (kind : TxKind) (ident : CanId) (code : Byte) (r : Reply) : State :=
  s.updPort fun po => { po with transmit := handTo ⟨kind, ident, r.bytes code⟩ po.transmit }

/-- A request frame dropped and counted (R162). -/
def State.dropRequest (s : State) : State :=
  s.updCounters fun k => { k with droppedRequests := bump k.droppedRequests 1 }

/-- A frame on the request identifier (R162): of eight bytes, with the buffer empty, it is taken into the buffer and
handled as one event, its response handed last; else it is dropped. The response leaves on the response identifier held
when the request was taken, which a write of setting 14 does not change for its own response (R11). -/
def State.takeRequest (s : State) (d : List Byte) (h : Handler) : State :=
  if d.length = 8 ∧ s.port.request = none then
    match h d (s.updPort fun po => { po with request := some d }) with
    | (s1, some r) => s1.handResponse .response (canId s.settings.responseId) (d.getD 0 0) r
    | (s1, none) => s1
  else s.dropRequest

/-- Step 2 of R163 for a request allowed in one mode alone, then step 3 for one refused during a COMMIT (R164). -/
def State.gate (s : State) (mode : Option Mode) (busy : Bool) (k : State × Option Reply) : State × Option Reply :=
  if mode.isSome && mode != some s.tables.mode then (s, some (.only .refusedMode))
  else if busy && s.store.commit.isSome then (s, some (.only .busy))
  else k

/-- An answer that changes nothing. -/
def State.answer (s : State) (st : Status) (fields : List Byte) : State × Option Reply := (s, some ⟨st, fields⟩)

/-- BAD_INDEX: an index outside its range (R163, step 4). -/
def State.badIndex (s : State) : State × Option Reply := s.answer .badIndex []

/-! ### Whole-part requests -/

/-- A request of no known code (R163, step 1). -/
def handleUnknown : Handler := fun _ s => s.answer .badValue []

/-- IDENTIFY (R165). -/
def handleIdentify : Handler := fun _ s =>
  let flags := flagBit (s.tables.mode == .run) 0 + flagBit s.store.invalidFlag 1 + flagBit s.store.commit.isSome 2
  s.answer .ok (leBytes 2 Config.vendorCode ++ leBytes 2 Config.partCode ++
    [Config.deviceRevision, BitVec.ofNat 8 flags])

/-- ENTER SETUP (R166). -/
def handleEnterSetup : Handler := fun _ s =>
  s.gate none true (match s.tables.mode with
    | .run => (s.setupEntry, some (.only .ok))
    | .setup => s.answer .ok [])

/-- ENTER RUN (R167, R16). -/
def handleEnterRun : Handler := fun _ s =>
  s.gate none true (match s.tables.mode with
    | .run => s.answer .ok []
    | .setup =>
      match firstInconsistent s.tables.tables.profiles with
      | some (i, k) => s.answer .inconsistent [BitVec.ofNat 8 i, BitVec.ofNat 8 k]
      | none => (s.runEntry, some (.only .ok)))

/-- COMMIT (R169): accepted, it hands no response. -/
def handleCommit : Handler := fun _ s => s.gate none true (s.beginCommit, none)

/-- RESTART (R172). -/
def handleRestart : Handler := fun _ s => s.gate none true (s.softRestart, some (.only .ok))

/-- RESTART CHAIN (R173). -/
def handleRestartChain : Handler := fun _ s => (s.chainRestart, some (.only .ok))

/-! ### The tables (R5, R7, R9) -/

/-- The fitted state as READ MAP ROW gives it: 0 fitted, 1 not fitted, 2 no count known (R5). -/
def fittedState (count : Option Nat) (c : Circ) : Nat :=
  if count.isNone then 2 else if countReaches count c then 0 else 1

/-- The response fields of WRITE MAP ROW and READ MAP ROW (R176). -/
def State.rowFields (s : State) (p : Pos) (c : Circ) : List Byte :=
  let r := s.rowAt p c
  let bits := flagBit r.checkEnable 0 + flagBit r.critical 1 + flagBit s.tables.rowTouched[p][c] 2
  [BitVec.ofNat 8 (functionByte r.function), BitVec.ofNat 8 r.profile.val, BitVec.ofNat 8 bits,
   BitVec.ofNat 8 (fittedState (s.posAt p).circuitCount c)]

/-- A row replaced and its touched mark set (R5, R14). -/
def State.setRow (s : State) (p : Pos) (c : Circ) (r : MapRow) : State :=
  s.updTables fun t =>
    { t with
      tables := { t.tables with map := upd t.tables.map p fun rows => upd rows c fun _ => r }
      rowTouched := upd t.rowTouched p fun marks => upd marks c fun _ => true }

/-- WRITE MAP ROW (R5). -/
def handleWriteMapRow : Handler := fun d s =>
  s.gate (some .setup) true (match indexOf 6 (byteAt d 1), indexOf 12 (byteAt d 2) with
    | some p, some c =>
      match functionOf (byteAt d 3), profileOf (byteAt d 4) with
      | some f, some pr =>
        let bits := byteAt d 5
        let s1 := (s.setRow p c ⟨f, pr, bitsAt bits 0 1 == 1, bitsAt bits 1 1 == 1⟩).recompose
        (s1, some ⟨.ok, s1.rowFields p c⟩)
      | _, _ => s.answer .badValue []
    | _, _ => s.badIndex)

/-- READ MAP ROW (R5). -/
def handleReadMapRow : Handler := fun d s =>
  match indexOf 6 (byteAt d 1), indexOf 12 (byteAt d 2) with
  | some p, some c => s.answer .ok (s.rowFields p c)
  | _, _ => s.badIndex

/-- A profile replaced and its touched mark set (R7, R14). -/
def State.setProfile (s : State) (i : ProfileNo) (pr : Profile) : State :=
  s.updTables fun t =>
    { t with
      tables := { t.tables with profiles := upd t.tables.profiles i fun _ => pr }
      profileTouched := upd t.profileTouched i fun _ => true }

/-- The status of a write whose fields were clamped or not (R7, R9). -/
def clampStatus (clamped : Bool) : Status := if clamped then .okClamped else .ok

/-- WRITE PROFILE A (R7). -/
def handleWriteProfileA : Handler := fun d s =>
  s.gate (some .setup) true (match profileOf (byteAt d 1) with
    | some i =>
      let raw := rawHalfA (numberAt d 2 6) s.tables.tables.profiles[i]
      (s.setProfile i (clampHalfA raw), some ⟨clampStatus (clampHalfA raw != raw), leBytes 6 (packHalfA (clampHalfA raw) true)⟩)
    | none => s.badIndex)

/-- WRITE PROFILE B (R7). -/
def handleWriteProfileB : Handler := fun d s =>
  s.gate (some .setup) true (match profileOf (byteAt d 1) with
    | some i =>
      let raw := rawHalfB (numberAt d 2 6) s.tables.tables.profiles[i]
      (s.setProfile i (clampHalfB raw), some ⟨clampStatus (clampHalfB raw != raw), leBytes 6 (packHalfB (clampHalfB raw) true)⟩)
    | none => s.badIndex)

/-- READ PROFILE A (R7). -/
def handleReadProfileA : Handler := fun d s =>
  match profileOf (byteAt d 1) with
  | some i => s.answer .ok (leBytes 6 (packHalfA s.tables.tables.profiles[i] s.tables.profileTouched[i]))
  | none => s.badIndex

/-- READ PROFILE B (R7). -/
def handleReadProfileB : Handler := fun d s =>
  match profileOf (byteAt d 1) with
  | some i => s.answer .ok (leBytes 6 (packHalfB s.tables.tables.profiles[i] s.tables.profileTouched[i]))
  | none => s.badIndex

/-- The value a write of setting `i` holds after clamping (R9). -/
def clampedSetting (i v : Nat) : Nat := clamp (settingRange i).1 (settingRange i).2 v

/-- An identifier that another identifier setting already holds (R9, step 4). -/
def State.idTaken (s : State) (i v : Nat) : Bool :=
  decide (11 ≤ i) && (otherIds i).any fun j => s.settings.read j == v

/-- A setting written (R9). -/
def State.setSetting (s : State) (i v : Nat) : State :=
  s.updTables fun t => { t with tables := { t.tables with settings := t.tables.settings.write i v } }

/-- The expiries that a shortened interval has already reached, taken at the write (R10). Several positions that run out at
one write are taken in ascending order (DESIGN CHOICE, log entry 19). -/
def State.expireAtWrite (s : State) (i : Nat) : State :=
  match i with
  | 1 => s.pollExpiry
  | 2 => allPos.foldl State.lossExpiry s
  | 3 => allPos.foldl State.absenceExpiry s
  | 9 => s.silenceExpiry
  | 10 => s.periodExpiry
  | _ => s

/-- WRITE SETTING (R9, R10). -/
def handleWriteSetting : Handler := fun d s =>
  s.gate (some .setup) true (
    let i := byteAt d 1
    let v := numberAt d 2 2
    let held := clampedSetting i v
    if 1 ≤ i ∧ i ≤ 14 then
      if s.idTaken i held then s.answer .badValue []
      else
        (((s.setSetting i held).expireAtWrite i).transmit.recompose,
          some ⟨clampStatus (held != v), leBytes 2 held⟩)
    else s.badIndex)

/-- READ SETTING (R9). -/
def handleReadSetting : Handler := fun d s =>
  let i := byteAt d 1
  if 1 ≤ i ∧ i ≤ 14 then s.answer .ok (leBytes 2 (s.settings.read i)) else s.badIndex

/-! ### Inspection (R165, R158) -/

/-- Milliseconds since a time, 0 to 65535, saturating, 0 when the time is absent (R165, R176). -/
def State.since (s : State) (t : Option Time) : Nat :=
  match t with
  | some t => min 65535 (s.now - t)
  | none => 0

/-- READ POSITION's parts (R165, R176). -/
def State.positionPart (s : State) (p : Pos) (part : Nat) : Option (List Byte) :=
  let r := s.posAt p
  match part with
  | 1 => some (BitVec.ofNat 8 (r.state.code + flagBit r.identity.isSome 6 + flagBit r.downstreamLoad 7) ::
      leBytes 4 (r.identity.getD 0).toNat ++ leBytes 1 (r.circuitCount.getD 0))
  | 2 => some (BitVec.ofNat 8 (flagBit r.supplyLow 0 + flagBit r.feedLost 1 + flagBit r.linkDegraded 2
        + flagBit r.identityClash 3) :: leBytes 1 r.probeAttempts ++ leBytes 2 r.linkErrors)
  | 3 => some (leBytes 2 (s.since r.lastHeard) ++ leBytes 2 (s.since r.lostSince) ++
      leBytes 1 (flagBit r.lastHeard.isSome 0 + flagBit r.lostSince.isSome 1))
  | _ => none

/-- READ POSITION (R165). -/
def handleReadPosition : Handler := fun d s =>
  match indexOf 6 (byteAt d 1) with
  | some p =>
    match s.positionPart p (byteAt d 2) with
    | some fields => s.answer .ok fields
    | none => s.badIndex
  | none => s.badIndex

/-- A baseline record as READ CIRCUIT 1 gives it: state, and learning count or 0xFF (R176). -/
def baselineBytes : Baseline → List Byte
  | .none => [0, 0xFF]
  | .learning n _ _ => [1, BitVec.ofNat 8 n]
  | .learned _ _ => [2, 0xFF]

/-- A LEARNED baseline's current and voltage, else zeros (R176). -/
def baselineValues : Baseline → List Byte
  | .learned b vb => leBytes 2 b ++ leBytes 2 vb
  | _ => [0, 0, 0, 0]

/-- READ CIRCUIT's parts (R165, R176). With the last reading absent, part 2 carries 0 in its marks, entry kind and verdict
(DESIGN CHOICE, log entry 20). -/
def circuitPart (k : Circuit) (part : Nat) : Option (List Byte) :=
  match part with
  | 1 => some ([BitVec.ofNat 8 k.condition.code,
      BitVec.ofNat 8 (match k.candidate with | some v => v.code | none => 0), BitVec.ofNat 8 k.agreement] ++
      baselineBytes k.baseline)
  | 2 => some (baselineValues k.baseline ++ (match k.last with
      | some l => [BitVec.ofNat 8 (1 + flagBit l.againstBaseline 1 + flagBit l.withdrawn 2 + 2 ^ 4 * l.kind.code),
          BitVec.ofNat 8 l.verdict.code]
      | none => [0, 0]))
  | 3 => some (match k.last with
      | some l => leBytes 3 (l.current + 2 ^ 12 * l.expected) ++ leBytes 2 l.supply ++ leBytes 1 l.ratio
      | none => [])
  | _ => none

/-- READ CIRCUIT (R165). -/
def handleReadCircuit : Handler := fun d s =>
  match indexOf 6 (byteAt d 1), indexOf 12 (byteAt d 2) with
  | some p, some c =>
    match circuitPart (s.circAt p c) (byteAt d 3) with
    | some fields => s.answer .ok fields
    | none => s.badIndex
  | _, _ => s.badIndex

/-- READ FAULT's parts (R165, R176). -/
def faultPart (e : FaultEntry) (part : Nat) : Option (List Byte) :=
  match part with
  | 1 => some (leBytes 2 e.sequence ++ [BitVec.ofNat 8 (e.key.pos.val + 1),
      BitVec.ofNat 8 (match e.key.circ with | some c => c.val + 1 | none => 0),
      BitVec.ofNat 8 (e.key.kind.code + flagBit (!e.active) 7), BitVec.ofNat 8 e.count])
  | 2 => some (leBytes 2 e.sequence ++ leBytes 4 e.firstSeen)
  | _ => none

/-- READ FAULT (R158). -/
def handleReadFault : Handler := fun d s =>
  match s.image.faults[byteAt d 1]? with
  | some e =>
    match faultPart e (byteAt d 2) with
    | some fields => s.answer .ok fields
    | none => s.badIndex
  | none => s.badIndex

/-- CLEAR HEALED (R157). -/
def handleClearHealed : Handler := fun _ s =>
  let removed := s.image.faults.countP (!·.active)
  ((s.updImage fun ib => { ib with faults := ib.faults.filter (·.active), overflow := false }).recompose,
    some ⟨.ok, [BitVec.ofNat 8 removed]⟩)

/-! ### Counters, checks, baselines (R52, R125, R106, R113) -/

/-- One position's counters copied into the snapshot and zeroed (R52). -/
def State.snapPos (s : State) (p : Pos) : State :=
  (s.updChain fun ch =>
    { ch with
      snapshot := { ch.snapshot with positions := upd ch.snapshot.positions p fun _ => (s.posAt p).counters } }).updPos p
    fun r => { r with counters := PosCounters.zero }

/-- The six chain-wide counters copied into the snapshot and zeroed (R52). -/
def State.snapChain (s : State) : State :=
  s.updChain fun ch => { ch with snapshot := { ch.snapshot with chain := ch.counters }, counters := ChainCounters.zero }

/-- SNAPSHOT COUNTERS (R52). -/
def handleSnapshotCounters : Handler := fun d s =>
  if byteAt d 1 = 0 then ((allPos.foldl State.snapPos s).snapChain, some (.only .ok))
  else
    match indexOf 6 (byteAt d 1) with
    | some p => (s.snapPos p, some (.only .ok))
    | none => s.badIndex

/-- The three snapshot values of a group (R52). -/
def snapshotGroup (sn : Snapshot) (g : Nat) : Option (Nat × Nat × Nat) :=
  match indexOf 6 g with
  | some p => some (sn.positions[p].linkErrorsTotal, sn.positions[p].missedAnswers, sn.positions[p].superseded)
  | none =>
    if g = 7 then some (sn.chain.badTelegrams, sn.chain.staleReports, sn.chain.untrackedChanges)
    else if g = 8 then some (sn.chain.skippedPolls, sn.chain.droppedRequests, sn.chain.malformedFrames)
    else none

/-- READ SNAPSHOT (R52). -/
def handleReadSnapshot : Handler := fun d s =>
  match snapshotGroup s.chain.snapshot (byteAt d 1) with
  | some (a, b, c) => s.answer .ok (leBytes 2 a ++ leBytes 2 b ++ leBytes 2 c)
  | none => s.badIndex

/-- FULL CHECK (R125). -/
def handleFullCheck : Handler := fun _ s =>
  s.gate (some .run) false (s.markDue, some ⟨.ok, [BitVec.ofNat 8 s.checkableCount]⟩)

/-- FORGET BASELINES (R106). -/
def handleForgetBaselines : Handler := fun d s =>
  if byteAt d 1 = 0 then (s.forgetBaselines none, some (.only .ok))
  else
    match indexOf 6 (byteAt d 1) with
    | some p => (s.forgetBaselines (some p), some (.only .ok))
    | none => s.badIndex

/-- FORGET HISTORY (R113). -/
def handleForgetHistory : Handler := fun _ s => ({ s with cache := [] }, some (.only .ok))

/-! ### Frames by their identifier (R159) -/

/-- The handler of a request code (R176); any other code is unknown. -/
def handlerOf (code : Byte) : Handler :=
  if code = 0x01 then handleIdentify
  else if code = 0x02 then handleEnterSetup
  else if code = 0x03 then handleEnterRun
  else if code = 0x04 then handleCommit
  else if code = 0x05 then handleRestart
  else if code = 0x06 then handleRestartChain
  else if code = 0x10 then handleWriteMapRow
  else if code = 0x11 then handleReadMapRow
  else if code = 0x12 then handleWriteProfileA
  else if code = 0x13 then handleWriteProfileB
  else if code = 0x14 then handleReadProfileA
  else if code = 0x15 then handleReadProfileB
  else if code = 0x16 then handleWriteSetting
  else if code = 0x17 then handleReadSetting
  else if code = 0x20 then handleReadPosition
  else if code = 0x21 then handleReadCircuit
  else if code = 0x22 then handleReadFault
  else if code = 0x23 then handleClearHealed
  else if code = 0x24 then handleSnapshotCounters
  else if code = 0x25 then handleReadSnapshot
  else if code = 0x26 then handleFullCheck
  else if code = 0x27 then handleForgetBaselines
  else if code = 0x28 then handleForgetHistory
  else handleUnknown

/-- A frame with all its data bytes, taken by its form and identifier (R159): a standard data frame on the command
identifier is a lamp command frame, one on the request identifier a request handled by `h`; any other is ignored and
counted nowhere. -/
def State.takeFrame (s : State) (f : BusFrame) (d : List Byte) (h : Handler) : State :=
  if f.format = .standardData then
    if f.ident = s.port.commandId then s.takeCommandFrame d
    else if f.ident = s.port.requestId then s.takeRequest d h
    else s
  else s

/-! ### FRAME_CARRIED (R159, R162) and the end of a commit (R170) -/

/-- The bus carries the oldest frame of the transmit list. The response to the request in the buffer empties it (R162),
and from then on the written identifiers apply to the frames taken (R11). -/
def State.frameCarried (s : State) : State :=
  match s.port.transmit with
  | [] => s
  | fr :: rest =>
    let s1 := s.updPort fun po => { po with transmit := rest }
    if fr.kind = .response then
      s1.updPort fun po =>
        { po with
          request := none, commandId := canId s.settings.commandId, requestId := canId s.settings.requestId }
    else s1

/-- A commit that has run for a time greater than 0 (R169): a later millisecond than the one it began in (DEDUCED, log
entry 14). -/
def Commit.hasRun (k : Commit) (now : Time) : Bool := decide (k.start < now)

/-- COMMIT_COMPLETE (R169, R170): the contents taken are in the store, which is valid; the flags clear; the COMMIT's response
is handed, outside the request buffer. In the millisecond the commit began in, its time has not come (log entry 5). -/
def State.commitDone (s : State) : State :=
  match s.store.commit with
  | some k =>
    if k.hasRun s.now then
      (s.updStore fun _ => ⟨k.contents, true, false, none⟩).handResponse .commitResponse
        (canId s.settings.responseId) 0x04 (.only .ok)
    else s
  | none => s

end Sys2Proof.Machine
end

