-- ==== Sys2Proof/Machine/PortCommands.lean ====
section
/-! DEFINITION. The meanings of the commands of the tractor port: resets, lamp command frames, each management request by
its code, frames carried, and the end of a commit (chapter 9). -/

namespace Sys2Proof.Machine

/-- HARD_RESET (R171). -/
def execHardReset (s : State) : Host.Outcome State Fault Refusal := .next s.hardReset

/-- LAMP_COMMAND_FRAME (R160). A frame that arrives on the request identifier instead is a request of the code its byte 0
holds (R159, R163). -/
def execLampCommandFrame (f : BusFrame) (s : State) : Host.Outcome State Fault Refusal :=
  .next (s.takeFrame f f.data (handlerOf (f.data.getD 0 0)))

/-- UNKNOWN_REQUEST (R163): all data bytes; byte 0 is none of the codes of R176. -/
def execUnknownRequest (f : BusFrame) (s : State) : Host.Outcome State Fault Refusal :=
  .next (s.takeFrame f f.data handleUnknown)

/-- IDENTIFY (R165). -/
def execIdentify (f : BusFrame) (s : State) : Host.Outcome State Fault Refusal :=
  .next (s.takeFrame f (0x01 :: f.data) handleIdentify)

/-- ENTER_SETUP (R166). -/
def execEnterSetup (f : BusFrame) (s : State) : Host.Outcome State Fault Refusal :=
  .next (s.takeFrame f (0x02 :: f.data) handleEnterSetup)

/-- ENTER_RUN (R167, R17). -/
def execEnterRun (f : BusFrame) (s : State) : Host.Outcome State Fault Refusal :=
  .next (s.takeFrame f (0x03 :: f.data) handleEnterRun)

/-- WRITE_MAP_ROW (R5). -/
def execWriteMapRow (f : BusFrame) (s : State) : Host.Outcome State Fault Refusal :=
  .next (s.takeFrame f (0x10 :: f.data) handleWriteMapRow)

/-- READ_MAP_ROW (R5). -/
def execReadMapRow (f : BusFrame) (s : State) : Host.Outcome State Fault Refusal :=
  .next (s.takeFrame f (0x11 :: f.data) handleReadMapRow)

/-- WRITE_PROFILE_A (R7). -/
def execWriteProfileA (f : BusFrame) (s : State) : Host.Outcome State Fault Refusal :=
  .next (s.takeFrame f (0x12 :: f.data) handleWriteProfileA)

/-- WRITE_PROFILE_B (R7). -/
def execWriteProfileB (f : BusFrame) (s : State) : Host.Outcome State Fault Refusal :=
  .next (s.takeFrame f (0x13 :: f.data) handleWriteProfileB)

/-- READ_PROFILE_A (R7). -/
def execReadProfileA (f : BusFrame) (s : State) : Host.Outcome State Fault Refusal :=
  .next (s.takeFrame f (0x14 :: f.data) handleReadProfileA)

/-- READ_PROFILE_B (R7). -/
def execReadProfileB (f : BusFrame) (s : State) : Host.Outcome State Fault Refusal :=
  .next (s.takeFrame f (0x15 :: f.data) handleReadProfileB)

/-- WRITE_SETTING (R9, R10). -/
def execWriteSetting (f : BusFrame) (s : State) : Host.Outcome State Fault Refusal :=
  .next (s.takeFrame f (0x16 :: f.data) handleWriteSetting)

/-- READ_SETTING (R9). -/
def execReadSetting (f : BusFrame) (s : State) : Host.Outcome State Fault Refusal :=
  .next (s.takeFrame f (0x17 :: f.data) handleReadSetting)

/-- COMMIT (R169). -/
def execCommit (f : BusFrame) (s : State) : Host.Outcome State Fault Refusal :=
  .next (s.takeFrame f (0x04 :: f.data) handleCommit)

/-- RESTART (R172). -/
def execRestart (f : BusFrame) (s : State) : Host.Outcome State Fault Refusal :=
  .next (s.takeFrame f (0x05 :: f.data) handleRestart)

/-- RESTART_CHAIN (R173, R37). -/
def execRestartChain (f : BusFrame) (s : State) : Host.Outcome State Fault Refusal :=
  .next (s.takeFrame f (0x06 :: f.data) handleRestartChain)

/-- READ_POSITION (R165). -/
def execReadPosition (f : BusFrame) (s : State) : Host.Outcome State Fault Refusal :=
  .next (s.takeFrame f (0x20 :: f.data) handleReadPosition)

/-- READ_CIRCUIT (R165). -/
def execReadCircuit (f : BusFrame) (s : State) : Host.Outcome State Fault Refusal :=
  .next (s.takeFrame f (0x21 :: f.data) handleReadCircuit)

/-- READ_FAULT (R158). -/
def execReadFault (f : BusFrame) (s : State) : Host.Outcome State Fault Refusal :=
  .next (s.takeFrame f (0x22 :: f.data) handleReadFault)

/-- CLEAR_HEALED (R157). -/
def execClearHealed (f : BusFrame) (s : State) : Host.Outcome State Fault Refusal :=
  .next (s.takeFrame f (0x23 :: f.data) handleClearHealed)

/-- SNAPSHOT_COUNTERS (R52). -/
def execSnapshotCounters (f : BusFrame) (s : State) : Host.Outcome State Fault Refusal :=
  .next (s.takeFrame f (0x24 :: f.data) handleSnapshotCounters)

/-- READ_SNAPSHOT (R52). -/
def execReadSnapshot (f : BusFrame) (s : State) : Host.Outcome State Fault Refusal :=
  .next (s.takeFrame f (0x25 :: f.data) handleReadSnapshot)

/-- FULL_CHECK (R125). -/
def execFullCheck (f : BusFrame) (s : State) : Host.Outcome State Fault Refusal :=
  .next (s.takeFrame f (0x26 :: f.data) handleFullCheck)

/-- FORGET_BASELINES (R106). -/
def execForgetBaselines (f : BusFrame) (s : State) : Host.Outcome State Fault Refusal :=
  .next (s.takeFrame f (0x27 :: f.data) handleForgetBaselines)

/-- FORGET_HISTORY (R113). -/
def execForgetHistory (f : BusFrame) (s : State) : Host.Outcome State Fault Refusal :=
  .next (s.takeFrame f (0x28 :: f.data) handleForgetHistory)

/-- FRAME_CARRIED (R159, R162). -/
def execFrameCarried (s : State) : Host.Outcome State Fault Refusal := .next s.frameCarried

/-- COMMIT_COMPLETE (R169, R170). -/
def execCommitComplete (s : State) : Host.Outcome State Fault Refusal := .next s.commitDone

end Sys2Proof.Machine
end

