-- ==== Sys2Proof/Machine/Dispatch.lean ====
section
/-! DEFINITION. The meaning of each command, one arm per row of spec/opcode_table.json. -/

namespace Sys2Proof.Machine

def exec (i : Instr) (s : State) : Host.Outcome State Fault Refusal :=
  match i with
  | .hardReset => Sys2Proof.Machine.execHardReset s
  | .connectChange high => Sys2Proof.Machine.execConnectChange high s
  | .connectDebouncedRise => Sys2Proof.Machine.execConnectDebouncedRise s
  | .connectDebouncedFall => Sys2Proof.Machine.execConnectDebouncedFall s
  | .lampCommandFrame f => Sys2Proof.Machine.execLampCommandFrame f s
  | .unknownRequest f => Sys2Proof.Machine.execUnknownRequest f s
  | .identify f => Sys2Proof.Machine.execIdentify f s
  | .enterSetup f => Sys2Proof.Machine.execEnterSetup f s
  | .enterRun f => Sys2Proof.Machine.execEnterRun f s
  | .writeMapRow f => Sys2Proof.Machine.execWriteMapRow f s
  | .readMapRow f => Sys2Proof.Machine.execReadMapRow f s
  | .writeProfileA f => Sys2Proof.Machine.execWriteProfileA f s
  | .writeProfileB f => Sys2Proof.Machine.execWriteProfileB f s
  | .readProfileA f => Sys2Proof.Machine.execReadProfileA f s
  | .readProfileB f => Sys2Proof.Machine.execReadProfileB f s
  | .writeSetting f => Sys2Proof.Machine.execWriteSetting f s
  | .readSetting f => Sys2Proof.Machine.execReadSetting f s
  | .commit f => Sys2Proof.Machine.execCommit f s
  | .commitComplete => Sys2Proof.Machine.execCommitComplete s
  | .restart f => Sys2Proof.Machine.execRestart f s
  | .restartChain f => Sys2Proof.Machine.execRestartChain f s
  | .readPosition f => Sys2Proof.Machine.execReadPosition f s
  | .readCircuit f => Sys2Proof.Machine.execReadCircuit f s
  | .readFault f => Sys2Proof.Machine.execReadFault f s
  | .clearHealed f => Sys2Proof.Machine.execClearHealed f s
  | .snapshotCounters f => Sys2Proof.Machine.execSnapshotCounters f s
  | .readSnapshot f => Sys2Proof.Machine.execReadSnapshot f s
  | .fullCheck f => Sys2Proof.Machine.execFullCheck f s
  | .forgetBaselines f => Sys2Proof.Machine.execForgetBaselines f s
  | .forgetHistory f => Sys2Proof.Machine.execForgetHistory f s
  | .frameCarried => Sys2Proof.Machine.execFrameCarried s
  | .telltaleSpacingExpiry => Sys2Proof.Machine.execTelltaleSpacingExpiry s
  | .telltalePeriodExpiry => Sys2Proof.Machine.execTelltalePeriodExpiry s
  | .commandSilenceExpiry => Sys2Proof.Machine.execCommandSilenceExpiry s
  | .operatingSecond => Sys2Proof.Machine.execOperatingSecond s
  | .pollDue => Sys2Proof.Machine.execPollDue s
  | .checkBudgetReady => Sys2Proof.Machine.execCheckBudgetReady s
  | .downstreamTelegramDone ab => Sys2Proof.Machine.execDownstreamTelegramDone ab s
  | .report t ab => Sys2Proof.Machine.execReport t ab s
  | .ident t ab => Sys2Proof.Machine.execIdent t ab s
  | .enumTimeout p => Sys2Proof.Machine.execEnumTimeout p s
  | .queryWindowEnd p => Sys2Proof.Machine.execQueryWindowEnd p s
  | .lossIntervalExpiry p => Sys2Proof.Machine.execLossIntervalExpiry p s
  | .absenceIntervalExpiry p => Sys2Proof.Machine.execAbsenceIntervalExpiry p s
  | .deadline tag => Sys2Proof.Machine.execDeadline tag s
  | .linkErrorIntervalEnd => Sys2Proof.Machine.execLinkErrorIntervalEnd s
  | .badUpstreamTelegram bytes ab => Sys2Proof.Machine.execBadUpstreamTelegram bytes ab s

end Sys2Proof.Machine
end

