-- ==== Sys2Proof/Safety.lean ====
section
/-! DEFINITION. What a sound state of the T640 is, block by block: the bounds, shapes and agreements that the manual says
always hold. Each is a decidable predicate of a state that `step` is to keep. -/

namespace Sys2Proof.Machine

/-! ### Chain Master -/

/-- The states of P1 to P6 form a run of ACTIVE and LOST positions, then at most one PROBING or PASSIVE position, then ABSENT
positions: every position above one that is not ACTIVE or LOST is ABSENT (R24). -/
abbrev State.ChainShape (s : State) : Prop :=
  ∀ p q : Pos, p < q → (s.posAt p).state.onChain = false → (s.posAt q).state = .absent

/-- A position record holds what its state allows (R23): identity, circuit count and last-heard time exactly while ACTIVE
or LOST, the count 1 to 12, a LOST-since time exactly while LOST, at most three probe attempts, and an ABSENT record its
ABSENT values; the four flags are clear and the link error count is 0 at a position that is neither ACTIVE nor LOST
(R135). -/
abbrev Position.Sound (r : Position) : Prop :=
  (r.identity.isSome = r.state.onChain) ∧ (r.circuitCount.isSome = r.state.onChain) ∧
  (r.lastHeard.isSome = r.state.onChain) ∧ (r.lostSince.isSome = (r.state == .lost)) ∧
  (∀ n ∈ r.circuitCount, 1 ≤ n ∧ n ≤ 12) ∧ r.probeAttempts ≤ Config.enumAttempts ∧
  (r.state = .absent → r = Position.absent r.counters) ∧
  (r.state.onChain = false → r.supplyLow = false ∧ r.feedLost = false ∧ r.linkDegraded = false ∧
    r.identityClash = false ∧ r.linkErrors = 0 ∧ r.downstreamLoad = false)

/-- Every position record is sound. -/
abbrev State.RecordsSound (s : State) : Prop := ∀ p : Pos, (s.posAt p).Sound

/-- ENUMs and QUERYs (R26, R32): none is pending twice; a pending ENUM is a PROBING position's with no attempt running and
attempts left; a pending QUERY is a LOST position's with no window open; an attempt's timeout runs at a PROBING position
alone, and a QUERY's window at a LOST one. -/
abbrev State.RequestsSound (s : State) : Prop :=
  s.chain.linkRequests.Nodup ∧ ∀ p : Pos,
    (.enum p ∈ s.chain.linkRequests → (s.posAt p).state = .probing ∧ (s.posAt p).enumTimeout = none ∧
      (s.posAt p).probeAttempts < Config.enumAttempts) ∧
    (.query p ∈ s.chain.linkRequests → (s.posAt p).state = .lost ∧ (s.posAt p).queryUntil = none) ∧
    ((s.posAt p).enumTimeout.isSome = true → (s.posAt p).state = .probing) ∧
    ((s.posAt p).queryUntil.isSome = true → (s.posAt p).state = .lost)

/-- The three counters of a place lie in their range (R51). -/
abbrev PosCounters.InRange (k : PosCounters) : Prop :=
  k.linkErrorsTotal ≤ Config.counterMax ∧ k.missedAnswers ≤ Config.counterMax ∧ k.superseded ≤ Config.counterMax

/-- The six chain-wide counters lie in their range (R51). -/
abbrev ChainCounters.InRange (k : ChainCounters) : Prop :=
  k.badTelegrams ≤ Config.counterMax ∧ k.staleReports ≤ Config.counterMax ∧ k.untrackedChanges ≤ Config.counterMax ∧
  k.skippedPolls ≤ Config.counterMax ∧ k.droppedRequests ≤ Config.counterMax ∧ k.malformedFrames ≤ Config.counterMax

/-- Every counter, the interval link error counts and the snapshot lie in their range (R23, R51, R52). -/
abbrev State.CountersInRange (s : State) : Prop :=
  (∀ p : Pos, (s.posAt p).counters.InRange ∧ (s.posAt p).linkErrors ≤ Config.counterMax) ∧
  s.chain.counters.InRange ∧ (∀ p : Pos, (s.chain.snapshot.positions[p]).InRange) ∧ s.chain.snapshot.chain.InRange

/-! ### Expectation Queue -/

/-- At most 16 entries are live, at most 12 of them POLL and CHECK (R53, R61). -/
abbrev State.QueueBounded (s : State) : Prop :=
  s.queue.entries.length ≤ Config.queueCapacity ∧ s.queue.entries.countP Entry.isPollCheck ≤ Config.pollCheckLimit

/-- The live entries hold consecutive tags in allocation order, the tag counter's value coming next (R53). -/
abbrev State.TagsInOrder (s : State) : Prop :=
  s.queue.tagCounter < 255 ∧ s.queue.entries.length ≤ Config.queueCapacity ∧
  s.queue.entries.map (·.tag) =
    (List.range s.queue.entries.length).map fun i => (s.queue.tagCounter + 255 - s.queue.entries.length + i) % 255

/-- While the mode is SETUP the queue holds no entries (R75). -/
abbrev State.SetupQuiet (s : State) : Prop := s.tables.mode = .setup → s.queue.entries = []

/-! ### Map Tables and Settings Store -/

/-- Every setting lies in its range and the four identifiers are distinct (R8, R9). -/
abbrev Settings.Sound (t : Settings) : Prop :=
  (∀ i ∈ List.range' 1 14, clampedSetting i (t.read i) = t.read i) ∧
  [t.commandId, t.telltaleId, t.requestId, t.responseId].Nodup

/-- Every profile lies in its ranges and the settings are sound (R6, R8, R9). -/
abbrev Tables.Sound (t : Tables) : Prop := (∀ i : ProfileNo, t.profiles[i].inRange = true) ∧ t.settings.Sound

/-- The tables in use, those in the store and those a commit took are sound. -/
abbrev State.TablesSound (s : State) : Prop :=
  s.tables.tables.Sound ∧ s.store.contents.Sound ∧ ∀ k ∈ s.store.commit, k.contents.Sound

/-! ### History Cache -/

/-- At most 8 entries, with distinct identities (R107). -/
abbrev State.CacheSound (s : State) : Prop :=
  s.cache.length ≤ Config.cacheCapacity ∧ (s.cache.map (·.identity)).Nodup

/-! ### Image Builder -/

/-- At most 32 entries, with distinct keys, occurrence counts of 1 to 255 and 16-bit sequence numbers (R152); the overflow
flag is set over no empty list (R142, R156). -/
abbrev State.FaultListSound (s : State) : Prop :=
  s.image.faults.length ≤ Config.faultCapacity ∧ (s.image.faults.map (·.key)).Nodup ∧
  (∀ e ∈ s.image.faults, 1 ≤ e.count ∧ e.count ≤ 255 ∧ e.sequence < 65536) ∧ s.image.sequence < 65536 ∧
  (s.image.overflow = true → s.image.faults ≠ [])

/-- The telltale image is the composition of its inputs, and LAMP_ALERT is asserted exactly while the summary is RED
(R143, R147). -/
abbrev State.ImageCurrent (s : State) : Prop :=
  s.image.telltale = s.compose ∧ s.image.lampAlert = (s.image.telltale.summary == .red)

/-! ### Check Scheduler -/

/-- A position's check time list holds at most four times, and no position has more than two live CHECK entries
(R114, R117). -/
abbrev State.ChecksBounded (s : State) : Prop :=
  ∀ p : Pos, s.checks.times[p].length ≤ Config.checkBudget ∧
    s.queue.entries.countP (·.checksAt p none) ≤ Config.liveChecksPerPos

/-! ### Tractor Port -/

/-- The transmit list holds at most one telltale frame (R159), and one response to the request in the buffer exactly
while the buffer is full (R162). -/
abbrev State.TransmitSound (s : State) : Prop :=
  s.port.transmit.countP (·.kind == .telltale) ≤ 1 ∧
  s.port.transmit.countP (·.kind == .response) = (if s.port.request.isSome then 1 else 0)

/-! ### Across blocks -/

/-- An entry awaits and holds the answers of ACTIVE positions alone: its required positions are ACTIVE, it has answered
positions only among them, and its answers come from those (R31, R68, R80); a WAITING entry has none of them (R54), and the
target of a WAITING CHECK is ACTIVE (R31, R116). -/
abbrev State.AnswersActive (s : State) : Prop :=
  ∀ e ∈ s.queue.entries,
    (e.state = .waiting → e.required = 0 ∧ e.answered = 0 ∧ e.answers = [] ∧
      ∀ g ∈ e.target, s.isActive g.pos = true) ∧
    ∀ p : Pos,
      (hasPos e.required p = true → s.isActive p = true) ∧
      (hasPos e.answered p = true → hasPos e.required p = true) ∧
      ((∃ a ∈ e.answers, a.pos = p) → hasPos e.answered p = true)

/-- Every circuit of a position that is neither ACTIVE nor LOST holds what it holds at reset (R35, R95, R99, R124, R127), and
one that its position's count does not reach has condition UNKNOWN, baseline NONE and no confirmation state (R3, R33, R146). -/
abbrev State.UnfittedClear (s : State) : Prop :=
  ∀ (p : Pos) (c : Circ),
    ((s.posAt p).state.onChain = false → s.circAt p c = Circuit.clear) ∧
    (countReaches (s.posAt p).circuitCount c = false →
      (s.circAt p c).condition = .unknown ∧ (s.circAt p c).baseline = .none ∧ (s.circAt p c).candidate = none ∧
        (s.circAt p c).agreement = 0 ∧ (s.circAt p c).last = none)

/-- The fault a key names stands: its circuit is in the condition of that kind, or its position has that flag (R130). -/
def State.stands (s : State) (k : FaultKey) : Bool :=
  match k.circ, k.kind with
  | some c, kind => (s.circAt k.pos c).condition.fault == some kind
  | none, .feedLoss => (s.posAt k.pos).feedLost
  | none, .linkDegraded => (s.posAt k.pos).linkDegraded
  | none, .identityClash => (s.posAt k.pos).identityClash
  | none, _ => false

/-- Every listed fault is a fault of an ACTIVE or LOST position, and one listed active stands (R130, R152). -/
abbrev State.FaultsStand (s : State) : Prop :=
  ∀ e ∈ s.image.faults, (s.posAt e.key.pos).state.onChain = true ∧ (e.active = true → s.stands e.key = true)

/-- The chain's shape and records, its pending requests, the entries' tags and answers, the records of empty places and
unfitted circuits, and the listed faults, which hold each other up. -/
abbrev State.ChainSound (s : State) : Prop :=
  s.ChainShape ∧ s.RecordsSound ∧ s.RequestsSound ∧ s.TagsInOrder ∧ s.AnswersActive ∧ s.UnfittedClear ∧ s.FaultsStand

/-! ### Words the statements use -/

/-- The frame a command brings and all its data bytes, when it brings one: a request's first byte is its code (R176). -/
def frameOf : Instr → Option (BusFrame × List Byte)
  | .lampCommandFrame f => some (f, f.data)
  | .unknownRequest f => some (f, f.data)
  | .identify f => some (f, 0x01 :: f.data)
  | .enterSetup f => some (f, 0x02 :: f.data)
  | .enterRun f => some (f, 0x03 :: f.data)
  | .commit f => some (f, 0x04 :: f.data)
  | .restart f => some (f, 0x05 :: f.data)
  | .restartChain f => some (f, 0x06 :: f.data)
  | .writeMapRow f => some (f, 0x10 :: f.data)
  | .readMapRow f => some (f, 0x11 :: f.data)
  | .writeProfileA f => some (f, 0x12 :: f.data)
  | .writeProfileB f => some (f, 0x13 :: f.data)
  | .readProfileA f => some (f, 0x14 :: f.data)
  | .readProfileB f => some (f, 0x15 :: f.data)
  | .writeSetting f => some (f, 0x16 :: f.data)
  | .readSetting f => some (f, 0x17 :: f.data)
  | .readPosition f => some (f, 0x20 :: f.data)
  | .readCircuit f => some (f, 0x21 :: f.data)
  | .readFault f => some (f, 0x22 :: f.data)
  | .clearHealed f => some (f, 0x23 :: f.data)
  | .snapshotCounters f => some (f, 0x24 :: f.data)
  | .readSnapshot f => some (f, 0x25 :: f.data)
  | .fullCheck f => some (f, 0x26 :: f.data)
  | .forgetBaselines f => some (f, 0x27 :: f.data)
  | .forgetHistory f => some (f, 0x28 :: f.data)
  | .hardReset => none
  | .connectChange _ => none
  | .connectDebouncedRise => none
  | .connectDebouncedFall => none
  | .commitComplete => none
  | .frameCarried => none
  | .telltaleSpacingExpiry => none
  | .telltalePeriodExpiry => none
  | .commandSilenceExpiry => none
  | .operatingSecond => none
  | .pollDue => none
  | .checkBudgetReady => none
  | .downstreamTelegramDone _ => none
  | .report _ _ => none
  | .ident _ _ => none
  | .enumTimeout _ => none
  | .queryWindowEnd _ => none
  | .lossIntervalExpiry _ => none
  | .absenceIntervalExpiry _ => none
  | .deadline _ => none
  | .linkErrorIntervalEnd => none
  | .badUpstreamTelegram _ _ => none

/-- A frame with data bytes `d` is a management request that is taken: standard, on the request identifier, of eight data
bytes, with the request buffer empty (R159, R162). -/
abbrev State.Takes (s : State) (f : BusFrame) (d : List Byte) : Prop :=
  f.format = .standardData ∧ f.ident ≠ s.port.commandId ∧ f.ident = s.port.requestId ∧ d.length = 8 ∧
    s.port.request = none

/-- The response frame to a request of bytes `d`: its code, then `body`, the status and the six field bytes, on the
response identifier held (R163, R176). -/
def State.responseTo (s : State) (d body : List Byte) : TxFrame :=
  ⟨.response, canId s.settings.responseId, d.getD 0 0 :: body⟩

/-- `s` with the request of bytes `d` in the buffer and its response handed, and nothing else changed: what a request that
only reads, or is turned away, does (R162, R163). -/
def State.answered (s : State) (d body : List Byte) : State :=
  s.updPort fun po => { po with request := some d, transmit := po.transmit ++ [s.responseTo d body] }

/-- Two states of the Image Builder that differ at most in the telltale image, LAMP_ALERT and the frame schedule. -/
abbrev ImageBuilder.SameRecords (a b : ImageBuilder) : Prop :=
  b.retired = a.retired ∧ b.untracked = a.untracked ∧ b.faults = a.faults ∧ b.overflow = a.overflow ∧
  b.sequence = a.sequence ∧ b.opSeconds = a.opSeconds ∧ b.secondDue = a.secondDue ∧ b.commandStale = a.commandStale

/-- Two states of the Tractor Port that differ at most in the transmit list and the request buffer. -/
abbrev Port.SameInputs (a b : Port) : Prop :=
  b.commanded = a.commanded ∧ b.lastCommand = a.lastCommand ∧ b.commandId = a.commandId ∧ b.requestId = a.requestId

/-- A profile that meets the three checks of R16. -/
abbrev Profile.Consistent (p : Profile) : Prop :=
  p.openLimit < p.partialLimit ∧ p.nominalCurrent < p.shortCurrent ∧ p.leakCurrent < p.nominalCurrent

/-- A circuit meets tests 1 to 5 of R116. -/
abbrev State.MeetsCheckTests (s : State) (p : Pos) (c : Circ) : Prop :=
  (s.posAt p).state = .active ∧
  (∃ n ∈ (s.posAt p).circuitCount, c.val + 1 ≤ n) ∧
  (∃ f ∈ (s.rowAt p c).function, on s.chain.transmitted f = false ∧
    ∀ t ∈ s.chain.changeTimes[f], t + s.settings.darkDwell ≤ s.now) ∧
  (s.rowAt p c).checkEnable = true ∧ 0 < (s.profileAt p c).checkPulse ∧
  (s.circAt p c).condition ≠ .stuckOn ∧ (s.circAt p c).condition ≠ .shorted

/-- A circuit may be checked: tests 1 to 5 of R116, then its check due (test 6), then no live CHECK of it (test 7). -/
abbrev State.MayCheck (s : State) (p : Pos) (c : Circ) : Prop :=
  s.MeetsCheckTests p c ∧
  ((s.circAt p c).due = true ∨ ∀ t ∈ (s.circAt p c).lastCheck, t + s.settings.checkInterval * 1000 ≤ s.now) ∧
  ∀ e ∈ s.queue.entries, e.kind = .check → ∀ g ∈ e.target, ¬(g.pos = p ∧ g.circ = c)

/-- One circuit's last check lies further in the past than another's, or as far with the lower number; never checked counts
as further than any time (R118). -/
def checkGoesFirst (a : Option Time) (c : Circ) (b : Option Time) (k : Circ) : Prop :=
  match a, b with
  | none, none => c < k
  | none, some _ => True
  | some _, none => False
  | some t, some u => t < u ∨ (t = u ∧ c < k)

/-- The circuit of a position that R118 chooses: it may be checked, and goes before every other that may. -/
abbrev State.ChosenForCheck (s : State) (p : Pos) (c : Circ) : Prop :=
  s.MayCheck p c ∧
  ∀ k : Circ, k ≠ c → s.MayCheck p k → checkGoesFirst (s.circAt p c).lastCheck c (s.circAt p k).lastCheck k

/-- The check budget of a position allows a CHECK now (R120, R121). -/
abbrev State.BudgetOpen (s : State) (p : Pos) : Prop :=
  s.checks.budgetStart + s.settings.checkWindow ≤ s.now ∧
  s.checks.times[p].countP (fun x => decide (s.now < x + s.settings.checkWindow)) < 4

/-- A WAITING CHECK that the transmitter's search passes: its circuit's function has come on (R65), or its position's budget
blocks it (R120). -/
abbrev State.SearchPasses (s : State) (e : Entry) : Prop :=
  ∀ g ∈ e.target, (s.rowAt g.pos g.circ).onIn s.chain.transmitted = true ∨ ¬s.BudgetOpen g.pos

/-- A WAITING CHECK that its position's budget holds back, its circuit's function off (R120, R121). -/
abbrev State.HeldBack (s : State) (e : Entry) : Prop :=
  ∀ g ∈ e.target, (s.rowAt g.pos g.circ).onIn s.chain.transmitted = false ∧ ¬s.BudgetOpen g.pos

/-- The record of an entry sent now (R41, R42, R45, R64): `younger` are the entries behind it. -/
def State.sentNow (s : State) (e : Entry) (younger : List Entry) (i : Image) (delay : Nat)
    (times : Vector (Option Time) 10) (required : PosSet) : Entry :=
  { e with
    image := some i
    tx := some {
      time := s.now, delay := delay, deadline := deadlineFrom s.now e delay required, changeTimes := times
      generation := s.queue.generation
      overtaken := (e.kind == .poll || e.kind == .check) && younger.any (·.tx.isSome) }
    required := required
    state := if required = 0 then .complete else .pending }

/-- A sent entry stands in the queue, or was COMPLETE at once and has retired (R64, R69). -/
abbrev Queue.Keeps (q : Queue) (e : Entry) : Prop :=
  e ∈ q.entries ∨ (e.state = .complete ∧ ∀ y ∈ q.entries, y.tag ≠ e.tag)

/-- LINK_DEGRADED of a position after `n` more link errors: held, or set by the count they make (R49). -/
abbrev State.DegradedBy (s : State) (p : Pos) (n : Nat) : Prop :=
  (s.posAt p).linkDegraded = true ∨ (n ≠ 0 ∧ s.settings.linkThreshold < min 65535 ((s.posAt p).linkErrors + n))

/-- The Image Builder after `n` more link errors at a position: an add when they set LINK_DEGRADED (R138). -/
def State.imageAfterErrors (s : State) (p : Pos) (n : Nat) : ImageBuilder :=
  if (s.posAt p).linkDegraded = false ∧ s.DegradedBy p n then faultAdd ⟨p, none, .linkDegraded⟩ s.image else s.image

/-- The record of an ACTIVE or LOST position after an upstream telegram of its own: heard, its flag taken, its far-end errors
added (R46, R49). -/
def State.heardRecord (s : State) (p : Pos) (load : Bool) (farEnd : Nat) : Position :=
  { s.posAt p with
    lastHeard := some s.now
    downstreamLoad := load
    linkErrors := min 65535 ((s.posAt p).linkErrors + farEnd)
    linkDegraded := decide (s.DegradedBy p farEnd)
    counters := { (s.posAt p).counters with
      linkErrorsTotal := min 65535 ((s.posAt p).counters.linkErrorsTotal + farEnd) } }

/-- A telegram of position `p` with its flag as `load` makes `q` begin probing: `p` is ACTIVE, the flag is set, and `q`, the next
position, is ABSENT (R24). -/
abbrev State.ProbeBegins (s : State) (p : Pos) (load : Bool) (q : Pos) : Prop :=
  q.val = p.val + 1 ∧ load = true ∧ (s.posAt p).state = .active ∧ (s.posAt q).state = .absent

/-- A telegram of position `p` with its flag as `load` makes `q` go ABSENT: the flag is clear, and `q`, the next position, is
PROBING or PASSIVE (R26, R29). -/
abbrev State.ProbeEnds (s : State) (p : Pos) (load : Bool) (q : Pos) : Prop :=
  q.val = p.val + 1 ∧ load = false ∧ ((s.posAt q).state = .probing ∨ (s.posAt q).state = .passive)

/-- A circuit that its position's count reached and a new count does not (R33). -/
abbrev State.Unfits (s : State) (p : Pos) (new : Nat) (c : Circ) : Prop :=
  (∃ n ∈ (s.posAt p).circuitCount, c.val + 1 ≤ n) ∧ new < c.val + 1

/-- The mark of a position that ends when the holders `gone` of its identity leave the chain: it is marked, one of them held
its identity, and no other ACTIVE or LOST position outside them holds it (R28). -/
abbrev State.ClashEnds (s : State) (gone : Pos → Prop) (q : Pos) : Prop :=
  (s.posAt q).identityClash = true ∧
  (∃ r : Pos, gone r ∧ (s.posAt r).state.onChain = true ∧ (s.posAt r).identity = (s.posAt q).identity) ∧
  ∀ r : Pos, r ≠ q → ¬gone r → (s.posAt r).state.onChain = true → (s.posAt r).identity ≠ (s.posAt q).identity

/-- No telegram can begin when an upstream one ends: another answer begins, or the port is sending (R18). -/
def State.lineHeld (s : State) (answerBegins : Bool) : Bool :=
  answerBegins || (match s.chain.line with | .sending _ => true | _ => false)

/-- The state with the port neither sending nor receiving, as it is at the end of an upstream telegram (R18). -/
def State.onFreeLine (s : State) : State := { s with chain := { s.chain with line := .free } }

/-- A live entry after position `p` leaves ACTIVE (R68): `p` and its answer are out of it; a WAITING CHECK of `p` is COMPLETE,
and so is a PENDING entry whose answered set now equals its required set. -/
def Entry.leftBy (e : Entry) (p : Pos) : Entry :=
  { e with
    required := dropPos e.required p
    answered := dropPos e.answered p
    answers := e.answers.filter fun a => decide (a.pos ≠ p)
    state :=
      if (e.state = .waiting ∧ ∃ g ∈ e.target, g.pos = p) ∨
          (e.state = .pending ∧ dropPos e.answered p = dropPos e.required p) then .complete
      else e.state }

/-- The live entries after position `p` leaves ACTIVE, those at the head that are COMPLETE or EXPIRED retired (R68, R69). -/
def entriesLeftBy (p : Pos) (es : List Entry) : List Entry := (es.map (·.leftBy p)).dropWhile (·.state.final)

/-- A position other than `p` that is ACTIVE or LOST holds this identity (R28). -/
abbrev State.HeldByAnother (s : State) (p : Pos) (i : Identity) : Prop :=
  ∃ q : Pos, q ≠ p ∧ (s.posAt q).state.onChain = true ∧ (s.posAt q).identity = some i

/-- The first WAITING CHANGE or RESYNC entry, oldest first (R39, step 1). -/
def Queue.firstSet (q : Queue) : Option Entry := q.entries.find? fun e => e.state == .waiting && e.isSet

/-- The first WAITING entry of a kind, oldest first (R39, steps 3 and 4). -/
def Queue.firstOf (q : Queue) (k : EntryKind) : Option Entry :=
  q.entries.find? fun e => e.state == .waiting && e.kind == k

/-- A circuit of the considered set of `f` meets a test on its condition (R144). -/
abbrev State.SomeConsidered (s : State) (f : Fn) (test : Condition → Prop) : Prop :=
  ∃ p : Pos, ∃ c : Circ, (s.posAt p).state.onChain = true ∧ (s.rowAt p c).function = some f ∧
    test (s.circAt p c).condition

/-- A serving position of `f` meets a test (R144). -/
abbrev State.SomeServing (s : State) (f : Fn) (test : Position → Prop) : Prop :=
  ∃ p : Pos, (∃ c : Circ, (s.rowAt p c).function = some f) ∧ test (s.posAt p)

end Sys2Proof.Machine
end

