-- ==== Sys2Proof/WellFormed.lean ====
section
/-! DEFINITION. Which terms of `Instr` name a command that can arrive: a tractor-bus frame carries at most eight data
bytes, a request of unknown code has an unknown code, an upstream telegram is no longer than its length byte calls for,
a bad telegram is none of the other rows', a deadline's tag is one an entry can hold. Every meaning is total, so an
ill-formed term harms nothing; it stands for no event. -/

namespace Sys2Proof

/-- The request codes of R176. -/
def requestCodes : List Byte :=
  [0x01, 0x02, 0x03, 0x04, 0x05, 0x06, 0x10, 0x11, 0x12, 0x13, 0x14, 0x15, 0x16, 0x17,
   0x20, 0x21, 0x22, 0x23, 0x24, 0x25, 0x26, 0x27, 0x28]

/-- A request frame of named code: the code and at most seven bytes more (R176). -/
def BusFrame.wfRequest (f : BusFrame) : Bool := f.data.length ≤ 7

/-- A telegram ends when the bytes its length byte calls for, plus the CRC, have been received (R178). -/
def UpTelegram.wf (t : UpTelegram) : Bool := t.rest.length ≤ t.length.toNat + 2

/-- Whether the bytes are those of a telegram BAD_UPSTREAM_TELEGRAM stands for: cut short, or complete and of a kind
other than REPORT (0x21) and IDENT (0x22) (R178). -/
def wfBadTelegram : List Byte → Bool
  | kind :: _ :: _ :: length :: rest =>
    rest.length < length.toNat + 2 || (rest.length == length.toNat + 2 && kind != 0x21 && kind != 0x22)
  | _ => true

/-- The well-formed commands. -/
def Instr.wf : Instr → Bool
  | .hardReset => true
  | .connectChange _ => true
  | .connectDebouncedRise => true
  | .connectDebouncedFall => true
  | .lampCommandFrame f => f.data.length ≤ 8
  | .unknownRequest f =>
    f.data.length ≤ 8 && (match f.data.head? with | some b => !requestCodes.contains b | none => true)
  | .identify f => f.wfRequest
  | .enterSetup f => f.wfRequest
  | .enterRun f => f.wfRequest
  | .writeMapRow f => f.wfRequest
  | .readMapRow f => f.wfRequest
  | .writeProfileA f => f.wfRequest
  | .writeProfileB f => f.wfRequest
  | .readProfileA f => f.wfRequest
  | .readProfileB f => f.wfRequest
  | .writeSetting f => f.wfRequest
  | .readSetting f => f.wfRequest
  | .commit f => f.wfRequest
  | .commitComplete => true
  | .restart f => f.wfRequest
  | .restartChain f => f.wfRequest
  | .readPosition f => f.wfRequest
  | .readCircuit f => f.wfRequest
  | .readFault f => f.wfRequest
  | .clearHealed f => f.wfRequest
  | .snapshotCounters f => f.wfRequest
  | .readSnapshot f => f.wfRequest
  | .fullCheck f => f.wfRequest
  | .forgetBaselines f => f.wfRequest
  | .forgetHistory f => f.wfRequest
  | .frameCarried => true
  | .telltaleSpacingExpiry => true
  | .telltalePeriodExpiry => true
  | .commandSilenceExpiry => true
  | .operatingSecond => true
  | .pollDue => true
  | .checkBudgetReady => true
  | .downstreamTelegramDone _ => true
  | .report t _ => t.wf
  | .ident t _ => t.wf
  | .enumTimeout _ => true
  | .queryWindowEnd _ => true
  | .lossIntervalExpiry _ => true
  | .absenceIntervalExpiry _ => true
  | .deadline tag => tag ≤ 254
  | .linkErrorIntervalEnd => true
  | .badUpstreamTelegram bytes _ => wfBadTelegram bytes

end Sys2Proof
end

