-- ==== Sys2Proof/Certificates/Slice0/Obligations.lean ====
section
/-! DEFINITION. The statements about this model, each a `Prop` that names the rules of spec/ it formalises. A request's
byte 0 is the code its constructor names, so byte `i` of a request is `f.data` at `i - 1`. -/

open Sys2Proof Sys2Proof.Machine

/-! ### The step -/

/-- A step takes the command at the front of the queue and answers what `exec` answers with the queue's rest. -/
def Obligations.StepTakesFrontCommand : Prop :=
  ∀ (c : Instr) (rest : List Instr) (s : State), s.pending = c :: rest → step s = exec c { s with pending := rest }

/-- With no command waiting, a step runs the first timer command that is due; when none is due a millisecond passes, and an
answer that begins in it on an idle line makes the port receive. The order of timers due at one moment, and the list that
says when an answer begins on an idle line, are the model's own (log entries 4 and 7). -/
def Obligations.EmptyQueueLetsTimePass : Prop :=
  ∀ s : State, s.pending = [] →
    (∀ (c : Instr) (rest : List Instr), s.dueCommands = c :: rest → step s = exec c s) ∧
    (s.dueCommands = [] → step s = .next { s with
      now := s.now + 1
      chain := { s.chain with
        line := if s.chain.line = .free ∧ s.arrivals.head? = some true then .receiving else s.chain.line }
      arrivals := s.arrivals.tail })

/-- Every invariant of Sys2Proof/Safety.lean holds right after reset. The store's contents and CONNECT's level at reset are
the model's choice (log entries 2 and 3). -/
def Obligations.SoundAtReset : Prop :=
  State.reset.ChainSound ∧ State.reset.CountersInRange ∧ State.reset.QueueBounded ∧ State.reset.TagsInOrder ∧
  State.reset.SetupQuiet ∧ State.reset.TablesSound ∧ State.reset.CacheSound ∧ State.reset.FaultListSound ∧
  State.reset.ImageCurrent ∧ State.reset.ChecksBounded ∧ State.reset.TransmitSound

/-! ### Invariants that every step keeps -/

/-- Every step keeps the shape of the chain, the position records, the pending ENUMs and QUERYs, the entries' tags, required
and answered sets, the records of empty places and of unfitted circuits, and the standing of the listed faults (R3, R23, R24,
R26, R53, R68, R127, R130, R135, R146, R152).
That a warm return clears the circuit of an UNUSED row too is the model's reading (log entry 21). -/
def Obligations.ChainStaysSound : Prop := ∀ s t : State, s.ChainSound → step s = .next t → t.ChainSound

/-- Every step keeps the counters, the interval counts and the snapshot in their range (R23, R51, R52). -/
def Obligations.CountersStayInRange : Prop :=
  ∀ s t : State, s.CountersInRange → step s = .next t → t.CountersInRange

/-- Every step keeps the Expectation Queue within its capacity, its POLL and CHECK entries within 12, and the live entries'
tags consecutive in allocation order, so that no two are equal (R53, R61). -/
def Obligations.QueueStaysSound : Prop :=
  (∀ s t : State, s.QueueBounded → step s = .next t → t.QueueBounded) ∧
  (∀ s t : State, s.TagsInOrder → step s = .next t → t.TagsInOrder)

/-- Every step keeps the queue empty while the mode is SETUP (R75). -/
def Obligations.SetupStaysQuiet : Prop := ∀ s t : State, s.SetupQuiet → step s = .next t → t.SetupQuiet

/-- Every step keeps each profile field and setting in its range and the four identifiers distinct, in the tables in use, in
the store and in a commit (R6, R8, R9). -/
def Obligations.TablesStaySound : Prop := ∀ s t : State, s.TablesSound → step s = .next t → t.TablesSound

/-- Every step keeps the History Cache at eight entries or fewer with distinct identities (R107). -/
def Obligations.CacheStaysSound : Prop := ∀ s t : State, s.CacheSound → step s = .next t → t.CacheSound

/-- Every step keeps the fault list at 32 entries or fewer with distinct keys and fields in range, and the overflow flag clear
over an empty list (R152, R156). -/
def Obligations.FaultListStaysSound : Prop := ∀ s t : State, s.FaultListSound → step s = .next t → t.FaultListSound

/-- Every step leaves the telltale image the composition of its inputs, and LAMP_ALERT asserted exactly while the summary is
RED: no command changes an input without recomposing (R143, R147). -/
def Obligations.ImageStaysCurrent : Prop := ∀ s t : State, s.ImageCurrent → step s = .next t → t.ImageCurrent

/-- Every step keeps each check time list at four times or fewer and each position at two live CHECK entries or fewer
(R114, R117). -/
def Obligations.ChecksStayBounded : Prop := ∀ s t : State, s.ChecksBounded → step s = .next t → t.ChecksBounded

/-- Every step keeps the transmit list at one telltale frame or fewer, and a response to the buffered request in it exactly
while the buffer is full (R159, R162). -/
def Obligations.TransmitListStaysSound : Prop := ∀ s t : State, s.TransmitSound → step s = .next t → t.TransmitSound

/-! ### Rules of the whole machine -/

/-- In RUN no command but a hard reset changes the map, the profiles or the settings (R5, R7, R9, R13). -/
def Obligations.TablesChangeOnlyInSetup : Prop :=
  ∀ (c : Instr) (s t : State), exec c s = .next t → s.tables.mode = .run → c ≠ .hardReset →
    t.tables.tables = s.tables.tables

/-- The commanded image changes at a hard reset, which sets every function off, at a lamp command frame of two bytes, which
gives the new image, and at RESTART, which sets every function off; every other command keeps it (R161). -/
def Obligations.CommandedImageChanges : Prop :=
  ∀ (c : Instr) (s t : State), exec c s = .next t →
    t.port.commanded = s.port.commanded ∨
    (c = .hardReset ∧ t.port.commanded = 0) ∨
    ∃ (f : BusFrame) (d : List Byte), frameOf c = some (f, d) ∧ f.format = .standardData ∧
      ((f.ident = s.port.commandId ∧ d.length = 2 ∧ t.port.commanded = BitVec.ofNat 10 (byteAt d 0 + 256 * byteAt d 1)) ∨
       (f.ident = s.port.requestId ∧ d.length = 8 ∧ d.head? = some 0x05 ∧ t.port.commanded = 0))

/-- Telltale frames are handed at least 50 ms apart: a command other than a hard reset that hands one, so that the last
frame's time changes or the transmit list holds a telltale frame it did not hold, finds the last one's time 50 ms in the past,
and the frame's time is now (R150, R151, R159). -/
def Obligations.TelltaleFramesSpaced : Prop :=
  ∀ (c : Instr) (s t : State), s.TablesSound → exec c s = .next t → c ≠ .hardReset →
    t.image.lastFrame ≠ s.image.lastFrame ∨
      ¬(t.port.transmit.filter (·.kind == .telltale)).Sublist (s.port.transmit.filter (·.kind == .telltale)) →
    t.image.lastFrame = some s.now ∧ ∀ l ∈ s.image.lastFrame, l + 50 ≤ s.now

/-- A check time list changes only by being emptied, at a hard reset, a RESTART or a RESTART CHAIN, or by one CHECK of its
position begun now, within the budget: the budget start lies a check window in the past, and fewer than four of the list's
times lie less than a window in the past. A CHECK of the position that a command begins is recorded so (R120, R121, R122). -/
def Obligations.CheckBudgetKept : Prop :=
  ∀ (c : Instr) (s t : State) (p : Pos), exec c s = .next t →
    (t.checks.times[p] ≠ s.checks.times[p] →
      (t.checks.times[p] = [] ∧
        (c = .hardReset ∨ ∃ (f : BusFrame) (d : List Byte), frameOf c = some (f, d) ∧ s.Takes f d ∧
          (d.head? = some 0x05 ∨ d.head? = some 0x06))) ∨
      (t.checks.times[p] = (s.checks.times[p] ++ [s.now]).drop (s.checks.times[p].length + 1 - 4) ∧
        s.checks.budgetStart + t.settings.checkWindow ≤ s.now ∧
        s.checks.times[p].countP (fun x => decide (s.now < x + t.settings.checkWindow)) < 4 ∧
        ∃ (tag : Nat) (k : Circ) (pulse : Nat), t.chain.line = .sending (.check tag p k pulse))) ∧
    (∀ (tag : Nat) (k : Circ) (pulse : Nat), t.chain.line = .sending (.check tag p k pulse) →
      t.chain.line ≠ s.chain.line →
      t.checks.times[p] = (s.checks.times[p] ++ [s.now]).drop (s.checks.times[p].length + 1 - 4))

/-! ### Hard reset and the Settings Store -/

/-- HARD_RESET: what every block holds at the end of reset, for a valid store and for an invalid one
(R13, R38, R78, R79, R100, R107, R114, R127, R142, R161, R171).
A reset taken as one command, the time base at 0, CONNECT's level and the waiting commands kept, its debounce begun again, and
the line free where an answer was being received: log entries 3, 11 and 23. -/
def Obligations.HardResetState : Prop :=
  ∀ s : State, ∃ t : State, exec .hardReset s = .next t ∧
    t.tables.tables = (if s.store.valid = true then s.store.contents else Tables.default) ∧
    t.tables.mode =
      (if s.store.valid = true ∧ ∀ i : ProfileNo, (s.store.contents.profiles[i]).Consistent then .run else .setup) ∧
    (∀ (p : Pos) (c : Circ), t.tables.rowTouched[p][c] = false) ∧
    (∀ i : ProfileNo, t.tables.profileTouched[i] = false) ∧
    t.store = ⟨s.store.contents, s.store.valid, !s.store.valid, none⟩ ∧
    (∀ p : Pos, t.posAt p = Position.absent PosCounters.zero) ∧
    t.chain.transmitted = 0 ∧ (∀ f : Fn, t.chain.changeTimes[f] = none) ∧ t.chain.linkRequests = [] ∧
    t.chain.livenessPoll = false ∧ t.chain.line = .free ∧ t.chain.connectDebounced = false ∧
    t.chain.connectRaw = s.chain.connectRaw ∧ t.chain.connectSince = 0 ∧ t.chain.linkIntervalEnd = 10000 ∧
    t.chain.counters = ChainCounters.zero ∧ t.chain.snapshot.chain = ChainCounters.zero ∧
    (∀ p : Pos, t.chain.snapshot.positions[p] = PosCounters.zero) ∧
    t.queue = ⟨[], 0, none, 0, 0⟩ ∧ (∀ (p : Pos) (c : Circ), t.circAt p c = Circuit.clear) ∧ t.cache = [] ∧
    (∀ p : Pos, t.checks.times[p] = []) ∧ t.checks.lastServed = none ∧ t.checks.budgetStart = 0 ∧
    t.image.retired = 0 ∧ t.image.untracked = 0 ∧ t.image.faults = [] ∧ t.image.overflow = false ∧
    t.image.sequence = 0 ∧ t.image.opSeconds = 0 ∧ t.image.commandStale = false ∧ t.image.lastFrame = some 0 ∧
    t.image.framePending = false ∧ t.image.telltale.summary = .none ∧ t.ImageCurrent ∧
    (∀ f : Fn, t.image.telltale.functions[f] = if t.tables.mode = .run then .absent else .unverified) ∧
    t.port = {
      commanded := 0, lastCommand := 0, request := none
      transmit := [⟨.telltale, canId t.settings.telltaleId, t.image.telltale.bytes⟩]
      commandId := canId t.settings.commandId, requestId := canId t.settings.requestId } ∧
    t.now = 0 ∧ t.pending = s.pending

/-- COMMIT accepted: the commit is in progress with the tables as they stand, the store counts as invalid, the request
buffer is empty, no response is handed, and nothing else changes; during a commit a further COMMIT is BUSY. COMMIT_COMPLETE,
after a time greater than 0: the contents taken are in the store, which is valid, both flags clear, and the response OK is handed
outside the request buffer. A hard reset before the completion finds the store invalid and loads the defaults (R169, R170, R171).
COMMIT_COMPLETE in the millisecond the commit began in, or with no commit in progress, changes nothing: that a time greater than 0
ends in a later millisecond is read from the time base of whole milliseconds (log entry 14), that the command then changes nothing
is the model's choice (log entry 5). -/
def Obligations.CommitBeginsAndCompletes : Prop :=
  (∀ (s : State) (f : BusFrame), s.Takes f (0x04 :: f.data) →
    (s.store.commit = none →
      exec (.commit f) s = .next { s with
        store := { s.store with valid := false, commit := some ⟨s.now, s.tables.tables⟩ } }) ∧
    (s.store.commit ≠ none → exec (.commit f) s = .next (s.answered (0x04 :: f.data) [5, 0, 0, 0, 0, 0, 0]))) ∧
  (∀ (s : State) (k : Commit), s.store.commit = some k →
    (k.start < s.now → exec .commitComplete s = .next { s with
      store := ⟨k.contents, true, false, none⟩
      port := { s.port with
        transmit := s.port.transmit ++
          [⟨.commitResponse, canId s.settings.responseId, [0x04, 0, 0, 0, 0, 0, 0, 0]⟩] } }) ∧
    (s.now ≤ k.start → exec .commitComplete s = .next s)) ∧
  (∀ s : State, s.store.commit = none → exec .commitComplete s = .next s) ∧
  (∀ (s : State) (f : BusFrame), s.Takes f (0x04 :: f.data) → s.store.commit = none →
    ∃ t u : State, exec (.commit f) s = .next t ∧ exec .hardReset t = .next u ∧
      u.tables.tables = Tables.default ∧ u.tables.mode = .setup ∧ u.store.invalidFlag = true ∧
      u.store.valid = false ∧ u.store.commit = none)

/-! ### Frames of the tractor port -/

/-- What a frame that brings no command or request does: one in another format or on another identifier nothing; one on the
command identifier with other than two bytes one more malformed command frame; one on the request identifier with other
than eight bytes, or with the buffer full, one more dropped request (R159, R160, R162). -/
def Obligations.FramesTakenByForm : Prop :=
  ∀ (c : Instr) (f : BusFrame) (d : List Byte) (s : State), frameOf c = some (f, d) →
    (f.format ≠ .standardData ∨ (f.ident ≠ s.port.commandId ∧ f.ident ≠ s.port.requestId) → exec c s = .next s) ∧
    (f.format = .standardData → f.ident = s.port.commandId → d.length ≠ 2 →
      exec c s = .next (s.updCounters fun k => { k with malformedFrames := min 65535 (k.malformedFrames + 1) })) ∧
    (f.format = .standardData → f.ident ≠ s.port.commandId → f.ident = s.port.requestId →
      (d.length ≠ 8 ∨ s.port.request ≠ none) →
      exec c s = .next (s.updCounters fun k => { k with droppedRequests := min 65535 (k.droppedRequests + 1) }))

/-- LAMP_COMMAND_FRAME of two bytes on the command identifier (R57, R58, R149, R160): the command silence is refreshed; an
equal image does nothing more; a differing one becomes the commanded image and, where it can be tracked, a CHANGE entry at
the tail; else it is diverted to the untracked slot. On a free line with no older SET waiting the SET goes at once (R39, R41,
R62): the entry's with the delay over the functions that changed, recorded in it while the tags are in order (R53); the
slot's with tag 255 and the delay over the functions in which it differs from the transmitted image, the slot empty again and
the generation advanced. -/
def Obligations.LampFrameTaken : Prop :=
  ∀ (s : State) (f : BusFrame) (i : Image), f.format = .standardData → f.ident = s.port.commandId →
    f.data.length = 2 → i = BitVec.ofNat 10 (byteAt f.data 0 + 256 * byteAt f.data 1) →
    ∃ t : State, exec (.lampCommandFrame f) s = .next t ∧
      t.port.commanded = i ∧ t.port.lastCommand = s.now ∧ t.image.commandStale = false ∧
      t.port.request = s.port.request ∧ t.port.commandId = s.port.commandId ∧ t.port.requestId = s.port.requestId ∧
      t.now = s.now ∧ t.tables = s.tables ∧ t.cache = s.cache ∧ t.store = s.store ∧ t.pending = s.pending ∧
      (i = s.port.commanded →
        t.chain = s.chain ∧ t.queue = s.queue ∧ t.circuits = s.circuits ∧ t.checks = s.checks) ∧
      (i ≠ s.port.commanded → s.chain.line ≠ .free →
        t.circuits = s.circuits ∧ t.checks = s.checks ∧
        (s.tables.mode = .run → s.queue.entries.length < 16 → s.queue.slot = none →
          t.chain = s.chain ∧ t.image.untracked = s.image.untracked ∧
          t.queue = { s.queue with
            entries := s.queue.entries ++
              [⟨s.queue.tagCounter, .change, .waiting, some i, i ^^^ s.port.commanded, none, none, 0, 0, []⟩]
            tagCounter := (s.queue.tagCounter + 1) % 255 }) ∧
        (s.tables.mode = .setup ∨ 16 ≤ s.queue.entries.length ∨ s.queue.slot ≠ none →
          t.queue = { s.queue with slot := some i } ∧
          t.image.untracked = s.image.untracked ||| (i ^^^ s.port.commanded) ∧
          t.chain = { s.chain with counters := { s.chain.counters with
            untrackedChanges := min 65535 (s.chain.counters.untrackedChanges + 1) } })) ∧
      (i ≠ s.port.commanded → s.chain.line = .free → s.queue.firstSet = none →
        t.chain.transmitted = i ∧ t.checks = s.checks ∧
        (∀ g : Fn, t.chain.changeTimes[g] =
          if on i g = on s.chain.transmitted g then s.chain.changeTimes[g] else some s.now) ∧
        (s.tables.mode = .run → s.queue.entries.length < 16 → s.queue.slot = none →
          let delay := s.delayOver (i ^^^ s.port.commanded)
          t.chain.line = .sending (.set s.queue.tagCounter delay (s.masks i)) ∧ t.chain.counters = s.chain.counters ∧
          t.queue.tagCounter = (s.queue.tagCounter + 1) % 255 ∧ t.queue.slot = none ∧
          t.queue.generation = s.queue.generation ∧
          (s.TagsInOrder → t.queue.Keeps (s.sentNow
            ⟨s.queue.tagCounter, .change, .waiting, some i, i ^^^ s.port.commanded, none, none, 0, 0, []⟩
            [] i delay t.chain.changeTimes s.activeSet))) ∧
        (s.tables.mode = .setup ∨ 16 ≤ s.queue.entries.length ∨ s.queue.slot ≠ none →
          t.circuits = s.circuits ∧ (∀ p : Pos, t.posAt p = s.posAt p) ∧
          t.queue = { s.queue with slot := none, generation := (s.queue.generation + 1) % 65536 } ∧
          t.image.untracked = s.image.untracked ||| (i ^^^ s.port.commanded) ∧
          t.chain.line = .sending (.set 255 (s.delayOver (i ^^^ s.chain.transmitted)) (s.masks i)) ∧
          t.chain.counters = { s.chain.counters with
            untrackedChanges := min 65535 (s.chain.counters.untrackedChanges + 1) }))

/-- FRAME_CARRIED: the oldest frame leaves the transmit list; the response to the buffered request empties the buffer, and
the identifiers held apply from then on; an empty list leaves all as it is (R11, R159, R162).
An empty list, and the moment the identifiers apply: the model's choice (log entries 5 and 12). -/
def Obligations.FrameCarriedLeaves : Prop :=
  ∀ s : State,
    (s.port.transmit = [] → exec .frameCarried s = .next s) ∧
    (∀ (fr : TxFrame) (rest : List TxFrame), s.port.transmit = fr :: rest →
      (fr.kind ≠ .response → exec .frameCarried s = .next { s with port := { s.port with transmit := rest } }) ∧
      (fr.kind = .response →
        exec .frameCarried s = .next { s with port := { s.port with
          transmit := rest, request := none
          commandId := canId s.settings.commandId, requestId := canId s.settings.requestId } }))

/-! ### Requests that read -/

/-- IDENTIFY is answered with the codes, the revision, the mode and the two flags; a request of unknown code with BAD_VALUE
(R163, R165, R176). The device revision is a free value (log entry 1). -/
def Obligations.IdentifyAndUnknownAnswer : Prop :=
  (∀ (s : State) (f : BusFrame), s.Takes f (0x01 :: f.data) →
    exec (.identify f) s = .next (s.answered (0x01 :: f.data)
      [0, 0x61, 0x2E, 0x40, 0x06, Config.deviceRevision,
        BitVec.ofNat 8 ((if s.tables.mode = .run then 1 else 0) + (if s.store.invalidFlag = true then 2 else 0)
          + (if s.store.commit = none then 0 else 4))])) ∧
  (∀ (s : State) (f : BusFrame), s.Takes f f.data →
    exec (.unknownRequest f) s = .next (s.answered f.data [4, 0, 0, 0, 0, 0, 0]))

/-- READ MAP ROW, READ SETTING, READ PROFILE A and B: the fields held, the touched mark and the row's fitted state, or
BAD_INDEX. The six field bytes of a profile half, read as one 48-bit number, hold its fields and the touched mark at the bit
places of R176, for a profile whose fields are in range (R3, R5, R7, R9, R176). -/
def Obligations.TablesRead : Prop :=
  (∀ (s : State) (f : BusFrame), s.Takes f (0x11 :: f.data) →
    (∀ (p : Pos) (c : Circ), byteAt f.data 0 = p.val + 1 → byteAt f.data 1 = c.val + 1 →
      exec (.readMapRow f) s = .next (s.answered (0x11 :: f.data)
        [0, (match (s.rowAt p c).function with | none => 0 | some g => BitVec.ofNat 8 (g.val + 1)),
          BitVec.ofNat 8 (s.rowAt p c).profile.val,
          BitVec.ofNat 8 ((if (s.rowAt p c).checkEnable = true then 1 else 0)
            + (if (s.rowAt p c).critical = true then 2 else 0) + (if s.tables.rowTouched[p][c] = true then 4 else 0)),
          (match (s.posAt p).circuitCount with | none => 2 | some n => if c.val + 1 ≤ n then 0 else 1), 0, 0])) ∧
    (byteAt f.data 0 = 0 ∨ 6 < byteAt f.data 0 ∨ byteAt f.data 1 = 0 ∨ 12 < byteAt f.data 1 →
      exec (.readMapRow f) s = .next (s.answered (0x11 :: f.data) [3, 0, 0, 0, 0, 0, 0]))) ∧
  (∀ (s : State) (f : BusFrame), s.Takes f (0x17 :: f.data) →
    let t := s.settings
    let v := [t.pollPeriod, t.lossInterval, t.absenceInterval, t.darkDwell, t.checkInterval, t.checkWindow,
      t.supplyFloor, t.linkThreshold, t.commandSilence, t.telltalePeriod, t.commandId, t.telltaleId, t.requestId,
      t.responseId].getD (byteAt f.data 0 - 1) 0
    exec (.readSetting f) s = .next (s.answered (0x17 :: f.data)
      (if 1 ≤ byteAt f.data 0 ∧ byteAt f.data 0 ≤ 14 then
        [0, BitVec.ofNat 8 v, BitVec.ofNat 8 (v / 256), 0, 0, 0, 0]
      else [3, 0, 0, 0, 0, 0, 0]))) ∧
  (∀ (s : State) (f : BusFrame) (i : ProfileNo), byteAt f.data 0 = i.val →
      let pr := s.tables.tables.profiles[i]
      pr.inRange = true →
      (s.Takes f (0x14 :: f.data) → ∃ b : List Byte, b.length = 6 ∧
        exec (.readProfileA f) s = .next (s.answered (0x14 :: f.data) (0 :: b)) ∧
        bitsAt (numberAt b 0 6) 0 12 = pr.nominalCurrent ∧ bitsAt (numberAt b 0 6) 12 9 = pr.nominalVoltage ∧
        bitsAt (numberAt b 0 6) 21 5 = pr.slope ∧ bitsAt (numberAt b 0 6) 26 12 = pr.shortCurrent ∧
        bitsAt (numberAt b 0 6) 38 9 = pr.leakCurrent ∧
        bitsAt (numberAt b 0 6) 47 1 = (if s.tables.profileTouched[i] = true then 1 else 0)) ∧
      (s.Takes f (0x15 :: f.data) → ∃ b : List Byte, b.length = 6 ∧
        exec (.readProfileB f) s = .next (s.answered (0x15 :: f.data) (0 :: b)) ∧
        bitsAt (numberAt b 0 6) 0 8 = pr.openLimit ∧ bitsAt (numberAt b 0 6) 8 8 = pr.partialLimit ∧
        bitsAt (numberAt b 0 6) 16 9 = pr.overloadLimit ∧ bitsAt (numberAt b 0 6) 25 9 = pr.settle ∧
        bitsAt (numberAt b 0 6) 34 3 = pr.confirmCount ∧ bitsAt (numberAt b 0 6) 37 5 = pr.checkPulse ∧
        bitsAt (numberAt b 0 6) 42 1 = (if pr.learn = true then 1 else 0) ∧
        bitsAt (numberAt b 0 6) 43 1 = (if s.tables.profileTouched[i] = true then 1 else 0) ∧
        bitsAt (numberAt b 0 6) 44 4 = 0)) ∧
  (∀ (s : State) (f : BusFrame), 7 < byteAt f.data 0 →
    (s.Takes f (0x14 :: f.data) →
      exec (.readProfileA f) s = .next (s.answered (0x14 :: f.data) [3, 0, 0, 0, 0, 0, 0])) ∧
    (s.Takes f (0x15 :: f.data) →
      exec (.readProfileB f) s = .next (s.answered (0x15 :: f.data) [3, 0, 0, 0, 0, 0, 0])))

/-- READ POSITION: its three parts, and BAD_INDEX for another part or position (R165, R176). -/
def Obligations.PositionPartsRead : Prop :=
  ∀ (s : State) (f : BusFrame), s.Takes f (0x20 :: f.data) →
    (∀ p : Pos, byteAt f.data 0 = p.val + 1 →
      let r := s.posAt p
      (byteAt f.data 1 = 1 →
        exec (.readPosition f) s = .next (s.answered (0x20 :: f.data)
          ([0, BitVec.ofNat 8 ((match r.state with
              | .absent => 0 | .probing => 1 | .active => 2 | .lost => 3 | .passive => 4)
              + (if r.identity.isSome = true then 64 else 0) + (if r.downstreamLoad = true then 128 else 0))]
            ++ leBytes 4 (r.identity.getD 0).toNat ++ [BitVec.ofNat 8 (r.circuitCount.getD 0)]))) ∧
      (byteAt f.data 1 = 2 →
        exec (.readPosition f) s = .next (s.answered (0x20 :: f.data)
          [0, BitVec.ofNat 8 ((if r.supplyLow = true then 1 else 0) + (if r.feedLost = true then 2 else 0)
              + (if r.linkDegraded = true then 4 else 0) + (if r.identityClash = true then 8 else 0)),
            BitVec.ofNat 8 r.probeAttempts, BitVec.ofNat 8 r.linkErrors, BitVec.ofNat 8 (r.linkErrors / 256), 0, 0])) ∧
      (byteAt f.data 1 = 3 →
        exec (.readPosition f) s = .next (s.answered (0x20 :: f.data)
          ([(0 : Byte)] ++ leBytes 2 (match r.lastHeard with | some t => min 65535 (s.now - t) | none => 0)
            ++ leBytes 2 (match r.lostSince with | some t => min 65535 (s.now - t) | none => 0)
            ++ [BitVec.ofNat 8 ((if r.lastHeard.isSome = true then 1 else 0)
                + (if r.lostSince.isSome = true then 2 else 0)), 0]))) ∧
      (byteAt f.data 1 = 0 ∨ 3 < byteAt f.data 1 →
        exec (.readPosition f) s = .next (s.answered (0x20 :: f.data) [3, 0, 0, 0, 0, 0, 0]))) ∧
    (byteAt f.data 0 = 0 ∨ 6 < byteAt f.data 0 →
      exec (.readPosition f) s = .next (s.answered (0x20 :: f.data) [3, 0, 0, 0, 0, 0, 0]))

/-- READ CIRCUIT: its three parts, and BAD_INDEX for another part, circuit or position (R165, R176). With no last reading the
marks, the entry kind and the verdict of part 2 are 0, the model's choice (log entry 20). -/
def Obligations.CircuitPartsRead : Prop :=
  ∀ (s : State) (f : BusFrame), s.Takes f (0x21 :: f.data) →
    (∀ (p : Pos) (c : Circ), byteAt f.data 0 = p.val + 1 → byteAt f.data 1 = c.val + 1 →
      let k := s.circAt p c
      (byteAt f.data 2 = 1 →
        exec (.readCircuit f) s = .next (s.answered (0x21 :: f.data)
          [0, (match k.condition with
              | .unknown => 0 | .sound => 1 | .degraded => 2 | .failedOpen => 3 | .overloaded => 4 | .shorted => 5
              | .stuckOn => 6),
            (match k.candidate with
              | none => 0 | some .good => 1 | some .partialDraw => 2 | some .openCircuit => 3 | some .overload => 4
              | some .short => 5 | some .stuckOn => 6 | some .darkOk => 7 | some .present => 8),
            BitVec.ofNat 8 k.agreement,
            (match k.baseline with | .none => 0 | .learning _ _ _ => 1 | .learned _ _ => 2),
            (match k.baseline with | .learning n _ _ => BitVec.ofNat 8 n | _ => 0xFF), 0])) ∧
      (byteAt f.data 2 = 2 →
        exec (.readCircuit f) s = .next (s.answered (0x21 :: f.data)
          ([(0 : Byte)] ++ (match k.baseline with | .learned b vb => leBytes 2 b ++ leBytes 2 vb | _ => [0, 0, 0, 0])
            ++ (match k.last with
              | none => [0, 0]
              | some l =>
                [BitVec.ofNat 8 (1 + (if l.againstBaseline = true then 2 else 0) + (if l.withdrawn = true then 4 else 0)
                    + 16 * (match l.kind with | .change => 0 | .resync => 1 | .poll => 2 | .check => 3)),
                  BitVec.ofNat 8 l.verdict.code])))) ∧
      (byteAt f.data 2 = 3 →
        exec (.readCircuit f) s = .next (s.answered (0x21 :: f.data)
          ([(0 : Byte)] ++ (match k.last with
            | none => [0, 0, 0, 0, 0, 0]
            | some l => leBytes 3 (l.current + 4096 * l.expected) ++ leBytes 2 l.supply
                ++ [BitVec.ofNat 8 l.ratio])))) ∧
      (byteAt f.data 2 = 0 ∨ 3 < byteAt f.data 2 →
        exec (.readCircuit f) s = .next (s.answered (0x21 :: f.data) [3, 0, 0, 0, 0, 0, 0]))) ∧
    (byteAt f.data 0 = 0 ∨ 6 < byteAt f.data 0 ∨ byteAt f.data 1 = 0 ∨ 12 < byteAt f.data 1 →
      exec (.readCircuit f) s = .next (s.answered (0x21 :: f.data) [3, 0, 0, 0, 0, 0, 0]))

/-- READ FAULT: an entry's two parts by its index in list order, and BAD_INDEX past the list or for another part; READ
SNAPSHOT: a group's three values, and BAD_INDEX outside 1 to 8 (R52, R158, R165, R176). -/
def Obligations.FaultAndSnapshotRead : Prop :=
  (∀ (s : State) (f : BusFrame), s.Takes f (0x22 :: f.data) →
    (∀ (h : byteAt f.data 0 < s.image.faults.length),
      let e := s.image.faults[byteAt f.data 0]
      (byteAt f.data 1 = 1 →
        exec (.readFault f) s = .next (s.answered (0x22 :: f.data)
          ([(0 : Byte)] ++ leBytes 2 e.sequence ++ [BitVec.ofNat 8 (e.key.pos.val + 1),
            (match e.key.circ with | none => 0 | some c => BitVec.ofNat 8 (c.val + 1)),
            BitVec.ofNat 8 ((match e.key.kind with
                | .openCircuit => 1 | .partialDraw => 2 | .overload => 3 | .short => 4 | .stuckOn => 5 | .feedLoss => 6
                | .linkDegraded => 7 | .identityClash => 8) + (if e.active = true then 0 else 128)),
            BitVec.ofNat 8 e.count]))) ∧
      (byteAt f.data 1 = 2 →
        exec (.readFault f) s = .next (s.answered (0x22 :: f.data)
          ([(0 : Byte)] ++ leBytes 2 e.sequence ++ leBytes 4 e.firstSeen))) ∧
      (byteAt f.data 1 = 0 ∨ 2 < byteAt f.data 1 →
        exec (.readFault f) s = .next (s.answered (0x22 :: f.data) [3, 0, 0, 0, 0, 0, 0]))) ∧
    (s.image.faults.length ≤ byteAt f.data 0 →
      exec (.readFault f) s = .next (s.answered (0x22 :: f.data) [3, 0, 0, 0, 0, 0, 0]))) ∧
  (∀ (s : State) (f : BusFrame), s.Takes f (0x25 :: f.data) →
    let sn := s.chain.snapshot
    let reply (a b c : Nat) : Host.Outcome State Fault Refusal :=
      .next (s.answered (0x25 :: f.data) ([(0 : Byte)] ++ leBytes 2 a ++ leBytes 2 b ++ leBytes 2 c))
    (∀ p : Pos, byteAt f.data 0 = p.val + 1 →
      exec (.readSnapshot f) s =
        reply (sn.positions[p]).linkErrorsTotal (sn.positions[p]).missedAnswers (sn.positions[p]).superseded) ∧
    (byteAt f.data 0 = 7 →
      exec (.readSnapshot f) s = reply sn.chain.badTelegrams sn.chain.staleReports sn.chain.untrackedChanges) ∧
    (byteAt f.data 0 = 8 →
      exec (.readSnapshot f) s = reply sn.chain.skippedPolls sn.chain.droppedRequests sn.chain.malformedFrames) ∧
    (byteAt f.data 0 = 0 ∨ 8 < byteAt f.data 0 →
      exec (.readSnapshot f) s = .next (s.answered (0x25 :: f.data) [3, 0, 0, 0, 0, 0, 0])))

/-! ### Requests that write the tables -/

/-- WRITE MAP ROW: the statuses in their order, and with OK the four fields replaced, the touched mark set, every other row
and mark kept, the row and its fitted state answered, and nothing else of the part changed but the telltale image
(R5, R14, R176). -/
def Obligations.WriteMapRowEffects : Prop :=
  ∀ (s : State) (f : BusFrame), s.Takes f (0x10 :: f.data) →
    (s.tables.mode = .run →
      exec (.writeMapRow f) s = .next (s.answered (0x10 :: f.data) [2, 0, 0, 0, 0, 0, 0])) ∧
    (s.tables.mode = .setup → s.store.commit ≠ none →
      exec (.writeMapRow f) s = .next (s.answered (0x10 :: f.data) [5, 0, 0, 0, 0, 0, 0])) ∧
    (s.tables.mode = .setup → s.store.commit = none →
      (byteAt f.data 0 = 0 ∨ 6 < byteAt f.data 0 ∨ byteAt f.data 1 = 0 ∨ 12 < byteAt f.data 1) →
      exec (.writeMapRow f) s = .next (s.answered (0x10 :: f.data) [3, 0, 0, 0, 0, 0, 0])) ∧
    (s.tables.mode = .setup → s.store.commit = none →
      ∀ (p : Pos) (c : Circ), byteAt f.data 0 = p.val + 1 → byteAt f.data 1 = c.val + 1 →
        (10 < byteAt f.data 2 ∨ 7 < byteAt f.data 3 →
          exec (.writeMapRow f) s = .next (s.answered (0x10 :: f.data) [4, 0, 0, 0, 0, 0, 0])) ∧
        (∀ (g : Option Fn) (pr : ProfileNo),
          (match g with | none => 0 | some g => g.val + 1) = byteAt f.data 2 → pr.val = byteAt f.data 3 →
          ∃ t : State, exec (.writeMapRow f) s = .next t ∧
            t.rowAt p c = ⟨g, pr, (byteAt f.data 4).testBit 0, (byteAt f.data 4).testBit 1⟩ ∧
            t.tables.rowTouched[p][c] = true ∧
            (∀ (q : Pos) (k : Circ), (q, k) ≠ (p, c) →
              t.rowAt q k = s.rowAt q k ∧ t.tables.rowTouched[q][k] = s.tables.rowTouched[q][k]) ∧
            t.tables.tables.profiles = s.tables.tables.profiles ∧ t.settings = s.settings ∧
            t.tables.profileTouched = s.tables.profileTouched ∧ t.tables.mode = .setup ∧
            t.now = s.now ∧ t.chain = s.chain ∧ t.queue = s.queue ∧ t.circuits = s.circuits ∧ t.cache = s.cache ∧
            t.checks = s.checks ∧ t.store = s.store ∧ t.pending = s.pending ∧
            s.image.SameRecords t.image ∧ s.port.SameInputs t.port ∧ t.port.request = some (0x10 :: f.data) ∧
            t.port.transmit.getLast? = some (s.responseTo (0x10 :: f.data)
              [0, BitVec.ofNat 8 (byteAt f.data 2), BitVec.ofNat 8 (byteAt f.data 3),
                BitVec.ofNat 8 (byteAt f.data 4 % 4 + 4),
                (match (s.posAt p).circuitCount with | none => 2 | some n => if c.val + 1 ≤ n then 0 else 1), 0, 0])))

/-- WRITE PROFILE A and B: each numeric field of the half replaced by the nearer bound of its range when outside it, the
other half kept, the touched mark set, the values written answered with OK or OK_CLAMPED, and nothing else changed; for
every profile number RUN is answered REFUSED_MODE first and a commit BUSY next, and then a number above 7 BAD_INDEX
(R6, R7, R14, R176). -/
def Obligations.WriteProfileEffects : Prop :=
  (∀ (s : State) (f : BusFrame) (i : ProfileNo), byteAt f.data 0 = i.val →
      let n := numberAt f.data 1 6
      let old := s.tables.tables.profiles[i]
      let field (place width : Nat) : Nat := (n >>> place) % 2 ^ width
      let into (lo hi v : Nat) : Nat := if v < lo then lo else if hi < v then hi else v
      let put (new : Profile) : State :=
        { s with tables := { s.tables with
            tables := { s.tables.tables with profiles := upd s.tables.tables.profiles i fun _ => new }
            profileTouched := upd s.tables.profileTouched i fun _ => true } }
      (s.Takes f (0x12 :: f.data) →
        let raw : Profile := { old with
          nominalCurrent := field 0 12, nominalVoltage := field 12 9, slope := field 21 5
          shortCurrent := field 26 12, leakCurrent := field 38 10 }
        let new : Profile := { raw with
          nominalCurrent := into 10 4000 raw.nominalCurrent, nominalVoltage := into 100 300 raw.nominalVoltage
          slope := into 0 16 raw.slope, shortCurrent := into 100 4095 raw.shortCurrent
          leakCurrent := into 5 500 raw.leakCurrent }
        (s.tables.mode = .run →
          exec (.writeProfileA f) s = .next (s.answered (0x12 :: f.data) [2, 0, 0, 0, 0, 0, 0])) ∧
        (s.tables.mode = .setup → s.store.commit ≠ none →
          exec (.writeProfileA f) s = .next (s.answered (0x12 :: f.data) [5, 0, 0, 0, 0, 0, 0])) ∧
        (s.tables.mode = .setup → s.store.commit = none →
          exec (.writeProfileA f) s = .next ((put new).answered (0x12 :: f.data)
            ((if new = raw then 0 else 1) :: leBytes 6 (packHalfA new true))))) ∧
      (s.Takes f (0x13 :: f.data) →
        let raw : Profile := { old with
          openLimit := field 0 8, partialLimit := field 8 8, overloadLimit := field 16 9, settle := field 25 9
          confirmCount := field 34 3, checkPulse := field 37 5, learn := n.testBit 42 }
        let new : Profile := { raw with
          openLimit := into 5 50 raw.openLimit, partialLimit := into 10 99 raw.partialLimit
          overloadLimit := into 101 250 raw.overloadLimit, settle := into 2 250 raw.settle
          confirmCount := into 1 4 raw.confirmCount, checkPulse := into 0 20 raw.checkPulse }
        (s.tables.mode = .run →
          exec (.writeProfileB f) s = .next (s.answered (0x13 :: f.data) [2, 0, 0, 0, 0, 0, 0])) ∧
        (s.tables.mode = .setup → s.store.commit ≠ none →
          exec (.writeProfileB f) s = .next (s.answered (0x13 :: f.data) [5, 0, 0, 0, 0, 0, 0])) ∧
        (s.tables.mode = .setup → s.store.commit = none →
          exec (.writeProfileB f) s = .next ((put new).answered (0x13 :: f.data)
            ((if new = raw then 0 else 1) :: leBytes 6 (packHalfB new true)))))) ∧
  (∀ (s : State) (f : BusFrame), 7 < byteAt f.data 0 →
    let status : Byte := if s.tables.mode = .run then 2 else if s.store.commit ≠ none then 5 else 3
    (s.Takes f (0x12 :: f.data) →
      exec (.writeProfileA f) s = .next (s.answered (0x12 :: f.data) [status, 0, 0, 0, 0, 0, 0])) ∧
    (s.Takes f (0x13 :: f.data) →
      exec (.writeProfileB f) s = .next (s.answered (0x13 :: f.data) [status, 0, 0, 0, 0, 0, 0])))

/-- WRITE SETTING: the statuses in their order; an identifier another identifier setting holds is BAD_VALUE; else the value,
replaced by the nearer bound when out of range, is held, every other setting, the map, the profiles and the marks are kept,
and the response leaves on the response identifier held before the write (R8, R9, R11, R176). -/
def Obligations.WriteSettingEffects : Prop :=
  ∀ (s : State) (f : BusFrame), s.Takes f (0x16 :: f.data) →
    let n := byteAt f.data 0
    let v := byteAt f.data 1 + 256 * byteAt f.data 2
    let range := [(100, 1000), (100, 2000), (1, 30), (200, 10000), (1, 600), (20, 200), (80, 300), (1, 255), (200, 5000),
      (100, 2000), (0, 2047), (0, 2047), (0, 2047), (0, 2047)].getD (n - 1) (0, 0)
    let held := if v < range.1 then range.1 else if range.2 < v then range.2 else v
    (s.tables.mode = .run →
      exec (.writeSetting f) s = .next (s.answered (0x16 :: f.data) [2, 0, 0, 0, 0, 0, 0])) ∧
    (s.tables.mode = .setup → s.store.commit ≠ none →
      exec (.writeSetting f) s = .next (s.answered (0x16 :: f.data) [5, 0, 0, 0, 0, 0, 0])) ∧
    (s.tables.mode = .setup → s.store.commit = none → n = 0 ∨ 14 < n →
      exec (.writeSetting f) s = .next (s.answered (0x16 :: f.data) [3, 0, 0, 0, 0, 0, 0])) ∧
    (s.tables.mode = .setup → s.store.commit = none → 11 ≤ n → n ≤ 14 →
      (∃ j : Nat, 11 ≤ j ∧ j ≤ 14 ∧ j ≠ n ∧ s.settings.read j = held) →
      exec (.writeSetting f) s = .next (s.answered (0x16 :: f.data) [4, 0, 0, 0, 0, 0, 0])) ∧
    (s.tables.mode = .setup → s.store.commit = none → 1 ≤ n → n ≤ 14 →
      (∀ j : Nat, 11 ≤ n → 11 ≤ j → j ≤ 14 → j ≠ n → s.settings.read j ≠ held) →
      ∃ t : State, exec (.writeSetting f) s = .next t ∧
        t.settings.read n = held ∧ (∀ j : Nat, 1 ≤ j → j ≤ 14 → j ≠ n → t.settings.read j = s.settings.read j) ∧
        t.tables.tables.map = s.tables.tables.map ∧ t.tables.tables.profiles = s.tables.tables.profiles ∧
        t.tables.rowTouched = s.tables.rowTouched ∧ t.tables.profileTouched = s.tables.profileTouched ∧
        t.tables.mode = .setup ∧ t.now = s.now ∧ t.store = s.store ∧ t.pending = s.pending ∧
        s.port.SameInputs t.port ∧ t.port.request = some (0x16 :: f.data) ∧
        t.port.transmit.getLast? = some (s.responseTo (0x16 :: f.data)
          [if held = v then 0 else 1, BitVec.ofNat 8 held, BitVec.ofNat 8 (held / 256), 0, 0, 0, 0]))

/-- A write that shortens an interval already run out takes the expiry at the write: of the poll period, the loss interval,
the absence interval, the command silence and the telltale period. The POLL's due time is then the previous one plus the new
poll period, from which the schedule goes on (R10, R60).
A due time that lies still further back is one expiry of its own, the model's reading (log entry 6). -/
def Obligations.ShortenedIntervalExpires : Prop :=
  ∀ (s : State) (f : BusFrame) (v : Nat), s.Takes f (0x16 :: f.data) → s.tables.mode = .setup → s.store.commit = none →
    byteAt f.data 1 + 256 * byteAt f.data 2 = v →
    (byteAt f.data 0 = 1 → 100 ≤ v → v ≤ 1000 → s.queue.lastPoll + v ≤ s.now →
      ∃ t : State, exec (.writeSetting f) s = .next t ∧ t.queue.lastPoll = s.queue.lastPoll + v ∧
        (t.chain.livenessPoll = true ∨ t.chain.line = .sending (.poll 255))) ∧
    (byteAt f.data 0 = 2 → 100 ≤ v → v ≤ 2000 → ∀ (p : Pos) (h : Time), (s.posAt p).state = .active →
      (s.posAt p).lastHeard = some h → h + v ≤ s.now →
      ∃ t : State, exec (.writeSetting f) s = .next t ∧ (t.posAt p).state = .lost ∧
        (t.posAt p).lostSince = some s.now) ∧
    (byteAt f.data 0 = 3 → 1 ≤ v → v ≤ 30 → ∀ (p : Pos) (l : Time), (s.posAt p).state = .lost →
      (s.posAt p).lostSince = some l → l + v * 1000 ≤ s.now →
      ∃ t : State, exec (.writeSetting f) s = .next t ∧ (t.posAt p).identity = none ∧
        ((t.posAt p).state = .absent ∨ (t.posAt p).state = .probing) ∧
        ∀ c : Circ, (t.circAt p c).condition = .unknown ∧ (t.circAt p c).baseline = .none) ∧
    (byteAt f.data 0 = 9 → 200 ≤ v → v ≤ 5000 → s.port.lastCommand + v ≤ s.now →
      ∃ t : State, exec (.writeSetting f) s = .next t ∧ t.image.commandStale = true ∧
        t.image.telltale.commandStale = true) ∧
    (byteAt f.data 0 = 10 → 100 ≤ v → v ≤ 2000 → ∀ l : Time, s.image.lastFrame = some l → l + v ≤ s.now →
      ∃ t : State, exec (.writeSetting f) s = .next t ∧ t.image.lastFrame = some s.now)

/-! ### Modes and restarts -/

/-- ENTER SETUP: from RUN the mode becomes SETUP, the queue is flushed with its tag counter kept, every candidate and
agreement count clears while conditions, baselines and last readings stand, and every function shows UNVERIFIED; in SETUP
it changes nothing; during a commit it is BUSY. With the line busy the slot is as R75 leaves it; with the line free the slot's SET
goes at once, when it held an image or R75 fills it, and with nothing to divert and nothing else ready the line, the transmitted
image and the slot stand; the position records and flags stand in each case but for the ENUM or QUERY that goes when there is
no slot to send (R39, R41, R58, R62, R74, R75, R99, R166). -/
def Obligations.EnterSetupEffects : Prop :=
  ∀ (s : State) (f : BusFrame), s.Takes f (0x02 :: f.data) →
    (s.store.commit ≠ none → exec (.enterSetup f) s = .next (s.answered (0x02 :: f.data) [5, 0, 0, 0, 0, 0, 0])) ∧
    (s.store.commit = none → s.tables.mode = .setup →
      exec (.enterSetup f) s = .next (s.answered (0x02 :: f.data) [0, 0, 0, 0, 0, 0, 0])) ∧
    (s.store.commit = none → s.tables.mode = .run → ∃ t : State, exec (.enterSetup f) s = .next t ∧
      t.tables = { s.tables with mode := .setup } ∧ t.queue.entries = [] ∧ t.queue.tagCounter = s.queue.tagCounter ∧
      (∀ (p : Pos) (c : Circ), t.circAt p c = { s.circAt p c with candidate := none, agreement := 0 }) ∧
      (∀ g : Fn, t.image.telltale.functions[g] = .unverified) ∧
      t.image.retired = s.image.retired ∧ t.image.faults = s.image.faults ∧ t.image.sequence = s.image.sequence ∧
      t.now = s.now ∧ t.cache = s.cache ∧ t.checks = s.checks ∧ t.store = s.store ∧ t.pending = s.pending ∧
      s.port.SameInputs t.port ∧ t.port.request = some (0x02 :: f.data) ∧
      t.port.transmit.getLast? = some (s.responseTo (0x02 :: f.data) [0, 0, 0, 0, 0, 0, 0]) ∧
      (s.chain.line ≠ .free →
        (s.queue.slot = none → s.port.commanded ≠ s.chain.transmitted →
          t.queue = { s.queue with entries := [], slot := some s.port.commanded } ∧
          t.image.untracked = s.image.untracked ||| (s.port.commanded ^^^ s.chain.transmitted) ∧
          t.chain = { s.chain with counters := { s.chain.counters with
            untrackedChanges := min 65535 (s.chain.counters.untrackedChanges + 1) } }) ∧
        (s.queue.slot ≠ none ∨ s.port.commanded = s.chain.transmitted →
          t.queue = { s.queue with entries := [] } ∧ t.image.untracked = s.image.untracked ∧ t.chain = s.chain)) ∧
      (s.chain.line = .free →
        (∀ i : Image, s.queue.slot = some i ∨
            (s.queue.slot = none ∧ s.port.commanded ≠ s.chain.transmitted ∧ i = s.port.commanded) →
          t.chain = { s.chain with
            transmitted := i, changeTimes := t.chain.changeTimes
            line := .sending (.set 255 (s.delayOver (i ^^^ s.chain.transmitted)) (s.masks i))
            counters := if s.queue.slot = none then { s.chain.counters with
              untrackedChanges := min 65535 (s.chain.counters.untrackedChanges + 1) } else s.chain.counters } ∧
          (∀ g : Fn, t.chain.changeTimes[g] =
            if on i g = on s.chain.transmitted g then s.chain.changeTimes[g] else some s.now) ∧
          t.queue = { s.queue with entries := [], slot := none, generation := (s.queue.generation + 1) % 65536 } ∧
          t.image.untracked = (if s.queue.slot = none
            then s.image.untracked ||| (s.port.commanded ^^^ s.chain.transmitted) else s.image.untracked)) ∧
        (s.queue.slot = none → s.port.commanded = s.chain.transmitted →
          t.queue = { s.queue with entries := [] } ∧ t.image.untracked = s.image.untracked ∧
          t.chain.transmitted = s.chain.transmitted ∧ t.chain.counters = s.chain.counters ∧
          (s.chain.linkRequests = [] → s.chain.livenessPoll = false → t.chain = s.chain) ∧
          ∀ (r : LinkRequest) (rest : List LinkRequest), s.chain.linkRequests = r :: rest →
            t.chain.linkRequests = rest ∧
            t.chain.line = .sending (match r with | .enum q => .enum q | .query q => .query q) ∧
            ∀ p : Pos, r ≠ .enum p → r ≠ .query p → t.posAt p = s.posAt p)))

/-- ENTER RUN from SETUP, with the queue empty as SETUP leaves it: the first profile and check that fails is answered
INCONSISTENT and nothing changes; when all pass the mode becomes RUN, touched baselines return to NONE, every condition is
UNKNOWN and every candidate cleared, the marks clear, the listed circuit faults are healed while the position-level ones, the
position records and their flags stand, and the RESYNC is allocated or diverted. With the line busy it waits; with the line
free its SET goes at once, the entry's or the slot's, and the entry records it, or retires at once when no position is ACTIVE.
In RUN it changes nothing; during a commit it is BUSY (R14, R16, R17, R39, R41, R59, R62, R71, R72, R131, R167). -/
def Obligations.EnterRunEffects : Prop :=
  ∀ (s : State) (f : BusFrame), s.Takes f (0x03 :: f.data) →
    (s.store.commit ≠ none → exec (.enterRun f) s = .next (s.answered (0x03 :: f.data) [5, 0, 0, 0, 0, 0, 0])) ∧
    (s.store.commit = none → s.tables.mode = .run →
      exec (.enterRun f) s = .next (s.answered (0x03 :: f.data) [0, 0, 0, 0, 0, 0, 0])) ∧
    (s.store.commit = none → s.tables.mode = .setup → ∀ (i : ProfileNo) (k : Nat),
      (∀ j : ProfileNo, j < i → (s.tables.tables.profiles[j]).Consistent) →
      (let p := s.tables.tables.profiles[i]
       (k = 1 ∧ p.partialLimit ≤ p.openLimit) ∨
       (k = 2 ∧ p.openLimit < p.partialLimit ∧ p.shortCurrent ≤ p.nominalCurrent) ∨
       (k = 3 ∧ p.openLimit < p.partialLimit ∧ p.nominalCurrent < p.shortCurrent ∧ p.nominalCurrent ≤ p.leakCurrent)) →
      exec (.enterRun f) s = .next (s.answered (0x03 :: f.data)
        [6, BitVec.ofNat 8 i.val, BitVec.ofNat 8 k, 0, 0, 0, 0])) ∧
    (s.store.commit = none → s.tables.mode = .setup → (∀ i : ProfileNo, (s.tables.tables.profiles[i]).Consistent) →
      s.queue.entries = [] → s.FaultsStand → ∃ t : State, exec (.enterRun f) s = .next t ∧
      t.tables.mode = .run ∧ t.tables.tables = s.tables.tables ∧
      (∀ (p : Pos) (c : Circ), t.tables.rowTouched[p][c] = false) ∧
      (∀ i : ProfileNo, t.tables.profileTouched[i] = false) ∧
      (∀ (p : Pos) (c : Circ), t.circAt p c = { s.circAt p c with
        candidate := none, agreement := 0, condition := .unknown
        baseline := if s.tables.rowTouched[p][c] = true ∨ s.tables.profileTouched[(s.rowAt p c).profile] = true then .none
          else (s.circAt p c).baseline }) ∧
      t.image.faults = s.image.faults.map (fun e => if e.key.circ = none then e else { e with active := false }) ∧
      t.image.overflow = s.image.overflow ∧ t.image.sequence = s.image.sequence ∧
      (∀ p : Pos, t.posAt p = s.posAt p) ∧ t.chain.livenessPoll = false ∧
      t.now = s.now ∧ t.cache = s.cache ∧ t.checks = s.checks ∧ t.store = s.store ∧ t.pending = s.pending ∧
      s.port.SameInputs t.port ∧ t.port.request = some (0x03 :: f.data) ∧
      t.port.transmit.getLast? = some (s.responseTo (0x03 :: f.data) [0, 0, 0, 0, 0, 0, 0]) ∧
      let resync : Entry := ⟨s.queue.tagCounter, .resync, .waiting, some s.port.commanded, 0, none, none, 0, 0, []⟩
      let diverted : ChainCounters := { s.chain.counters with
        untrackedChanges := min 65535 (s.chain.counters.untrackedChanges + 1) }
      (s.chain.line ≠ .free →
        t.image.retired = s.image.retired ∧
        (s.queue.slot = none → t.queue = { s.queue with
          entries := [resync], tagCounter := (s.queue.tagCounter + 1) % 255 } ∧
          t.image.untracked = s.image.untracked ∧ t.chain = { s.chain with livenessPoll := false }) ∧
        (s.queue.slot ≠ none → t.queue = { s.queue with slot := some s.port.commanded } ∧
          t.image.untracked = s.image.untracked ||| s.port.commanded ∧
          t.chain = { s.chain with livenessPoll := false, counters := diverted })) ∧
      (s.chain.line = .free →
        (∀ g : Fn, t.chain.changeTimes[g] =
          if on s.port.commanded g = on s.chain.transmitted g then s.chain.changeTimes[g] else some s.now) ∧
        (s.queue.slot = none →
          let delay := s.delayOver s.port.commanded
          t.chain = { s.chain with
            livenessPoll := false, transmitted := s.port.commanded, changeTimes := t.chain.changeTimes
            line := .sending (.set s.queue.tagCounter delay (s.masks s.port.commanded)) } ∧
          t.queue = { s.queue with
            entries := if s.activeSet = 0 then []
              else [s.sentNow resync [] s.port.commanded delay t.chain.changeTimes s.activeSet]
            tagCounter := (s.queue.tagCounter + 1) % 255 } ∧
          t.image.retired = (if s.activeSet = 0 then s.port.commanded else s.image.retired) ∧
          t.image.untracked = (if s.activeSet = 0 then 0 else s.image.untracked)) ∧
        (s.queue.slot ≠ none →
          t.chain = { s.chain with
            livenessPoll := false, transmitted := s.port.commanded, changeTimes := t.chain.changeTimes, counters := diverted
            line := .sending
              (.set 255 (s.delayOver (s.port.commanded ^^^ s.chain.transmitted)) (s.masks s.port.commanded)) } ∧
          t.queue = { s.queue with slot := none, generation := (s.queue.generation + 1) % 65536 } ∧
          t.image.retired = s.image.retired ∧ t.image.untracked = s.image.untracked ||| s.port.commanded)))

/-- RESTART: every block at its soft-restart state, P1 probing when debounced CONNECT is high, the tables, the store, the
cache, the operating seconds, the frame schedule and the transmit list kept. The recomposition is a change when the telltale
image differs from the one held, and its frame is handed now or left pending by the spacing of R150; a frame handed takes the
place of a telltale frame still waiting, every other frame keeps its place, and the response comes last. During a commit it
is BUSY (R13, R14, R25, R38, R78, R99, R100, R114, R142, R149, R150, R159, R172). -/
def Obligations.RestartEffects : Prop :=
  ∀ (s : State) (f : BusFrame), s.Takes f (0x05 :: f.data) →
    (s.store.commit ≠ none → exec (.restart f) s = .next (s.answered (0x05 :: f.data) [5, 0, 0, 0, 0, 0, 0])) ∧
    (s.store.commit = none → ∃ t : State, exec (.restart f) s = .next t ∧
      (∀ p : Pos, p ≠ 0 ∨ s.chain.connectDebounced = false → t.posAt p = Position.absent PosCounters.zero) ∧
      (s.chain.connectDebounced = true → (t.posAt 0).state = .probing ∧ (t.posAt 0).counters = PosCounters.zero ∧
        (s.chain.line = .free → t.chain.line = .sending (.enum 0) ∧ (t.posAt 0).probeAttempts = 1 ∧
          (t.posAt 0).enumTimeout = some (s.now + 20)) ∧
        (s.chain.line ≠ .free → t.chain.line = s.chain.line ∧ t.chain.linkRequests = [.enum 0] ∧
          (t.posAt 0).probeAttempts = 0)) ∧
      (s.chain.connectDebounced = false → t.chain.line = s.chain.line ∧ t.chain.linkRequests = []) ∧
      t.chain.transmitted = 0 ∧ (∀ g : Fn, t.chain.changeTimes[g] = none) ∧ t.chain.livenessPoll = false ∧
      t.chain.connectDebounced = s.chain.connectDebounced ∧ t.chain.linkIntervalEnd = s.chain.linkIntervalEnd ∧
      t.chain.counters = ChainCounters.zero ∧ t.chain.snapshot.chain = ChainCounters.zero ∧
      (∀ p : Pos, t.chain.snapshot.positions[p] = PosCounters.zero) ∧
      t.queue = ⟨[], 0, none, 0, s.now⟩ ∧ (∀ (p : Pos) (c : Circ), t.circAt p c = Circuit.clear) ∧
      (∀ p : Pos, t.checks.times[p] = []) ∧ t.checks.lastServed = none ∧ t.checks.budgetStart = s.now ∧
      t.image.retired = 0 ∧ t.image.untracked = 0 ∧ t.image.faults = [] ∧ t.image.overflow = false ∧
      t.image.sequence = 0 ∧ t.image.commandStale = false ∧ t.image.opSeconds = s.image.opSeconds ∧
      t.image.secondDue = s.image.secondDue ∧
      t.tables.tables = s.tables.tables ∧
      t.tables.mode = (if ∀ i : ProfileNo, (s.tables.tables.profiles[i]).Consistent then .run else .setup) ∧
      (∀ (p : Pos) (c : Circ), t.tables.rowTouched[p][c] = false) ∧
      (∀ i : ProfileNo, t.tables.profileTouched[i] = false) ∧
      t.port.commanded = 0 ∧ t.port.lastCommand = s.now ∧ t.port.request = some (0x05 :: f.data) ∧
      t.port.commandId = s.port.commandId ∧ t.port.requestId = s.port.requestId ∧
      t.image.telltale = t.compose ∧
      (let fr : TxFrame := ⟨.telltale, canId s.settings.telltaleId, t.image.telltale.bytes⟩
       let response : TxFrame := s.responseTo (0x05 :: f.data) [0, 0, 0, 0, 0, 0, 0]
       if t.image.telltale = s.image.telltale then
         t.image.lastFrame = s.image.lastFrame ∧ t.image.framePending = s.image.framePending ∧
         t.port.transmit = s.port.transmit ++ [response]
       else if ∀ l ∈ s.image.lastFrame, l + 50 ≤ s.now then
         t.image.lastFrame = some s.now ∧ t.image.framePending = false ∧
         t.port.transmit = (if s.port.transmit.any (·.kind == .telltale) = true then
             s.port.transmit.map fun g => if g.kind = .telltale then fr else g
           else s.port.transmit ++ [fr]) ++ [response]
       else
         t.image.lastFrame = s.image.lastFrame ∧ t.image.framePending = true ∧
         t.port.transmit = s.port.transmit ++ [response]) ∧
      t.now = s.now ∧ t.cache = s.cache ∧ t.store = s.store ∧ t.pending = s.pending)

/-- RESTART CHAIN, from a sound chain: every position above P1 is ABSENT, and P1 too unless debounced CONNECT is high, when
it is PROBING; the places keep their counters; the queue is flushed with its tag counter kept; every circuit is as at reset,
its condition UNKNOWN, its baseline NONE, its candidate, count and last reading cleared, never checked and not marked due; the
fault list is empty, its overflow flag clear and the check state emptied; tables, mode, marks, commanded and retired image,
untracked flags and the command stale bit are kept. Every ENUM and QUERY pending before is dropped. With the line busy the
telegram goes on and P1's ENUM is pending; with the line free the untracked slot's SET goes first, with no circuit in its masks
and no delay, else P1's ENUM, else in SETUP a liveness POLL that is pending; one that is not sent stands
(R18, R25, R36, R37, R39, R62, R77, R99, R114, R124, R142, R156, R173).
The flush before the cascade is the model's reading (log entry 9). -/
def Obligations.RestartChainEffects : Prop :=
  ∀ (s : State) (f : BusFrame), s.Takes f (0x06 :: f.data) → s.ChainSound →
    ∃ t : State, exec (.restartChain f) s = .next t ∧
      (∀ p : Pos, p ≠ 0 ∨ s.chain.connectDebounced = false → t.posAt p = Position.absent (s.posAt p).counters) ∧
      (s.chain.connectDebounced = true → (t.posAt 0).state = .probing ∧
        (t.posAt 0).counters = (s.posAt 0).counters) ∧
      (let first : Position := { Position.absent (s.posAt 0).counters with state := .probing }
       let asked : List LinkRequest := if s.chain.connectDebounced = true then [.enum 0] else []
       (s.chain.line ≠ .free → t.chain.line = s.chain.line ∧ t.chain.linkRequests = asked ∧
         t.chain.livenessPoll = s.chain.livenessPoll ∧ (s.chain.connectDebounced = true → t.posAt 0 = first)) ∧
       (s.chain.line = .free → ∀ i : Image, s.queue.slot = some i →
         t.chain.line = .sending (.set 255 0 (Vector.replicate 6 0)) ∧ t.chain.transmitted = i ∧
         (∀ g : Fn, t.chain.changeTimes[g] =
           if on i g = on s.chain.transmitted g then s.chain.changeTimes[g] else some s.now) ∧
         t.queue = { s.queue with entries := [], slot := none, generation := (s.queue.generation + 1) % 65536 } ∧
         t.chain.linkRequests = asked ∧ t.chain.livenessPoll = s.chain.livenessPoll ∧
         (s.chain.connectDebounced = true → t.posAt 0 = first)) ∧
       (s.chain.line = .free → s.queue.slot = none →
         t.queue = { s.queue with entries := [] } ∧ t.chain.transmitted = s.chain.transmitted ∧
         t.chain.changeTimes = s.chain.changeTimes ∧ t.chain.linkRequests = [] ∧
         (s.chain.connectDebounced = true → t.chain.line = .sending (.enum 0) ∧
           t.chain.livenessPoll = s.chain.livenessPoll ∧
           t.posAt 0 = { first with probeAttempts := 1, enumTimeout := some (s.now + 20) }) ∧
         (s.chain.connectDebounced = false →
           if s.tables.mode = .setup ∧ s.chain.livenessPoll = true then
             t.chain.line = .sending (.poll 255) ∧ t.chain.livenessPoll = false
           else t.chain.line = .free ∧ t.chain.livenessPoll = s.chain.livenessPoll))) ∧
      t.queue.entries = [] ∧ t.queue.tagCounter = s.queue.tagCounter ∧ t.queue.lastPoll = s.queue.lastPoll ∧
      (s.chain.line ≠ .free → t.queue = { s.queue with entries := [] } ∧ t.chain.transmitted = s.chain.transmitted ∧
        t.chain.changeTimes = s.chain.changeTimes) ∧
      (∀ (p : Pos) (c : Circ), t.circAt p c = Circuit.clear) ∧
      t.image.faults = [] ∧ (s.FaultListSound → t.image.overflow = false) ∧ t.image.retired = s.image.retired ∧ t.image.untracked = s.image.untracked ∧
      t.image.sequence = s.image.sequence ∧ t.image.opSeconds = s.image.opSeconds ∧
      t.image.commandStale = s.image.commandStale ∧
      t.checks = ⟨Vector.replicate 6 [], none, s.now⟩ ∧
      t.chain.counters = s.chain.counters ∧ t.chain.snapshot = s.chain.snapshot ∧
      t.chain.connectDebounced = s.chain.connectDebounced ∧ t.chain.linkIntervalEnd = s.chain.linkIntervalEnd ∧
      t.tables = s.tables ∧ t.store = s.store ∧ t.now = s.now ∧ t.pending = s.pending ∧
      s.port.SameInputs t.port ∧ t.port.request = some (0x06 :: f.data) ∧
      t.port.transmit.getLast? = some (s.responseTo (0x06 :: f.data) [0, 0, 0, 0, 0, 0, 0])

/-! ### Counters, checks, baselines, history, healed faults -/

/-- SNAPSHOT COUNTERS: the counters the selector names are copied into their places in the snapshot and zeroed, the rest of
both is kept, and nothing else changes; a selector above 6 is BAD_INDEX (R52). -/
def Obligations.SnapshotCopiesCounters : Prop :=
  ∀ (s : State) (f : BusFrame), s.Takes f (0x24 :: f.data) →
    (6 < byteAt f.data 0 →
      exec (.snapshotCounters f) s = .next (s.answered (0x24 :: f.data) [3, 0, 0, 0, 0, 0, 0])) ∧
    (byteAt f.data 0 ≤ 6 → ∃ t : State, exec (.snapshotCounters f) s = .next (t.answered (0x24 :: f.data) [0, 0, 0, 0, 0, 0, 0]) ∧
      (∀ p : Pos,
        if byteAt f.data 0 = 0 ∨ byteAt f.data 0 = p.val + 1 then
          t.chain.snapshot.positions[p] = (s.posAt p).counters ∧
            t.posAt p = { s.posAt p with counters := PosCounters.zero }
        else t.chain.snapshot.positions[p] = s.chain.snapshot.positions[p] ∧ t.posAt p = s.posAt p) ∧
      (if byteAt f.data 0 = 0 then
        t.chain.snapshot.chain = s.chain.counters ∧ t.chain.counters = ChainCounters.zero
      else t.chain.snapshot.chain = s.chain.snapshot.chain ∧ t.chain.counters = s.chain.counters) ∧
      t = { s with chain := { s.chain with
        positions := t.chain.positions, counters := t.chain.counters, snapshot := t.chain.snapshot } })

/-- FULL CHECK: in RUN the due mark of every circuit that meets tests 1 to 5 of R116 is set, the others stand, nothing else
changes, and the number of circuits that meet them is answered; in SETUP it is REFUSED_MODE (R116, R125).
That a circuit marked before which fails a test now is not counted is the model's reading (log entry 22). -/
def Obligations.FullCheckMarks : Prop :=
  ∀ (s : State) (f : BusFrame), s.Takes f (0x26 :: f.data) →
    (s.tables.mode = .setup → exec (.fullCheck f) s = .next (s.answered (0x26 :: f.data) [2, 0, 0, 0, 0, 0, 0])) ∧
    (s.tables.mode = .run → ∃ t : State,
      exec (.fullCheck f) s = .next (t.answered (0x26 :: f.data)
        [0, BitVec.ofNat 8 ((allPos.map fun p => allCirc.countP fun c => decide (s.MeetsCheckTests p c)).sum),
          0, 0, 0, 0, 0]) ∧
      t = { s with circuits := t.circuits } ∧
      ∀ (p : Pos) (c : Circ), t.circAt p c = { s.circAt p c with
        due := (s.circAt p c).due || decide (s.MeetsCheckTests p c) })

/-- FORGET BASELINES: the records the selector names return to NONE; a selector above 6 is BAD_INDEX. FORGET HISTORY: the
cache is empty. CLEAR HEALED: the healed entries leave the list, the overflow flag clears and their number is answered. None
changes anything else but, for CLEAR HEALED, the telltale image (R106, R113, R157). -/
def Obligations.ForgetAndClear : Prop :=
  (∀ (s : State) (f : BusFrame), s.Takes f (0x27 :: f.data) →
    (6 < byteAt f.data 0 →
      exec (.forgetBaselines f) s = .next (s.answered (0x27 :: f.data) [3, 0, 0, 0, 0, 0, 0])) ∧
    (byteAt f.data 0 ≤ 6 → ∃ t : State,
      exec (.forgetBaselines f) s = .next (t.answered (0x27 :: f.data) [0, 0, 0, 0, 0, 0, 0]) ∧
      t = { s with circuits := t.circuits } ∧
      ∀ (p : Pos) (c : Circ), t.circAt p c =
        if byteAt f.data 0 = 0 ∨ byteAt f.data 0 = p.val + 1 then { s.circAt p c with baseline := .none }
        else s.circAt p c)) ∧
  (∀ (s : State) (f : BusFrame), s.Takes f (0x28 :: f.data) →
    exec (.forgetHistory f) s =
      .next (({ s with cache := [] } : State).answered (0x28 :: f.data) [0, 0, 0, 0, 0, 0, 0])) ∧
  (∀ (s : State) (f : BusFrame), s.Takes f (0x23 :: f.data) →
    ∃ t : State, exec (.clearHealed f) s = .next t ∧
      t.image.faults = s.image.faults.filter (·.active) ∧ t.image.overflow = false ∧
      t.image.retired = s.image.retired ∧ t.image.untracked = s.image.untracked ∧
      t.image.sequence = s.image.sequence ∧ t.image.commandStale = s.image.commandStale ∧
      t.now = s.now ∧ t.tables = s.tables ∧ t.chain = s.chain ∧ t.queue = s.queue ∧ t.circuits = s.circuits ∧
      t.cache = s.cache ∧ t.checks = s.checks ∧ t.store = s.store ∧ t.pending = s.pending ∧
      s.port.SameInputs t.port ∧
      t.port.transmit.getLast? = some (s.responseTo (0x23 :: f.data)
        [0, BitVec.ofNat 8 (s.image.faults.countP (!·.active)), 0, 0, 0, 0, 0]))

/-! ### Timers of the Image Builder -/

/-- TELLTALE_SPACING_EXPIRY, TELLTALE_PERIOD_EXPIRY, COMMAND_SILENCE_EXPIRY and OPERATING_SECOND: with its time come each
hands a frame, sets the command stale bit, or counts a second; before its time each changes nothing, which is the model's
choice (log entry 5) (R142, R149, R150, R151, R159). -/
def Obligations.ImageTimers : Prop :=
  ∀ s : State,
    let fr : TxFrame := ⟨.telltale, canId s.settings.telltaleId, s.image.telltale.bytes⟩
    let handed : State := { s with
      image := { s.image with lastFrame := some s.now, framePending := false }
      port := { s.port with transmit :=
        if s.port.transmit.any (·.kind == .telltale) = true then
          s.port.transmit.map fun g => if g.kind = .telltale then fr else g
        else s.port.transmit ++ [fr] } }
    (s.image.framePending = true → (∀ l ∈ s.image.lastFrame, l + 50 ≤ s.now) →
      exec .telltaleSpacingExpiry s = .next handed) ∧
    (s.image.framePending = false ∨ (∃ l ∈ s.image.lastFrame, s.now < l + 50) →
      exec .telltaleSpacingExpiry s = .next s) ∧
    (∀ l : Time, s.image.lastFrame = some l →
      exec .telltalePeriodExpiry s = .next (if l + s.settings.telltalePeriod ≤ s.now then handed else s)) ∧
    (s.image.lastFrame = none → exec .telltalePeriodExpiry s = .next s) ∧
    (s.image.commandStale = false → s.port.lastCommand + s.settings.commandSilence ≤ s.now →
      ∃ t : State, exec .commandSilenceExpiry s = .next t ∧ t.image.commandStale = true ∧
        t.image.telltale = { s.compose with commandStale := true } ∧
        t = { s with
          image := { s.image with
            commandStale := true, telltale := t.image.telltale, lampAlert := t.image.lampAlert
            lastFrame := t.image.lastFrame, framePending := t.image.framePending }
          port := { s.port with transmit := t.port.transmit } }) ∧
    (s.image.commandStale = true ∨ s.now < s.port.lastCommand + s.settings.commandSilence →
      exec .commandSilenceExpiry s = .next s) ∧
    (s.image.secondDue ≤ s.now → exec .operatingSecond s = .next { s with image := { s.image with
      opSeconds := min 4294967295 (s.image.opSeconds + 1), secondDue := s.image.secondDue + 1000 } }) ∧
    (s.now < s.image.secondDue → exec .operatingSecond s = .next s)

/-! ### CONNECT -/

/-- CONNECT_CHANGE starts the debounce of a new level; CONNECT_DEBOUNCED_RISE, after 100 ms of a high level, makes an ABSENT
P1 begin probing, its ENUM sent at once when the line is free and nothing else waits; CONNECT_DEBOUNCED_FALL, after 100 ms
of a low one, makes every position ABSENT, its counters kept, and empties the fault list, leaving mode, tables and commanded
image; before that time neither changes anything (R24, R25, R36, R156).
That a command before its time changes nothing is the model's choice (log entry 5). -/
def Obligations.ConnectMoves : Prop :=
  (∀ (s : State) (high : Bool), exec (.connectChange high) s = .next
    (if s.chain.connectRaw = high then s
     else { s with chain := { s.chain with connectRaw := high, connectSince := s.now } })) ∧
  (∀ s : State, s.chain.connectRaw = true → s.chain.connectDebounced = false → s.chain.connectSince + 100 ≤ s.now →
    (s.posAt 0).state = .absent → ∃ t : State, exec .connectDebouncedRise s = .next t ∧
      t.chain.connectDebounced = true ∧ (t.posAt 0).state = .probing ∧
      t.tables = s.tables ∧ t.cache = s.cache ∧ t.store = s.store ∧ t.now = s.now ∧ t.pending = s.pending ∧
      s.port.SameInputs t.port ∧ t.port.request = s.port.request ∧
      (s.chain.line ≠ .free →
        t.chain = { s.chain with
          connectDebounced := true
          positions := upd s.chain.positions 0 fun r => { r with state := .probing, probeAttempts := 0 }
          linkRequests := s.chain.linkRequests ++ [.enum 0] } ∧
        t.queue = s.queue ∧ t.circuits = s.circuits ∧ t.checks = s.checks ∧ s.image.SameRecords t.image) ∧
      (s.chain.line = .free → s.queue.firstSet = none → s.queue.slot = none → s.chain.linkRequests = [] →
        t.chain.line = .sending (.enum 0) ∧ t.chain.linkRequests = [] ∧ (t.posAt 0).probeAttempts = 1 ∧
        (t.posAt 0).enumTimeout = some (s.now + 20))) ∧
  (∀ s : State, s.chain.connectRaw = false → s.chain.connectDebounced = true → s.chain.connectSince + 100 ≤ s.now →
    s.ChainSound → ∃ t : State, exec .connectDebouncedFall s = .next t ∧
      t.chain.connectDebounced = false ∧ (∀ p : Pos, t.posAt p = Position.absent (s.posAt p).counters) ∧
      t.chain.linkRequests = [] ∧ t.image.faults = [] ∧
      (∀ (p : Pos) (c : Circ), (t.circAt p c).condition = .unknown ∧ (t.circAt p c).baseline = .none) ∧
      t.chain.counters = s.chain.counters ∧ t.chain.line = s.chain.line ∧
      t.chain.transmitted = s.chain.transmitted ∧ t.queue.tagCounter = s.queue.tagCounter ∧
      t.queue.slot = s.queue.slot ∧ t.queue.generation = s.queue.generation ∧
      t.tables = s.tables ∧ t.checks = s.checks ∧ t.store = s.store ∧ t.now = s.now ∧ t.pending = s.pending ∧
      s.port.SameInputs t.port ∧ t.port.request = s.port.request) ∧
  (∀ s : State, s.chain.connectRaw = false ∨ s.chain.connectDebounced = true ∨ s.now < s.chain.connectSince + 100 →
    exec .connectDebouncedRise s = .next s) ∧
  (∀ s : State, s.chain.connectRaw = true ∨ s.chain.connectDebounced = false ∨ s.now < s.chain.connectSince + 100 →
    exec .connectDebouncedFall s = .next s)

/-! ### The transmitter and the poll schedule -/

/-- The line, and the transmitter's pick at the end of a telegram (R18, R39, R40, R41, R42, R62, R64, R65, R120, R122). No
command but the end of a telegram and a hard reset changes a line that sends or receives. DOWNSTREAM_TELEGRAM_DONE: an answer
that begins at that moment is received first; else the transmitter picks the oldest WAITING CHANGE or RESYNC, then the
untracked slot, then the ENUM or QUERY pending first, then the oldest WAITING CHECK whose function is off and whose position's
budget allows it, then the oldest WAITING POLL or in SETUP the liveness POLL, and stays free when there is none. A WAITING
CHECK found lit on the way completes empty, one found blocked stays as it is. The entry sent records the image, the delay, its
time, deadline, change times and generation, whether it is overtaken and the positions it requires, and is PENDING, or
COMPLETE when it requires none. What is said of single entries and of the search over the CHECKs holds while the tags are in
order, as every step keeps them (R53). When the port sends nothing the command changes nothing but the telltale image's composition,
the model's choice (log entry 5).
The answer's beginning as an operand is the model's form of R18 (log entry 7). -/
def Obligations.TelegramDonePicks : Prop :=
  (∀ (c : Instr) (s t : State), exec c s = .next t → s.chain.line ≠ .free →
    t.chain.line = s.chain.line ∨ c = .hardReset ∨ (∃ ab : Bool, c = .downstreamTelegramDone ab) ∨
    (s.chain.line = .receiving ∧ ∃ ab : Bool, (∃ x : UpTelegram, c = .report x ab) ∨ (∃ x : UpTelegram, c = .ident x ab) ∨
      ∃ x : List Byte, c = .badUpstreamTelegram x ab)) ∧
  (∀ (s : State) (ab : Bool), s.chain.line = .free ∨ s.chain.line = .receiving →
    ∃ t : State, exec (.downstreamTelegramDone ab) s = .next t ∧ t.chain = s.chain ∧
      t.queue = s.queue ∧ t.circuits = s.circuits ∧ t.checks = s.checks ∧ t.cache = s.cache ∧ t.tables = s.tables ∧
      t.store = s.store ∧ t.now = s.now ∧ t.pending = s.pending ∧ s.image.SameRecords t.image ∧
      s.port.SameInputs t.port ∧ t.port.request = s.port.request) ∧
  (∀ s : State, ∀ p : Pos, hasPos s.activeSet p = true ↔ (s.posAt p).state = .active) ∧
  ∀ (s : State) (x : Downstream), s.chain.line = .sending x →
    (∃ t : State, exec (.downstreamTelegramDone true) s = .next t ∧ t.chain = { s.chain with line := .receiving } ∧
      t.queue = s.queue ∧ t.circuits = s.circuits ∧ t.checks = s.checks ∧ t.cache = s.cache ∧ t.tables = s.tables ∧
      t.store = s.store ∧ t.now = s.now ∧ t.pending = s.pending ∧ s.image.SameRecords t.image ∧
      s.port.SameInputs t.port) ∧
    ∃ t : State, exec (.downstreamTelegramDone false) s = .next t ∧
      t.cache = s.cache ∧ t.tables = s.tables ∧ t.store = s.store ∧ t.now = s.now ∧ t.pending = s.pending ∧
      s.port.SameInputs t.port ∧ t.port.request = s.port.request ∧ t.chain.counters = s.chain.counters ∧
      (∀ (a b : List Entry) (e : Entry), s.queue.entries = a ++ e :: b → e.state = .waiting → e.isSet = true →
        (∀ y ∈ a, ¬(y.state = .waiting ∧ y.isSet = true)) → ∀ i : Image, e.image = some i →
        t.chain.line = .sending (.set e.tag (s.delayOver (e.delaySet i)) (s.masks i)) ∧ t.chain.transmitted = i ∧
        (∀ g : Fn, t.chain.changeTimes[g] =
          if on i g = on s.chain.transmitted g then s.chain.changeTimes[g] else some s.now) ∧
        t.checks = s.checks ∧ t.queue.slot = s.queue.slot ∧ t.queue.generation = s.queue.generation ∧
        (s.TagsInOrder →
          t.queue.Keeps (s.sentNow e b i (s.delayOver (e.delaySet i)) t.chain.changeTimes s.activeSet))) ∧
      (s.queue.firstSet = none → ∀ i : Image, s.queue.slot = some i →
        t.chain.line = .sending (.set 255 (s.delayOver (i ^^^ s.chain.transmitted)) (s.masks i)) ∧
        t.chain.transmitted = i ∧
        (∀ g : Fn, t.chain.changeTimes[g] =
          if on i g = on s.chain.transmitted g then s.chain.changeTimes[g] else some s.now) ∧
        t.queue = { s.queue with slot := none, generation := (s.queue.generation + 1) % 65536 }) ∧
      (s.queue.firstSet = none → s.queue.slot = none → ∀ (r : LinkRequest) (rest : List LinkRequest),
        s.chain.linkRequests = r :: rest →
        t.chain.linkRequests = rest ∧ t.queue = s.queue ∧ t.circuits = s.circuits ∧
        (∀ p : Pos, r = .enum p → t.chain.line = .sending (.enum p) ∧
          t.posAt p = { s.posAt p with
            probeAttempts := (s.posAt p).probeAttempts + 1, enumTimeout := some (s.now + 20) }) ∧
        (∀ p : Pos, r = .query p → t.chain.line = .sending (.query p) ∧
          t.posAt p = { s.posAt p with queryUntil := some (s.now + 20) })) ∧
      (s.queue.firstSet = none → s.queue.slot = none → s.chain.linkRequests = [] →
        t.chain.transmitted = s.chain.transmitted ∧ t.chain.changeTimes = s.chain.changeTimes ∧
        t.queue.generation = s.queue.generation ∧ t.queue.slot = none ∧
        (s.TagsInOrder → ∀ (a b : List Entry) (e : Entry), s.queue.entries = a ++ e :: b → e.state = .waiting →
          e.kind = .check → ∀ g : CheckTarget, e.target = some g →
          (s.rowAt g.pos g.circ).onIn s.chain.transmitted = false → s.BudgetOpen g.pos →
          (∀ y ∈ a, y.state = .waiting → y.kind = .check → s.SearchPasses y) →
          t.chain.line = .sending (.check e.tag g.pos g.circ g.pulse) ∧
          t.checks = { s.checks with
            times := upd s.checks.times g.pos fun ts => (ts ++ [s.now]).drop (ts.length + 1 - 4) } ∧
          (t.circAt g.pos g.circ).lastCheck = some s.now ∧ (t.circAt g.pos g.circ).due = false ∧
          t.queue.Keeps (s.sentNow e b s.chain.transmitted 0 s.chain.changeTimes
            (if (s.posAt g.pos).state = .active then posBit g.pos else 0)) ∧
          ∀ y ∈ a, y.state = .waiting → y.kind = .check → ∀ h ∈ y.target,
            ((s.rowAt h.pos h.circ).onIn s.chain.transmitted = true →
              ∀ z ∈ t.queue.entries, z.tag = y.tag → z.state = .complete) ∧
            ((s.rowAt h.pos h.circ).onIn s.chain.transmitted = false → y ∈ t.queue.entries)) ∧
        (s.TagsInOrder → (∀ y ∈ s.queue.entries, y.state = .waiting → y.kind = .check → s.SearchPasses y) →
          t.checks = s.checks ∧
          (∀ (a b : List Entry) (e : Entry), s.queue.entries = a ++ e :: b → e.state = .waiting →
            e.kind = .poll → (∀ y ∈ a, ¬(y.state = .waiting ∧ y.kind = .poll)) →
            t.chain.line = .sending (.poll e.tag) ∧
            t.queue.Keeps (s.sentNow e b s.chain.transmitted 0 s.chain.changeTimes s.activeSet)) ∧
          (s.queue.firstOf .poll = none → t.chain.line =
            (if s.tables.mode = .setup ∧ s.chain.livenessPoll = true then .sending (.poll 255) else .free)) ∧
          ∀ y ∈ s.queue.entries, y.state = .waiting → y.kind = .check → ∀ h ∈ y.target,
            ((s.rowAt h.pos h.circ).onIn s.chain.transmitted = true →
              ∀ z ∈ t.queue.entries, z.tag = y.tag → z.state = .complete) ∧
            ((s.rowAt h.pos h.circ).onIn s.chain.transmitted = false → y ∈ t.queue.entries)) ∧
        (s.queue.firstOf .check = none → s.queue.firstOf .poll = none →
          t.queue = s.queue ∧ t.circuits = s.circuits ∧ t.checks = s.checks ∧
          (if s.tables.mode = .setup ∧ s.chain.livenessPoll = true then
            t.chain = { s.chain with line := .sending (.poll 255), livenessPoll := false }
          else t.chain = { s.chain with line := .free })))

/-- CHECK_BUDGET_READY, with the line free, the tags in order and only CHECKs and POLLs waiting: the oldest WAITING CHECK whose
function is off and whose position's budget allows it is sent now, past older ones that the search passes; its time joins the
position's list, its circuit's last-check time becomes now and its due mark clears, and its entry records what it was sent with. A
WAITING CHECK found lit on the way completes empty, one that the budget blocks stays as it is. Where the search passes every
WAITING CHECK and one is lit, no check time joins a list and the oldest WAITING POLL goes, if there is one. With the line busy, or
every WAITING CHECK held back by its budget, it changes nothing (R39, R42, R64, R65, R120, R121, R122).
That it changes nothing then is the model's choice (log entry 5). -/
def Obligations.CheckBudgetReadySends : Prop :=
  (∀ s : State, s.TagsInOrder → s.chain.line = .free → s.queue.firstSet = none → s.queue.slot = none →
    s.chain.linkRequests = [] →
    let searched (ys : List Entry) (t : State) : Prop :=
      ∀ y ∈ ys, y.state = .waiting → y.kind = .check → ∀ h ∈ y.target,
        ((s.rowAt h.pos h.circ).onIn s.chain.transmitted = true →
          ∀ z ∈ t.queue.entries, z.tag = y.tag → z.state = .complete) ∧
        ((s.rowAt h.pos h.circ).onIn s.chain.transmitted = false → y ∈ t.queue.entries)
    (∀ (a b : List Entry) (e : Entry) (p : Pos) (c : Circ) (pulse : Nat), s.queue.entries = a ++ e :: b →
      e.state = .waiting → e.kind = .check → e.target = some ⟨p, c, pulse⟩ →
      (s.rowAt p c).onIn s.chain.transmitted = false → s.BudgetOpen p →
      (∀ y ∈ a, y.state = .waiting → y.kind = .check → s.SearchPasses y) →
      ∃ t : State, exec .checkBudgetReady s = .next t ∧
        t.chain = { s.chain with line := .sending (.check e.tag p c pulse), positions := t.chain.positions } ∧
        t.checks = { s.checks with times := upd s.checks.times p fun ts => (ts ++ [s.now]).drop (ts.length + 1 - 4) } ∧
        (t.circAt p c).lastCheck = some s.now ∧ (t.circAt p c).due = false ∧
        t.queue.Keeps (s.sentNow e b s.chain.transmitted 0 s.chain.changeTimes
          (if (s.posAt p).state = .active then posBit p else 0)) ∧
        searched a t ∧ t.tables = s.tables ∧ t.cache = s.cache ∧ t.store = s.store ∧ t.now = s.now ∧
        t.pending = s.pending ∧ s.port.SameInputs t.port) ∧
    ((∀ y ∈ s.queue.entries, y.state = .waiting → y.kind = .check → s.SearchPasses y) →
      (∃ y ∈ s.queue.entries, y.state = .waiting ∧ y.kind = .check ∧ ∃ g ∈ y.target,
        (s.rowAt g.pos g.circ).onIn s.chain.transmitted = true) →
      ∃ t : State, exec .checkBudgetReady s = .next t ∧ t.checks = s.checks ∧ searched s.queue.entries t ∧
        t.tables = s.tables ∧ t.cache = s.cache ∧ t.store = s.store ∧ t.now = s.now ∧ t.pending = s.pending ∧
        s.port.SameInputs t.port ∧
        (∀ (a b : List Entry) (e : Entry), s.queue.entries = a ++ e :: b → e.state = .waiting → e.kind = .poll →
          (∀ y ∈ a, ¬(y.state = .waiting ∧ y.kind = .poll)) →
          t.chain.line = .sending (.poll e.tag) ∧
          t.queue.Keeps (s.sentNow e b s.chain.transmitted 0 s.chain.changeTimes s.activeSet)) ∧
        (s.queue.firstOf .poll = none → t.chain.line =
          (if s.tables.mode = .setup ∧ s.chain.livenessPoll = true then .sending (.poll 255) else .free)))) ∧
  (∀ s : State,
    s.chain.line ≠ .free ∨ (∀ y ∈ s.queue.entries, y.state = .waiting → y.kind = .check → s.HeldBack y) →
      exec .checkBudgetReady s = .next s)

/-- POLL_DUE, with the poll period run out: the due time taken lies one poll period after the one before. In RUN with room, a
POLL entry joins the queue; with the line free and nothing waiting but CHECKs that the search passes it is sent at once, past
those the budget holds back, and COMPLETE at once when no position is ACTIVE, retiring when it is the head; and the Check Scheduler
takes its run. The run goes once round the positions, starting after the last served, and asks one CHECK for each that has fewer than
two live CHECKs and a circuit that may be checked, for the circuit R118 chooses, until the queue has no room; the last
position served is the last it got an entry for. Without room for the POLL it is skipped and counted, the line busy or
free. In SETUP a liveness POLL becomes pending, and is sent at once when the line is free and nothing else waits (R39, R40,
R60, R61, R64, R69, R71, R72, R116, R117, R118, R121).
That the POLL goes out before the run, whose CHECKs wait behind it, is read from section 6.8, 'allocated and sent at once,
before the run's CHECK exists' (log entry 18).
Before its time the command changes nothing, and a due time taken late is followed by the next one poll period after it, not
after the moment it is taken: the model's choice and its reading (log entries 5 and 6). -/
def Obligations.PollDueEffects : Prop :=
  (∀ s : State, s.now < s.queue.lastPoll + s.settings.pollPeriod → exec .pollDue s = .next s) ∧
  (∀ s : State, s.queue.lastPoll + s.settings.pollPeriod ≤ s.now → ∃ t : State, exec .pollDue s = .next t ∧
    let due := s.queue.lastPoll + s.settings.pollPeriod
    let order : List Pos := match s.checks.lastServed with
      | none => allPos
      | some q => allPos.filter (fun p => q < p) ++ allPos.filter (fun p => p ≤ q)
    let wanted := order.filter fun p => decide ((∃ c : Circ, s.MayCheck p c) ∧
      s.queue.entries.countP (·.checksAt p none) < 2)
    let room := min (15 - s.queue.entries.length) (11 - s.queue.entries.countP Entry.isPollCheck)
    let runs (poll : Entry) : Prop := ∃ served : List (Pos × Circ),
      served.map (·.1) = wanted.take room ∧ (∀ x ∈ served, s.ChosenForCheck x.1 x.2) ∧
      t.queue = { s.queue with
        entries := s.queue.entries ++ poll :: served.zipIdx.map fun x =>
          ⟨(s.queue.tagCounter + 1 + x.2) % 255, .check, .waiting, none, 0,
            some ⟨x.1.1, x.1.2, (s.profileAt x.1.1 x.1.2).checkPulse⟩, none, 0, 0, []⟩
        tagCounter := (s.queue.tagCounter + 1 + served.length) % 255
        lastPoll := due } ∧
      t.checks = { s.checks with
        lastServed := match served.getLast? with | some x => some x.1 | none => s.checks.lastServed }
    let poll : Entry := ⟨s.queue.tagCounter, .poll, .waiting, none, 0, none, none, 0, 0, []⟩
    t.queue.lastPoll = due ∧ t.tables = s.tables ∧ t.cache = s.cache ∧ t.store = s.store ∧ t.now = s.now ∧
    t.pending = s.pending ∧ s.port.SameInputs t.port ∧ t.port.request = s.port.request ∧
    (s.tables.mode = .run → s.queue.entries.length < 16 → s.queue.entries.countP Entry.isPollCheck < 12 →
      (s.chain.line ≠ .free →
        t.chain = s.chain ∧ t.circuits = s.circuits ∧ s.image.SameRecords t.image ∧ runs poll) ∧
      (s.chain.line = .free → s.TagsInOrder → s.queue.firstSet = none → s.queue.firstOf .poll = none →
        s.queue.slot = none → s.chain.linkRequests = [] →
        let sent := s.sentNow poll [] s.chain.transmitted 0 s.chain.changeTimes s.activeSet
        ((∀ y ∈ s.queue.entries, y.state = .waiting → y.kind = .check → s.SearchPasses y) →
          t.chain.line = .sending (.poll s.queue.tagCounter) ∧ t.queue.Keeps sent ∧
          ∀ y ∈ s.queue.entries, y.state = .waiting → y.kind = .check → ∀ h ∈ y.target,
            ((s.rowAt h.pos h.circ).onIn s.chain.transmitted = true →
              ∀ z ∈ t.queue.entries, z.tag = y.tag → z.state = .complete) ∧
            ((s.rowAt h.pos h.circ).onIn s.chain.transmitted = false → y ∈ t.queue.entries)) ∧
        ((∀ y ∈ s.queue.entries, y.state = .waiting → y.kind = .check → s.HeldBack y) →
          (∀ e ∈ s.queue.entries.head?, e.state.final = false) →
          t.chain = { s.chain with line := .sending (.poll s.queue.tagCounter) } ∧ t.circuits = s.circuits ∧
          (s.queue.entries ≠ [] ∨ (∃ p : Pos, (s.posAt p).state = .active) →
            s.image.SameRecords t.image ∧ runs sent) ∧
          (s.queue.entries = [] → (∀ p : Pos, (s.posAt p).state ≠ .active) →
            t.queue = { s.queue with tagCounter := (s.queue.tagCounter + 1) % 255, lastPoll := due } ∧
            t.checks = s.checks ∧ t.image.retired = s.chain.transmitted ∧ t.image.untracked = 0 ∧
            t.image.faults = s.image.faults)))) ∧
    (s.tables.mode = .run →
      s.chain.line ≠ .free ∨ ((∀ e ∈ s.queue.entries, e.state ≠ .waiting) ∧ s.queue.slot = none ∧
        s.chain.linkRequests = []) ∨ (s.TagsInOrder ∧ s.queue.firstSet = none ∧ s.queue.firstOf .poll = none ∧
        (∀ y ∈ s.queue.entries, y.state = .waiting → y.kind = .check → s.HeldBack y) ∧ s.queue.slot = none ∧
        s.chain.linkRequests = []) →
      16 ≤ s.queue.entries.length ∨ 12 ≤ s.queue.entries.countP Entry.isPollCheck →
        t.queue = { s.queue with lastPoll := due } ∧ t.checks = s.checks ∧ t.circuits = s.circuits ∧
        s.image.SameRecords t.image ∧
        t.chain = { s.chain with counters := { s.chain.counters with
          skippedPolls := min 65535 (s.chain.counters.skippedPolls + 1) } }) ∧
    (s.tables.mode = .setup →
      (s.chain.line ≠ .free → t.chain = { s.chain with livenessPoll := true } ∧
        t.queue = { s.queue with lastPoll := due } ∧ t.circuits = s.circuits ∧ t.checks = s.checks) ∧
      (s.chain.line = .free → s.queue.entries = [] → s.queue.slot = none → s.chain.linkRequests = [] →
        t.chain = { s.chain with line := .sending (.poll 255), livenessPoll := false } ∧
        t.queue = { s.queue with lastPoll := due } ∧ t.circuits = s.circuits ∧ t.checks = s.checks)))

/-! ### Upstream telegrams -/

/-- REPORT that passes R178. From an ACTIVE or LOST position it refreshes the last-heard time, takes the downstream-load
flag, adds the far-end errors to both counts and the superseded answer to its counter, and sets LINK_DEGRADED when it takes the
count above the threshold, its fault added when no entry awaits the REPORT and nothing is sent at its end. On a sound chain its
flag set makes an ABSENT position after an ACTIVE one PROBING, its ENUM pending, and its flag clear makes a PROBING or PASSIVE one
ABSENT, its requests dropped; every other position and request stands, but for SUPPLY_LOW and FEED_LOST when an entry retires.
From a LOST position it makes a QUERY pending. With no live entry awaiting it, or from a position that is neither, it counts as stale. On a sound
chain, an entry that awaits it takes the answer as it arrived: while other positions are missing it stays live in its state;
with the last answer it is COMPLETE, stays live behind a PENDING head, and as the head retires at once
(R24, R26, R29, R46, R47, R49, R51, R55, R56, R66, R69, R71, R138).
When the port becomes free at its end, the transmitter makes its pick after these effects, the pick of a telegram's end (R18,
R39); that it comes after them is read from the worked cases (log entry 7). -/
def Obligations.ReportTaken : Prop :=
  ∀ (s : State) (t : UpTelegram) (ab : Bool) (r : ReportFields), parseReport t = some r →
    let awaited := ∃ e ∈ s.queue.entries, e.tag = r.tag ∧ hasPos e.required r.pos = true ∧
      hasPos e.answered r.pos = false ∧ e.state ≠ .expired
    ∃ u : State, exec (.report t ab) s = .next u ∧
      u.now = s.now ∧ u.tables = s.tables ∧ u.store = s.store ∧ u.pending = s.pending ∧
      s.port.SameInputs u.port ∧ u.port.request = s.port.request ∧
      (s.lineHeld ab = false → ∀ x : Downstream,
        exec (.downstreamTelegramDone false) (((s.onFreeLine).takeReport r).beginTelegram x) = .next u ∧
        ((s.posAt r.pos).state.onChain = false →
          exec (.downstreamTelegramDone false) { s with chain := { s.chain with
            line := .sending x
            counters := { s.chain.counters with staleReports := min 65535 (s.chain.counters.staleReports + 1) } } } =
              .next u)) ∧
      ((s.posAt r.pos).state.onChain = true →
        (u.posAt r.pos).state = (s.posAt r.pos).state ∧ (u.posAt r.pos).lastHeard = some s.now ∧
        (u.posAt r.pos).downstreamLoad = r.load ∧ (u.posAt r.pos).identity = (s.posAt r.pos).identity ∧
        (u.posAt r.pos).lostSince = (s.posAt r.pos).lostSince ∧
        (u.posAt r.pos).linkErrors = min 65535 ((s.posAt r.pos).linkErrors + r.farEnd) ∧
        ((u.posAt r.pos).linkDegraded = true ↔ s.DegradedBy r.pos r.farEnd) ∧
        (u.posAt r.pos).counters = {
          linkErrorsTotal := min 65535 ((s.posAt r.pos).counters.linkErrorsTotal + r.farEnd)
          missedAnswers := (s.posAt r.pos).counters.missedAnswers
          superseded := if r.superseded = true then min 65535 ((s.posAt r.pos).counters.superseded + 1)
            else (s.posAt r.pos).counters.superseded }) ∧
      ((s.posAt r.pos).state = .lost → (s.posAt r.pos).queryUntil = none → s.lineHeld ab = true →
        .query r.pos ∈ u.chain.linkRequests) ∧
      ((s.posAt r.pos).state.onChain = false →
        (u.posAt r.pos).state = (s.posAt r.pos).state ∧ (u.posAt r.pos).lastHeard = (s.posAt r.pos).lastHeard ∧
        (u.posAt r.pos).counters = (s.posAt r.pos).counters ∧
        u.chain.counters.staleReports = min 65535 (s.chain.counters.staleReports + 1)) ∧
      (s.ChainSound → (s.posAt r.pos).state.onChain = true → s.lineHeld ab = true →
        (∀ q : Pos, q ≠ r.pos →
          let kept : Position :=
            if s.ProbeBegins r.pos r.load q then { s.posAt q with state := .probing, probeAttempts := 0 }
            else if s.ProbeEnds r.pos r.load q then Position.absent (s.posAt q).counters else s.posAt q
          u.posAt q = { kept with supplyLow := (u.posAt q).supplyLow, feedLost := (u.posAt q).feedLost } ∧
          (¬awaited → u.posAt q = kept)) ∧
        (∀ q : Pos, s.ProbeBegins r.pos r.load q → u.chain.linkRequests = s.chain.linkRequests ++ [.enum q]) ∧
        (∀ q : Pos, s.ProbeEnds r.pos r.load q → .enum q ∉ u.chain.linkRequests ∧ .query q ∉ u.chain.linkRequests) ∧
        ∀ k : LinkRequest, k ≠ .query r.pos →
          (∀ q : Pos, s.ProbeBegins r.pos r.load q ∨ s.ProbeEnds r.pos r.load q → k ≠ .enum q ∧ k ≠ .query q) →
          (k ∈ u.chain.linkRequests ↔ k ∈ s.chain.linkRequests)) ∧
      (s.ChainSound → (s.posAt r.pos).state.onChain = true → ¬awaited →
        u.chain.counters.staleReports = min 65535 (s.chain.counters.staleReports + 1) ∧
        (s.lineHeld ab = true → u.queue = s.queue ∧ u.circuits = s.circuits ∧ u.cache = s.cache ∧
          (s.imageAfterErrors r.pos r.farEnd).SameRecords u.image)) ∧
      (s.ChainSound → ∀ e ∈ s.queue.entries, e.tag = r.tag → hasPos e.required r.pos = true →
        hasPos e.answered r.pos = false → e.state = .pending →
        u.chain.counters.staleReports = s.chain.counters.staleReports ∧
        (let stashed : Entry := { e with
            answered := addPos e.answered r.pos
            answers := e.answers ++ [⟨r.pos, r.supply, r.superseded, r.readings⟩] }
         (addPos e.answered r.pos ≠ e.required → stashed ∈ u.queue.entries) ∧
         (addPos e.answered r.pos = e.required →
           (∀ (h : Entry) (rest : List Entry), s.queue.entries = h :: rest → h.tag ≠ e.tag → h.state = .pending →
             { stashed with state := .complete } ∈ u.queue.entries) ∧
           (∀ rest : List Entry, s.queue.entries = e :: rest → (∀ y ∈ u.queue.entries, y.tag ≠ e.tag) ∧
             (s.lineHeld ab = true → (∀ h ∈ rest.head?, h.state.final = false) →
               u.queue = { s.queue with entries := rest } ∧
               u.image.retired = (match e.image with
                 | none => s.image.retired
                 | some i => if e.overtaken = true then s.image.retired else i))))))

/-- IDENT from a PROBING position of a sound chain, with no telegram begun at its end: the record is filled, the position is
ACTIVE, marked IDENTITY_CLASH exactly when another ACTIVE or LOST position holds the identity; without a clash the cache's
entry restores the slots R109 allows; its ENUM is dropped; a RESYNC is allocated or diverted; and the next position begins
probing when the flag is set and it is ABSENT. LINK_DEGRADED is added when the far-end errors pass the threshold, IDENTITY_CLASH
when the position is marked. IDENT from a position that is not PROBING or LOST is discarded: an ABSENT or PASSIVE position
keeps its record; an ACTIVE one is heard, with its last-heard time, downstream-load flag and link errors. When the port becomes
free at its end, the pick of a telegram's end is made after the effects of the IDENT, read so from the worked cases (log entry
7); from a PROBING position, with no SET waiting, it sends the RESYNC's SET or the slot's
(R18, R24, R27, R28, R39, R46, R48, R49, R59, R108, R109, R138, R139).
The order of the two adds is the model's reading (log entry 15), and so is that the IDENT identifies a position that was
ABSENT and is probed again, whether or not its new ENUM was sent (log entry 24). -/
def Obligations.IdentIdentifies : Prop :=
  (∀ (s : State) (t : UpTelegram) (ab : Bool) (i : IdentFields), parseIdent t = some i → s.ChainSound →
    (s.posAt i.pos).state = .probing → s.lineHeld ab = true →
    ∃ u : State, exec (.ident t ab) s = .next u ∧
      u.posAt i.pos = { s.posAt i.pos with
        state := .active
        identity := some i.identity
        circuitCount := some i.count
        downstreamLoad := i.load
        lastHeard := some s.now
        lostSince := none
        enumTimeout := none
        queryUntil := none
        identityClash := decide (s.HeldByAnother i.pos i.identity)
        linkErrors := min 65535 i.farEnd
        linkDegraded := decide (s.DegradedBy i.pos i.farEnd)
        counters := { (s.posAt i.pos).counters with
          linkErrorsTotal := min 65535 ((s.posAt i.pos).counters.linkErrorsTotal + i.farEnd) } } ∧
      u.cache = (if s.HeldByAnother i.pos i.identity then s.cache
        else match s.cache.find? (·.identity == i.identity) with
          | none => s.cache
          | some e => e :: s.cache.filter fun k => k.identity != i.identity) ∧
      .enum i.pos ∉ u.chain.linkRequests ∧
      (∀ q : Pos, q.val = i.pos.val + 1 →
        (i.load = true → (u.posAt q).state = .probing ∧ .enum q ∈ u.chain.linkRequests) ∧
        (i.load = false → u.posAt q = s.posAt q)) ∧
      (∀ q : Pos, q ≠ i.pos → q.val ≠ i.pos.val + 1 → u.posAt q = s.posAt q) ∧
      (s.tables.mode = .run → s.queue.entries.length < 16 → s.queue.slot = none →
        u.queue = { s.queue with
          entries := s.queue.entries ++
            [⟨s.queue.tagCounter, .resync, .waiting, some s.port.commanded, 0, none, none, 0, 0, []⟩]
          tagCounter := (s.queue.tagCounter + 1) % 255 } ∧ u.image.untracked = s.image.untracked ∧
        u.chain.counters = s.chain.counters) ∧
      (s.tables.mode = .setup ∨ 16 ≤ s.queue.entries.length ∨ s.queue.slot ≠ none →
        u.queue = { s.queue with slot := some s.port.commanded } ∧
        u.image.untracked = s.image.untracked ||| s.port.commanded ∧
        u.chain.counters = { s.chain.counters with
          untrackedChanges := min 65535 (s.chain.counters.untrackedChanges + 1) }) ∧
      u.image.retired = s.image.retired ∧ u.chain.line ≠ .free ∧ u.chain.transmitted = s.chain.transmitted ∧
      u.chain.changeTimes = s.chain.changeTimes ∧
      (∀ q : Pos, q ≠ i.pos → ∀ c : Circ, u.circAt q c = s.circAt q c) ∧
      (∀ c : Circ, (u.circAt i.pos c).condition = .unknown ∧
        u.circAt i.pos c = { s.circAt i.pos c with baseline := (u.circAt i.pos c).baseline } ∧
        (u.circAt i.pos c).baseline = (match s.cache.find? (·.identity == i.identity) with
          | none => .none
          | some e => match e.slots[c] with
            | none => .none
            | some sl =>
              if ¬s.HeldByAnother i.pos i.identity ∧ (s.rowAt i.pos c).function.isSome = true ∧ c.val + 1 ≤ i.count ∧
                  (s.rowAt i.pos c).profile = sl.profile ∧ (s.profileAt i.pos c).learn = true then
                .learned sl.current sl.voltage
              else .none)) ∧
      (let linked := s.imageAfterErrors i.pos i.farEnd
       let ib := if s.HeldByAnother i.pos i.identity then faultAdd ⟨i.pos, none, .identityClash⟩ linked else linked
       u.image.faults = ib.faults ∧ u.image.overflow = ib.overflow ∧ u.image.sequence = ib.sequence) ∧
      u.now = s.now ∧ u.tables = s.tables ∧ u.checks = s.checks ∧ u.store = s.store ∧ u.pending = s.pending ∧
      s.port.SameInputs u.port ∧ u.port.request = s.port.request) ∧
  (∀ (s : State) (t : UpTelegram) (ab : Bool) (i : IdentFields), parseIdent t = some i → s.ChainSound →
    s.lineHeld ab = true → (s.posAt i.pos).state ≠ .probing → (s.posAt i.pos).state ≠ .lost →
    ∃ u : State, exec (.ident t ab) s = .next u ∧
      u.queue = s.queue ∧ u.circuits = s.circuits ∧ u.cache = s.cache ∧ u.checks = s.checks ∧
      u.now = s.now ∧ u.tables = s.tables ∧ u.store = s.store ∧ u.pending = s.pending ∧
      s.port.SameInputs u.port ∧ u.port.request = s.port.request ∧ u.chain.counters = s.chain.counters ∧
      (s.imageAfterErrors i.pos (if (s.posAt i.pos).state = .active then i.farEnd else 0)).SameRecords u.image ∧
      ((s.posAt i.pos).state ≠ .active → ∀ q : Pos, u.posAt q = s.posAt q) ∧
      ((s.posAt i.pos).state = .active →
        u.posAt i.pos = { s.posAt i.pos with
          lastHeard := some s.now
          downstreamLoad := i.load
          linkErrors := min 65535 ((s.posAt i.pos).linkErrors + i.farEnd)
          linkDegraded := decide (s.DegradedBy i.pos i.farEnd)
          counters := { (s.posAt i.pos).counters with
            linkErrorsTotal := min 65535 ((s.posAt i.pos).counters.linkErrorsTotal + i.farEnd) } } ∧
        ∀ q : Pos, q ≠ i.pos → (u.posAt q).state =
          if q.val = i.pos.val + 1 ∧ i.load = true ∧ (s.posAt q).state = .absent then .probing
          else if q.val = i.pos.val + 1 ∧ i.load = false ∧ ((s.posAt q).state = .probing ∨ (s.posAt q).state = .passive)
            then .absent
          else (s.posAt q).state)) ∧
  (∀ (s : State) (t : UpTelegram) (ab : Bool) (i : IdentFields), parseIdent t = some i → s.lineHeld ab = false →
    ∃ u : State, exec (.ident t ab) s = .next u ∧
      (∀ x : Downstream, exec (.downstreamTelegramDone false) (((s.onFreeLine).takeIdent i).beginTelegram x) = .next u) ∧
      ((s.posAt i.pos).state = .absent ∨ (s.posAt i.pos).state = .passive → ∀ x : Downstream,
        exec (.downstreamTelegramDone false) (s.beginTelegram x) = .next u) ∧
      (s.ChainSound → (s.posAt i.pos).state = .probing → s.queue.firstSet = none →
        (u.posAt i.pos).state = .active ∧ (u.posAt i.pos).identity = some i.identity ∧
        (u.posAt i.pos).circuitCount = some i.count ∧ u.chain.transmitted = s.port.commanded ∧
        (∀ g : Fn, u.chain.changeTimes[g] =
          if on s.port.commanded g = on s.chain.transmitted g then s.chain.changeTimes[g] else some s.now) ∧
        (s.tables.mode = .run → s.queue.entries.length < 16 → s.queue.slot = none →
          let delay := u.delayOver s.port.commanded
          u.chain.line = .sending (.set s.queue.tagCounter delay (u.masks s.port.commanded)) ∧
          u.queue.tagCounter = (s.queue.tagCounter + 1) % 255 ∧ u.queue.slot = none ∧
          u.queue.generation = s.queue.generation ∧
          u.queue.Keeps (s.sentNow
            ⟨s.queue.tagCounter, .resync, .waiting, some s.port.commanded, 0, none, none, 0, 0, []⟩
            [] s.port.commanded delay u.chain.changeTimes u.activeSet)) ∧
        (s.tables.mode = .setup ∨ 16 ≤ s.queue.entries.length ∨ s.queue.slot ≠ none →
          u.chain.line = .sending
            (.set 255 (u.delayOver (s.port.commanded ^^^ s.chain.transmitted)) (u.masks s.port.commanded)) ∧
          u.queue = { s.queue with slot := none, generation := (s.queue.generation + 1) % 65536 })))

/-- IDENT from a LOST position awaiting a QUERY answer, in a sound chain, with no telegram begun at its end. The identity
held: the position returns ACTIVE, heard, its flags and its circuits' baselines, conditions and confirmation kept, but for
circuits that are no longer fitted, which start again with their faults healed. Another identity: the old unit's faults leave
the list, the new unit is ACTIVE, its circuits cleared with the old unit's baselines gone and, unless it is marked, the slots
R109 allows restored from the cache as the old unit's write-back leaves it, its counts and flags those of a unit just identified, LINK_DEGRADED and
IDENTITY_CLASH added when they are set. Both ways a RESYNC is allocated or diverted, and the next position begins probing when
the flag is set and it is ABSENT. From a LOST position outside the window it is discarded after its hearing, and a QUERY
becomes pending (R32, R33, R34, R46, R48, R49, R59, R108, R109, R133, R138).
The marks of other positions that held the departed identity end when no other ACTIVE or LOST position holds it (R28, R139).
Its far-end error count is added once, the model's choice (log entry 8); the order of the two adds, and that a row is fitted
by the count alone for a circuit to start again, are its readings (log entries 15 and 21). -/
def Obligations.LostPositionReturns : Prop :=
  ∀ (s : State) (t : UpTelegram) (ab : Bool) (i : IdentFields), parseIdent t = some i → s.ChainSound →
    (s.posAt i.pos).state = .lost → s.lineHeld ab = true →
    ∃ u : State, exec (.ident t ab) s = .next u ∧
      u.now = s.now ∧ u.tables = s.tables ∧ u.checks = s.checks ∧ u.store = s.store ∧ u.pending = s.pending ∧
      s.port.SameInputs u.port ∧ u.port.request = s.port.request ∧
      (∀ q : Pos, q ≠ i.pos → (u.posAt q).state =
        if q.val = i.pos.val + 1 ∧ i.load = true ∧ (s.posAt q).state = .absent ∧ (s.posAt i.pos).queryUntil ≠ none
          then .probing
        else if q.val = i.pos.val + 1 ∧ i.load = false ∧ ((s.posAt q).state = .probing ∨ (s.posAt q).state = .passive)
          then .absent
        else (s.posAt q).state) ∧
      ((s.posAt i.pos).queryUntil = none →
        u.posAt i.pos = s.heardRecord i.pos i.load i.farEnd ∧
        .query i.pos ∈ u.chain.linkRequests ∧ u.queue = s.queue ∧ u.circuits = s.circuits ∧ u.cache = s.cache ∧
        u.chain.counters = s.chain.counters ∧
        (s.imageAfterErrors i.pos i.farEnd).SameRecords u.image) ∧
      ((s.posAt i.pos).queryUntil ≠ none →
        (∀ q : Pos, q.val = i.pos.val + 1 → i.load = true → (s.posAt q).state = .absent →
          .enum q ∈ u.chain.linkRequests) ∧
        (s.tables.mode = .run → s.queue.entries.length < 16 → s.queue.slot = none →
          u.queue = { s.queue with
            entries := s.queue.entries ++
              [⟨s.queue.tagCounter, .resync, .waiting, some s.port.commanded, 0, none, none, 0, 0, []⟩]
            tagCounter := (s.queue.tagCounter + 1) % 255 } ∧ u.image.untracked = s.image.untracked ∧
          u.chain.counters = s.chain.counters) ∧
        (s.tables.mode = .setup ∨ 16 ≤ s.queue.entries.length ∨ s.queue.slot ≠ none →
          u.queue = { s.queue with slot := some s.port.commanded } ∧
          u.image.untracked = s.image.untracked ||| s.port.commanded ∧
          u.chain.counters = { s.chain.counters with
            untrackedChanges := min 65535 (s.chain.counters.untrackedChanges + 1) }) ∧
        ((s.posAt i.pos).identity = some i.identity → u.cache = s.cache ∧
          u.posAt i.pos = { s.heardRecord i.pos i.load i.farEnd with
            state := .active, circuitCount := some i.count, lostSince := none, queryUntil := none } ∧
          (∀ c : Circ, u.circAt i.pos c =
            if s.Unfits i.pos i.count c then
              { s.circAt i.pos c with
                candidate := none, agreement := 0, last := none, baseline := .none, condition := .unknown }
            else s.circAt i.pos c) ∧
          (let linked := s.imageAfterErrors i.pos i.farEnd
           u.image.faults = (linked.faults.map fun e =>
             if e.key.pos = i.pos ∧ ∃ c : Circ, e.key.circ = some c ∧ s.Unfits i.pos i.count c ∧
                 (s.circAt i.pos c).condition.fault = some e.key.kind then { e with active := false } else e) ∧
           u.image.overflow = linked.overflow ∧ u.image.sequence = linked.sequence)) ∧
        ((s.posAt i.pos).identity ≠ some i.identity →
          (let degraded := i.farEnd ≠ 0 ∧ s.settings.linkThreshold < min 65535 i.farEnd
           let gone := faultRemove i.pos s.image
           let healed : ImageBuilder := { gone with faults := gone.faults.map fun e =>
             if e.key.circ = none ∧ e.key.kind = .identityClash ∧ s.ClashEnds (· = i.pos) e.key.pos
               then { e with active := false } else e }
           let linked := if degraded then faultAdd ⟨i.pos, none, .linkDegraded⟩ healed else healed
           let ib := if s.HeldByAnother i.pos i.identity then faultAdd ⟨i.pos, none, .identityClash⟩ linked else linked
           u.posAt i.pos = { s.posAt i.pos with
             state := .active
             identity := some i.identity
             circuitCount := some i.count
             downstreamLoad := i.load
             lastHeard := some s.now
             lostSince := none
             queryUntil := none
             supplyLow := false
             feedLost := false
             linkDegraded := decide degraded
             identityClash := decide (s.HeldByAnother i.pos i.identity)
             linkErrors := min 65535 i.farEnd
             counters := { (s.posAt i.pos).counters with
               linkErrorsTotal := min 65535 ((s.posAt i.pos).counters.linkErrorsTotal + i.farEnd) } } ∧
           u.image.faults = ib.faults ∧ u.image.overflow = ib.overflow ∧ u.image.sequence = ib.sequence) ∧
          (∀ q : Pos, q ≠ i.pos → ((u.posAt q).identityClash = true ↔
            (s.posAt q).identityClash = true ∧ ¬s.ClashEnds (· = i.pos) q)) ∧
          ∀ c : Circ, u.circAt i.pos c = { Circuit.clear with
            baseline := (match (s.writeBack i.pos).cache.find? (·.identity == i.identity) with
              | none => .none
              | some e => match e.slots[c] with
                | none => .none
                | some sl =>
                  if ¬s.HeldByAnother i.pos i.identity ∧ (s.rowAt i.pos c).function.isSome = true ∧ c.val + 1 ≤ i.count ∧
                      (s.rowAt i.pos c).profile = sl.profile ∧ (s.profileAt i.pos c).learn = true then
                    .learned sl.current sl.voltage
                  else .none) }))

/-- A bad upstream telegram adds one to the bad-telegram counter and, with no telegram begun at its end, changes no record,
entry, circuit or list; when the port becomes free at its end, the transmitter then makes the pick of a telegram's end, which
O41 states (R18, R39; that it comes after the counting: log entry 7). Bad are one cut short, one whose CRC-16 differs, one of a kind other than REPORT and IDENT, one whose address
lies outside 1 to 6, a REPORT whose length is not 3 + 3n to 39 or whose supply exceeds 400, and an IDENT whose length is not
6 or whose count lies outside 1 to 12 (R19, R178). -/
def Obligations.BadTelegramsCounted : Prop :=
  ∀ (s : State) (ab : Bool),
    let risen : ChainCounters := { s.chain.counters with badTelegrams := min 65535 (s.chain.counters.badTelegrams + 1) }
    let counted (c : Instr) : Prop := ∃ u : State, exec c s = .next u ∧
      (s.lineHeld ab = true →
        u.chain = { s.chain with line := u.chain.line, counters := risen } ∧
        u.chain.line ≠ .free ∧ u.queue = s.queue ∧ u.circuits = s.circuits ∧ u.cache = s.cache ∧ u.checks = s.checks ∧
        u.tables = s.tables ∧ u.store = s.store ∧ u.now = s.now ∧ u.pending = s.pending ∧
        s.image.SameRecords u.image ∧ s.port.SameInputs u.port ∧ u.port.request = s.port.request) ∧
      (s.lineHeld ab = false → ∀ x : Downstream,
        exec (.downstreamTelegramDone false) { s with chain := { s.chain with line := .sending x, counters := risen } } =
          .next u)
    let crcBad (kind : Byte) (t : UpTelegram) : Prop :=
      t.rest.drop t.length.toNat ≠
        crcBytes (crc16 ([kind, t.address, t.tag, t.length] ++ t.rest.take t.length.toNat))
    (∀ bytes : List Byte, wfBadTelegram bytes = true → counted (.badUpstreamTelegram bytes ab)) ∧
    (∀ t : UpTelegram,
      t.rest.length < t.length.toNat + 2 ∨ crcBad 0x21 t ∨ t.address.toNat = 0 ∨ 6 < t.address.toNat ∨
        t.length.toNat < 3 ∨ t.length.toNat % 3 ≠ 0 ∨ 39 < t.length.toNat ∨
        400 < byteAt t.rest 1 + 256 * byteAt t.rest 2 →
      counted (.report t ab)) ∧
    (∀ t : UpTelegram,
      t.rest.length < t.length.toNat + 2 ∨ crcBad 0x22 t ∨ t.address.toNat = 0 ∨ 6 < t.address.toNat ∨
        t.length.toNat ≠ 6 ∨ byteAt t.rest 4 = 0 ∨ 12 < byteAt t.rest 4 →
      counted (.ident t ab))

/-! ### Timers of the Chain Master and the queue -/

/-- ENUM_TIMEOUT: with fewer than three attempts made a new ENUM becomes pending, after the third the position is PASSIVE. On a
free line with no SET waiting the ENUM or QUERY pending first goes at once: the new ENUM when there is no other, which makes
one attempt more and a timeout 20 ms later (section 2.13). When the port is sending, the pending ENUM goes in the same way at
the DOWNSTREAM_TELEGRAM_DONE, unless an answer begins then.
QUERY_WINDOW_END: the window closes and the position stays as it was; LINK_ERROR_INTERVAL_END: every count returns to 0 and
LINK_DEGRADED clears exactly where the count is at most half the threshold; each, before its time, changes nothing, the
model's choice (log entry 5) (R18, R26, R29, R32, R39, R49, R138).
The answer's beginning as an operand is the model's form of R18 (log entry 7). -/
def Obligations.ChainTimers : Prop :=
  (∀ (s : State) (p : Pos) (x : Time), (s.posAt p).state = .probing → (s.posAt p).enumTimeout = some x →
    (s.now < x → exec (.enumTimeout p) s = .next s) ∧
    (x ≤ s.now → s.chain.line ≠ .free → ∃ t : State, exec (.enumTimeout p) s = .next t ∧
      t.queue = s.queue ∧ t.circuits = s.circuits ∧ t.tables = s.tables ∧ t.now = s.now ∧
      (∀ q : Pos, q ≠ p → t.posAt q = s.posAt q) ∧
      ((s.posAt p).probeAttempts < 3 → t.chain.linkRequests = s.chain.linkRequests ++ [.enum p] ∧
        t.posAt p = { s.posAt p with enumTimeout := none }) ∧
      (3 ≤ (s.posAt p).probeAttempts → t.chain.linkRequests = s.chain.linkRequests ∧
        t.posAt p = { s.posAt p with enumTimeout := none, state := .passive })) ∧
    (x ≤ s.now → s.chain.line = .free → s.queue.firstSet = none → s.queue.slot = none →
      (s.posAt p).probeAttempts < 3 → ∃ t : State, exec (.enumTimeout p) s = .next t ∧
        t.queue = s.queue ∧ t.circuits = s.circuits ∧ t.tables = s.tables ∧ t.now = s.now ∧ t.cache = s.cache ∧
        t.checks = s.checks ∧ t.store = s.store ∧ t.pending = s.pending ∧
        (s.chain.linkRequests = [] →
          t.chain.linkRequests = [] ∧ t.chain.line = .sending (.enum p) ∧
          (∀ q : Pos, q ≠ p → t.posAt q = s.posAt q) ∧
          t.posAt p = { s.posAt p with
            probeAttempts := (s.posAt p).probeAttempts + 1, enumTimeout := some (s.now + 20) }) ∧
        (∀ (r : LinkRequest) (rest : List LinkRequest), s.chain.linkRequests = r :: rest →
          t.chain.linkRequests = rest ++ [.enum p] ∧
          t.chain.line = .sending (match r with | .enum q => .enum q | .query q => .query q))) ∧
    (x ≤ s.now → s.chain.line = .free → (∀ e ∈ s.queue.entries, e.state ≠ .waiting) → s.queue.slot = none →
      s.chain.linkRequests = [] → ¬(s.tables.mode = .setup ∧ s.chain.livenessPoll = true) →
      3 ≤ (s.posAt p).probeAttempts → ∃ t : State, exec (.enumTimeout p) s = .next t ∧
        t.chain = { s.chain with
          positions := upd s.chain.positions p fun r => { r with enumTimeout := none, state := .passive } } ∧
        t.queue = s.queue ∧ t.circuits = s.circuits ∧ t.tables = s.tables ∧ t.now = s.now ∧ t.cache = s.cache ∧
        t.checks = s.checks ∧ t.store = s.store ∧ t.pending = s.pending)) ∧
  (∀ (s : State) (x : Downstream) (p : Pos) (rest : List LinkRequest), s.chain.line = .sending x →
    s.queue.firstSet = none → s.queue.slot = none → s.chain.linkRequests = .enum p :: rest →
    (∃ t : State, exec (.downstreamTelegramDone true) s = .next t ∧ t.chain = { s.chain with line := .receiving }) ∧
    ∃ t : State, exec (.downstreamTelegramDone false) s = .next t ∧ t.queue = s.queue ∧ t.circuits = s.circuits ∧
      t.chain.linkRequests = rest ∧ t.chain.line = .sending (.enum p) ∧
      (∀ q : Pos, q ≠ p → t.posAt q = s.posAt q) ∧
      t.posAt p = { s.posAt p with
        probeAttempts := (s.posAt p).probeAttempts + 1, enumTimeout := some (s.now + 20) }) ∧
  (∀ (s : State) (p : Pos) (x : Time), (s.posAt p).queryUntil = some x →
    (s.now < x → exec (.queryWindowEnd p) s = .next s) ∧
    (x ≤ s.now → exec (.queryWindowEnd p) s = .next { s with chain := { s.chain with
      positions := upd s.chain.positions p fun r => { r with queryUntil := none } } })) ∧
  (∀ s : State,
    (s.now < s.chain.linkIntervalEnd → exec .linkErrorIntervalEnd s = .next s) ∧
    (s.chain.linkIntervalEnd ≤ s.now → ∃ t : State, exec .linkErrorIntervalEnd s = .next t ∧
      t.chain.linkIntervalEnd = s.chain.linkIntervalEnd + 10000 ∧
      (∀ p : Pos, t.posAt p = { s.posAt p with
        linkErrors := 0
        linkDegraded := (s.posAt p).linkDegraded && decide (s.settings.linkThreshold / 2 < (s.posAt p).linkErrors) }) ∧
      t.image.faults = s.image.faults.map (fun e =>
        if e.key.circ = none ∧ e.key.kind = .linkDegraded ∧ (s.posAt e.key.pos).linkDegraded = true ∧
            (s.posAt e.key.pos).linkErrors ≤ s.settings.linkThreshold / 2 then { e with active := false } else e) ∧
      t.chain.line = s.chain.line ∧ t.chain.counters = s.chain.counters ∧ t.queue = s.queue ∧
      t.circuits = s.circuits ∧ t.checks = s.checks ∧ t.cache = s.cache ∧ t.tables = s.tables ∧ t.store = s.store ∧
      t.now = s.now))

/-- LOSS_INTERVAL_EXPIRY: the position is LOST from now, its record and circuits kept but for its due marks, no live entry
requires it or holds its answer. A PENDING entry whose required set shrinks to its answered set is COMPLETE, and so is a WAITING
CHECK of the position; a PENDING CHECK that required it alone is COMPLETE with nothing left; a COMPLETE or EXPIRED entry keeps its
state; any other WAITING entry stands as it was. The final entries at the head then retire (O51), and the other positions and
circuits are as those retirements leave them. ABSENCE_INTERVAL_EXPIRY, in a sound chain: the position and every higher one are ABSENT with
their counters kept, each higher ACTIVE one leaving the entries in the same way, the position itself PROBING again when the one
before is ACTIVE with its flag set, its ENUM pending on a busy line and sent on a free one when nothing goes before it; the ENUMs and
QUERYs of those that went are dropped; their circuits are cleared and their faults off the list; an IDENTITY_CLASH mark below ends,
and its fault heals, when the last other position that held the identity is gone (R24, R26, R28, R30, R31, R32, R35, R36, R39, R68,
R69, R124, R139, R156).
A command before its time changes nothing, the model's choice (log entry 5); that P1 is not probed again at its absence while
CONNECT is high, and that a CHECK so completed stays live behind an unfinished head, are its readings (log entries 10 and 25). -/
def Obligations.LossAndAbsence : Prop :=
  (∀ (s : State) (p : Pos) (h : Time), (s.posAt p).state = .active → (s.posAt p).lastHeard = some h →
    (s.now < h + s.settings.lossInterval → exec (.lossIntervalExpiry p) s = .next s) ∧
    (h + s.settings.lossInterval ≤ s.now → ∃ t : State, exec (.lossIntervalExpiry p) s = .next t ∧
      t.posAt p = { s.posAt p with state := .lost, lostSince := some s.now } ∧
      (∀ q : Pos, (t.posAt q).state = if q = p then .lost else (s.posAt q).state) ∧
      (∀ c : Circ, t.circAt p c = { s.circAt p c with due := false }) ∧
      (∀ e ∈ t.queue.entries, hasPos e.required p = false ∧ hasPos e.answered p = false ∧
        ∀ a ∈ e.answers, a.pos ≠ p) ∧
      t.queue = { s.queue with entries := entriesLeftBy p s.queue.entries } ∧
      (∀ e ∈ s.queue.entries, e.state = .waiting → e.required = 0 → e.answered = 0 → e.answers = [] →
        (∀ g ∈ e.target, g.pos ≠ p) → e ∈ t.queue.entries) ∧
      (∀ e ∈ s.queue.entries, e.state = .pending → e.required = posBit p → e.answered = 0 → e.answers = [] →
        e.leftBy p = { e with required := 0, state := .complete }) ∧
      (let left : State := { s with
         circuits := upd s.circuits p fun cs => mapIdx cs fun _ k => { k with due := false }
         queue := { s.queue with entries := s.queue.entries.map (·.leftBy p) } }
       t.circuits = left.retire.circuits ∧ (∀ q : Pos, q ≠ p → t.posAt q = left.retire.posAt q) ∧
       left.retire.image.SameRecords t.image) ∧
      t.chain = { s.chain with positions := t.chain.positions } ∧ t.cache = s.cache ∧ t.checks = s.checks ∧
      t.tables = s.tables ∧ t.store = s.store ∧ t.now = s.now ∧ t.pending = s.pending)) ∧
  (∀ (s : State) (p : Pos) (l : Time), s.ChainSound → (s.posAt p).state = .lost → (s.posAt p).lostSince = some l →
    (s.now < l + s.settings.absenceInterval * 1000 → exec (.absenceIntervalExpiry p) s = .next s) ∧
    (l + s.settings.absenceInterval * 1000 ≤ s.now → ∃ t : State, exec (.absenceIntervalExpiry p) s = .next t ∧
      (∀ q : Pos, p < q → t.posAt q = Position.absent (s.posAt q).counters) ∧
      (t.posAt p).counters = (s.posAt p).counters ∧ (t.posAt p).identity = none ∧
      (t.posAt p).state = (if ∃ q : Pos, q.val + 1 = p.val ∧ (s.posAt q).state = .active ∧
          (s.posAt q).downstreamLoad = true then .probing else .absent) ∧
      (∀ q : Pos, q < p → (t.posAt q).state = (s.posAt q).state ∧ (t.posAt q).identity = (s.posAt q).identity) ∧
      (∀ (q : Pos) (c : Circ), p ≤ q → (t.circAt q c).condition = .unknown ∧ (t.circAt q c).baseline = .none) ∧
      (∀ e ∈ t.image.faults, e.key.pos < p) ∧
      (∀ q : Pos, q < p → ((t.posAt q).identityClash = true ↔
        (s.posAt q).identityClash = true ∧ ¬s.ClashEnds (p ≤ ·) q)) ∧
      (let kept : List LinkRequest :=
         s.chain.linkRequests.filter fun k => decide (∀ q : Pos, p ≤ q → k ≠ .enum q ∧ k ≠ .query q)
       let probes : Prop := ∃ q : Pos, q.val + 1 = p.val ∧ (s.posAt q).state = .active ∧ (s.posAt q).downstreamLoad = true
       let again : Position := { Position.absent (s.posAt p).counters with state := .probing }
       let left : Queue := { s.queue with
         entries := (allPos.filter fun q => decide (p < q ∧ (s.posAt q).state = .active)).foldl
           (fun es q => entriesLeftBy q es) s.queue.entries }
       (¬probes → t.posAt p = Position.absent (s.posAt p).counters) ∧
       (s.chain.line ≠ .free → t.queue = left ∧ t.chain.line = s.chain.line ∧
         (probes → t.chain.linkRequests = kept ++ [.enum p] ∧ t.posAt p = again) ∧
         (¬probes → t.chain.linkRequests = kept)) ∧
       (s.chain.line = .free → s.queue.firstSet = none → s.queue.slot = none → kept = [] → probes →
         t.queue = left ∧ t.chain.line = .sending (.enum p) ∧ t.chain.linkRequests = [] ∧
         t.posAt p = { again with probeAttempts := 1, enumTimeout := some (s.now + 20) }) ∧
       (s.chain.line = .free → (∀ e ∈ s.queue.entries, e.state ≠ .waiting) → s.queue.slot = none → kept = [] → ¬probes →
         ¬(s.tables.mode = .setup ∧ s.chain.livenessPoll = true) →
         t.queue = left ∧ t.chain.line = .free ∧ t.chain.linkRequests = [])) ∧
      (s.queue.entries = [] → t.image.faults = (s.image.faults.filter fun e => e.key.pos < p).map fun e =>
        if e.key.circ = none ∧ e.key.kind = .identityClash ∧ s.ClashEnds (p ≤ ·) e.key.pos then { e with active := false }
        else e) ∧
      t.tables = s.tables ∧ t.store = s.store ∧ t.now = s.now ∧ t.pending = s.pending))

/-- DEADLINE of a PENDING entry with positions missing, its time come: each missing position has one more missed answer and
one more link error, which sets LINK_DEGRADED and adds its fault when it takes the count above the threshold; no other
position has. The entry is EXPIRED: behind a head that is not final it stays live with its answers, and as the head it retires
at once, handing them on, and leaves the queue. For an entry that is not PENDING or not yet due, or a tag no live entry carries,
it changes nothing (R49, R50, R56, R67, R69, R138).
That last clause, and the ascending order of several positions' adds, are the model's choice (log entries 5 and 19). -/
def Obligations.DeadlineExpires : Prop :=
  (∀ (s : State) (e : Entry) (x : Transmission), s.TagsInOrder → e ∈ s.queue.entries → e.tx = some x →
    (e.state ≠ .pending ∨ s.now < x.deadline → exec (.deadline e.tag) s = .next s) ∧
    (e.state = .pending → e.answered ≠ e.required → x.deadline ≤ s.now →
      ∃ t : State, exec (.deadline e.tag) s = .next t ∧
        (let missing := allPos.filter fun p => hasPos e.required p && !hasPos e.answered p
         let linked := missing.foldl (fun ib p =>
           if (s.posAt p).linkDegraded = false ∧ s.DegradedBy p 1 then faultAdd ⟨p, none, .linkDegraded⟩ ib else ib) s.image
         let expired : Entry := { e with state := .expired }
         (∀ p : Pos,
           if p ∈ missing then
             (t.posAt p).counters.missedAnswers = min 65535 ((s.posAt p).counters.missedAnswers + 1) ∧
             (t.posAt p).linkErrors = min 65535 ((s.posAt p).linkErrors + 1) ∧
             ((t.posAt p).linkDegraded = true ↔ s.DegradedBy p 1)
           else (t.posAt p).counters = (s.posAt p).counters ∧ (t.posAt p).linkErrors = (s.posAt p).linkErrors ∧
             (t.posAt p).linkDegraded = (s.posAt p).linkDegraded) ∧
         (∀ (h : Entry) (rest : List Entry), s.queue.entries = h :: rest → h.state.final = false → h.tag ≠ e.tag →
           t.queue = { s.queue with
             entries := s.queue.entries.map fun y => if y.tag = e.tag then expired else y } ∧
           t.circuits = s.circuits ∧ linked.SameRecords t.image) ∧
         (∀ rest : List Entry, s.queue.entries = e :: rest → (∀ y ∈ t.queue.entries, y.tag ≠ e.tag) ∧
           ((∀ y ∈ rest.head?, y.state.final = false) →
             t.queue = { s.queue with entries := rest } ∧
             t.image.retired = (match e.image with
               | none => s.image.retired
               | some i => if x.overtaken = true then s.image.retired else i) ∧
             t.circuits = (s.handAnswers e).circuits ∧ (e.answers = [] → t.image.faults = linked.faults)))) ∧
        (∀ p : Pos, (t.posAt p).state = (s.posAt p).state ∧ (t.posAt p).lastHeard = (s.posAt p).lastHeard) ∧
        t.chain.line = s.chain.line ∧ t.chain.counters = s.chain.counters ∧ t.queue.slot = s.queue.slot ∧
        t.cache = s.cache ∧ t.checks = s.checks ∧ t.tables = s.tables ∧ t.store = s.store ∧ t.now = s.now)) ∧
  (∀ (s : State) (tag : Nat), (∀ e ∈ s.queue.entries, e.tag ≠ tag) → exec (.deadline tag) s = .next s)

/-! ### Retirement and reconciliation -/

/-- Retirement: at an event the entries at the head that are COMPLETE or EXPIRED retire one after the other, up to the first
that is WAITING or PENDING. Each hands its answers to the Reconciler in ascending position order, then sets the retired image
to its own unless it has none or is overtaken, then clears all ten untracked flags exactly when it was transmitted and not
overtaken, its generation is the current one and the slot is empty, and leaves the queue (R69, R70, R71, R72, R73). -/
def Obligations.RetirementSteps : Prop :=
  (∀ s : State,
    (∃ gone kept : List Entry, s.queue.entries = gone ++ kept ∧ s.retire.queue.entries = kept ∧
      (∀ e ∈ gone, e.state = .complete ∨ e.state = .expired) ∧
      ∀ e ∈ kept.head?, e.state = .waiting ∨ e.state = .pending) ∧
    (∀ (e : Entry) (rest : List Entry), s.queue.entries = e :: rest → e.state = .complete ∨ e.state = .expired →
      s.retire = (s.retireOne e rest).retire) ∧
    ((∀ e ∈ s.queue.entries.head?, e.state = .waiting ∨ e.state = .pending) → s.retire = s)) ∧
  (∀ (s : State) (e : Entry) (x : Transmission) (l : List Answer), e.tx = some x → l.Perm e.answers →
    l.Pairwise (fun a b => a.pos < b.pos) → s.handAnswers e = l.foldl (fun u a => u.reconcile e x a) s) ∧
  (∀ (s : State) (e : Entry), e.tx = none ∨ e.answers = [] → s.handAnswers e = s) ∧
  (∀ (s : State) (e : Entry) (rest : List Entry),
    let u := s.retireOne e rest
    u.queue = { s.queue with entries := rest } ∧
    u.image.retired = (match e.image with
      | none => s.image.retired
      | some i => if e.overtaken = true then s.image.retired else i) ∧
    (u.image.untracked = if (∃ x ∈ e.tx, x.overtaken = false ∧ x.generation = s.queue.generation) ∧
        s.queue.slot = none then 0 else s.image.untracked) ∧
    u.circuits = (s.handAnswers e).circuits ∧ u.image.faults = (s.handAnswers e).image.faults ∧
    u.chain = (s.handAnswers e).chain ∧ u.tables = s.tables ∧ u.cache = s.cache ∧ u.checks = s.checks ∧
    u.port = s.port ∧ u.store = s.store ∧ u.now = s.now)

/-- The Reconciler on one answer. A superseded one changes nothing; one below the supply floor sets SUPPLY_LOW and nothing
else; any other clears it and uses exactly the first reading of each mapped, fitted circuit that the entry judges and whose
settle interval has passed, in ascending circuit order: commanded on, off or checked, judged against its baseline or the
nominal values. When at least two used lit readings are all OPEN, FEED_LOST is set, with its add, and their circuits keep
candidate, count, condition and baseline; else one that is not OPEN clears it, with its heal, and otherwise it stands. Every
used reading becomes its circuit's last reading; one not withdrawn is handed to the Baseline Unit where it is lit and its
profile learns, then agrees with the candidate or replaces it, and with the count at K its verdict moves the condition, the
heals and adds in circuit order. No circuit without a used reading and no other position changes
(R80 to R86, R93 to R98, R105, R129, R130, R137). -/
def Obligations.AnswerGates : Prop :=
  ∀ (s : State) (e : Entry) (x : Transmission) (a : Answer),
    let u := s.reconcile e x a
    let used := s.usedReadings e x a
    let lit := used.filter fun j => j.commanded == .on
    let loss := 2 ≤ lit.length ∧ ∀ j ∈ lit, j.verdict = .openCircuit
    (a.superseded = true → u = s) ∧
    (a.superseded = false → a.supply < s.settings.supplyFloor → u = { s with chain := { s.chain with
      positions := upd s.chain.positions a.pos fun r => { r with supplyLow := true } } }) ∧
    (∀ c : Circ, (∃ j ∈ used, j.circ = c) ↔
      ∃ rd : Reading, a.readings.find? (fun rd => rd.circuit == c.val + 1) = some rd ∧
        ∃ f ∈ (s.rowAt a.pos c).function, (∃ n ∈ (s.posAt a.pos).circuitCount, c.val + 1 ≤ n) ∧
          (∀ t ∈ e.target, t.pos = a.pos ∧ t.circ = c) ∧
          ∀ w ∈ x.changeTimes[f], w + (s.profileAt a.pos c).settle ≤
            x.time + x.delay + (match e.target with | some t => t.pulse | none => 0)) ∧
    used.Pairwise (fun j k => j.circ < k.circ) ∧
    (∀ j ∈ used,
      let pr := s.profileAt a.pos j.circ
      let ref : Nat × Nat × Bool := match (s.circAt a.pos j.circ).baseline with
        | .learned b vb => (b, vb, true)
        | _ => (pr.nominalCurrent, pr.nominalVoltage, false)
      (∃ rd ∈ a.readings.find? (fun rd => rd.circuit == j.circ.val + 1), j.current = rd.current ∧
        j.verdict = verdictOf j.commanded pr rd.current j.ratio rd.prot) ∧
      (∃ f ∈ (s.rowAt a.pos j.circ).function, j.commanded =
        if e.kind = .check then .checked else if ∃ i ∈ e.image, on i f = true then .on else .off) ∧
      j.supply = a.supply ∧ j.expected = expected ref.1 ref.2.1 a.supply pr.slope ∧
      j.ratio = ratio j.current j.expected ∧ j.againstBaseline = ref.2.2) ∧
    (a.superseded = false → s.settings.supplyFloor ≤ a.supply →
      (u.posAt a.pos).supplyLow = false ∧
      ((u.posAt a.pos).feedLost = true ↔
        loss ∨ ((s.posAt a.pos).feedLost = true ∧ ∀ j ∈ lit, j.verdict = .openCircuit)) ∧
      (∀ j ∈ used,
        let k := s.circAt a.pos j.circ
        let pr := s.profileAt a.pos j.circ
        let n := if k.candidate = some j.verdict then min pr.confirmCount (k.agreement + 1) else 1
        let new := if n = pr.confirmCount then moveCondition j.verdict k.condition else k.condition
        let handed := if j.commanded = .on ∧ pr.learn = true
          then k.baseline.take j.current j.supply j.verdict j.againstBaseline else k.baseline
        let last (withdrawn : Bool) : LastReading :=
          ⟨j.current, j.supply, j.expected, j.ratio, j.verdict, j.againstBaseline, withdrawn, e.kind⟩
        (loss → j.commanded = .on → u.circAt a.pos j.circ = { k with last := some (last true) }) ∧
        (¬(loss ∧ j.commanded = .on) → u.circAt a.pos j.circ = { k with
          last := some (last false)
          candidate := some j.verdict
          agreement := n
          condition := new
          baseline := if new = .sound ∧ (k.condition = .degraded ∨ k.condition = .failedOpen ∨
            k.condition = .overloaded ∨ k.condition = .shorted) then .none else handed })) ∧
      (∀ c : Circ, (∀ j ∈ used, j.circ ≠ c) → u.circAt a.pos c = s.circAt a.pos c) ∧
      (let key : FaultKey := ⟨a.pos, none, .feedLoss⟩
       let fed : ImageBuilder :=
         if loss ∧ (s.posAt a.pos).feedLost = false then faultAdd key s.image
         else if (s.posAt a.pos).feedLost = true ∧ ∃ j ∈ lit, j.verdict ≠ .openCircuit then faultHeal key s.image
         else s.image
       u.image = used.foldl (fun ib j =>
         let old := (s.circAt a.pos j.circ).condition
         let new := (u.circAt a.pos j.circ).condition
         if new = old then ib
         else
           let healed := match old.fault with
             | some h => faultHeal ⟨a.pos, some j.circ, h⟩ ib
             | none => ib
           match new.fault with
             | some k => faultAdd ⟨a.pos, some j.circ, k⟩ healed
             | none => healed) fed) ∧
      u = { s with
        chain := { s.chain with positions := u.chain.positions }, circuits := u.circuits, image := u.image } ∧
      u.posAt a.pos = { s.posAt a.pos with
        supplyLow := (u.posAt a.pos).supplyLow, feedLost := (u.posAt a.pos).feedLost }) ∧
    (∀ q : Pos, q ≠ a.pos → u.posAt q = s.posAt q ∧ ∀ c : Circ, u.circAt q c = s.circAt q c)

/-- The expected current and the ratio: q is the exact quotient b × s × (v − vb) ÷ (16 × vb) rounded to the nearest whole
number, a half away from zero; e is b + q clamped to 1 to 4095; r is the whole part of m × 100 ÷ e, saturating at 255, with
the bounds the rules give (R87, R88, R89). -/
def Obligations.ExpectedCurrentAndRatio : Prop :=
  (∀ b vb v s : Nat, 0 < vb →
    let n : Int := (b : Int) * s * ((v : Int) - vb)
    let d : Int := 16 * (vb : Int)
    let q := compensation b vb v s
    2 * |q * d - n| ≤ d ∧ (2 * |q * d - n| = d → |n| < |q * d|) ∧ (v = vb ∨ s = 0 → q = 0) ∧
    ((expected b vb v s : Int) = if b + q < 1 then 1 else if 4095 < b + q then 4095 else b + q) ∧
    (b ≤ 4095 → s ≤ 16 → 80 ≤ v → v ≤ 400 → 80 ≤ vb → vb ≤ 400 →
      |n| ≤ 20966400 ∧ 1280 ≤ d ∧ d ≤ 6400 ∧ -3276 ≤ q ∧ q ≤ 16380 ∧ b + q ≤ 20475)) ∧
  (∀ m e : Nat, 0 < e →
    (255 * e ≤ m * 100 → ratio m e = 255) ∧
    (m * 100 < 255 * e → ratio m e * e ≤ m * 100 ∧ m * 100 < (ratio m e + 1) * e) ∧ (m = 0 → ratio m e = 0))

/-- The three ladders of verdicts, each verdict by exactly the readings the rules give it (R90, R91, R92). -/
def Obligations.VerdictLadders : Prop :=
  ∀ (pr : Profile) (m r : Nat) (prot : Bool),
    let tripped := prot = true ∨ pr.shortCurrent ≤ m
    (verdictOf .on pr m r prot = .short ↔ tripped) ∧
    (verdictOf .on pr m r prot = .openCircuit ↔ ¬tripped ∧ r < pr.openLimit) ∧
    (verdictOf .on pr m r prot = .partialDraw ↔ ¬tripped ∧ pr.openLimit ≤ r ∧ r < pr.partialLimit) ∧
    (verdictOf .on pr m r prot = .overload ↔
      ¬tripped ∧ pr.openLimit ≤ r ∧ pr.partialLimit ≤ r ∧ pr.overloadLimit < r) ∧
    (verdictOf .on pr m r prot = .good ↔
      ¬tripped ∧ pr.openLimit ≤ r ∧ pr.partialLimit ≤ r ∧ r ≤ pr.overloadLimit) ∧
    (pr.inRange = true → m = 0 → prot = false → verdictOf .on pr m 0 prot = .openCircuit) ∧
    (pr.inRange = true → ¬tripped → pr.partialLimit ≤ 255 ∧ verdictOf .on pr m 255 prot = .overload) ∧
    (verdictOf .off pr m r prot = .stuckOn ↔ pr.leakCurrent < m) ∧
    (verdictOf .off pr m r prot = .darkOk ↔ m ≤ pr.leakCurrent) ∧
    (verdictOf .checked pr m r prot = .openCircuit ↔ r < pr.openLimit) ∧
    (verdictOf .checked pr m r prot = .present ↔ pr.openLimit ≤ r)

/-- A confirmed verdict moves the condition as the table of R128 gives, and, where it changes, is taken whole: the new
condition, the baseline back to NONE at a repair, a heal of the old fault and then an add of the new; nothing else changes
(R105, R128, R129, R130). -/
def Obligations.ConfirmedVerdictMoves : Prop :=
  ∀ (s : State) (p : Pos) (c : Circ) (v : Verdict),
    let row : List (Option Condition) := match v with
      | .good => [some .sound, none, some .sound, some .sound, some .sound, some .sound, some .sound]
      | .present => [some .sound, none, none, some .sound, none, none, none]
      | .partialDraw => [some .degraded, some .degraded, none, some .degraded, some .degraded, some .degraded,
          some .degraded]
      | .openCircuit => [some .failedOpen, some .failedOpen, some .failedOpen, none, some .failedOpen,
          some .failedOpen, some .failedOpen]
      | .overload => [some .overloaded, some .overloaded, some .overloaded, some .overloaded, none, some .overloaded,
          some .overloaded]
      | .short => [some .shorted, some .shorted, some .shorted, some .shorted, some .shorted, none, some .shorted]
      | .stuckOn => [some .stuckOn, some .stuckOn, some .stuckOn, some .stuckOn, some .stuckOn, some .stuckOn, none]
      | .darkOk => [none, none, none, none, none, none, some .sound]
    let column : Condition → Nat := fun k => match k with
      | .unknown => 0 | .sound => 1 | .degraded => 2 | .failedOpen => 3 | .overloaded => 4 | .shorted => 5
      | .stuckOn => 6
    let kind : Condition → Option FaultKind := fun k => match k with
      | .unknown => none | .sound => none | .degraded => some .partialDraw | .failedOpen => some .openCircuit
      | .overloaded => some .overload | .shorted => some .short | .stuckOn => some .stuckOn
    let old := (s.circAt p c).condition
    let u := s.confirm p c v
    (row.getD (column old) none = none → u = s) ∧
    (∀ new : Condition, row.getD (column old) none = some new →
      (∀ (q : Pos) (k : Circ), u.circAt q k =
        if q = p ∧ k = c then { s.circAt p c with
          condition := new
          baseline := if new = .sound ∧ (old = .degraded ∨ old = .failedOpen ∨ old = .overloaded ∨ old = .shorted)
            then .none else (s.circAt p c).baseline }
        else s.circAt q k) ∧
      u.image = (match kind new with
        | some a => faultAdd ⟨p, some c, a⟩
        | none => id) ((match kind old with
        | some h => faultHeal ⟨p, some c, h⟩
        | none => id) s.image) ∧
      u = { s with circuits := u.circuits, image := u.image })

/-- Learning: from NONE, over any readings handed in turn and judged against nominal until the record is LEARNED, fewer than
four GOOD ones leave it LEARNING with their sums, or NONE when nothing was handed; the fourth completes it at the rounded
means, and nothing handed afterwards changes it (R101, R102, R103, R104). -/
def Obligations.BaselineLearning : Prop :=
  ∀ rs : List (Nat × Nat × Verdict),
    let taken := rs.foldl (fun b r => b.take r.1 r.2.1 r.2.2 (match b with | .learned _ _ => true | _ => false))
      Baseline.none
    let good := rs.filter fun r => r.2.2 == .good
    let sumM (l : List (Nat × Nat × Verdict)) := (l.map fun r => r.1).sum
    let sumV (l : List (Nat × Nat × Verdict)) := (l.map fun r => r.2.1).sum
    (rs = [] → taken = .none) ∧
    (rs ≠ [] → good.length < 4 → taken = .learning good.length (sumM good) (sumV good)) ∧
    (4 ≤ good.length → taken = .learned ((sumM (good.take 4) + 2) / 4) ((sumV (good.take 4) + 2) / 4))

/-! ### Fault list, History Cache, SETs, telltale states -/

/-- The fault list: an add for a key it holds healed reactivates the entry with its place and number kept, a new
key joins at the end with the next sequence number, in a full list in place of the oldest healed entry, or is lost with the
overflow flag set when all 32 are active; a heal marks the entry healed and keeps the rest of it, and leaves a list that does
not hold the key; a removal takes the position's entries off and clears the overflow flag when the list empties
(R153, R154, R155, R156). -/
def Obligations.FaultListTakes : Prop :=
  ∀ (ib : ImageBuilder) (k : FaultKey),
    let new : FaultEntry := ⟨ib.sequence, k, ib.opSeconds, 1, true⟩
    ((∃ e ∈ ib.faults, e.key = k ∧ e.active = false) → faultAdd k ib = { ib with faults := ib.faults.map fun e =>
      if e.key = k ∧ e.active = false then { e with active := true, count := min 255 (e.count + 1) } else e }) ∧
    ((∀ e ∈ ib.faults, e.key ≠ k) → ib.faults.length < 32 →
      faultAdd k ib = { ib with faults := ib.faults ++ [new], sequence := (ib.sequence + 1) % 65536 }) ∧
    ((∀ e ∈ ib.faults, e.key ≠ k) → 32 ≤ ib.faults.length →
      (∀ (a b : List FaultEntry) (h : FaultEntry), ib.faults = a ++ h :: b → (∀ e ∈ a, e.active = true) →
        h.active = false →
        faultAdd k ib = { ib with faults := a ++ b ++ [new], sequence := (ib.sequence + 1) % 65536 }) ∧
      ((∀ e ∈ ib.faults, e.active = true) → faultAdd k ib = { ib with overflow := true })) ∧
    faultHeal k ib = { ib with faults := ib.faults.map fun e =>
      if e.key = k then { e with active := false } else e } ∧
    ((∀ e ∈ ib.faults, e.key ≠ k) → faultHeal k ib = ib) ∧
    ((ib.faults.map (·.key)).Nodup → (∃ e ∈ ib.faults, e.key = k ∧ e.active = true) →
      (faultHeal k ib).activeFaults + 1 = ib.activeFaults) ∧
    (∀ p : Pos,
      (faultRemove p ib).faults = ib.faults.filter (fun e => decide (e.key.pos ≠ p)) ∧
      ((faultRemove p ib).overflow = true ↔ ib.overflow = true ∧ ∃ e ∈ ib.faults, e.key.pos ≠ p) ∧
      (faultRemove p ib).sequence = ib.sequence)

/-- The History Cache: a write-back is skipped under IDENTITY_CLASH; else its slots, one for each LEARNED circuit with its
row's profile, replace those of the identity's entry, which moves to the front, or make a new entry at the front when a slot
is filled, the least recent of eight leaving; a lookup that hits moves the entry to the front as it is, one that misses
changes nothing; neither changes anything else but, at a hit, the position's baselines. A position that goes ABSENT from
ACTIVE or LOST is written back as it stands then; ABSENCE_INTERVAL_EXPIRY, CONNECT_DEBOUNCED_FALL and RESTART CHAIN do so for
each position of their cascade in ascending order; an identity change on a warm return writes the departing unit back and
looks the arriving one up, unless it is marked (R34, R35, R36, R37, R107, R108, R110, R111, R112).
That RESTART CHAIN flushes first is the model's reading (log entry 9), and so is that in a cascade the entries a position's
leaving completes retire, their readings judged, before the next position is written back (log entry 18). -/
def Obligations.HistoryCacheKeeps : Prop :=
  (∀ (s : State) (p : Pos) (i : Identity), s.CacheSound →
    (∀ (b vb : Nat) (c : Circ), (s.circAt p c).baseline = .learned b vb →
      s.slotOf p c = some ⟨(s.rowAt p c).profile, b, vb⟩) ∧
    (∀ c : Circ, (∀ b vb : Nat, (s.circAt p c).baseline ≠ .learned b vb) → s.slotOf p c = none) ∧
    ((s.posAt p).identityClash = true → s.writeBack p = s) ∧
    ((s.posAt p).identityClash = false → (s.posAt p).identity = some i →
      let slots := Vector.ofFn (s.slotOf p)
      (∀ (a b : List CacheEntry) (e : CacheEntry), s.cache = a ++ e :: b → e.identity = i →
        s.writeBack p = { s with cache := ⟨i, slots⟩ :: (a ++ b) }) ∧
      ((∀ e ∈ s.cache, e.identity ≠ i) → (∃ c : Circ, s.slotOf p c ≠ none) → s.cache.length < 8 →
        s.writeBack p = { s with cache := ⟨i, slots⟩ :: s.cache }) ∧
      ((∀ e ∈ s.cache, e.identity ≠ i) → (∃ c : Circ, s.slotOf p c ≠ none) → s.cache.length = 8 →
        s.writeBack p = { s with cache := ⟨i, slots⟩ :: s.cache.dropLast }) ∧
      ((∀ e ∈ s.cache, e.identity ≠ i) → (∀ c : Circ, s.slotOf p c = none) → s.writeBack p = s)) ∧
    ((∀ e ∈ s.cache, e.identity ≠ i) → s.lookup p i = s) ∧
    (∀ (a b : List CacheEntry) (e : CacheEntry), s.cache = a ++ e :: b → e.identity = i →
      (s.lookup p i).cache = e :: (a ++ b) ∧
      s.lookup p i = { s with cache := e :: (a ++ b), circuits := (s.lookup p i).circuits } ∧
      (∀ q : Pos, q ≠ p → ∀ c : Circ, (s.lookup p i).circAt q c = s.circAt q c) ∧
      ∀ c : Circ, (s.lookup p i).circAt p c =
        { s.circAt p c with baseline := ((s.lookup p i).circAt p c).baseline })) ∧
  (∀ (s : State) (q : Pos),
    ((s.posAt q).state = .lost → (s.goAbsent q).cache = (s.writeBack q).cache) ∧
    ((s.posAt q).state = .active → (s.goAbsent q).cache = ((s.leaveActive q).writeBack q).cache) ∧
    ((s.posAt q).state.onChain = false → (s.goAbsent q).cache = s.cache) ∧
    ((s.posAt q).state ≠ .absent → (s.goAbsent q).posAt q = Position.absent (s.posAt q).counters)) ∧
  (∀ (s : State) (p : Pos) (l : Time), (s.posAt p).state = .lost → (s.posAt p).lostSince = some l →
    l + s.settings.absenceInterval * 1000 ≤ s.now → ∃ t : State, exec (.absenceIntervalExpiry p) s = .next t ∧
      t.cache = ((allPos.filter fun q => p ≤ q).foldl State.goAbsent s).cache ∧
      ((∀ q : Pos, p < q → (s.posAt q).state.onChain = false) → t.cache = (s.writeBack p).cache)) ∧
  (∀ s : State, s.chain.connectRaw = false → s.chain.connectDebounced = true → s.chain.connectSince + 100 ≤ s.now →
    ∃ t : State, exec .connectDebouncedFall s = .next t ∧ t.cache = (allPos.foldl State.goAbsent s).cache) ∧
  (∀ (s : State) (f : BusFrame), s.Takes f (0x06 :: f.data) → ∃ t : State, exec (.restartChain f) s = .next t ∧
    t.cache = (allPos.foldl State.goAbsent { s with queue := { s.queue with entries := [] } }).cache ∧
    ((∀ q : Pos, (s.posAt q).identityClash = false) →
      t.cache = ((allPos.filter fun q => (s.posAt q).state.onChain).foldl State.writeBack s).cache)) ∧
  (∀ (s : State) (t : UpTelegram) (ab : Bool) (i : IdentFields), parseIdent t = some i → s.ChainSound →
    (s.posAt i.pos).state = .lost → (s.posAt i.pos).queryUntil ≠ none → (s.posAt i.pos).identity ≠ some i.identity →
    ∃ u : State, exec (.ident t ab) s = .next u ∧
      u.cache = if s.HeldByAnother i.pos i.identity then (s.writeBack i.pos).cache
        else ((s.writeBack i.pos).lookup i.pos i.identity).cache)

/-- What a SET carries: circuit c is in a position's mask exactly when its row maps a function on in the image and is fitted;
the measurement delay is the largest settle interval among the fitted circuits of ACTIVE positions whose function is in the
set, 0 when there is none, over the changed set of a CHANGE and the image of a RESYNC; and the deadlines (R43, R44, R45). -/
def Obligations.SetCarries : Prop :=
  (∀ (s : State) (i : Image) (p : Pos) (c : Circ), ((s.masks i)[p]).getLsbD c.val = true ↔
    (∃ f ∈ (s.rowAt p c).function, on i f = true) ∧ ∃ n ∈ (s.posAt p).circuitCount, c.val + 1 ≤ n) ∧
  (∀ (s : State) (fs : FnSet),
    let counts (p : Pos) (c : Circ) : Prop := (s.posAt p).state = .active ∧
      (∃ n ∈ (s.posAt p).circuitCount, c.val + 1 ≤ n) ∧ ∃ f ∈ (s.rowAt p c).function, on fs f = true
    (∀ (p : Pos) (c : Circ), counts p c → (s.profileAt p c).settle ≤ s.delayOver fs) ∧
    ((∃ (p : Pos) (c : Circ), counts p c ∧ (s.profileAt p c).settle = s.delayOver fs) ∨
      ((∀ (p : Pos) (c : Circ), ¬counts p c) ∧ s.delayOver fs = 0))) ∧
  (∀ (e : Entry) (i : Image), (e.kind = .change → e.delaySet i = e.changed) ∧ (e.kind = .resync → e.delaySet i = i)) ∧
  (∀ (now : Time) (e : Entry) (delay : Nat) (required : PosSet),
    (e.target = none → deadlineFrom now e delay required =
      now + (delay + 20 + 4 * (allPos.filter (hasPos required)).length)) ∧
    (∀ t : CheckTarget, e.target = some t → deadlineFrom now e delay required = now + (t.pulse + 20)))

/-- The telltale image: each function's state is the first of the seven tests of R145 that holds, and the summary is RED,
AMBER or NONE by the tests of R146; the positions' states and LINK_DEGRADED flags are carried as they stand
(R145, R146, R148). -/
def Obligations.TelltaleStates : Prop :=
  ∀ s : State,
    (∀ f : Fn, s.compose.functions[f] =
      if s.tables.mode = .setup then .unverified
      else if s.SomeConsidered f (fun k => k = .failedOpen ∨ k = .overloaded ∨ k = .shorted ∨ k = .stuckOn) then .fault
      else if s.SomeConsidered f (fun k => k = .degraded) then .degraded
      else if on s.image.untracked f = true ∨ s.SomeServing f (fun r => r.state = .lost ∨ r.state = .passive) ∨
          s.SomeServing f (fun r => r.supplyLow = true ∨ r.feedLost = true) ∨
          (on s.image.retired f = true ∧ s.SomeConsidered f (fun k => k = .unknown)) then .unverified
      else if ¬s.SomeConsidered f (fun _ => True) ∧ ¬s.SomeServing f (fun r => r.state = .passive) then .absent
      else if on s.image.retired f = true then .onOk
      else .off) ∧
    s.compose.summary =
      (if (∃ (p : Pos) (c : Circ), (s.posAt p).state.onChain = true ∧ (s.rowAt p c).function.isSome = true ∧
            (s.rowAt p c).critical = true ∧
            ((s.circAt p c).condition = .failedOpen ∨ (s.circAt p c).condition = .overloaded ∨
              (s.circAt p c).condition = .shorted ∨ (s.circAt p c).condition = .stuckOn)) ∨
          ∃ p : Pos, (s.posAt p).feedLost = true then .red
      else if (∃ (p : Pos) (c : Circ), (s.posAt p).state.onChain = true ∧ (s.rowAt p c).function.isSome = true ∧
            (s.circAt p c).condition ≠ .unknown ∧ (s.circAt p c).condition ≠ .sound) ∨
          ∃ p : Pos, (s.posAt p).linkDegraded = true ∨ (s.posAt p).identityClash = true then .amber
      else .none) ∧
    (∀ p : Pos, s.compose.positions[p] = (s.posAt p).state ∧ s.compose.linkDegraded[p] = (s.posAt p).linkDegraded)
end

