-- ==== Sys2Proof/Laws/Clock.lean ====
section
/-! SUPPORT. What the passing of a millisecond does: one lemma for each field, and the line's three forms. -/

namespace Sys2Proof.Machine

@[simp] theorem State.tick_now (s : State) : s.tick.now = s.now + 1 := rfl
@[simp] theorem State.tick_tables (s : State) : s.tick.tables = s.tables := rfl
@[simp] theorem State.tick_queue (s : State) : s.tick.queue = s.queue := rfl
@[simp] theorem State.tick_circuits (s : State) : s.tick.circuits = s.circuits := rfl
@[simp] theorem State.tick_cache (s : State) : s.tick.cache = s.cache := rfl
@[simp] theorem State.tick_checks (s : State) : s.tick.checks = s.checks := rfl
@[simp] theorem State.tick_image (s : State) : s.tick.image = s.image := rfl
@[simp] theorem State.tick_port (s : State) : s.tick.port = s.port := rfl
@[simp] theorem State.tick_store (s : State) : s.tick.store = s.store := rfl
@[simp] theorem State.tick_pending (s : State) : s.tick.pending = s.pending := rfl
@[simp] theorem State.tick_arrivals (s : State) : s.tick.arrivals = s.arrivals.tail := rfl
@[simp] theorem State.tick_posAt (s : State) (p : Pos) : s.tick.posAt p = s.posAt p := rfl
@[simp] theorem State.tick_circAt (s : State) (p : Pos) (c : Circ) : s.tick.circAt p c = s.circAt p c := rfl
@[simp] theorem State.tick_rowAt (s : State) (p : Pos) (c : Circ) : s.tick.rowAt p c = s.rowAt p c := rfl
@[simp] theorem State.tick_settings (s : State) : s.tick.settings = s.settings := rfl
@[simp] theorem State.tick_compose (s : State) : s.tick.compose = s.compose := rfl

@[simp] theorem State.tick_chain (s : State) :
    s.tick.chain = { s.chain with line := s.chain.line.hear (s.arrivals.headD false) } := rfl

@[simp] theorem Line.hear_sending (b : Bool) (x : Downstream) : (Line.sending x).hear b = .sending x := rfl
@[simp] theorem Line.hear_receiving (b : Bool) : Line.receiving.hear b = .receiving := rfl
@[simp] theorem Line.hear_free (b : Bool) : Line.free.hear b = if b then .receiving else .free := rfl
@[simp] theorem Line.hear_false (l : Line) : l.hear false = l := by cases l <;> rfl

/-- A line that hears an answer begin differs only where it was free and the answer begins. -/
theorem Line.hear_eq (b : Bool) (l : Line) :
    l.hear b = if l = .free ∧ b = true then .receiving else l := by
  cases l <;> cases b <;> simp [Line.hear]

end Sys2Proof.Machine
end

