-- ==== Sys2Proof/Laws/State.lean ====
section
/-! SUPPORT. What each rewriting of a block leaves in every field of the state, one lemma per field per update, all true by
`rfl` and tagged for `simp`, so that no proof unfolds a record update. -/

namespace Sys2Proof.Machine

variable (s : State)

/-! `State.updPos` -/

@[simp] theorem State.updPos_now (p : Pos) (f : Position → Position) : (s.updPos p f).now = s.now := rfl
@[simp] theorem State.updPos_tables (p : Pos) (f : Position → Position) : (s.updPos p f).tables = s.tables := rfl
@[simp] theorem State.updPos_chain (p : Pos) (f : Position → Position) : (s.updPos p f).chain = { s.chain with positions := upd s.chain.positions p f } := rfl
@[simp] theorem State.updPos_queue (p : Pos) (f : Position → Position) : (s.updPos p f).queue = s.queue := rfl
@[simp] theorem State.updPos_circuits (p : Pos) (f : Position → Position) : (s.updPos p f).circuits = s.circuits := rfl
@[simp] theorem State.updPos_cache (p : Pos) (f : Position → Position) : (s.updPos p f).cache = s.cache := rfl
@[simp] theorem State.updPos_checks (p : Pos) (f : Position → Position) : (s.updPos p f).checks = s.checks := rfl
@[simp] theorem State.updPos_image (p : Pos) (f : Position → Position) : (s.updPos p f).image = s.image := rfl
@[simp] theorem State.updPos_port (p : Pos) (f : Position → Position) : (s.updPos p f).port = s.port := rfl
@[simp] theorem State.updPos_store (p : Pos) (f : Position → Position) : (s.updPos p f).store = s.store := rfl
@[simp] theorem State.updPos_arrivals (p : Pos) (f : Position → Position) : (s.updPos p f).arrivals = s.arrivals := rfl
@[simp] theorem State.updPos_pending (p : Pos) (f : Position → Position) : (s.updPos p f).pending = s.pending := rfl

/-! `State.updChain` -/

@[simp] theorem State.updChain_now (f : Chain → Chain) : (s.updChain f).now = s.now := rfl
@[simp] theorem State.updChain_tables (f : Chain → Chain) : (s.updChain f).tables = s.tables := rfl
@[simp] theorem State.updChain_chain (f : Chain → Chain) : (s.updChain f).chain = f s.chain := rfl
@[simp] theorem State.updChain_queue (f : Chain → Chain) : (s.updChain f).queue = s.queue := rfl
@[simp] theorem State.updChain_circuits (f : Chain → Chain) : (s.updChain f).circuits = s.circuits := rfl
@[simp] theorem State.updChain_cache (f : Chain → Chain) : (s.updChain f).cache = s.cache := rfl
@[simp] theorem State.updChain_checks (f : Chain → Chain) : (s.updChain f).checks = s.checks := rfl
@[simp] theorem State.updChain_image (f : Chain → Chain) : (s.updChain f).image = s.image := rfl
@[simp] theorem State.updChain_port (f : Chain → Chain) : (s.updChain f).port = s.port := rfl
@[simp] theorem State.updChain_store (f : Chain → Chain) : (s.updChain f).store = s.store := rfl
@[simp] theorem State.updChain_arrivals (f : Chain → Chain) : (s.updChain f).arrivals = s.arrivals := rfl
@[simp] theorem State.updChain_pending (f : Chain → Chain) : (s.updChain f).pending = s.pending := rfl

/-! `State.updCounters` -/

@[simp] theorem State.updCounters_now (f : ChainCounters → ChainCounters) : (s.updCounters f).now = s.now := rfl
@[simp] theorem State.updCounters_tables (f : ChainCounters → ChainCounters) : (s.updCounters f).tables = s.tables := rfl
@[simp] theorem State.updCounters_chain (f : ChainCounters → ChainCounters) : (s.updCounters f).chain = { s.chain with counters := f s.chain.counters } := rfl
@[simp] theorem State.updCounters_queue (f : ChainCounters → ChainCounters) : (s.updCounters f).queue = s.queue := rfl
@[simp] theorem State.updCounters_circuits (f : ChainCounters → ChainCounters) : (s.updCounters f).circuits = s.circuits := rfl
@[simp] theorem State.updCounters_cache (f : ChainCounters → ChainCounters) : (s.updCounters f).cache = s.cache := rfl
@[simp] theorem State.updCounters_checks (f : ChainCounters → ChainCounters) : (s.updCounters f).checks = s.checks := rfl
@[simp] theorem State.updCounters_image (f : ChainCounters → ChainCounters) : (s.updCounters f).image = s.image := rfl
@[simp] theorem State.updCounters_port (f : ChainCounters → ChainCounters) : (s.updCounters f).port = s.port := rfl
@[simp] theorem State.updCounters_store (f : ChainCounters → ChainCounters) : (s.updCounters f).store = s.store := rfl
@[simp] theorem State.updCounters_arrivals (f : ChainCounters → ChainCounters) : (s.updCounters f).arrivals = s.arrivals := rfl
@[simp] theorem State.updCounters_pending (f : ChainCounters → ChainCounters) : (s.updCounters f).pending = s.pending := rfl

/-! `State.updCirc` -/

@[simp] theorem State.updCirc_now (p : Pos) (c : Circ) (f : Circuit → Circuit) : (s.updCirc p c f).now = s.now := rfl
@[simp] theorem State.updCirc_tables (p : Pos) (c : Circ) (f : Circuit → Circuit) : (s.updCirc p c f).tables = s.tables := rfl
@[simp] theorem State.updCirc_chain (p : Pos) (c : Circ) (f : Circuit → Circuit) : (s.updCirc p c f).chain = s.chain := rfl
@[simp] theorem State.updCirc_queue (p : Pos) (c : Circ) (f : Circuit → Circuit) : (s.updCirc p c f).queue = s.queue := rfl
@[simp] theorem State.updCirc_circuits (p : Pos) (c : Circ) (f : Circuit → Circuit) : (s.updCirc p c f).circuits = upd s.circuits p fun cs => upd cs c f := rfl
@[simp] theorem State.updCirc_cache (p : Pos) (c : Circ) (f : Circuit → Circuit) : (s.updCirc p c f).cache = s.cache := rfl
@[simp] theorem State.updCirc_checks (p : Pos) (c : Circ) (f : Circuit → Circuit) : (s.updCirc p c f).checks = s.checks := rfl
@[simp] theorem State.updCirc_image (p : Pos) (c : Circ) (f : Circuit → Circuit) : (s.updCirc p c f).image = s.image := rfl
@[simp] theorem State.updCirc_port (p : Pos) (c : Circ) (f : Circuit → Circuit) : (s.updCirc p c f).port = s.port := rfl
@[simp] theorem State.updCirc_store (p : Pos) (c : Circ) (f : Circuit → Circuit) : (s.updCirc p c f).store = s.store := rfl
@[simp] theorem State.updCirc_arrivals (p : Pos) (c : Circ) (f : Circuit → Circuit) : (s.updCirc p c f).arrivals = s.arrivals := rfl
@[simp] theorem State.updCirc_pending (p : Pos) (c : Circ) (f : Circuit → Circuit) : (s.updCirc p c f).pending = s.pending := rfl

/-! `State.updCircs` -/

@[simp] theorem State.updCircs_now (p : Pos) (f : Circ → Circuit → Circuit) : (s.updCircs p f).now = s.now := rfl
@[simp] theorem State.updCircs_tables (p : Pos) (f : Circ → Circuit → Circuit) : (s.updCircs p f).tables = s.tables := rfl
@[simp] theorem State.updCircs_chain (p : Pos) (f : Circ → Circuit → Circuit) : (s.updCircs p f).chain = s.chain := rfl
@[simp] theorem State.updCircs_queue (p : Pos) (f : Circ → Circuit → Circuit) : (s.updCircs p f).queue = s.queue := rfl
@[simp] theorem State.updCircs_circuits (p : Pos) (f : Circ → Circuit → Circuit) : (s.updCircs p f).circuits = upd s.circuits p fun cs => mapIdx cs f := rfl
@[simp] theorem State.updCircs_cache (p : Pos) (f : Circ → Circuit → Circuit) : (s.updCircs p f).cache = s.cache := rfl
@[simp] theorem State.updCircs_checks (p : Pos) (f : Circ → Circuit → Circuit) : (s.updCircs p f).checks = s.checks := rfl
@[simp] theorem State.updCircs_image (p : Pos) (f : Circ → Circuit → Circuit) : (s.updCircs p f).image = s.image := rfl
@[simp] theorem State.updCircs_port (p : Pos) (f : Circ → Circuit → Circuit) : (s.updCircs p f).port = s.port := rfl
@[simp] theorem State.updCircs_store (p : Pos) (f : Circ → Circuit → Circuit) : (s.updCircs p f).store = s.store := rfl
@[simp] theorem State.updCircs_arrivals (p : Pos) (f : Circ → Circuit → Circuit) : (s.updCircs p f).arrivals = s.arrivals := rfl
@[simp] theorem State.updCircs_pending (p : Pos) (f : Circ → Circuit → Circuit) : (s.updCircs p f).pending = s.pending := rfl

/-! `State.mapCircuits` -/

@[simp] theorem State.mapCircuits_now (f : Pos → Circ → Circuit → Circuit) : (s.mapCircuits f).now = s.now := rfl
@[simp] theorem State.mapCircuits_tables (f : Pos → Circ → Circuit → Circuit) : (s.mapCircuits f).tables = s.tables := rfl
@[simp] theorem State.mapCircuits_chain (f : Pos → Circ → Circuit → Circuit) : (s.mapCircuits f).chain = s.chain := rfl
@[simp] theorem State.mapCircuits_queue (f : Pos → Circ → Circuit → Circuit) : (s.mapCircuits f).queue = s.queue := rfl
@[simp] theorem State.mapCircuits_circuits (f : Pos → Circ → Circuit → Circuit) : (s.mapCircuits f).circuits = mapIdx s.circuits fun p cs => mapIdx cs (f p) := rfl
@[simp] theorem State.mapCircuits_cache (f : Pos → Circ → Circuit → Circuit) : (s.mapCircuits f).cache = s.cache := rfl
@[simp] theorem State.mapCircuits_checks (f : Pos → Circ → Circuit → Circuit) : (s.mapCircuits f).checks = s.checks := rfl
@[simp] theorem State.mapCircuits_image (f : Pos → Circ → Circuit → Circuit) : (s.mapCircuits f).image = s.image := rfl
@[simp] theorem State.mapCircuits_port (f : Pos → Circ → Circuit → Circuit) : (s.mapCircuits f).port = s.port := rfl
@[simp] theorem State.mapCircuits_store (f : Pos → Circ → Circuit → Circuit) : (s.mapCircuits f).store = s.store := rfl
@[simp] theorem State.mapCircuits_arrivals (f : Pos → Circ → Circuit → Circuit) : (s.mapCircuits f).arrivals = s.arrivals := rfl
@[simp] theorem State.mapCircuits_pending (f : Pos → Circ → Circuit → Circuit) : (s.mapCircuits f).pending = s.pending := rfl

/-! `State.updQueue` -/

@[simp] theorem State.updQueue_now (f : Queue → Queue) : (s.updQueue f).now = s.now := rfl
@[simp] theorem State.updQueue_tables (f : Queue → Queue) : (s.updQueue f).tables = s.tables := rfl
@[simp] theorem State.updQueue_chain (f : Queue → Queue) : (s.updQueue f).chain = s.chain := rfl
@[simp] theorem State.updQueue_queue (f : Queue → Queue) : (s.updQueue f).queue = f s.queue := rfl
@[simp] theorem State.updQueue_circuits (f : Queue → Queue) : (s.updQueue f).circuits = s.circuits := rfl
@[simp] theorem State.updQueue_cache (f : Queue → Queue) : (s.updQueue f).cache = s.cache := rfl
@[simp] theorem State.updQueue_checks (f : Queue → Queue) : (s.updQueue f).checks = s.checks := rfl
@[simp] theorem State.updQueue_image (f : Queue → Queue) : (s.updQueue f).image = s.image := rfl
@[simp] theorem State.updQueue_port (f : Queue → Queue) : (s.updQueue f).port = s.port := rfl
@[simp] theorem State.updQueue_store (f : Queue → Queue) : (s.updQueue f).store = s.store := rfl
@[simp] theorem State.updQueue_arrivals (f : Queue → Queue) : (s.updQueue f).arrivals = s.arrivals := rfl
@[simp] theorem State.updQueue_pending (f : Queue → Queue) : (s.updQueue f).pending = s.pending := rfl

/-! `State.updImage` -/

@[simp] theorem State.updImage_now (f : ImageBuilder → ImageBuilder) : (s.updImage f).now = s.now := rfl
@[simp] theorem State.updImage_tables (f : ImageBuilder → ImageBuilder) : (s.updImage f).tables = s.tables := rfl
@[simp] theorem State.updImage_chain (f : ImageBuilder → ImageBuilder) : (s.updImage f).chain = s.chain := rfl
@[simp] theorem State.updImage_queue (f : ImageBuilder → ImageBuilder) : (s.updImage f).queue = s.queue := rfl
@[simp] theorem State.updImage_circuits (f : ImageBuilder → ImageBuilder) : (s.updImage f).circuits = s.circuits := rfl
@[simp] theorem State.updImage_cache (f : ImageBuilder → ImageBuilder) : (s.updImage f).cache = s.cache := rfl
@[simp] theorem State.updImage_checks (f : ImageBuilder → ImageBuilder) : (s.updImage f).checks = s.checks := rfl
@[simp] theorem State.updImage_image (f : ImageBuilder → ImageBuilder) : (s.updImage f).image = f s.image := rfl
@[simp] theorem State.updImage_port (f : ImageBuilder → ImageBuilder) : (s.updImage f).port = s.port := rfl
@[simp] theorem State.updImage_store (f : ImageBuilder → ImageBuilder) : (s.updImage f).store = s.store := rfl
@[simp] theorem State.updImage_arrivals (f : ImageBuilder → ImageBuilder) : (s.updImage f).arrivals = s.arrivals := rfl
@[simp] theorem State.updImage_pending (f : ImageBuilder → ImageBuilder) : (s.updImage f).pending = s.pending := rfl

/-! `State.updPort` -/

@[simp] theorem State.updPort_now (f : Port → Port) : (s.updPort f).now = s.now := rfl
@[simp] theorem State.updPort_tables (f : Port → Port) : (s.updPort f).tables = s.tables := rfl
@[simp] theorem State.updPort_chain (f : Port → Port) : (s.updPort f).chain = s.chain := rfl
@[simp] theorem State.updPort_queue (f : Port → Port) : (s.updPort f).queue = s.queue := rfl
@[simp] theorem State.updPort_circuits (f : Port → Port) : (s.updPort f).circuits = s.circuits := rfl
@[simp] theorem State.updPort_cache (f : Port → Port) : (s.updPort f).cache = s.cache := rfl
@[simp] theorem State.updPort_checks (f : Port → Port) : (s.updPort f).checks = s.checks := rfl
@[simp] theorem State.updPort_image (f : Port → Port) : (s.updPort f).image = s.image := rfl
@[simp] theorem State.updPort_port (f : Port → Port) : (s.updPort f).port = f s.port := rfl
@[simp] theorem State.updPort_store (f : Port → Port) : (s.updPort f).store = s.store := rfl
@[simp] theorem State.updPort_arrivals (f : Port → Port) : (s.updPort f).arrivals = s.arrivals := rfl
@[simp] theorem State.updPort_pending (f : Port → Port) : (s.updPort f).pending = s.pending := rfl

/-! `State.updTables` -/

@[simp] theorem State.updTables_now (f : MapTables → MapTables) : (s.updTables f).now = s.now := rfl
@[simp] theorem State.updTables_tables (f : MapTables → MapTables) : (s.updTables f).tables = f s.tables := rfl
@[simp] theorem State.updTables_chain (f : MapTables → MapTables) : (s.updTables f).chain = s.chain := rfl
@[simp] theorem State.updTables_queue (f : MapTables → MapTables) : (s.updTables f).queue = s.queue := rfl
@[simp] theorem State.updTables_circuits (f : MapTables → MapTables) : (s.updTables f).circuits = s.circuits := rfl
@[simp] theorem State.updTables_cache (f : MapTables → MapTables) : (s.updTables f).cache = s.cache := rfl
@[simp] theorem State.updTables_checks (f : MapTables → MapTables) : (s.updTables f).checks = s.checks := rfl
@[simp] theorem State.updTables_image (f : MapTables → MapTables) : (s.updTables f).image = s.image := rfl
@[simp] theorem State.updTables_port (f : MapTables → MapTables) : (s.updTables f).port = s.port := rfl
@[simp] theorem State.updTables_store (f : MapTables → MapTables) : (s.updTables f).store = s.store := rfl
@[simp] theorem State.updTables_arrivals (f : MapTables → MapTables) : (s.updTables f).arrivals = s.arrivals := rfl
@[simp] theorem State.updTables_pending (f : MapTables → MapTables) : (s.updTables f).pending = s.pending := rfl

/-! `State.updChecks` -/

@[simp] theorem State.updChecks_now (f : Checks → Checks) : (s.updChecks f).now = s.now := rfl
@[simp] theorem State.updChecks_tables (f : Checks → Checks) : (s.updChecks f).tables = s.tables := rfl
@[simp] theorem State.updChecks_chain (f : Checks → Checks) : (s.updChecks f).chain = s.chain := rfl
@[simp] theorem State.updChecks_queue (f : Checks → Checks) : (s.updChecks f).queue = s.queue := rfl
@[simp] theorem State.updChecks_circuits (f : Checks → Checks) : (s.updChecks f).circuits = s.circuits := rfl
@[simp] theorem State.updChecks_cache (f : Checks → Checks) : (s.updChecks f).cache = s.cache := rfl
@[simp] theorem State.updChecks_checks (f : Checks → Checks) : (s.updChecks f).checks = f s.checks := rfl
@[simp] theorem State.updChecks_image (f : Checks → Checks) : (s.updChecks f).image = s.image := rfl
@[simp] theorem State.updChecks_port (f : Checks → Checks) : (s.updChecks f).port = s.port := rfl
@[simp] theorem State.updChecks_store (f : Checks → Checks) : (s.updChecks f).store = s.store := rfl
@[simp] theorem State.updChecks_arrivals (f : Checks → Checks) : (s.updChecks f).arrivals = s.arrivals := rfl
@[simp] theorem State.updChecks_pending (f : Checks → Checks) : (s.updChecks f).pending = s.pending := rfl

/-! `State.updStore` -/

@[simp] theorem State.updStore_now (f : Store → Store) : (s.updStore f).now = s.now := rfl
@[simp] theorem State.updStore_tables (f : Store → Store) : (s.updStore f).tables = s.tables := rfl
@[simp] theorem State.updStore_chain (f : Store → Store) : (s.updStore f).chain = s.chain := rfl
@[simp] theorem State.updStore_queue (f : Store → Store) : (s.updStore f).queue = s.queue := rfl
@[simp] theorem State.updStore_circuits (f : Store → Store) : (s.updStore f).circuits = s.circuits := rfl
@[simp] theorem State.updStore_cache (f : Store → Store) : (s.updStore f).cache = s.cache := rfl
@[simp] theorem State.updStore_checks (f : Store → Store) : (s.updStore f).checks = s.checks := rfl
@[simp] theorem State.updStore_image (f : Store → Store) : (s.updStore f).image = s.image := rfl
@[simp] theorem State.updStore_port (f : Store → Store) : (s.updStore f).port = s.port := rfl
@[simp] theorem State.updStore_store (f : Store → Store) : (s.updStore f).store = f s.store := rfl
@[simp] theorem State.updStore_arrivals (f : Store → Store) : (s.updStore f).arrivals = s.arrivals := rfl
@[simp] theorem State.updStore_pending (f : Store → Store) : (s.updStore f).pending = s.pending := rfl

/-! Readings that an update of another block leaves alone -/

@[simp] theorem State.updPos_circAt (p : Pos) (f : Position → Position) (q : Pos) (k : Circ) : (s.updPos p f).circAt q k = s.circAt q k := rfl
@[simp] theorem State.updPos_rowAt (p : Pos) (f : Position → Position) (q : Pos) (k : Circ) : (s.updPos p f).rowAt q k = s.rowAt q k := rfl
@[simp] theorem State.updPos_profileAt (p : Pos) (f : Position → Position) (q : Pos) (k : Circ) :
    (s.updPos p f).profileAt q k = s.profileAt q k := rfl
@[simp] theorem State.updPos_settings (p : Pos) (f : Position → Position) : (s.updPos p f).settings = s.settings := rfl
@[simp] theorem State.updChain_circAt (f : Chain → Chain) (q : Pos) (k : Circ) : (s.updChain f).circAt q k = s.circAt q k := rfl
@[simp] theorem State.updChain_rowAt (f : Chain → Chain) (q : Pos) (k : Circ) : (s.updChain f).rowAt q k = s.rowAt q k := rfl
@[simp] theorem State.updChain_profileAt (f : Chain → Chain) (q : Pos) (k : Circ) :
    (s.updChain f).profileAt q k = s.profileAt q k := rfl
@[simp] theorem State.updChain_settings (f : Chain → Chain) : (s.updChain f).settings = s.settings := rfl
@[simp] theorem State.updCounters_circAt (f : ChainCounters → ChainCounters) (q : Pos) (k : Circ) : (s.updCounters f).circAt q k = s.circAt q k := rfl
@[simp] theorem State.updCounters_rowAt (f : ChainCounters → ChainCounters) (q : Pos) (k : Circ) : (s.updCounters f).rowAt q k = s.rowAt q k := rfl
@[simp] theorem State.updCounters_profileAt (f : ChainCounters → ChainCounters) (q : Pos) (k : Circ) :
    (s.updCounters f).profileAt q k = s.profileAt q k := rfl
@[simp] theorem State.updCounters_settings (f : ChainCounters → ChainCounters) : (s.updCounters f).settings = s.settings := rfl
@[simp] theorem State.updCirc_posAt (p : Pos) (c : Circ) (f : Circuit → Circuit) (q : Pos) : (s.updCirc p c f).posAt q = s.posAt q := rfl
@[simp] theorem State.updCirc_isActive (p : Pos) (c : Circ) (f : Circuit → Circuit) (q : Pos) : (s.updCirc p c f).isActive q = s.isActive q := rfl
@[simp] theorem State.updCirc_activeSet (p : Pos) (c : Circ) (f : Circuit → Circuit) : (s.updCirc p c f).activeSet = s.activeSet := rfl
@[simp] theorem State.updCirc_rowAt (p : Pos) (c : Circ) (f : Circuit → Circuit) (q : Pos) (k : Circ) : (s.updCirc p c f).rowAt q k = s.rowAt q k := rfl
@[simp] theorem State.updCirc_profileAt (p : Pos) (c : Circ) (f : Circuit → Circuit) (q : Pos) (k : Circ) :
    (s.updCirc p c f).profileAt q k = s.profileAt q k := rfl
@[simp] theorem State.updCirc_settings (p : Pos) (c : Circ) (f : Circuit → Circuit) : (s.updCirc p c f).settings = s.settings := rfl
@[simp] theorem State.updCirc_fitted (p : Pos) (c : Circ) (f : Circuit → Circuit) (q : Pos) (k : Circ) : (s.updCirc p c f).fitted q k = s.fitted q k := rfl
@[simp] theorem State.updCircs_posAt (p : Pos) (f : Circ → Circuit → Circuit) (q : Pos) : (s.updCircs p f).posAt q = s.posAt q := rfl
@[simp] theorem State.updCircs_isActive (p : Pos) (f : Circ → Circuit → Circuit) (q : Pos) : (s.updCircs p f).isActive q = s.isActive q := rfl
@[simp] theorem State.updCircs_activeSet (p : Pos) (f : Circ → Circuit → Circuit) : (s.updCircs p f).activeSet = s.activeSet := rfl
@[simp] theorem State.updCircs_rowAt (p : Pos) (f : Circ → Circuit → Circuit) (q : Pos) (k : Circ) : (s.updCircs p f).rowAt q k = s.rowAt q k := rfl
@[simp] theorem State.updCircs_profileAt (p : Pos) (f : Circ → Circuit → Circuit) (q : Pos) (k : Circ) :
    (s.updCircs p f).profileAt q k = s.profileAt q k := rfl
@[simp] theorem State.updCircs_settings (p : Pos) (f : Circ → Circuit → Circuit) : (s.updCircs p f).settings = s.settings := rfl
@[simp] theorem State.updCircs_fitted (p : Pos) (f : Circ → Circuit → Circuit) (q : Pos) (k : Circ) : (s.updCircs p f).fitted q k = s.fitted q k := rfl
@[simp] theorem State.mapCircuits_posAt (f : Pos → Circ → Circuit → Circuit) (q : Pos) : (s.mapCircuits f).posAt q = s.posAt q := rfl
@[simp] theorem State.mapCircuits_isActive (f : Pos → Circ → Circuit → Circuit) (q : Pos) : (s.mapCircuits f).isActive q = s.isActive q := rfl
@[simp] theorem State.mapCircuits_activeSet (f : Pos → Circ → Circuit → Circuit) : (s.mapCircuits f).activeSet = s.activeSet := rfl
@[simp] theorem State.mapCircuits_rowAt (f : Pos → Circ → Circuit → Circuit) (q : Pos) (k : Circ) : (s.mapCircuits f).rowAt q k = s.rowAt q k := rfl
@[simp] theorem State.mapCircuits_profileAt (f : Pos → Circ → Circuit → Circuit) (q : Pos) (k : Circ) :
    (s.mapCircuits f).profileAt q k = s.profileAt q k := rfl
@[simp] theorem State.mapCircuits_settings (f : Pos → Circ → Circuit → Circuit) : (s.mapCircuits f).settings = s.settings := rfl
@[simp] theorem State.mapCircuits_fitted (f : Pos → Circ → Circuit → Circuit) (q : Pos) (k : Circ) : (s.mapCircuits f).fitted q k = s.fitted q k := rfl
@[simp] theorem State.updQueue_posAt (f : Queue → Queue) (q : Pos) : (s.updQueue f).posAt q = s.posAt q := rfl
@[simp] theorem State.updQueue_isActive (f : Queue → Queue) (q : Pos) : (s.updQueue f).isActive q = s.isActive q := rfl
@[simp] theorem State.updQueue_activeSet (f : Queue → Queue) : (s.updQueue f).activeSet = s.activeSet := rfl
@[simp] theorem State.updQueue_circAt (f : Queue → Queue) (q : Pos) (k : Circ) : (s.updQueue f).circAt q k = s.circAt q k := rfl
@[simp] theorem State.updQueue_rowAt (f : Queue → Queue) (q : Pos) (k : Circ) : (s.updQueue f).rowAt q k = s.rowAt q k := rfl
@[simp] theorem State.updQueue_profileAt (f : Queue → Queue) (q : Pos) (k : Circ) :
    (s.updQueue f).profileAt q k = s.profileAt q k := rfl
@[simp] theorem State.updQueue_settings (f : Queue → Queue) : (s.updQueue f).settings = s.settings := rfl
@[simp] theorem State.updQueue_fitted (f : Queue → Queue) (q : Pos) (k : Circ) : (s.updQueue f).fitted q k = s.fitted q k := rfl
@[simp] theorem State.updImage_posAt (f : ImageBuilder → ImageBuilder) (q : Pos) : (s.updImage f).posAt q = s.posAt q := rfl
@[simp] theorem State.updImage_isActive (f : ImageBuilder → ImageBuilder) (q : Pos) : (s.updImage f).isActive q = s.isActive q := rfl
@[simp] theorem State.updImage_activeSet (f : ImageBuilder → ImageBuilder) : (s.updImage f).activeSet = s.activeSet := rfl
@[simp] theorem State.updImage_circAt (f : ImageBuilder → ImageBuilder) (q : Pos) (k : Circ) : (s.updImage f).circAt q k = s.circAt q k := rfl
@[simp] theorem State.updImage_rowAt (f : ImageBuilder → ImageBuilder) (q : Pos) (k : Circ) : (s.updImage f).rowAt q k = s.rowAt q k := rfl
@[simp] theorem State.updImage_profileAt (f : ImageBuilder → ImageBuilder) (q : Pos) (k : Circ) :
    (s.updImage f).profileAt q k = s.profileAt q k := rfl
@[simp] theorem State.updImage_settings (f : ImageBuilder → ImageBuilder) : (s.updImage f).settings = s.settings := rfl
@[simp] theorem State.updImage_fitted (f : ImageBuilder → ImageBuilder) (q : Pos) (k : Circ) : (s.updImage f).fitted q k = s.fitted q k := rfl
@[simp] theorem State.updPort_posAt (f : Port → Port) (q : Pos) : (s.updPort f).posAt q = s.posAt q := rfl
@[simp] theorem State.updPort_isActive (f : Port → Port) (q : Pos) : (s.updPort f).isActive q = s.isActive q := rfl
@[simp] theorem State.updPort_activeSet (f : Port → Port) : (s.updPort f).activeSet = s.activeSet := rfl
@[simp] theorem State.updPort_circAt (f : Port → Port) (q : Pos) (k : Circ) : (s.updPort f).circAt q k = s.circAt q k := rfl
@[simp] theorem State.updPort_rowAt (f : Port → Port) (q : Pos) (k : Circ) : (s.updPort f).rowAt q k = s.rowAt q k := rfl
@[simp] theorem State.updPort_profileAt (f : Port → Port) (q : Pos) (k : Circ) :
    (s.updPort f).profileAt q k = s.profileAt q k := rfl
@[simp] theorem State.updPort_settings (f : Port → Port) : (s.updPort f).settings = s.settings := rfl
@[simp] theorem State.updPort_fitted (f : Port → Port) (q : Pos) (k : Circ) : (s.updPort f).fitted q k = s.fitted q k := rfl
@[simp] theorem State.updTables_posAt (f : MapTables → MapTables) (q : Pos) : (s.updTables f).posAt q = s.posAt q := rfl
@[simp] theorem State.updTables_isActive (f : MapTables → MapTables) (q : Pos) : (s.updTables f).isActive q = s.isActive q := rfl
@[simp] theorem State.updTables_activeSet (f : MapTables → MapTables) : (s.updTables f).activeSet = s.activeSet := rfl
@[simp] theorem State.updTables_circAt (f : MapTables → MapTables) (q : Pos) (k : Circ) : (s.updTables f).circAt q k = s.circAt q k := rfl
@[simp] theorem State.updChecks_posAt (f : Checks → Checks) (q : Pos) : (s.updChecks f).posAt q = s.posAt q := rfl
@[simp] theorem State.updChecks_isActive (f : Checks → Checks) (q : Pos) : (s.updChecks f).isActive q = s.isActive q := rfl
@[simp] theorem State.updChecks_activeSet (f : Checks → Checks) : (s.updChecks f).activeSet = s.activeSet := rfl
@[simp] theorem State.updChecks_circAt (f : Checks → Checks) (q : Pos) (k : Circ) : (s.updChecks f).circAt q k = s.circAt q k := rfl
@[simp] theorem State.updChecks_rowAt (f : Checks → Checks) (q : Pos) (k : Circ) : (s.updChecks f).rowAt q k = s.rowAt q k := rfl
@[simp] theorem State.updChecks_profileAt (f : Checks → Checks) (q : Pos) (k : Circ) :
    (s.updChecks f).profileAt q k = s.profileAt q k := rfl
@[simp] theorem State.updChecks_settings (f : Checks → Checks) : (s.updChecks f).settings = s.settings := rfl
@[simp] theorem State.updChecks_fitted (f : Checks → Checks) (q : Pos) (k : Circ) : (s.updChecks f).fitted q k = s.fitted q k := rfl
@[simp] theorem State.updStore_posAt (f : Store → Store) (q : Pos) : (s.updStore f).posAt q = s.posAt q := rfl
@[simp] theorem State.updStore_isActive (f : Store → Store) (q : Pos) : (s.updStore f).isActive q = s.isActive q := rfl
@[simp] theorem State.updStore_activeSet (f : Store → Store) : (s.updStore f).activeSet = s.activeSet := rfl
@[simp] theorem State.updStore_circAt (f : Store → Store) (q : Pos) (k : Circ) : (s.updStore f).circAt q k = s.circAt q k := rfl
@[simp] theorem State.updStore_rowAt (f : Store → Store) (q : Pos) (k : Circ) : (s.updStore f).rowAt q k = s.rowAt q k := rfl
@[simp] theorem State.updStore_profileAt (f : Store → Store) (q : Pos) (k : Circ) :
    (s.updStore f).profileAt q k = s.profileAt q k := rfl
@[simp] theorem State.updStore_settings (f : Store → Store) : (s.updStore f).settings = s.settings := rfl
@[simp] theorem State.updStore_fitted (f : Store → Store) (q : Pos) (k : Circ) : (s.updStore f).fitted q k = s.fitted q k := rfl

/-! One record of a table -/

/-- The place written holds the rewritten value. -/
@[simp] theorem upd_get_same {α : Type} {n : Nat} (v : Vector α n) (i : Fin n) (f : α → α) : (upd v i f)[i] = f v[i] := by
  simp [upd]

/-- Every other place is as before. -/
theorem upd_get_ne {α : Type} {n : Nat} (v : Vector α n) (i j : Fin n) (f : α → α) (h : j ≠ i) :
    (upd v i f)[j] = v[j] := by
  have h' : i.val ≠ j.val := fun e => h (Fin.ext e.symm)
  simp [upd, h']

/-- A place after an update elsewhere or there. -/
theorem upd_get {α : Type} {n : Nat} (v : Vector α n) (i j : Fin n) (f : α → α) :
    (upd v i f)[j] = if j = i then f v[j] else v[j] := by
  split
  · next h => subst h; exact upd_get_same ..
  · next h => exact upd_get_ne _ _ _ _ h

/-- A place of a table rewritten whole. -/
@[simp] theorem mapIdx_get {α : Type} {n : Nat} (v : Vector α n) (f : Fin n → α → α) (i : Fin n) :
    (mapIdx v f)[i] = f i v[i] := by simp [mapIdx]

/-- The record written. -/
@[simp] theorem State.updPos_posAt_same (p : Pos) (f : Position → Position) : (s.updPos p f).posAt p = f (s.posAt p) := by
  simp only [State.posAt, State.updPos_chain, upd_get_same]

/-- The other records stand. -/
theorem State.updPos_posAt_ne (p q : Pos) (f : Position → Position) (h : q ≠ p) :
    (s.updPos p f).posAt q = s.posAt q := by
  simp only [State.posAt, State.updPos_chain, upd_get_ne _ _ _ _ h]

/-- Any record after one is written. -/
theorem State.updPos_posAt (p q : Pos) (f : Position → Position) :
    (s.updPos p f).posAt q = if q = p then f (s.posAt q) else s.posAt q := by
  simp only [State.posAt, State.updPos_chain, upd_get]

/-- Records stand through an update of the Chain Master that leaves the records. -/
theorem State.updChain_posAt (f : Chain → Chain) (h : (f s.chain).positions = s.chain.positions) (q : Pos) :
    (s.updChain f).posAt q = s.posAt q := by simp only [State.posAt, State.updChain_chain, h]

@[simp] theorem State.updCounters_posAt (f : ChainCounters → ChainCounters) (q : Pos) :
    (s.updCounters f).posAt q = s.posAt q := rfl

/-- Any circuit's records after one circuit's are written. -/
theorem State.updCirc_circAt (p q : Pos) (c k : Circ) (f : Circuit → Circuit) :
    (s.updCirc p c f).circAt q k = if q = p ∧ k = c then f (s.circAt q k) else s.circAt q k := by
  simp only [State.circAt, State.updCirc_circuits, upd_get]
  by_cases hq : q = p
  · by_cases hk : k = c
    · simp only [hq, hk, upd_get_same, and_self, if_true]
    · simp only [hq, hk, upd_get, and_false, if_true, if_false]
  · simp only [hq, false_and, if_false]

/-- Any circuit's records after a position's twelve are written. -/
theorem State.updCircs_circAt (p q : Pos) (k : Circ) (f : Circ → Circuit → Circuit) :
    (s.updCircs p f).circAt q k = if q = p then f k (s.circAt q k) else s.circAt q k := by
  simp only [State.circAt, State.updCircs_circuits, upd_get]
  by_cases hq : q = p
  · simp only [hq, mapIdx_get, if_true]
  · simp only [hq, if_false]

/-- Any circuit's records after all are written. -/
@[simp] theorem State.mapCircuits_circAt (q : Pos) (k : Circ) (f : Pos → Circ → Circuit → Circuit) :
    (s.mapCircuits f).circAt q k = f q k (s.circAt q k) := by
  simp only [State.circAt, State.mapCircuits_circuits, mapIdx_get]

end Sys2Proof.Machine
end

