-- ==== Sys2Proof/Laws/Frames.lean ====
section
/-! SUPPORT. What the operations behind a retirement can change: the Reconciler's on one answer, a retirement, and the
telegram the transmitter sends. Each relation lists every block; an operation that gives `u` from `s` satisfies it. -/

namespace Sys2Proof.Machine

/-- A fold keeps a reflexive and transitive relation that each of its steps satisfies. -/
theorem foldl_keeps {α β : Type} (r : α → α → Prop) (refl : ∀ a, r a a) (trans : ∀ a b c, r a b → r b c → r a c)
    (f : α → β → α) (h : ∀ a b, r a (f a b)) (l : List β) (a : α) : r a (l.foldl f a) := by
  induction l generalizing a with
  | nil => exact refl a
  | cons b l ih => exact trans _ _ _ (h a b) (ih (f a b))

/-- `u` is `s` after judging: only SUPPLY_LOW and FEED_LOST of the positions, the reconciliation, baseline and condition of
the circuits, and the fault list with its overflow flag and sequence counter may differ. -/
structure State.JudgedFrom (s u : State) : Prop where
  now : u.now = s.now
  tables : u.tables = s.tables
  queue : u.queue = s.queue
  cache : u.cache = s.cache
  checks : u.checks = s.checks
  port : u.port = s.port
  store : u.store = s.store
  arrivals : u.arrivals = s.arrivals
  pending : u.pending = s.pending
  chain : u.chain = { s.chain with positions := u.chain.positions }
  image : u.image = { s.image with
    faults := u.image.faults, overflow := u.image.overflow, sequence := u.image.sequence }
  pos : ∀ p, u.posAt p = { s.posAt p with supplyLow := (u.posAt p).supplyLow, feedLost := (u.posAt p).feedLost }
  circ : ∀ p c, u.circAt p c = { s.circAt p c with
    candidate := (u.circAt p c).candidate, agreement := (u.circAt p c).agreement, last := (u.circAt p c).last
    baseline := (u.circAt p c).baseline, condition := (u.circAt p c).condition }

theorem State.JudgedFrom.refl (s : State) : s.JudgedFrom s :=
  ⟨rfl, rfl, rfl, rfl, rfl, rfl, rfl, rfl, rfl, rfl, rfl, fun _ => rfl, fun _ _ => rfl⟩

theorem State.JudgedFrom.trans (s t u : State) (a : s.JudgedFrom t) (b : t.JudgedFrom u) : s.JudgedFrom u where
  now := b.now.trans a.now
  tables := b.tables.trans a.tables
  queue := b.queue.trans a.queue
  cache := b.cache.trans a.cache
  checks := b.checks.trans a.checks
  port := b.port.trans a.port
  store := b.store.trans a.store
  arrivals := b.arrivals.trans a.arrivals
  pending := b.pending.trans a.pending
  chain := by rw [b.chain, a.chain]
  image := by rw [b.image, a.image]
  pos p := by rw [b.pos p, a.pos p]
  circ p c := by rw [b.circ p c, a.circ p c]

/-- The fault list alone changes in an add. -/
theorem faultAdd_frame (k : FaultKey) (ib : ImageBuilder) : faultAdd k ib = { ib with
    faults := (faultAdd k ib).faults, overflow := (faultAdd k ib).overflow, sequence := (faultAdd k ib).sequence } := by
  unfold faultAdd faultAppend
  split
  · rfl
  · split
    · rfl
    · split <;> rfl

theorem State.JudgedFrom.add (s : State) (k : FaultKey) : s.JudgedFrom (s.add k) :=
  ⟨rfl, rfl, rfl, rfl, rfl, rfl, rfl, rfl, rfl, rfl, by simpa [State.add] using faultAdd_frame k s.image, fun _ => rfl,
    fun _ _ => rfl⟩

theorem State.JudgedFrom.heal (s : State) (k : FaultKey) : s.JudgedFrom (s.heal k) :=
  ⟨rfl, rfl, rfl, rfl, rfl, rfl, rfl, rfl, rfl, rfl, rfl, fun _ => rfl, fun _ _ => rfl⟩

/-- Rewriting SUPPLY_LOW and FEED_LOST of one position. -/
theorem State.JudgedFrom.updPos (s : State) (p : Pos) (f : Position → Position)
    (h : ∀ r, f r = { r with supplyLow := (f r).supplyLow, feedLost := (f r).feedLost }) : s.JudgedFrom (s.updPos p f) := by
  refine ⟨rfl, rfl, rfl, rfl, rfl, rfl, rfl, rfl, rfl, rfl, rfl, fun q => ?_, fun _ _ => rfl⟩
  rw [State.updPos_posAt]
  split
  · exact h _
  · rfl

/-- Rewriting one circuit's reconciliation, baseline and condition. -/
theorem State.JudgedFrom.updCirc (s : State) (p : Pos) (c : Circ) (f : Circuit → Circuit)
    (h : ∀ k, f k = { k with
      candidate := (f k).candidate, agreement := (f k).agreement, last := (f k).last, baseline := (f k).baseline
      condition := (f k).condition }) : s.JudgedFrom (s.updCirc p c f) := by
  refine ⟨rfl, rfl, rfl, rfl, rfl, rfl, rfl, rfl, rfl, rfl, rfl, fun _ => rfl, fun q k => ?_⟩
  rw [State.updCirc_circAt]
  split
  · exact h _
  · rfl

theorem State.JudgedFrom.setSupplyLow (s : State) (p : Pos) (b : Bool) : s.JudgedFrom (s.setSupplyLow p b) :=
  .updPos s p _ fun _ => rfl

theorem State.JudgedFrom.raiseFeedLost (s : State) (p : Pos) : s.JudgedFrom (s.raiseFeedLost p) := by
  unfold State.raiseFeedLost
  split
  · exact .refl s
  · exact .trans _ _ _ (.updPos s p _ fun _ => rfl) (.add _ _)

theorem State.JudgedFrom.clearFeedLost (s : State) (p : Pos) : s.JudgedFrom (s.clearFeedLost p) := by
  unfold State.clearFeedLost
  split
  · exact .trans _ _ _ (.updPos s p _ fun _ => rfl) (.heal _ _)
  · exact .refl s

theorem State.JudgedFrom.feedTest (s : State) (p : Pos) (js : List Judged) : s.JudgedFrom (s.feedTest p js) := by
  unfold State.feedTest
  split
  · exact .raiseFeedLost s p
  · split
    · exact .clearFeedLost s p
    · exact .refl s

theorem State.JudgedFrom.healCondition (s : State) (p : Pos) (c : Circ) (k : Condition) :
    s.JudgedFrom (s.healCondition p c k) := by
  unfold State.healCondition
  split
  · exact .heal _ _
  · exact .refl s

theorem State.JudgedFrom.addCondition (s : State) (p : Pos) (c : Circ) (k : Condition) :
    s.JudgedFrom (s.addCondition p c k) := by
  unfold State.addCondition
  split
  · exact .add _ _
  · exact .refl s

theorem State.JudgedFrom.confirm (s : State) (p : Pos) (c : Circ) (v : Verdict) : s.JudgedFrom (s.confirm p c v) := by
  unfold State.confirm
  dsimp only
  split
  · exact .refl s
  · exact .trans _ _ _ (.updCirc s p c _ fun _ => rfl) (.trans _ _ _ (.healCondition _ _ _ _) (.addCondition _ _ _ _))

theorem State.JudgedFrom.record (s : State) (p : Pos) (kind : EntryKind) (loss : Bool) (j : Judged) :
    s.JudgedFrom (s.record p kind loss j) := .updCirc s p j.circ _ fun _ => rfl

theorem State.JudgedFrom.handBaseline (s : State) (p : Pos) (loss : Bool) (j : Judged) :
    s.JudgedFrom (s.handBaseline p loss j) := by
  unfold State.handBaseline
  split
  · exact .updCirc _ _ _ _ fun _ => rfl
  · exact .refl _

theorem State.JudgedFrom.toConfirmation (s : State) (p : Pos) (loss : Bool) (j : Judged) :
    s.JudgedFrom (s.toConfirmation p loss j) := by
  unfold State.toConfirmation
  split
  · exact .refl _
  · dsimp only
    have h : ∀ kc, s.JudgedFrom (s.updCirc p j.circ (agree kc j.verdict)) := fun kc =>
      .updCirc s p j.circ _ fun k => by unfold agree; split <;> rfl
    split
    · exact .trans _ _ _ (h _) (.confirm _ _ _ _)
    · exact h _

theorem State.JudgedFrom.takeReading (p : Pos) (kind : EntryKind) (loss : Bool) (s : State) (j : Judged) :
    s.JudgedFrom (State.takeReading p kind loss s j) :=
  .trans _ _ _ (.trans _ _ _ (.record s p kind loss j) (.handBaseline _ _ _ _)) (.toConfirmation _ _ _ _)

/-- What the Reconciler can do with one answer. -/
theorem State.JudgedFrom.reconcile (s : State) (e : Entry) (x : Transmission) (a : Answer) :
    s.JudgedFrom (s.reconcile e x a) := by
  unfold State.reconcile
  split
  · exact .refl s
  · split
    · exact .setSupplyLow s _ _
    · exact .trans _ _ _ (.setSupplyLow s _ _) (.trans _ _ _ (.feedTest _ _ _)
        (foldl_keeps State.JudgedFrom .refl .trans _ (fun t j => .takeReading _ _ _ t j) _ _))

/-- What handing an entry's answers can do (R70). -/
theorem State.JudgedFrom.handAnswers (s : State) (e : Entry) : s.JudgedFrom (s.handAnswers e) := by
  unfold State.handAnswers
  split
  · refine foldl_keeps State.JudgedFrom .refl .trans _ (fun t p => ?_) _ _
    split
    · exact .reconcile _ _ _ _
    · exact .refl _
  · exact .refl s

/-- `u` is `s` after retirements: what judging may change, and the queue's entries, the retired image and the untracked
flags. -/
structure State.RetiredFrom (s u : State) : Prop where
  now : u.now = s.now
  tables : u.tables = s.tables
  queue : u.queue = { s.queue with entries := u.queue.entries }
  cache : u.cache = s.cache
  checks : u.checks = s.checks
  port : u.port = s.port
  store : u.store = s.store
  arrivals : u.arrivals = s.arrivals
  pending : u.pending = s.pending
  chain : u.chain = { s.chain with positions := u.chain.positions }
  image : u.image = { s.image with
    faults := u.image.faults, overflow := u.image.overflow, sequence := u.image.sequence
    retired := u.image.retired, untracked := u.image.untracked }
  pos : ∀ p, u.posAt p = { s.posAt p with supplyLow := (u.posAt p).supplyLow, feedLost := (u.posAt p).feedLost }
  circ : ∀ p c, u.circAt p c = { s.circAt p c with
    candidate := (u.circAt p c).candidate, agreement := (u.circAt p c).agreement, last := (u.circAt p c).last
    baseline := (u.circAt p c).baseline, condition := (u.circAt p c).condition }

theorem State.RetiredFrom.refl (s : State) : s.RetiredFrom s :=
  ⟨rfl, rfl, rfl, rfl, rfl, rfl, rfl, rfl, rfl, rfl, rfl, fun _ => rfl, fun _ _ => rfl⟩

theorem State.RetiredFrom.trans (s t u : State) (a : s.RetiredFrom t) (b : t.RetiredFrom u) : s.RetiredFrom u where
  now := b.now.trans a.now
  tables := b.tables.trans a.tables
  queue := by rw [b.queue, a.queue]
  cache := b.cache.trans a.cache
  checks := b.checks.trans a.checks
  port := b.port.trans a.port
  store := b.store.trans a.store
  arrivals := b.arrivals.trans a.arrivals
  pending := b.pending.trans a.pending
  chain := by rw [b.chain, a.chain]
  image := by rw [b.image, a.image]
  pos p := by rw [b.pos p, a.pos p]
  circ p c := by rw [b.circ p c, a.circ p c]

theorem State.JudgedFrom.retired {s u : State} (h : s.JudgedFrom u) : s.RetiredFrom u where
  now := h.now
  tables := h.tables
  queue := by rw [h.queue]
  cache := h.cache
  checks := h.checks
  port := h.port
  store := h.store
  arrivals := h.arrivals
  pending := h.pending
  chain := h.chain
  image := by rw [h.image]
  pos := h.pos
  circ := h.circ

/-- Rewriting the entries of the queue. -/
theorem State.RetiredFrom.entries (s : State) (f : List Entry → List Entry) :
    s.RetiredFrom (s.updQueue fun q => { q with entries := f q.entries }) :=
  ⟨rfl, rfl, rfl, rfl, rfl, rfl, rfl, rfl, rfl, rfl, rfl, fun _ => rfl, fun _ _ => rfl⟩

theorem State.RetiredFrom.setRetired (s : State) (e : Entry) : s.RetiredFrom (s.setRetired e) := by
  unfold State.setRetired
  split
  · split
    · exact .refl s
    · exact ⟨rfl, rfl, rfl, rfl, rfl, rfl, rfl, rfl, rfl, rfl, rfl, fun _ => rfl, fun _ _ => rfl⟩
  · exact .refl s

theorem State.RetiredFrom.clearUntracked (s : State) (e : Entry) : s.RetiredFrom (s.clearUntracked e) := by
  unfold State.clearUntracked
  split
  · split
    · exact ⟨rfl, rfl, rfl, rfl, rfl, rfl, rfl, rfl, rfl, rfl, rfl, fun _ => rfl, fun _ _ => rfl⟩
    · exact .refl s
  · exact .refl s

/-- What one retirement can do (R70 to R73). -/
theorem State.RetiredFrom.retireOne (s : State) (e : Entry) (rest : List Entry) : s.RetiredFrom (s.retireOne e rest) :=
  .trans _ _ _ (.trans _ _ _ (.trans _ _ _ (State.JudgedFrom.handAnswers s e).retired (.setRetired _ e))
    (.clearUntracked _ e)) (.entries _ fun _ => rest)

theorem State.RetiredFrom.retireFrom (l : List Entry) (s : State) : s.RetiredFrom (State.retireFrom l s) := by
  induction l generalizing s with
  | nil => exact .refl s
  | cons e rest ih =>
    unfold State.retireFrom
    split
    · exact .trans _ _ _ (.retireOne s e rest) (ih _)
    · exact .refl s

/-- What the retirements due at an event can do (R69). -/
theorem State.RetiredFrom.retire (s : State) : s.RetiredFrom s.retire := .retireFrom _ _

theorem State.RetiredFrom.updEntry (s : State) (tag : Nat) (f : Entry → Entry) : s.RetiredFrom (s.updEntry tag f) :=
  .entries s _

theorem State.RetiredFrom.completeEmpty (s : State) (tag : Nat) : s.RetiredFrom (s.completeEmpty tag) :=
  .trans _ _ _ (.updEntry s tag _) (.retire _)

/-- The entries left by retirements: those at the head that were COMPLETE or EXPIRED are gone, the rest is as it was. -/
theorem State.retireFrom_entries (l : List Entry) (s : State) (h : s.queue.entries = l) :
    (State.retireFrom l s).queue.entries = l.dropWhile (·.state.final) := by
  induction l generalizing s with
  | nil => simpa [State.retireFrom] using h
  | cons e rest ih =>
    unfold State.retireFrom
    by_cases hf : e.state.final = true
    · simp only [hf, if_true, List.dropWhile_cons_of_pos]
      exact ih _ rfl
    · simp only [hf, if_false, Bool.false_eq_true]
      simpa [List.dropWhile_cons, hf] using h

theorem State.retire_entries (s : State) : s.retire.queue.entries = s.queue.entries.dropWhile (·.state.final) :=
  State.retireFrom_entries _ _ rfl

end Sys2Proof.Machine
end

