-- ==== Sys2Proof/Laws/Transmit.lean ====
section
/-! SUPPORT. What the transmitter's pick can change, and what a composition of the telltale image can change. -/

namespace Sys2Proof.Machine

/-- `u` is `s` after at most one telegram was begun: what retirements may change, and the untracked slot and generation, the
check times, the transmitted image and change times, the pending requests, the line, the probing fields of the positions and
the check fields of the circuits. -/
structure State.SentFrom (s u : State) : Prop where
  now : u.now = s.now
  tables : u.tables = s.tables
  queue : u.queue = { s.queue with
    entries := u.queue.entries, slot := u.queue.slot, generation := u.queue.generation }
  cache : u.cache = s.cache
  checks : u.checks = { s.checks with times := u.checks.times }
  port : u.port = s.port
  store : u.store = s.store
  arrivals : u.arrivals = s.arrivals
  pending : u.pending = s.pending
  chain : u.chain = { s.chain with
    positions := u.chain.positions, transmitted := u.chain.transmitted, changeTimes := u.chain.changeTimes
    linkRequests := u.chain.linkRequests, livenessPoll := u.chain.livenessPoll, line := u.chain.line }
  image : u.image = { s.image with
    faults := u.image.faults, overflow := u.image.overflow, sequence := u.image.sequence
    retired := u.image.retired, untracked := u.image.untracked }
  pos : ∀ p, u.posAt p = { s.posAt p with
    supplyLow := (u.posAt p).supplyLow, feedLost := (u.posAt p).feedLost
    probeAttempts := (u.posAt p).probeAttempts, enumTimeout := (u.posAt p).enumTimeout
    queryUntil := (u.posAt p).queryUntil }
  circ : ∀ p c, u.circAt p c = { s.circAt p c with
    candidate := (u.circAt p c).candidate, agreement := (u.circAt p c).agreement, last := (u.circAt p c).last
    baseline := (u.circAt p c).baseline, condition := (u.circAt p c).condition
    lastCheck := (u.circAt p c).lastCheck, due := (u.circAt p c).due }

theorem State.SentFrom.refl (s : State) : s.SentFrom s :=
  ⟨rfl, rfl, rfl, rfl, rfl, rfl, rfl, rfl, rfl, rfl, rfl, fun _ => rfl, fun _ _ => rfl⟩

theorem State.SentFrom.trans (s t u : State) (a : s.SentFrom t) (b : t.SentFrom u) : s.SentFrom u where
  now := b.now.trans a.now
  tables := b.tables.trans a.tables
  queue := by rw [b.queue, a.queue]
  cache := b.cache.trans a.cache
  checks := by rw [b.checks, a.checks]
  port := b.port.trans a.port
  store := b.store.trans a.store
  arrivals := b.arrivals.trans a.arrivals
  pending := b.pending.trans a.pending
  chain := by rw [b.chain, a.chain]
  image := by rw [b.image, a.image]
  pos p := by rw [b.pos p, a.pos p]
  circ p c := by rw [b.circ p c, a.circ p c]

theorem State.RetiredFrom.sent {s u : State} (h : s.RetiredFrom u) : s.SentFrom u where
  now := h.now
  tables := h.tables
  queue := by rw [h.queue]
  cache := h.cache
  checks := by rw [h.checks]
  port := h.port
  store := h.store
  arrivals := h.arrivals
  pending := h.pending
  chain := by rw [h.chain]
  image := h.image
  pos p := by rw [h.pos p]
  circ p c := by rw [h.circ p c]

theorem State.SentFrom.beginTelegram (s : State) (x : Downstream) : s.SentFrom (s.beginTelegram x) :=
  ⟨rfl, rfl, rfl, rfl, rfl, rfl, rfl, rfl, rfl, rfl, rfl, fun _ => rfl, fun _ _ => rfl⟩

theorem State.SentFrom.imageSent (s : State) (i : Image) : s.SentFrom (s.imageSent i) :=
  ⟨rfl, rfl, rfl, rfl, rfl, rfl, rfl, rfl, rfl, rfl, rfl, fun _ => rfl, fun _ _ => rfl⟩

theorem State.SentFrom.transmitEntry (s : State) (e : Entry) (i : Image) (d : Nat) (r : PosSet) :
    s.SentFrom (s.transmitEntry e i d r) := (State.RetiredFrom.updEntry s e.tag _).sent

theorem State.SentFrom.retire (s : State) : s.SentFrom s.retire := (State.RetiredFrom.retire s).sent

theorem State.SentFrom.checkSent (s : State) (t : CheckTarget) : s.SentFrom (s.checkSent t) := by
  refine ⟨rfl, rfl, rfl, rfl, rfl, rfl, rfl, rfl, rfl, rfl, rfl, fun _ => rfl, fun q k => ?_⟩
  rw [State.checkSent, State.updCirc_circAt]

theorem State.SentFrom.sendSet (s : State) (e : Entry) : s.SentFrom (s.sendSet e) :=
  .trans _ _ _ (.imageSent s _) (.trans _ _ _ (.beginTelegram _ _) (.trans _ _ _ (.transmitEntry _ _ _ _ _) (.retire _)))

theorem State.SentFrom.sendSlot (s : State) (i : Image) : s.SentFrom (s.sendSlot i) :=
  .trans _ _ _ (.imageSent s _) (.trans _ _ _ (.beginTelegram _ _)
    ⟨rfl, rfl, rfl, rfl, rfl, rfl, rfl, rfl, rfl, rfl, rfl, fun _ => rfl, fun _ _ => rfl⟩)

/-- Rewriting the probing fields of one position. -/
theorem State.SentFrom.updPos (s : State) (p : Pos) (f : Position → Position)
    (h : ∀ r, f r = { r with
      probeAttempts := (f r).probeAttempts, enumTimeout := (f r).enumTimeout, queryUntil := (f r).queryUntil }) :
    s.SentFrom (s.updPos p f) := by
  refine ⟨rfl, rfl, rfl, rfl, rfl, rfl, rfl, rfl, rfl, rfl, rfl, fun q => ?_, fun _ _ => rfl⟩
  rw [State.updPos_posAt]
  split
  · rw [h]
  · rfl

theorem State.SentFrom.sendLink (s : State) (r : LinkRequest) (rest : List LinkRequest) :
    s.SentFrom (s.sendLink r rest) := by
  have h : s.SentFrom (s.updChain fun ch => { ch with linkRequests := rest }) :=
    ⟨rfl, rfl, rfl, rfl, rfl, rfl, rfl, rfl, rfl, rfl, rfl, fun _ => rfl, fun _ _ => rfl⟩
  cases r with
  | enum p => exact .trans _ _ _ h (.trans _ _ _ (.updPos _ p _ fun _ => rfl) (.beginTelegram _ _))
  | query p => exact .trans _ _ _ h (.trans _ _ _ (.updPos _ p _ fun _ => rfl) (.beginTelegram _ _))

theorem State.SentFrom.sendCheck (s : State) (e : Entry) (t : CheckTarget) : s.SentFrom (s.sendCheck e t) :=
  .trans _ _ _ (.beginTelegram s _) (.trans _ _ _ (.transmitEntry _ _ _ _ _) (.trans _ _ _ (.checkSent _ t) (.retire _)))

theorem State.SentFrom.sendPoll (s : State) (e : Entry) : s.SentFrom (s.sendPoll e) :=
  .trans _ _ _ (.beginTelegram s _) (.trans _ _ _ (.transmitEntry _ _ _ _ _) (.retire _))

theorem State.SentFrom.sendLiveness (s : State) : s.SentFrom s.sendLiveness :=
  ⟨rfl, rfl, rfl, rfl, rfl, rfl, rfl, rfl, rfl, rfl, rfl, fun _ => rfl, fun _ _ => rfl⟩

theorem State.SentFrom.pickPoll (s : State) : s.SentFrom s.pickPoll := by
  unfold State.pickPoll
  split
  · exact .sendPoll _ _
  · split
    · exact .sendLiveness s
    · exact .refl s

theorem State.SentFrom.pickCheck (tags : List Nat) (s : State) : s.SentFrom (State.pickCheck tags s) := by
  induction tags generalizing s with
  | nil => exact .pickPoll s
  | cons tag tags ih =>
    unfold State.pickCheck
    split
    · split
      · split
        · exact .trans _ _ _ (State.RetiredFrom.completeEmpty s tag).sent (ih _)
        · split
          · exact .sendCheck _ _ _
          · exact ih s
      · exact ih s
    · exact ih s

/-- What the transmitter's pick can do (R39). -/
theorem State.SentFrom.transmit (s : State) : s.SentFrom s.transmit := by
  unfold State.transmit
  split
  · exact .refl s
  · split
    · exact .sendSet _ _
    · split
      · exact .sendSlot _ _
      · split
        · exact .sendLink _ _ _
        · exact .pickCheck _ _

/-- The transmitter makes no pick while the port sends or receives (R18). -/
theorem State.transmit_busy (s : State) (h : s.chain.line ≠ .free) : s.transmit = s := by
  simp [State.transmit, h]

/-- What a composition can do: it sets the telltale image and LAMP_ALERT, and may hand a frame. -/
theorem State.recompose_cases (s : State) : ∃ (last : Option Time) (mark : Bool) (list : List TxFrame),
    s.recompose = { s with
      image := { s.image with
        telltale := s.compose, lampAlert := s.compose.summary == .red, lastFrame := last, framePending := mark }
      port := { s.port with transmit := list } } := by
  unfold State.recompose
  dsimp only
  split
  · exact ⟨s.image.lastFrame, s.image.framePending, s.port.transmit, rfl⟩
  · split
    · unfold State.handTelltale State.updImage State.updPort
      dsimp only
      exact ⟨_, _, _, rfl⟩
    · exact ⟨s.image.lastFrame, true, s.port.transmit, rfl⟩

/-- What a composition changes: the telltale image, LAMP_ALERT, the frame schedule and the transmit list. -/
theorem State.recompose_frame (s : State) : s.recompose = { s with
    image := { s.image with
      telltale := s.compose, lampAlert := s.compose.summary == .red
      lastFrame := s.recompose.image.lastFrame, framePending := s.recompose.image.framePending }
    port := { s.port with transmit := s.recompose.port.transmit } } := by
  obtain ⟨last, mark, list, h⟩ := s.recompose_cases
  rw [h]

/-- A block that a composition leaves. -/
@[simp] theorem State.recompose_now (s : State) : s.recompose.now = s.now := by rw [State.recompose_frame]
@[simp] theorem State.recompose_tables (s : State) : s.recompose.tables = s.tables := by rw [State.recompose_frame]
@[simp] theorem State.recompose_chain (s : State) : s.recompose.chain = s.chain := by rw [State.recompose_frame]
@[simp] theorem State.recompose_queue (s : State) : s.recompose.queue = s.queue := by rw [State.recompose_frame]
@[simp] theorem State.recompose_circuits (s : State) : s.recompose.circuits = s.circuits := by rw [State.recompose_frame]
@[simp] theorem State.recompose_cache (s : State) : s.recompose.cache = s.cache := by rw [State.recompose_frame]
@[simp] theorem State.recompose_checks (s : State) : s.recompose.checks = s.checks := by rw [State.recompose_frame]
@[simp] theorem State.recompose_store (s : State) : s.recompose.store = s.store := by rw [State.recompose_frame]
@[simp] theorem State.recompose_arrivals (s : State) : s.recompose.arrivals = s.arrivals := by rw [State.recompose_frame]
@[simp] theorem State.recompose_pending (s : State) : s.recompose.pending = s.pending := by rw [State.recompose_frame]
@[simp] theorem State.recompose_posAt (s : State) (p : Pos) : s.recompose.posAt p = s.posAt p := by
  simp only [State.posAt, State.recompose_chain]
@[simp] theorem State.recompose_circAt (s : State) (p : Pos) (c : Circ) : s.recompose.circAt p c = s.circAt p c := by
  simp only [State.circAt, State.recompose_circuits]
@[simp] theorem State.recompose_settings (s : State) : s.recompose.settings = s.settings := by
  simp only [State.settings, State.recompose_tables]
@[simp] theorem State.recompose_telltale (s : State) : s.recompose.image.telltale = s.compose := by
  rw [State.recompose_frame]
@[simp] theorem State.recompose_lampAlert (s : State) : s.recompose.image.lampAlert = (s.compose.summary == .red) := by
  rw [State.recompose_frame]
@[simp] theorem State.recompose_retired (s : State) : s.recompose.image.retired = s.image.retired := by
  rw [State.recompose_frame]
@[simp] theorem State.recompose_untracked (s : State) : s.recompose.image.untracked = s.image.untracked := by
  rw [State.recompose_frame]
@[simp] theorem State.recompose_faults (s : State) : s.recompose.image.faults = s.image.faults := by
  rw [State.recompose_frame]
@[simp] theorem State.recompose_commandStale (s : State) : s.recompose.image.commandStale = s.image.commandStale := by
  rw [State.recompose_frame]

/-- The composition reads of the Image Builder only the retired image, the untracked flags, the stale bit, the overflow flag
and the fault list: states equal in the inputs of R143 compose alike. -/
theorem State.compose_congr (s u : State) (tables : u.tables = s.tables) (circuits : u.circuits = s.circuits)
    (positions : u.chain.positions = s.chain.positions) (retired : u.image.retired = s.image.retired)
    (untracked : u.image.untracked = s.image.untracked) (stale : u.image.commandStale = s.image.commandStale)
    (overflow : u.image.overflow = s.image.overflow) (faults : u.image.faults = s.image.faults) :
    u.compose = s.compose := by
  unfold State.compose State.summary ImageBuilder.activeFaults
  simp only [stale, overflow, faults]
  have hp : u.posAt = s.posAt := by funext p; simp only [State.posAt, positions]
  have hc : u.circAt = s.circAt := by funext p c; simp only [State.circAt, circuits]
  have hr : u.rowAt = s.rowAt := by funext p c; simp only [State.rowAt, tables]
  have hf : u.fnState = s.fnState := by
    funext f
    unfold State.fnState State.considered State.serving State.maps
    simp only [hp, hc, hr, tables, retired, untracked]
  have ha : ∀ a b, u.anyMapped a b = s.anyMapped a b := by
    intro a b
    simp only [State.anyMapped, hp, hc, hr]
  simp only [hf, hp, ha]

end Sys2Proof.Machine
end

