-- ==== Sys2Proof/Laws/Requests.lean ====
section
/-! SUPPORT. What a management request does once it is taken, and what turns one away. -/

namespace Sys2Proof.Machine

/-- A request taken is handled over the state with its bytes in the buffer, and its response handed last (R162). -/
theorem State.takeFrame_taken {s : State} {f : BusFrame} {d : List Byte} (h : Handler) (ht : s.Takes f d) :
    s.takeFrame f d h = (match h d (s.updPort fun po => { po with request := some d }) with
      | (s1, some r) => s1.handResponse .response (canId s.settings.responseId) (d.getD 0 0) r
      | (s1, none) => s1) := by
  obtain ⟨h1, h2, h3, h4, h5⟩ := ht
  exact (if_pos h1).trans ((if_neg h2).trans ((if_pos h3).trans (if_pos ⟨h4, h5⟩)))

/-- A response joins the end of the transmit list, and nothing else changes. -/
theorem State.handResponse_eq (s : State) (kind : TxKind) (i : CanId) (code : Byte) (r : Reply) (hk : kind ≠ .telltale) :
    s.handResponse kind i code r = s.updPort fun po => { po with transmit := po.transmit ++ [⟨kind, i, r.bytes code⟩] } := by
  simp [State.handResponse, handTo, hk]

/-- An answer that changes nothing else (R162, R163). -/
theorem State.takeFrame_answer {s : State} {f : BusFrame} {d : List Byte} {h : Handler} {r : Reply} (ht : s.Takes f d)
    (hr : h d (s.updPort fun po => { po with request := some d }) =
      (s.updPort fun po => { po with request := some d }, some r)) :
    s.takeFrame f d h = s.answered d ((r.bytes (d.getD 0 0)).tail) := by
  rw [State.takeFrame_taken h ht, hr]
  dsimp only
  rw [State.handResponse_eq _ _ _ _ _ (by decide)]
  simp [State.answered, State.responseTo, State.updPort, Reply.bytes]

/-- A request that takes a handled effect `u` and answers `r`: the response is the last frame of the transmit list. -/
theorem State.takeFrame_reply {s : State} {f : BusFrame} {d : List Byte} {h : Handler} {r : Reply} {u : State}
    (ht : s.Takes f d) (hr : h d (s.updPort fun po => { po with request := some d }) = (u, some r)) :
    s.takeFrame f d h = u.updPort fun po => { po with
      transmit := po.transmit ++ [s.responseTo d ((r.bytes (d.getD 0 0)).tail)] } := by
  rw [State.takeFrame_taken h ht, hr]
  dsimp only
  rw [State.handResponse_eq _ _ _ _ _ (by decide)]
  simp [State.responseTo, Reply.bytes]

/-- A number in a byte's range is one place of a table of `k`. -/
theorem indexOf_val {k : Nat} (i : Fin k) : indexOf k (i.val + 1) = some i := by
  have : i.val < k := i.isLt
  simp [indexOf, this]

/-- A number out of range is no place of a table. -/
theorem indexOf_none {k n : Nat} (h : n = 0 ∨ k < n) : indexOf k n = none := by
  unfold indexOf
  split
  · omega
  · rfl

/-- The eight bytes after the code of a request are its data, one place on. -/
@[simp] theorem byteAt_cons (b : Byte) (d : List Byte) (i : Nat) : byteAt (b :: d) (i + 1) = byteAt d i := by
  simp [byteAt]

end Sys2Proof.Machine
end

