-- ==== Sys2Proof/Tests/Slice0.lean ====
section
/-! SUPPORT. Tests: well-formedness, the manual's worked examples on one command each, and for every statement of
Obligations.lean that has hypotheses a state and operands that meet them, clause by clause at the bounds. -/

namespace Sys2Proof.Tests

open Sys2Proof Sys2Proof.Machine

-- One theorem at a time: each holds a thread while the kernel evaluates, and their stacks add up.
set_option Elab.async false

/-! ### Small states and frames -/

/-- Data bytes from numbers. -/
def bytes (l : List Nat) : List Byte := l.map (BitVec.ofNat 8)

/-- A management request's seven bytes after its code, on the default request identifier. -/
def req (l : List Nat) : BusFrame := ⟨.standardData, 0x3B0, bytes ((l ++ List.replicate 7 0).take 7)⟩

/-- A frame on the default command identifier. -/
def lamp (l : List Nat) : BusFrame := ⟨.standardData, 0x3A0, bytes l⟩

/-- A standard frame on an identifier of no one, and an extended one on the request identifier. -/
def stray : BusFrame := ⟨.standardData, 3, bytes [1, 2]⟩
def wide : BusFrame := ⟨.extended, 0x3B0, bytes [1, 2, 3, 4, 5, 6, 7]⟩

/-- An upstream telegram with its CRC. -/
def up (kind address tag : Nat) (payload : List Nat) : UpTelegram :=
  ⟨BitVec.ofNat 8 address, BitVec.ofNat 8 tag, BitVec.ofNat 8 payload.length,
    (telegramBytes kind address tag (bytes payload)).drop 4⟩

/-- The state an outcome answers. -/
def after : Host.Outcome State Fault Refusal → State
  | .next t => t
  | _ => State.reset

/-- Whether an outcome is a next state. -/
def goesOn : Host.Outcome State Fault Refusal → Bool
  | .next _ => true
  | _ => false

/-- The state a command leaves. -/
def doc (c : Instr) (s : State) : State := after (exec c s)

/-- The data of the last frame a command hands. -/
def handed (c : Instr) (s : State) : List Byte := (((doc c s).port.transmit.getLast?).map (·.data)).getD []

/-- A state with a profile and a row put in. -/
def withProfile (i : ProfileNo) (p : Profile) (s : State) : State := s.setProfile i p
def withRow (p : Pos) (c : Circ) (r : MapRow) (s : State) : State := s.setRow p c r

/-- The incandescent, LED and marker profiles of the three-unit rig (section 1.8). -/
def stopLamp : Profile := ⟨875, 240, 9, 3000, 40, 20, 70, 140, 60, 2, 4, true⟩
def indicator : Profile := ⟨180, 240, 2, 1500, 15, 20, 60, 160, 20, 2, 2, true⟩
def marker : Profile := ⟨120, 240, 0, 800, 10, 20, 50, 180, 10, 3, 0, true⟩

/-- Part of the rig: P1 C1 left indicator, P1 C3 side marker, P2 C1 stop, in SETUP. -/
def rig : State :=
  withRow 0 0 ⟨some 0, 2, true, true⟩ <| withRow 0 2 ⟨some 5, 3, false, false⟩ <|
  withRow 1 0 ⟨some 2, 1, true, true⟩ <|
  withProfile 1 stopLamp <| withProfile 2 indicator <| withProfile 3 marker <| State.reset

/-- The rig in RUN. -/
def run0 : State := { rig with tables := { rig.tables with mode := .run } }

/-- A module's record in a state. -/
def unit (st : PosState) (i : Identity) (n : Nat) : Position :=
  ⟨st, some i, some n, true, some 0, if st = .lost then some 0 else none, 1, false, false, false, false, 0,
    PosCounters.zero, none, none⟩

/-- A place with an ENUM attempt running until 20. -/
def probing (attempts : Nat) : Position :=
  { Position.absent PosCounters.zero with state := .probing, probeAttempts := attempts, enumTimeout := some 20 }

/-- A position's record put in, the time set, the line set, entries put in. -/
def put (p : Pos) (r : Position) (s : State) : State := s.updPos p fun _ => r
def at' (t : Time) (s : State) : State := { s with now := t }
def onLine (l : Line) (s : State) : State := s.updChain fun ch => { ch with line := l }
def withEntries (es : List Entry) (tag : Nat) (s : State) : State :=
  s.updQueue fun q => { q with entries := es, tagCounter := tag }

/-- Two ACTIVE positions and a PROBING third, in RUN. -/
def two : State :=
  put 0 (unit .active 0x0A310410 10) <| put 1 (unit .active 0x0B5C2207 12) <| put 2 (probing 1) run0

/-- The second position LOST since 0, its QUERY window open or not. -/
def lost (window : Option Time) : State :=
  put 0 (unit .active 0x0A310410 10) <| put 1 { unit .lost 0x0B5C2207 12 with queryUntil := window } run0

/-- An entry of P1 and P2 sent at 1 with a deadline of 89, of tag 70, kind CHANGE. -/
def sent70 (st : EntryState) (answered : PosSet) (answers : List Answer) : Entry :=
  ⟨70, .change, st, some 0x005, 0x004, none, some ⟨1, 60, 89, Vector.replicate 10 none, 0, false⟩, 3, answered, answers⟩

/-- WAITING entries. -/
def waitingSet (tag : Nat) : Entry := ⟨tag, .change, .waiting, some 0x004, 0x004, none, none, 0, 0, []⟩
def waitingPoll (tag : Nat) : Entry := ⟨tag, .poll, .waiting, none, 0, none, none, 0, 0, []⟩
def waitingCheck (tag : Nat) : Entry := ⟨tag, .check, .waiting, none, 0, some ⟨0, 0, 2⟩, none, 0, 0, []⟩

/-- The two units with the entry of tag 70 PENDING, P1 having answered. -/
def awaiting : State :=
  onLine .receiving <| withEntries [sent70 .pending 1 [⟨0, 240, true, []⟩]] 71 two

/-- A commit of the tables as they stand, begun at 0. -/
def committing (s : State) : State :=
  { s with store := { s.store with commit := some ⟨0, s.tables.tables⟩ } }

/-! ### Well-formedness: for each check a term it refuses -/

theorem test_wf_frame_too_long : (Instr.lampCommandFrame (lamp [0, 0, 0, 0, 0, 0, 0, 0, 0])).wf = false := by decide
theorem test_wf_unknown_too_long : (Instr.unknownRequest (lamp [9, 0, 0, 0, 0, 0, 0, 0, 0])).wf = false := by decide
theorem test_wf_unknown_is_known : (Instr.unknownRequest (lamp [0x28, 0, 0, 0, 0, 0, 0, 0])).wf = false := by decide
theorem test_wf_request_too_long :
    (∀ k ∈ [Instr.identify, .enterSetup, .enterRun, .writeMapRow, .readMapRow, .writeProfileA, .writeProfileB,
        .readProfileA, .readProfileB, .writeSetting, .readSetting, .commit, .restart, .restartChain, .readPosition,
        .readCircuit, .readFault, .clearHealed, .snapshotCounters, .readSnapshot, .fullCheck, .forgetBaselines,
        .forgetHistory],
      (k (lamp [0, 0, 0, 0, 0, 0, 0, 0])).wf = false ∧ (k (lamp [0, 0, 0, 0, 0, 0, 0])).wf = true) := by decide
theorem test_wf_report_too_long : (Instr.report ⟨1, 70, 3, bytes [0, 0, 0, 0, 0, 0]⟩ false).wf = false := by decide
theorem test_wf_ident_too_long : (Instr.ident ⟨1, 255, 0, bytes [0, 0, 0]⟩ false).wf = false := by decide
theorem test_wf_deadline_tag : (Instr.deadline 255).wf = false := by decide
theorem test_wf_bad_telegram_is_report :
    (Instr.badUpstreamTelegram (bytes [0x21, 1, 70, 0, 0, 0]) false).wf = false := by decide

/-! ### Operations, from the manual's tables -/

/-- Section 4.4, Arithmetic at the limits: e and r of its six lines. -/
theorem test_arithmetic_at_the_limits :
    [expected 420 252 252 9, expected 420 252 270 9, expected 2 400 80 16, expected 3000 200 300 16] =
      [420, 437, 1, 4095] ∧
    [ratio 420 420, ratio 0 437, ratio 419 420, ratio 1200 437, ratio 3 1, ratio 3000 4095] =
      [100, 0, 99, 255, 255, 73] ∧
    [compensation 420 252 270 9, compensation 2 400 80 16, compensation 918 259 240 9] = [17, -2, -38] := by
  decide +kernel

/-- Section 4.5, Verdict boundaries for the default profile. -/
theorem test_verdict_boundaries :
    let on (m r : Nat) := verdictOf .on Profile.default m r false
    verdictOf .on Profile.default 0 0 true = .short ∧ on 3000 100 = .short ∧ on 0 19 = .openCircuit ∧
    on 2 20 = .partialDraw ∧ on 2 69 = .partialDraw ∧ on 2 70 = .good ∧ on 2 140 = .good ∧ on 2999 141 = .overload ∧
    verdictOf .off Profile.default 40 0 true = .darkOk ∧ verdictOf .off Profile.default 41 0 false = .stuckOn ∧
    verdictOf .checked Profile.default 4095 19 true = .openCircuit ∧
    verdictOf .checked Profile.default 4095 20 true = .present := by decide

/-- Section 5.6: five readings of a stop lamp, the third PARTIAL. -/
theorem test_learning_a_stop_lamp :
    ([(930, 262, Verdict.good), (915, 258, .good), (500, 250, .partialDraw), (905, 255, .good), (921, 260, .good)].foldl
      (fun b r => Baseline.take r.1 r.2.1 r.2.2 false b) Baseline.none) = .learned 918 259 := by decide

/-- R175: the frame of all zeros is read from a part in RUN with nothing coupled. -/
theorem test_all_zero_frame : run0.compose.bytes = bytes [0, 0, 0, 0, 0, 0, 0, 0] := by decide +kernel

/-- The CRC-16 of R177 over the ASCII digits 1 to 9 is 0x29B1, the usual check value of that polynomial and preset. -/
theorem test_crc_check_value : crc16 (bytes [0x31, 0x32, 0x33, 0x34, 0x35, 0x36, 0x37, 0x38, 0x39]) = 0x29B1 := by
  decide +kernel

/-- Section 1.8, Masks for night running, on the part of the rig here: F6 on sets P1 C3 alone; its delay is 10 ms. -/
theorem test_masks_for_night_running :
    two.masks 0x020 = #v[0x004, 0, 0, 0, 0, 0] ∧ two.delayOver 0x020 = 10 ∧ two.delayOver 0x004 = 60 := by decide +kernel

/-! ### Commands -/

/-- R171: a hard reset of the part right after reset leaves it so. -/
theorem test_hard_reset_of_reset : doc .hardReset State.reset = State.reset := by decide +kernel

/-- R25, R26 and section 2.13: CONNECT high at 0; at 100 P1 is PROBING, its ENUM sent, the timeout at 120. -/
theorem test_connect_rise :
    let s := doc .connectDebouncedRise (at' 100 (doc (.connectChange true) run0))
    (s.posAt 0).state = .probing ∧ (s.posAt 0).probeAttempts = 1 ∧ (s.posAt 0).enumTimeout = some 120 ∧
      s.chain.line = .sending (.enum 0) := by decide +kernel

/-- R25: at 99 ms the level is not yet taken. -/
theorem test_connect_rise_early :
    let s := at' 99 (doc (.connectChange true) run0)
    doc .connectDebouncedRise s = s := by decide +kernel

/-- R25, R35: a fall of CONNECT makes every position ABSENT. -/
theorem test_connect_fall :
    let s := doc .connectDebouncedFall (at' 100 (two.updChain fun ch => { ch with connectDebounced := true }))
    s.chain.positions = Vector.replicate 6 (Position.absent PosCounters.zero) := by decide +kernel

/-- R57 and section 3.10: F1 and F3 on over F1 on is a CHANGE of tag 70 whose changed set is F3. -/
theorem test_lamp_command_allocates :
    let s := onLine .receiving <| withEntries [] 70 <| two.updPort fun po => { po with commanded := 0x001 }
    (doc (.lampCommandFrame (lamp [0x05, 0])) s).queue.entries =
      [⟨70, .change, .waiting, some 0x005, 0x004, none, none, 0, 0, []⟩] := by decide +kernel

/-- R41, R44, R45 and section 3.10: sent at 1, its delay is 60 ms and, with two positions, its deadline 1 + 60 + 20 + 8. -/
theorem test_lamp_command_sends :
    ((doc (.lampCommandFrame (lamp [0x04, 0])) (at' 1 two)).queue.entries.map fun e =>
      e.tx.map fun x => (x.time, x.delay, x.deadline)) = [some (1, 60, 89)] := by decide +kernel

/-- R163: a request of no known code is answered BAD_VALUE. -/
theorem test_unknown_request :
    handed (.unknownRequest ⟨.standardData, 0x3B0, bytes [9, 1, 2, 3, 4, 5, 6, 7]⟩) run0 =
      bytes [9, 4, 0, 0, 0, 0, 0, 0] := by decide +kernel

/-- R165, R176: vendor code 0x2E61, part code 0x0640, and in SETUP with an invalid store the flags byte 2. -/
theorem test_identify :
    (handed (.identify (req [])) State.reset).take 6 = bytes [1, 0, 0x61, 0x2E, 0x40, 0x06] ∧
    (handed (.identify (req [])) State.reset).drop 7 = bytes [2] := by decide +kernel

/-- R166: SETUP entry shows every function UNVERIFIED. -/
theorem test_enter_setup :
    handed (.enterSetup (req [])) run0 = bytes [2, 0, 0, 0, 0, 0, 0, 0] ∧
    (doc (.enterSetup (req [])) run0).image.telltale.functions = Vector.replicate 10 .unverified := by decide +kernel

/-- R16 and section 1.8: profile 2 with n 240 and Il 300 fails check 3. -/
theorem test_enter_run_inconsistent :
    handed (.enterRun (req [])) (withProfile 2 { indicator with nominalCurrent := 240, leakCurrent := 300 } rig) =
      bytes [3, 6, 2, 3, 0, 0, 0, 0] := by decide +kernel

/-- R17: RUN entry allocates a RESYNC and clears the marks. -/
theorem test_enter_run :
    let s := doc (.enterRun (req [])) (onLine .receiving rig)
    s.tables.mode = .run ∧ s.queue.entries.map (·.kind) = [.resync] ∧ s.tables.profileTouched = Vector.replicate 8 false := by
  decide +kernel

/-- R5 and section 1.8: P1 C1 to F1 under profile 2 with both options, no count known. -/
theorem test_write_map_row :
    handed (.writeMapRow (req [1, 1, 1, 2, 3])) State.reset = bytes [0x10, 0, 1, 2, 7, 2, 0, 0] := by decide +kernel
theorem test_read_map_row : handed (.readMapRow (req [2, 1])) two = bytes [0x11, 0, 3, 1, 7, 0, 0, 0] := by decide +kernel

/-- Clamping examples: half A of profile 5 with n 4 and Il 600 holds n 10 and Il 500; half A of profile 8 is BAD_INDEX. -/
theorem test_write_profile_a :
    let fields := leBytes 6 (4 + 2 ^ 12 * 240 + 2 ^ 21 * 9 + 2 ^ 26 * 3000 + 2 ^ 38 * 600)
    let s := doc (.writeProfileA (req (5 :: fields.map (·.toNat)))) State.reset
    s.tables.tables.profiles[5].nominalCurrent = 10 ∧ s.tables.tables.profiles[5].leakCurrent = 500 ∧
    (handed (.writeProfileA (req (5 :: fields.map (·.toNat)))) State.reset).take 2 = bytes [0x12, 1] ∧
    handed (.writeProfileA (req [8])) State.reset = bytes [0x12, 3, 0, 0, 0, 0, 0, 0] := by decide +kernel

/-- Clamping examples: half B of profile 0 with K 0 and check pulse 25 holds K 1 and check pulse 20. -/
theorem test_write_profile_b :
    let fields := leBytes 6 (20 + 2 ^ 8 * 70 + 2 ^ 16 * 140 + 2 ^ 25 * 60 + 2 ^ 37 * 25 + 2 ^ 42)
    let s := doc (.writeProfileB (req (0 :: fields.map (·.toNat)))) State.reset
    s.tables.tables.profiles[0] = { Profile.default with confirmCount := 1, checkPulse := 20 } := by decide +kernel

/-- R176: the default profile's halves as one number each. -/
theorem test_read_profile_a :
    handed (.readProfileA (req [0])) State.reset =
      bytes [0x14, 0] ++ leBytes 6 (500 + 2 ^ 12 * 240 + 2 ^ 21 * 9 + 2 ^ 26 * 3000 + 2 ^ 38 * 40) := by decide +kernel
theorem test_read_profile_b :
    handed (.readProfileB (req [0])) State.reset =
      bytes [0x15, 0] ++ leBytes 6 (20 + 2 ^ 8 * 70 + 2 ^ 16 * 140 + 2 ^ 25 * 60 + 2 ^ 34 * 2 + 2 ^ 42) := by
  decide +kernel

/-- R9: setting 1 at 50 is clamped to 100; an identifier another setting holds is BAD_VALUE. -/
theorem test_write_setting :
    handed (.writeSetting (req [1, 50, 0])) State.reset = bytes [0x16, 1, 100, 0, 0, 0, 0, 0] ∧
    handed (.writeSetting (req [11, 0xA8, 3])) State.reset = bytes [0x16, 4, 0, 0, 0, 0, 0, 0] := by decide +kernel
theorem test_read_setting : handed (.readSetting (req [14])) State.reset = bytes [0x17, 0, 0xB8, 3, 0, 0, 0, 0] := by
  decide +kernel

/-- R169 and section 9.8: COMMIT empties the buffer at once and hands no response; a second one is BUSY. -/
theorem test_commit :
    (doc (.commit (req [])) State.reset).port = State.reset.port ∧
    handed (.commit (req [])) (doc (.commit (req [])) State.reset) = bytes [4, 5, 0, 0, 0, 0, 0, 0] := by decide +kernel
/-- R169, R170: a commit may complete 1 ms after it began, and not in the millisecond it began in. -/
theorem test_commit_complete :
    let s := doc (.commit (req [])) rig
    (doc .commitComplete (at' (s.now + 1) s)).store = ⟨rig.tables.tables, true, false, none⟩ ∧
    doc .commitComplete s = s := by decide +kernel

/-- R172, R173: P1 is probed again when debounced CONNECT is high. -/
theorem test_restart :
    let s := doc (.restart (req [])) (two.updChain fun ch => { ch with connectDebounced := true })
    s.chain.positions.map (·.state) = #v[.probing, .absent, .absent, .absent, .absent, .absent] ∧
      s.chain.line = .sending (.enum 0) := by decide +kernel
theorem test_restart_chain :
    let s := doc (.restartChain (req [])) two
    s.chain.positions = Vector.replicate 6 (Position.absent PosCounters.zero) ∧ s.tables = two.tables := by decide +kernel

/-- R176: ACTIVE with the downstream-load flag, the identity low byte first, the count. -/
theorem test_read_position :
    handed (.readPosition (req [1, 1])) two = bytes [0x20, 0, 0xC2, 0x10, 0x04, 0x31, 0x0A, 10] := by decide +kernel
theorem test_read_circuit :
    handed (.readCircuit (req [3, 12, 4])) two = bytes [0x21, 3, 0, 0, 0, 0, 0, 0] ∧
    handed (.readCircuit (req [1, 1, 1])) two = bytes [0x21, 0, 0, 0, 0, 0, 0xFF, 0] := by decide +kernel

/-- R158, R176: an entry of F-list part 1, healed; past the list BAD_INDEX. -/
theorem test_read_fault :
    let s := two.updImage fun ib => { ib with faults := [⟨0x0102, ⟨2, some 2, .openCircuit⟩, 60, 3, false⟩] }
    handed (.readFault (req [0, 1])) s = bytes [0x22, 0, 2, 1, 3, 3, 0x81, 3] ∧
    handed (.readFault (req [1, 1])) s = bytes [0x22, 3, 0, 0, 0, 0, 0, 0] := by decide +kernel
theorem test_clear_healed :
    let s := two.updImage fun ib =>
      { ib with
        faults := [⟨0, ⟨2, some 2, .openCircuit⟩, 60, 3, false⟩, ⟨1, ⟨0, none, .feedLoss⟩, 60, 1, true⟩]
        overflow := true }
    handed (.clearHealed (req [])) s = bytes [0x23, 0, 1, 0, 0, 0, 0, 0] ∧
    (doc (.clearHealed (req [])) s).image.overflow = false := by decide +kernel

/-- R52: the counters of one position move into the snapshot, those of the chain stay. -/
theorem test_snapshot_counters :
    let s := (put 1 { unit .active 7 12 with counters := ⟨5, 6, 7⟩ } two).updCounters fun k => { k with badTelegrams := 9 }
    let t := doc (.snapshotCounters (req [2])) s
    t.chain.snapshot.positions[1] = ⟨5, 6, 7⟩ ∧ (t.posAt 1).counters = PosCounters.zero ∧
      t.chain.counters.badTelegrams = 9 := by decide +kernel
theorem test_read_snapshot :
    let s := two.updChain fun ch => { ch with snapshot := { ch.snapshot with chain := ⟨1, 2, 0x304, 5, 6, 7⟩ } }
    handed (.readSnapshot (req [7])) s = bytes [0x25, 0, 1, 0, 2, 0, 4, 3] ∧
    handed (.readSnapshot (req [9])) s = bytes [0x25, 3, 0, 0, 0, 0, 0, 0] := by decide +kernel

/-- R125: of the part of the rig here, P1 C1 and P2 C1 meet tests 1 to 5. -/
theorem test_full_check : handed (.fullCheck (req [])) two = bytes [0x26, 0, 2, 0, 0, 0, 0, 0] := by decide +kernel
theorem test_forget_baselines :
    let s := (two.updCirc 0 0 fun k => { k with baseline := .learned 180 240 }).updCirc 1 0 fun k =>
      { k with baseline := .learned 918 259 }
    let t := doc (.forgetBaselines (req [1])) s
    (t.circAt 0 0).baseline = .none ∧ (t.circAt 1 0).baseline = .learned 918 259 := by decide +kernel
theorem test_forget_history :
    (doc (.forgetHistory (req [])) { two with cache := [⟨7, Vector.replicate 12 none⟩] }).cache = [] := by decide +kernel

/-- R11: a written request identifier applies from the response's carrying on. -/
theorem test_frame_carried :
    let s := doc (.writeSetting (req [13, 0x21, 0])) (State.reset.updPort fun po => { po with transmit := [] })
    s.port.requestId = 0x3B0 ∧ (doc .frameCarried s).port.requestId = 0x021 ∧ (doc .frameCarried s).port.request = none := by
  decide +kernel

/-- R150, R151, R149, R142: each at its time. -/
theorem test_telltale_spacing :
    let s := run0.updImage fun ib => { ib with framePending := true }
    (doc .telltaleSpacingExpiry (at' 50 s)).image.lastFrame = some 50 ∧
      doc .telltaleSpacingExpiry (at' 49 s) = at' 49 s := by decide +kernel
theorem test_telltale_period :
    (doc .telltalePeriodExpiry (at' 500 run0)).image.lastFrame = some 500 := by decide +kernel
theorem test_command_silence :
    (doc .commandSilenceExpiry (at' 1000 run0)).image.telltale.commandStale = true := by decide +kernel
theorem test_operating_second :
    (doc .operatingSecond (at' 1000 run0)).image.opSeconds = 1 := by decide +kernel

/-- R60 and section 3.10: at 250 a POLL is allocated and sent, its deadline 250 + 20 + 8. -/
theorem test_poll_due :
    let s := doc .pollDue (at' 250 two)
    s.chain.line = .sending (.poll 0) ∧ (s.queue.entries.map fun e => e.tx.map (·.deadline)).head? = some (some 278) := by
  decide +kernel

/-- R60, R10: a POLL taken 10 ms late keeps the schedule. R117: in the order of the positions, P1 and P2 each get a CHECK. -/
theorem test_poll_due_schedule_and_checks :
    let s := doc .pollDue (at' 260 (onLine .receiving two))
    s.queue.lastPoll = 250 ∧ s.queue.entries.map (·.kind) = [.poll, .check, .check] ∧ s.checks.lastServed = some 1 := by
  decide +kernel

/-- R18: an answer that begins on an idle line makes the port receive, and a lamp command in it waits. -/
theorem test_answer_begins_on_idle_line :
    let s := after (step { two with arrivals := [true, false] })
    s.now = 1 ∧ s.chain.line = .receiving ∧ s.arrivals = [false] ∧
      (doc (.lampCommandFrame (lamp [4, 0])) s).chain.line = .receiving := by decide +kernel

/-- R122: the CHECK of P1 C1 goes with a 2 ms pulse. -/
theorem test_check_budget_ready :
    let s := doc .checkBudgetReady (at' 50 (withEntries [waitingCheck 70] 71 two))
    s.chain.line = .sending (.check 70 0 0 2) ∧ s.checks.times[0] = [50] := by decide +kernel

/-- R39: with a SET waiting, the pending ENUM waits. -/
theorem test_downstream_done :
    let s := onLine (.sending (.poll 255)) <| withEntries [waitingSet 70] 71 <|
      two.updChain fun ch => { ch with linkRequests := [.enum 3] }
    (doc (.downstreamTelegramDone false) s).chain.linkRequests = [.enum 3] ∧
      (doc (.downstreamTelegramDone false) s).chain.transmitted = 0x004 := by decide +kernel

/-- R46, R66: the second answer completes tag 70, which retires and becomes the retired image. -/
theorem test_report :
    let s := doc (.report (up 0x21 2 70 [0x02, 240, 0]) false) (at' 69 awaiting)
    s.queue.entries = [] ∧ s.image.retired = 0x005 ∧ (s.posAt 1).lastHeard = some 69 := by decide +kernel

/-- R50, R93, R128 and section 4.9: a POLL's reading of 288 mA at 268 confirms PARTIAL over a baseline of 420 and 252. -/
theorem test_report_confirms_partial :
    let e : Entry := ⟨70, .poll, .pending, some 0x008, 0, none, some ⟨100, 0, 128, Vector.replicate 10 none, 0, false⟩,
      2, 0, []⟩
    let s := withEntries [e] 71 <| (withRow 1 6 ⟨some 3, 0, false, false⟩ two).updCirc 1 6 fun k =>
      { k with baseline := .learned 420 252, condition := .sound, candidate := some .partialDraw, agreement := 1 }
    let t := doc (.report (up 0x21 2 70 [0x02, 12, 1, 7, 32, 1]) false) (at' 104 s)
    (t.circAt 1 6).condition = .degraded ∧
      (t.circAt 1 6).last = some ⟨288, 268, 435, 66, .partialDraw, true, false, .poll⟩ := by decide +kernel

/-- Section 2.13: the IDENT of trailer A at 103 makes P1 ACTIVE and P2 PROBING. -/
theorem test_ident :
    let s := doc (.ident (up 0x22 1 255 [0x10, 0x04, 0x31, 0x0A, 10, 0x02]) true) (at' 103 (put 0 (probing 1) run0))
    (s.posAt 0).identity = some 0x0A310410 ∧ (s.posAt 0).state = .active ∧ (s.posAt 1).state = .probing ∧
      s.queue.entries.map (·.kind) = [.resync] := by decide +kernel

/-- R29 and section 2.13: the third attempt's timeout leaves P3 PASSIVE. -/
theorem test_enum_timeout :
    ((doc (.enumTimeout 2) (at' 171 (put 2 { probing 3 with enumTimeout := some 171 } two))).posAt 2).state = .passive := by
  decide +kernel
theorem test_query_window_end :
    ((doc (.queryWindowEnd 1) (at' 20 (lost (some 20)))).posAt 1).queryUntil = none := by decide +kernel

/-- Section 2.13: LOST when the last hearing lies 300 ms in the past, ABSENT 5 s later. -/
theorem test_loss_interval :
    ((doc (.lossIntervalExpiry 1) (at' 300 two)).posAt 1).lostSince = some 300 := by decide +kernel
theorem test_absence_interval :
    let s := put 0 { unit .active 7 10 with downstreamLoad := false } (lost none)
    ((doc (.absenceIntervalExpiry 1) (at' 5000 s)).posAt 1).state = .absent := by decide +kernel
/-- R32, R36, R48 (the model's reading, log entry 24): after the absence expiry P2 is probed again, and its late IDENT
identifies it; with no load behind P1 it stays ABSENT, and the IDENT is discarded. -/
theorem test_late_ident_after_absence :
    let late := fun s => doc (.ident (up 0x22 2 255 [0x07, 0x22, 0x5C, 0x0B, 12, 0]) true)
      (doc (.absenceIntervalExpiry 1) (at' 5000 s))
    ((late (lost (some 5010))).posAt 1).state = .active ∧
      ((late (put 0 { unit .active 7 10 with downstreamLoad := false } (lost (some 5010)))).posAt 1).state = .absent := by
  decide +kernel

/-- R67: the deadline counts one missed answer and one link error at P2, and tag 70 retires. -/
theorem test_deadline :
    let s := doc (.deadline 70) (at' 89 awaiting)
    (s.posAt 1).counters.missedAnswers = 1 ∧ (s.posAt 1).linkErrors = 1 ∧ s.image.retired = 0x005 := by decide +kernel

/-- R49, R50, R138: a missed answer that takes P2's count from 12 to 13 sets LINK_DEGRADED and adds its fault. -/
theorem test_deadline_degrades :
    let s := doc (.deadline 70) (at' 89 (put 1 { unit .active 0x0B5C2207 12 with linkErrors := 12 } awaiting))
    (s.posAt 1).linkDegraded = true ∧ s.image.faults.map (·.key) = [⟨1, none, .linkDegraded⟩] := by decide +kernel

/-- R33, R146: at a warm return with a count of 1 the SHORTED circuit 2 of an UNUSED row is UNKNOWN, and its fault healed. -/
theorem test_warm_return_unfits_unused_row :
    let s := ((lost (some 20)).updCirc 1 1 fun k => { k with condition := .shorted }).updImage fun ib =>
      { ib with faults := [⟨0, ⟨1, some 1, .short⟩, 0, 1, true⟩] }
    let t := doc (.ident (up 0x22 2 255 [0x07, 0x22, 0x5C, 0x0B, 1, 0]) true) s
    (s.rowAt 1 1).function = none ∧ (t.circAt 1 1).condition = .unknown ∧ t.image.faults.map (·.active) = [false] := by
  decide +kernel

/-- R49: a count of 6 is half the threshold of 12, so LINK_DEGRADED clears; 7 keeps it. -/
theorem test_link_interval :
    let s (n : Nat) := at' 10000 (put 1 { unit .active 7 12 with linkDegraded := true, linkErrors := n } two)
    ((doc .linkErrorIntervalEnd (s 6)).posAt 1).linkDegraded = false ∧
    ((doc .linkErrorIntervalEnd (s 7)).posAt 1).linkDegraded = true := by decide +kernel

/-- R178: a telegram of a downstream kind is bad under test 3. -/
theorem test_bad_telegram :
    (doc (.badUpstreamTelegram (telegramBytes 0x12 1 70 []) false) two).chain.counters.badTelegrams = 1 := by decide +kernel

/-! ### Witnesses: for each statement with hypotheses, states and operands that meet them, at the bounds -/

theorem witness_step_takes_front :
    ({ two with pending := [.pollDue, .hardReset] } : State).pending = .pollDue :: [.hardReset] := by decide +kernel

theorem witness_empty_queue :
    two.pending = [] ∧ two.dueCommands = [] ∧ ({ two with arrivals := [true] } : State).dueCommands = [] ∧
    two.chain.line = .free ∧ ({ two with arrivals := [true] } : State).arrivals.head? = some true ∧
    (∃ rest, (at' 1000 two).dueCommands = .operatingSecond :: rest) ∧ (at' 1000 two).pending = [] := by
  refine ⟨by decide +kernel, by decide +kernel, by decide +kernel, by decide +kernel, by decide +kernel, ⟨(at' 1000 two).dueCommands.tail, by decide +kernel⟩, by decide +kernel⟩

/-- A state in the middle of things: two units, tag 70 PENDING with one answer, a fault listed, a cache entry. -/
def busy : State :=
  let s := { awaiting with cache := [⟨7, Vector.replicate 12 none⟩] }
  let s := s.updImage fun ib => { ib with faults := [⟨0, ⟨1, some 0, .short⟩, 3, 255, true⟩], sequence := 1 }
  let s := s.updCirc 1 0 fun k => { k with condition := .shorted }
  let s := put 0 { unit .active 0x0A310410 10 with counters := ⟨65535, 65535, 65535⟩, linkErrors := 65535 } s
  let s := s.updChecks fun k => { k with times := upd k.times 0 fun _ => [0, 1, 2, 3] }
  s.updImage fun ib => { ib with telltale := s.compose, lampAlert := s.compose.summary == .red }

theorem witness_chain_stays_sound : busy.ChainSound ∧ goesOn (step busy) = true := by
  refine ⟨⟨?_, ?_, ?_, ?_, ?_, ?_, ?_⟩, ?_⟩ <;> decide +kernel

theorem witness_other_invariants :
    busy.CountersInRange ∧ busy.QueueBounded ∧ busy.TagsInOrder ∧ busy.SetupQuiet ∧ busy.TablesSound ∧
    busy.CacheSound ∧ busy.FaultListSound ∧ busy.ImageCurrent ∧ busy.ChecksBounded ∧ busy.TransmitSound ∧
    rig.SetupQuiet ∧ rig.tables.mode = .setup ∧ goesOn (step rig) = true := by
  refine ⟨?_, ?_, ?_, ?_, ?_, ?_, ?_, ?_, ?_, ?_, ?_, ?_, ?_⟩ <;> decide +kernel

theorem witness_tables_change_only_in_setup :
    goesOn (exec .pollDue (at' 250 two)) = true ∧ (at' 250 two).tables.mode = .run ∧ Instr.pollDue ≠ .hardReset := by
  decide +kernel

theorem witness_commanded_image_changes :
    goesOn (exec .hardReset two) = true ∧
    (doc (.lampCommandFrame (lamp [4, 0])) two).port.commanded ≠ two.port.commanded ∧
    (doc (.restart (req [])) (two.updPort fun po => { po with commanded := 5 })).port.commanded ≠ 5 := by decide +kernel

theorem witness_telltale_frames_spaced :
    let s := at' 50 (run0.updImage fun ib => { ib with framePending := true })
    s.TablesSound ∧ goesOn (exec .telltaleSpacingExpiry s) = true ∧ Instr.telltaleSpacingExpiry ≠ .hardReset ∧
    (doc .telltaleSpacingExpiry s).image.lastFrame ≠ s.image.lastFrame ∧
    (let bare := s.updPort fun po => { po with transmit := [] }
     let telltales (s : State) := s.port.transmit.filter (·.kind == .telltale)
     bare.TablesSound ∧ ¬(telltales (doc .telltaleSpacingExpiry bare)).Sublist (telltales bare)) := by
  refine ⟨?_, ?_, ?_, ?_, ?_, ?_⟩ <;> decide +kernel

/-- A CHECK of P1 C1 waiting at 50, the window of 50 ms just over, three of P1's times within it and one outside. -/
def budgeted : State :=
  at' 50 <| withEntries [waitingCheck 70] 71 <| two.updChecks fun k => { k with times := upd k.times 0 fun _ => [0, 1, 2, 3] }

theorem witness_check_budget_kept :
    goesOn (exec .checkBudgetReady budgeted) = true ∧
    (doc .checkBudgetReady budgeted).checks.times[(0 : Pos)] ≠ budgeted.checks.times[(0 : Pos)] ∧
    (∀ c ∈ [Instr.hardReset, .restart (req []), .restartChain (req [])],
      (doc c budgeted).checks.times[(0 : Pos)] ≠ budgeted.checks.times[(0 : Pos)]) ∧
    frameOf (.restart (req [])) = some (req [], 0x05 :: (req []).data) ∧
    budgeted.Takes (req []) (0x05 :: (req []).data) ∧ budgeted.Takes (req []) (0x06 :: (req []).data) ∧
    (doc .checkBudgetReady budgeted).chain.line = .sending (.check 70 0 0 2) ∧ budgeted.chain.line = .free := by
  decide +kernel

theorem witness_commit :
    rig.Takes (req []) (0x04 :: (req []).data) ∧ rig.store.commit = none ∧
    (committing rig).Takes (req []) (0x04 :: (req []).data) ∧ (committing rig).store.commit ≠ none ∧
    (committing rig).store.commit = some ⟨0, rig.tables.tables⟩ ∧ (committing rig).now ≤ 0 ∧
    0 < (at' 1 (committing rig)).now := by decide +kernel

theorem witness_frames_taken_by_form :
    let full := run0.updPort fun po => { po with request := some [] }
    frameOf (.identify wide) = some (wide, 0x01 :: wide.data) ∧ wide.format ≠ .standardData ∧
    stray.ident ≠ run0.port.commandId ∧ stray.ident ≠ run0.port.requestId ∧
    frameOf (.lampCommandFrame (lamp [1])) = some (lamp [1], (lamp [1]).data) ∧
    (lamp [1]).format = .standardData ∧ (lamp [1]).ident = run0.port.commandId ∧ (lamp [1]).data.length ≠ 2 ∧
    (lamp [1, 2, 3]).data.length ≠ 2 ∧
    (req []).format = .standardData ∧ (req []).ident ≠ run0.port.commandId ∧ (req []).ident = run0.port.requestId ∧
    ((0x01 : Byte) :: (req []).data).length = 8 ∧ full.port.request ≠ none ∧
    frameOf (.identify ⟨.standardData, 0x3B0, []⟩) = some (⟨.standardData, 0x3B0, []⟩, [0x01]) := by decide +kernel

theorem witness_lamp_frame_taken :
    let f := lamp [4, 0]
    let b := onLine .receiving two
    let slot := b.updQueue fun q => { q with slot := some 1 }
    let fullQ := withEntries ((List.range 16).map fun i => waitingSet (70 + i)) 86 b
    f.format = .standardData ∧ f.ident = two.port.commandId ∧ f.data.length = 2 ∧
    (4 : Image) = BitVec.ofNat 10 (byteAt f.data 0 + 256 * byteAt f.data 1) ∧
    (two.updPort fun po => { po with commanded := 4 }).port.commanded = 4 ∧
    (4 : Image) ≠ two.port.commanded ∧ b.chain.line ≠ .free ∧ b.tables.mode = .run ∧
    (withEntries ((List.range 15).map fun i => waitingSet (70 + i)) 85 b).queue.entries.length < 16 ∧
    b.queue.slot = none ∧ (onLine .receiving rig).tables.mode = .setup ∧ 16 ≤ fullQ.queue.entries.length ∧
    slot.queue.slot ≠ none ∧
    two.chain.line = .free ∧ two.queue.firstSet = none := by decide +kernel

theorem witness_lamp_frame_on_free_line :
    let polls := withEntries ((List.range 16).map fun i => waitingPoll (70 + i)) 86 two
    let slot := two.updQueue fun q => { q with slot := some 1 }
    ((4 : Image) ≠ two.port.commanded ∧ two.chain.line = .free ∧ two.queue.firstSet = none ∧ two.TagsInOrder ∧
      two.tables.mode = .run ∧ two.queue.entries.length < 16 ∧ two.queue.slot = none) ∧
    (rig.chain.line = .free ∧ rig.queue.firstSet = none ∧ rig.tables.mode = .setup ∧ (4 : Image) ≠ rig.port.commanded) ∧
    (polls.chain.line = .free ∧ polls.queue.firstSet = none ∧ 16 ≤ polls.queue.entries.length) ∧
    slot.queue.slot ≠ none ∧ slot.queue.firstSet = none := by
  refine ⟨⟨?_, ?_, ?_, ?_, ?_, ?_, ?_⟩, ?_, ?_, ?_, ?_⟩ <;> decide +kernel

theorem witness_frame_carried :
    let fr (k : TxKind) : TxFrame := ⟨k, 1, []⟩
    let s (k : TxKind) := two.updPort fun po => { po with transmit := [fr k] }
    (two.updPort fun po => { po with transmit := [] }).port.transmit = [] ∧
    (s .telltale).port.transmit = fr .telltale :: [] ∧ (fr .telltale).kind ≠ .response ∧
    (fr .commitResponse).kind ≠ .response ∧ (s .response).port.transmit = fr .response :: [] ∧
    (fr .response).kind = .response := by decide +kernel

theorem witness_identify_and_unknown :
    two.Takes (req []) (0x01 :: (req []).data) ∧
    two.Takes ⟨.standardData, 0x3B0, bytes [9, 0, 0, 0, 0, 0, 0, 0]⟩ (bytes [9, 0, 0, 0, 0, 0, 0, 0]) := by
  decide +kernel

theorem witness_tables_read :
    (two.Takes (req [6, 12]) (0x11 :: (req [6, 12]).data) ∧ byteAt (req [6, 12]).data 0 = (5 : Pos).val + 1 ∧
      byteAt (req [6, 12]).data 1 = (11 : Circ).val + 1 ∧ byteAt (req [1, 1]).data 0 = (0 : Pos).val + 1 ∧
      byteAt (req [0, 1]).data 0 = 0 ∧ 6 < byteAt (req [7, 1]).data 0 ∧ byteAt (req [1, 0]).data 1 = 0 ∧
      12 < byteAt (req [1, 13]).data 1) ∧
    (two.Takes (req [14]) (0x17 :: (req [14]).data) ∧ 1 ≤ byteAt (req [1]).data 0 ∧ byteAt (req [14]).data 0 ≤ 14 ∧
      14 < byteAt (req [15]).data 0 ∧ byteAt (req [0]).data 0 = 0) ∧
    (byteAt (req [7]).data 0 = (7 : ProfileNo).val ∧ two.tables.tables.profiles[(7 : ProfileNo)].inRange = true ∧
      two.Takes (req [7]) (0x14 :: (req [7]).data) ∧ two.Takes (req [7]) (0x15 :: (req [7]).data)) ∧
    (7 < byteAt (req [8]).data 0 ∧ two.Takes (req [8]) (0x14 :: (req [8]).data) ∧
      two.Takes (req [8]) (0x15 :: (req [8]).data)) := by decide +kernel

theorem witness_position_parts :
    two.Takes (req [1, 1]) (0x20 :: (req [1, 1]).data) ∧ byteAt (req [1, 1]).data 0 = (0 : Pos).val + 1 ∧
    byteAt (req [6, 1]).data 0 = (5 : Pos).val + 1 ∧ byteAt (req [1, 1]).data 1 = 1 ∧ byteAt (req [1, 2]).data 1 = 2 ∧
    byteAt (req [1, 3]).data 1 = 3 ∧ byteAt (req [1, 0]).data 1 = 0 ∧ 3 < byteAt (req [1, 4]).data 1 ∧
    byteAt (req [0, 1]).data 0 = 0 ∧ 6 < byteAt (req [7, 1]).data 0 := by decide +kernel

theorem witness_circuit_parts :
    two.Takes (req [6, 12, 1]) (0x21 :: (req [6, 12, 1]).data) ∧ byteAt (req [6, 12, 1]).data 0 = (5 : Pos).val + 1 ∧
    byteAt (req [6, 12, 1]).data 1 = (11 : Circ).val + 1 ∧ byteAt (req [6, 12, 1]).data 2 = 1 ∧
    byteAt (req [1, 1, 2]).data 2 = 2 ∧ byteAt (req [1, 1, 3]).data 2 = 3 ∧ byteAt (req [1, 1, 0]).data 2 = 0 ∧
    3 < byteAt (req [1, 1, 4]).data 2 ∧ byteAt (req [0, 1]).data 0 = 0 ∧ 6 < byteAt (req [7, 1]).data 0 ∧
    byteAt (req [1, 0]).data 1 = 0 ∧ 12 < byteAt (req [1, 13]).data 1 := by decide +kernel

theorem witness_fault_and_snapshot :
    busy.Takes (req [0, 1]) (0x22 :: (req [0, 1]).data) ∧ byteAt (req [0, 1]).data 0 < busy.image.faults.length ∧
    byteAt (req [0, 1]).data 1 = 1 ∧ byteAt (req [0, 2]).data 1 = 2 ∧ byteAt (req [0, 0]).data 1 = 0 ∧
    2 < byteAt (req [0, 3]).data 1 ∧ busy.image.faults.length ≤ byteAt (req [1, 1]).data 0 ∧
    busy.Takes (req [8]) (0x25 :: (req [8]).data) ∧ byteAt (req [6]).data 0 = (5 : Pos).val + 1 ∧
    byteAt (req [7]).data 0 = 7 ∧ byteAt (req [8]).data 0 = 8 ∧ byteAt (req [0]).data 0 = 0 ∧
    8 < byteAt (req [9]).data 0 := by decide +kernel

theorem witness_write_map_row :
    two.Takes (req [6, 12, 10, 7, 3]) (0x10 :: (req [6, 12, 10, 7, 3]).data) ∧ two.tables.mode = .run ∧
    rig.Takes (req [6, 12, 10, 7, 3]) (0x10 :: (req [6, 12, 10, 7, 3]).data) ∧ rig.tables.mode = .setup ∧
    rig.store.commit = none ∧ (committing rig).tables.mode = .setup ∧ (committing rig).store.commit ≠ none ∧
    byteAt (req [0, 1]).data 0 = 0 ∧ 6 < byteAt (req [7, 1]).data 0 ∧ byteAt (req [1, 0]).data 1 = 0 ∧
    12 < byteAt (req [1, 13]).data 1 ∧ byteAt (req [6, 12, 10, 7]).data 0 = (5 : Pos).val + 1 ∧
    byteAt (req [6, 12, 10, 7]).data 1 = (11 : Circ).val + 1 ∧ 10 < byteAt (req [6, 12, 11, 7]).data 2 ∧
    7 < byteAt (req [6, 12, 10, 8]).data 3 ∧ (9 : Fn).val + 1 = byteAt (req [6, 12, 10, 7]).data 2 ∧
    0 = byteAt (req [6, 12, 0, 0]).data 2 ∧ (7 : ProfileNo).val = byteAt (req [6, 12, 10, 7]).data 3 := by decide +kernel

theorem witness_write_profile :
    byteAt (req [7]).data 0 = (7 : ProfileNo).val ∧ byteAt (req [0]).data 0 = (0 : ProfileNo).val ∧
    rig.Takes (req [7]) (0x12 :: (req [7]).data) ∧ rig.Takes (req [7]) (0x13 :: (req [7]).data) ∧
    rig.tables.mode = .setup ∧ rig.store.commit = none ∧ two.Takes (req [7]) (0x12 :: (req [7]).data) ∧
    two.Takes (req [7]) (0x13 :: (req [7]).data) ∧ two.tables.mode = .run ∧
    (committing rig).Takes (req [7]) (0x12 :: (req [7]).data) ∧
    (committing rig).Takes (req [7]) (0x13 :: (req [7]).data) ∧ (committing rig).store.commit ≠ none ∧
    7 < byteAt (req [8]).data 0 ∧ rig.Takes (req [8]) (0x12 :: (req [8]).data) ∧
    rig.Takes (req [8]) (0x13 :: (req [8]).data) ∧
    (∀ s ∈ [two, committing rig], s.Takes (req [8]) (0x12 :: (req [8]).data) ∧
      s.Takes (req [8]) (0x13 :: (req [8]).data)) := by decide +kernel

theorem witness_write_setting :
    two.Takes (req [1, 100, 0]) (0x16 :: (req [1, 100, 0]).data) ∧ two.tables.mode = .run ∧
    rig.Takes (req [14, 0xA8, 3]) (0x16 :: (req [14, 0xA8, 3]).data) ∧ rig.tables.mode = .setup ∧
    rig.store.commit = none ∧ (committing rig).store.commit ≠ none ∧ byteAt (req [0]).data 0 = 0 ∧
    14 < byteAt (req [15]).data 0 ∧
    (11 ≤ byteAt (req [14, 0xA8, 3]).data 0 ∧ byteAt (req [14, 0xA8, 3]).data 0 ≤ 14 ∧ rig.settings.read 12 = 0x3A8 ∧
      byteAt (req [14, 0xA8, 3]).data 1 + 256 * byteAt (req [14, 0xA8, 3]).data 2 = 0x3A8) ∧
    (1 ≤ byteAt (req [1, 100, 0]).data 0 ∧ ¬11 ≤ byteAt (req [10, 100, 0]).data 0) ∧
    (byteAt (req [14, 0xFF, 0xFF]).data 0 = 14 ∧ ∀ j ∈ [11, 12, 13], rig.settings.read j ≠ 2047) := by decide +kernel

theorem witness_shortened_interval :
    let s := at' 200 (put 0 (unit .active 7 12) rig)
    let away := at' 1000 (put 0 (unit .lost 7 12) rig)
    rig.Takes (req [1, 200, 0]) (0x16 :: (req [1, 200, 0]).data) ∧ s.tables.mode = .setup ∧ s.store.commit = none ∧
    byteAt (req [1, 200, 0]).data 1 + 256 * byteAt (req [1, 200, 0]).data 2 = 200 ∧
    s.Takes (req [2, 200, 0]) (0x16 :: (req [2, 200, 0]).data) ∧ s.queue.lastPoll + 200 ≤ s.now ∧
    (s.posAt 0).state = .active ∧ (s.posAt 0).lastHeard = some 0 ∧ 0 + 200 ≤ s.now ∧
    s.port.lastCommand + 200 ≤ s.now ∧ s.image.lastFrame = some 0 ∧ byteAt (req [1]).data 0 = 1 ∧
    byteAt (req [2]).data 0 = 2 ∧ byteAt (req [9]).data 0 = 9 ∧ byteAt (req [10]).data 0 = 10 ∧
    away.Takes (req [3, 1, 0]) (0x16 :: (req [3, 1, 0]).data) ∧ byteAt (req [3, 1, 0]).data 0 = 3 ∧
    byteAt (req [3, 1, 0]).data 1 + 256 * byteAt (req [3, 1, 0]).data 2 = 1 ∧ away.tables.mode = .setup ∧
    away.store.commit = none ∧ (away.posAt 0).state = .lost ∧ (away.posAt 0).lostSince = some 0 ∧
    0 + 1 * 1000 ≤ away.now := by decide +kernel

theorem witness_enter_setup :
    let b := onLine .receiving (two.updPort fun po => { po with commanded := 4 })
    two.Takes (req []) (0x02 :: (req []).data) ∧ (committing two).Takes (req []) (0x02 :: (req []).data) ∧
    (committing two).store.commit ≠ none ∧ rig.Takes (req []) (0x02 :: (req []).data) ∧ rig.store.commit = none ∧
    rig.tables.mode = .setup ∧ two.store.commit = none ∧ two.tables.mode = .run ∧
    b.Takes (req []) (0x02 :: (req []).data) ∧ b.tables.mode = .run ∧ b.chain.line ≠ .free ∧ b.queue.slot = none ∧
    b.port.commanded ≠ b.chain.transmitted ∧ two.port.commanded = two.chain.transmitted ∧
    (b.updQueue fun q => { q with slot := some 0 }).queue.slot ≠ none ∧
    (onLine .free b).chain.line = .free ∧ (two.chain.line = .free ∧ two.queue.slot = none ∧ two.chain.linkRequests = [] ∧
      two.chain.livenessPoll = false) ∧
    (two.updChain fun ch => { ch with linkRequests := [.query 1] }).chain.linkRequests = .query 1 :: [] := by decide +kernel

theorem witness_enter_run :
    let bad (p : Profile) : State := withProfile 7 p rig
    let coupled : State := onLine .receiving <| put 0 (unit .active 7 12) <| rig.updCirc 0 0 fun k =>
      { k with condition := .shorted }
    let listed : State := coupled.updImage fun ib => { ib with faults := [⟨0, ⟨0, some 0, .short⟩, 0, 1, true⟩] }
    rig.Takes (req []) (0x03 :: (req []).data) ∧ rig.store.commit = none ∧ rig.tables.mode = .setup ∧
    (committing rig).store.commit ≠ none ∧ two.tables.mode = .run ∧ two.Takes (req []) (0x03 :: (req []).data) ∧
    (let p := { stopLamp with openLimit := 50, partialLimit := 50 }
     (∀ j : ProfileNo, j < 7 → ((bad p).tables.tables.profiles[j]).Consistent) ∧
       (bad p).tables.tables.profiles[(7 : ProfileNo)] = p ∧ p.partialLimit ≤ p.openLimit) ∧
    (let p := { stopLamp with shortCurrent := 875 }
     (bad p).tables.tables.profiles[(7 : ProfileNo)] = p ∧ p.openLimit < p.partialLimit ∧
       p.shortCurrent ≤ p.nominalCurrent) ∧
    (let p := { stopLamp with leakCurrent := 875 }
     (bad p).tables.tables.profiles[(7 : ProfileNo)] = p ∧ p.openLimit < p.partialLimit ∧
       p.nominalCurrent < p.shortCurrent ∧ p.nominalCurrent ≤ p.leakCurrent) ∧
    listed.Takes (req []) (0x03 :: (req []).data) ∧ listed.tables.mode = .setup ∧ listed.store.commit = none ∧
    (∀ i : ProfileNo, (listed.tables.tables.profiles[i]).Consistent) ∧ listed.queue.entries = [] ∧ listed.FaultsStand ∧
    listed.chain.line ≠ .free ∧ listed.queue.slot = none ∧
    (listed.updQueue fun q => { q with slot := some 0 }).queue.slot ≠ none ∧
    (rig.chain.line = .free ∧ rig.queue.entries = [] ∧ rig.FaultsStand ∧ rig.activeSet = 0 ∧
      ∀ i : ProfileNo, (rig.tables.tables.profiles[i]).Consistent) ∧
    (onLine .free listed).chain.line = .free ∧ (onLine .free listed).activeSet ≠ 0 := by decide +kernel

theorem witness_restart :
    let high := two.updChain fun ch => { ch with connectDebounced := true }
    two.Takes (req []) (0x05 :: (req []).data) ∧ (committing two).store.commit ≠ none ∧ two.store.commit = none ∧
    two.chain.connectDebounced = false ∧ (5 : Pos) ≠ 0 ∧ high.Takes (req []) (0x05 :: (req []).data) ∧
    high.chain.connectDebounced = true ∧ high.chain.line = .free ∧ (onLine .receiving high).chain.line ≠ .free := by
  decide +kernel

theorem witness_restart_frame :
    let s (t : Time) := at' t run0
    let again := (doc (.restart (req [])) (s 50)).updPort fun po => { po with request := none }
    (doc (.restart (req [])) again).image.telltale = again.image.telltale ∧
    again.Takes (req []) (0x05 :: (req []).data) ∧ again.store.commit = none ∧
    (∀ t ∈ [49, 50], (doc (.restart (req [])) (s t)).image.telltale ≠ (s t).image.telltale) ∧
    (∀ l ∈ (s 50).image.lastFrame, l + 50 ≤ (s 50).now) ∧ (∃ l ∈ (s 49).image.lastFrame, ¬l + 50 ≤ (s 49).now) ∧
    (s 50).port.transmit.any (·.kind == .telltale) = true ∧
    ((s 50).updPort fun po => { po with transmit := [] }).port.transmit.any (·.kind == .telltale) = false := by
  refine ⟨?_, ?_, ?_, ?_, ?_, ⟨0, ?_, ?_⟩, ?_, ?_⟩ <;> decide +kernel

theorem witness_restart_chain :
    busy.Takes (req []) (0x06 :: (req []).data) ∧ busy.ChainSound ∧ busy.chain.connectDebounced = false ∧
    (busy.updChain fun ch => { ch with connectDebounced := true }).ChainSound ∧ busy.chain.line ≠ .free ∧
    (busy.updImage fun ib => { ib with overflow := true }).FaultListSound := by
  refine ⟨?_, ⟨?_, ?_, ?_, ?_, ?_, ?_, ?_⟩, ?_, ⟨?_, ?_, ?_, ?_, ?_, ?_, ?_⟩, ?_, ?_⟩ <;> decide +kernel

theorem witness_restart_chain_on_free_line :
    let high := two.updChain fun ch => { ch with connectDebounced := true }
    let live := { two with tables := { two.tables with mode := .setup }, chain := { two.chain with livenessPoll := true } }
    (high.ChainSound ∧ high.Takes (req []) (0x06 :: (req []).data) ∧ high.chain.line = .free ∧ high.queue.slot = none ∧
      high.chain.connectDebounced = true ∧ (high.updQueue fun q => { q with slot := some 4 }).queue.slot = some 4) ∧
    (two.chain.line = .free ∧ two.chain.connectDebounced = false ∧ two.chain.livenessPoll = false) ∧
    (live.ChainSound ∧ live.tables.mode = .setup ∧ live.chain.livenessPoll = true ∧ live.chain.line = .free) := by
  refine ⟨⟨⟨?_, ?_, ?_, ?_, ?_, ?_, ?_⟩, ?_, ?_⟩, ?_, ⟨?_, ?_, ?_, ?_, ?_, ?_, ?_⟩, ?_⟩ <;> decide +kernel

theorem witness_snapshot :
    two.Takes (req [6]) (0x24 :: (req [6]).data) ∧ 6 < byteAt (req [7]).data 0 ∧ byteAt (req [6]).data 0 ≤ 6 ∧
    byteAt (req [6]).data 0 = (5 : Pos).val + 1 ∧ byteAt (req [0]).data 0 = 0 := by decide +kernel

theorem witness_full_check :
    two.Takes (req []) (0x26 :: (req []).data) ∧ two.tables.mode = .run ∧ rig.tables.mode = .setup ∧
    rig.Takes (req []) (0x26 :: (req []).data) ∧ two.MeetsCheckTests 0 0 ∧ ¬two.MeetsCheckTests 0 2 := by decide +kernel

theorem witness_forget_and_clear :
    two.Takes (req [6]) (0x27 :: (req [6]).data) ∧ 6 < byteAt (req [7]).data 0 ∧ byteAt (req [6]).data 0 ≤ 6 ∧
    byteAt (req [0]).data 0 = 0 ∧ two.Takes (req []) (0x28 :: (req []).data) ∧
    two.Takes (req []) (0x23 :: (req []).data) := by decide +kernel

theorem witness_image_timers :
    let s := run0.updImage fun ib => { ib with framePending := true }
    s.image.framePending = true ∧ (∀ l ∈ (at' 50 s).image.lastFrame, l + 50 ≤ (at' 50 s).now) ∧
    (∃ l ∈ (at' 49 s).image.lastFrame, (at' 49 s).now < l + 50) ∧ run0.image.framePending = false ∧
    (at' 500 run0).image.lastFrame = some 0 ∧ 0 + run0.settings.telltalePeriod ≤ (at' 500 run0).now ∧
    (run0.updImage fun ib => { ib with lastFrame := none }).image.lastFrame = none ∧
    (at' 1000 run0).image.commandStale = false ∧
    run0.port.lastCommand + run0.settings.commandSilence ≤ (at' 1000 run0).now ∧
    (at' 999 run0).now < run0.port.lastCommand + run0.settings.commandSilence ∧
    (run0.updImage fun ib => { ib with commandStale := true }).image.commandStale = true ∧
    run0.image.secondDue ≤ (at' 1000 run0).now ∧ (at' 999 run0).now < run0.image.secondDue := by
  refine ⟨?_, ?_, ⟨0, ?_, ?_⟩, ?_, ?_, ?_, ?_, ?_, ?_, ?_, ?_, ?_, ?_⟩ <;> decide +kernel

theorem witness_connect :
    let up := at' 100 (run0.updChain fun ch => { ch with connectRaw := true })
    let down := at' 100 (busy.updChain fun ch => { ch with connectDebounced := true })
    (up.chain.connectRaw = true ∧ up.chain.connectDebounced = false ∧ up.chain.connectSince + 100 ≤ up.now ∧
      (up.posAt 0).state = .absent ∧ up.chain.line = .free ∧ up.queue.firstSet = none ∧ up.queue.slot = none ∧
      up.chain.linkRequests = [] ∧ (onLine .receiving up).chain.line ≠ .free) ∧
    (down.chain.connectRaw = false ∧ down.chain.connectDebounced = true ∧ down.chain.connectSince + 100 ≤ down.now) ∧
    down.ChainSound ∧
    ((at' 99 up).now < up.chain.connectSince + 100 ∧ run0.chain.connectRaw = false ∧ down.chain.connectDebounced = true ∧
      up.chain.connectRaw = true ∧ run0.chain.connectDebounced = false) := by
  refine ⟨?_, ?_, ⟨?_, ?_, ?_, ?_, ?_, ?_, ?_⟩, ?_⟩ <;> decide +kernel

theorem witness_telegram_done :
    let s := onLine (.sending (.poll 255)) two
    let set := withEntries [waitingCheck 70, waitingSet 71] 72 s
    let slot := s.updQueue fun q => { q with slot := some 4 }
    let asks (r : LinkRequest) := s.updChain fun ch => { ch with linkRequests := [r] }
    let poll := withEntries [waitingPoll 70] 71 s
    let live := { s with tables := { s.tables with mode := .setup }, chain := { s.chain with livenessPoll := true } }
    s.chain.line = .sending (.poll 255) ∧ set.chain.line = .sending (.poll 255) ∧
    set.queue.firstSet = some (waitingSet 71) ∧ (waitingSet 71).image = some 4 ∧
    (slot.queue.firstSet = none ∧ slot.queue.slot = some 4) ∧
    ((asks (.enum 3)).queue.firstSet = none ∧ (asks (.enum 3)).queue.slot = none ∧
      (asks (.enum 3)).chain.linkRequests = [.enum 3] ∧ (asks (.query 5)).chain.linkRequests = [.query 5]) ∧
    (poll.queue.firstSet = none ∧ poll.chain.linkRequests = [] ∧ poll.queue.firstOf .check = none ∧
      poll.queue.firstOf .poll = some (waitingPoll 70)) ∧
    (s.queue.firstOf .check = none ∧ s.queue.firstOf .poll = none) ∧
    live.tables.mode = .setup ∧ live.chain.livenessPoll = true ∧
    (set.TagsInOrder ∧ set.queue.entries = [waitingCheck 70] ++ waitingSet 71 :: [] ∧
      (waitingSet 71).state = .waiting ∧ (waitingSet 71).isSet = true) ∧
    (poll.TagsInOrder ∧ poll.queue.entries = [] ++ waitingPoll 70 :: [] ∧ (waitingPoll 70).kind = .poll) ∧
    two.chain.line = .free ∧ awaiting.chain.line = .receiving ∧ (two.posAt 1).state = .active ∧
    (two.posAt 2).state ≠ .active := by
  refine ⟨?_, ?_, ?_, ?_, ?_, ?_, ?_, ?_, ?_, ?_, ⟨?_, ?_, ?_, ?_⟩, ⟨?_, ?_, ?_⟩, ?_, ?_, ?_, ?_⟩ <;> decide +kernel

/-- Three CHECKs waiting at 50 as the port sends: of the lit P1 C3, of P2 C1 whose budget is spent, and of P1 C1. -/
def searched (es : List Entry) (tag : Nat) : State :=
  let s := at' 50 <| onLine (.sending (.poll 255)) <| withEntries
    ([{ waitingCheck 70 with target := some ⟨0, 2, 2⟩ }, { waitingCheck 71 with target := some ⟨1, 0, 4⟩ }] ++ es) tag two
  (s.updChecks fun k => { k with times := upd k.times 1 fun _ => [10, 20, 30, 40] }).updChain fun ch =>
    { ch with transmitted := 0x020 }

theorem witness_telegram_done_check :
    let s := searched [waitingCheck 72] 73
    let p := searched [waitingPoll 72] 73
    (s.chain.line = .sending (.poll 255) ∧ s.queue.firstSet = none ∧ s.queue.slot = none ∧ s.chain.linkRequests = []) ∧
    s.TagsInOrder ∧ s.queue.entries = s.queue.entries.take 2 ++ waitingCheck 72 :: [] ∧
    (waitingCheck 72).target = some ⟨0, 0, 2⟩ ∧ (s.rowAt 0 0).onIn s.chain.transmitted = false ∧ s.BudgetOpen 0 ∧
    (∀ y ∈ s.queue.entries.take 2, y.state = .waiting → y.kind = .check → s.SearchPasses y) ∧
    (s.rowAt 0 2).onIn s.chain.transmitted = true ∧ (s.rowAt 1 0).onIn s.chain.transmitted = false ∧
    p.TagsInOrder ∧ (∀ y ∈ p.queue.entries, y.state = .waiting → y.kind = .check → p.SearchPasses y) ∧
    (∀ y ∈ p.queue.entries.take 2, ¬(y.state = .waiting ∧ y.kind = .poll)) ∧
    (searched [] 72).queue.firstOf .poll = none := by
  refine ⟨?_, ?_, ?_, ?_, ?_, ?_, ?_, ?_, ?_, ?_, ?_, ?_, ?_⟩ <;> decide +kernel

theorem witness_check_budget_ready :
    budgeted.TagsInOrder ∧ budgeted.chain.line = .free ∧ budgeted.queue.firstSet = none ∧ budgeted.queue.slot = none ∧
    budgeted.chain.linkRequests = [] ∧ budgeted.queue.firstOf .check = some (waitingCheck 70) ∧
    (waitingCheck 70).target = some ⟨0, 0, 2⟩ ∧ (budgeted.rowAt 0 0).onIn budgeted.chain.transmitted = false ∧
    budgeted.checks.budgetStart + budgeted.settings.checkWindow ≤ budgeted.now ∧
    budgeted.checks.times[(0 : Pos)].countP (fun x => decide (budgeted.now < x + budgeted.settings.checkWindow)) < 4 ∧
    awaiting.chain.line ≠ .free ∧ two.queue.firstOf .check = none := by
  refine ⟨?_, ?_, ?_, ?_, ?_, ?_, ?_, ?_, ?_, ?_, ?_, ?_⟩ <;> decide +kernel

/-- On a free line: the lit P1 C3's CHECK and P2 C1's, held back, before one that may go, a POLL, or nothing. -/
theorem witness_check_budget_search :
    let free (es : List Entry) (tag : Nat) := onLine .free (searched es tag)
    let s := free [waitingCheck 72] 73
    let held := withEntries [{ waitingCheck 71 with target := some ⟨1, 0, 4⟩ }] 72 (free [] 72)
    (s.TagsInOrder ∧ s.chain.line = .free ∧ s.queue.firstSet = none ∧ s.queue.slot = none ∧ s.chain.linkRequests = []) ∧
    (s.queue.entries = s.queue.entries.take 2 ++ waitingCheck 72 :: [] ∧ (s.rowAt 0 0).onIn s.chain.transmitted = false ∧
      s.BudgetOpen 0 ∧ ∀ y ∈ s.queue.entries.take 2, y.state = .waiting → y.kind = .check → s.SearchPasses y) ∧
    ((free [waitingPoll 72] 73).TagsInOrder ∧
      (∀ y ∈ (free [waitingPoll 72] 73).queue.entries, y.state = .waiting → y.kind = .check →
        (free [waitingPoll 72] 73).SearchPasses y) ∧
      (s.rowAt 0 2).onIn s.chain.transmitted = true ∧ (free [] 72).queue.firstOf .poll = none ∧ (free [] 72).TagsInOrder) ∧
    held.chain.line = .free ∧ held.queue.firstOf .check ≠ none ∧
      ∀ y ∈ held.queue.entries, y.state = .waiting → y.kind = .check → held.HeldBack y := by
  refine ⟨⟨?_, ?_, ?_, ?_, ?_⟩, ⟨?_, ?_, ?_, ?_⟩, ⟨?_, ?_, ?_, ?_, ?_⟩, ?_, ?_, ?_⟩ <;> decide +kernel

theorem witness_poll_due :
    let b := at' 250 (onLine .receiving two)
    let polls (n : Nat) := withEntries ((List.range n).map fun i => waitingPoll (70 + i)) (70 + n) b
    let mixed := withEntries ((List.range 15).map fun i => if i < 11 then waitingPoll (70 + i) else waitingSet (70 + i)) 85 b
    let fullQ := withEntries ((List.range 16).map fun i => waitingSet (70 + i)) 86 b
    let quiet := at' 250 rig
    (at' 249 two).now < two.queue.lastPoll + two.settings.pollPeriod ∧ b.queue.lastPoll + b.settings.pollPeriod ≤ b.now ∧
    b.tables.mode = .run ∧ b.chain.line ≠ .free ∧ mixed.queue.entries.length < 16 ∧
    mixed.queue.entries.countP Entry.isPollCheck < 12 ∧ 12 ≤ (polls 12).queue.entries.countP Entry.isPollCheck ∧
    16 ≤ fullQ.queue.entries.length ∧ quiet.tables.mode = .setup ∧ quiet.chain.line = .free ∧
    quiet.queue.entries = [] ∧ quiet.queue.slot = none ∧ quiet.chain.linkRequests = [] ∧
    (onLine .receiving quiet).chain.line ≠ .free := by decide +kernel

theorem witness_poll_due_on_free_line :
    let s := at' 250 two
    s.queue.lastPoll + s.settings.pollPeriod ≤ s.now ∧ s.tables.mode = .run ∧ s.chain.line = .free ∧ s.TagsInOrder ∧
    (∀ e ∈ s.queue.entries, e.state ≠ .waiting) ∧ s.queue.slot = none ∧ s.chain.linkRequests = [] ∧
    (∀ e ∈ s.queue.entries.head?, e.state.final = false) ∧ (s.posAt 0).state = .active ∧
    s.MayCheck 0 0 ∧ s.MayCheck 1 0 ∧ ¬s.MayCheck 0 2 ∧ s.queue.entries.countP (·.checksAt 0 none) < 2 ∧
    s.checks.lastServed = none ∧
    (s.updChecks fun k => { k with lastServed := some 0 }).checks.lastServed = some 0 := by
  refine ⟨?_, ?_, ?_, ?_, ?_, ?_, ?_, ?_, ?_, ?_, ?_, ?_, ?_, ?_, ?_⟩ <;> decide +kernel

theorem witness_poll_skipped_on_free_line :
    let s := at' 250 <| withEntries ((List.range 12).map fun i => { waitingPoll (70 + i) with state := .pending }) 82 two
    s.queue.lastPoll + s.settings.pollPeriod ≤ s.now ∧ s.tables.mode = .run ∧ s.chain.line = .free ∧
    (∀ e ∈ s.queue.entries, e.state ≠ .waiting) ∧ s.queue.slot = none ∧ s.chain.linkRequests = [] ∧
    12 ≤ s.queue.entries.countP Entry.isPollCheck := by decide +kernel

/-- A POLL due at 250 on a free line with the CHECK of P2 C1 held back, its four times in the window; twelve such; and no position
ACTIVE, the queue empty or not. -/
theorem witness_poll_due_past_held_checks :
    let c (n : Nat) : Entry := { waitingCheck n with target := some ⟨1, 0, 4⟩ }
    let spent := (at' 250 two).updChecks fun k => { k with times := upd k.times 1 fun _ => [230, 231, 232, 233] }
    let s := withEntries [c 70] 71 spent
    let full := withEntries ((List.range 12).map fun i => c (70 + i)) 82 spent
    let bare := at' 250 run0
    (s.queue.lastPoll + s.settings.pollPeriod ≤ s.now ∧ s.tables.mode = .run ∧ s.chain.line = .free ∧ s.TagsInOrder ∧
      s.queue.firstSet = none ∧ s.queue.firstOf .poll = none ∧ s.queue.slot = none ∧ s.chain.linkRequests = []) ∧
    (∀ y ∈ s.queue.entries, y.state = .waiting → y.kind = .check → s.HeldBack y ∧ s.SearchPasses y) ∧
    (∀ e ∈ s.queue.entries.head?, e.state.final = false) ∧
    (full.TagsInOrder ∧ full.queue.firstSet = none ∧ full.queue.firstOf .poll = none ∧
      12 ≤ full.queue.entries.countP Entry.isPollCheck ∧
      ∀ y ∈ full.queue.entries, y.state = .waiting → y.kind = .check → full.HeldBack y) ∧
    (bare.queue.entries = [] ∧ bare.tables.mode = .run ∧ bare.chain.line = .free ∧ bare.TagsInOrder ∧
      ∀ p : Pos, (bare.posAt p).state ≠ .active) := by
  refine ⟨⟨?_, ?_, ?_, ?_, ?_, ?_, ?_, ?_⟩, ?_, ?_, ⟨?_, ?_, ?_, ?_, ?_⟩, ⟨?_, ?_, ?_, ?_, ?_⟩⟩ <;> decide +kernel

/-- A REPORT of P2 with its flag set before an ABSENT P3, and with its flag clear before a PROBING one. -/
theorem witness_report_and_next_position :
    let gone := put 2 (Position.absent PosCounters.zero) two
    parseReport (up 0x21 2 70 [2, 240, 0]) = some ⟨1, 70, false, true, 0, 240, []⟩ ∧
    parseReport (up 0x21 2 70 [0, 240, 0]) = some ⟨1, 70, false, false, 0, 240, []⟩ ∧
    gone.ChainSound ∧ gone.ProbeBegins 1 true 2 ∧ two.ProbeEnds 1 false 2 ∧ two.ChainSound ∧ two.lineHeld true = true := by
  refine ⟨?_, ?_, ⟨?_, ?_, ?_, ?_, ?_, ?_, ?_⟩, ?_, ?_, ⟨?_, ?_, ?_, ?_, ?_, ?_, ?_⟩, ?_⟩ <;> decide +kernel

theorem witness_report_taken :
    let t := up 0x21 2 70 [0xF3, 240, 0]
    let gone := up 0x21 3 70 [0x02, 240, 0]
    (parseReport t = some ⟨1, 70, true, true, 15, 240, []⟩ ∧ (awaiting.posAt 1).state = .active ∧
      (awaiting.posAt 1).state.onChain = true) ∧
    ((lost none).posAt 1).state = .lost ∧ ((lost none).posAt 1).queryUntil = none ∧ (lost none).lineHeld true = true ∧
    (parseReport gone = some ⟨2, 70, false, true, 0, 240, []⟩ ∧ (awaiting.posAt 2).state.onChain = false) ∧
    awaiting.ChainSound ∧
    (parseReport (up 0x21 1 70 [2, 240, 0]) = some ⟨0, 70, false, true, 0, 240, []⟩ ∧
      ∀ e ∈ awaiting.queue.entries, e.tag = 70 →
        ¬(hasPos e.required 0 = true ∧ hasPos e.answered 0 = false ∧ e.state ≠ .expired)) ∧
    sent70 .pending 0 [] ∈ (withEntries [sent70 .pending 0 []] 71 awaiting).queue.entries ∧
    (hasPos (sent70 .pending 0 []).required 1 = true ∧ hasPos (sent70 .pending 0 []).answered 1 = false ∧
      addPos (sent70 .pending 0 []).answered 1 ≠ (sent70 .pending 0 []).required) ∧
    (withEntries [sent70 .pending 0 []] 71 awaiting).ChainSound := by
  refine ⟨?_, ?_, ?_, ?_, ?_, ⟨?_, ?_, ?_, ?_, ?_, ?_, ?_⟩, ?_, ?_, ?_, ⟨?_, ?_, ?_, ?_, ?_, ?_, ?_⟩⟩ <;> decide +kernel

/-- A second entry, of tag 70, PENDING behind a PENDING one of tag 69. -/
def second : State :=
  onLine .receiving <| withEntries [{ sent70 .pending 0 [] with tag := 69 }, sent70 .pending 1 [⟨0, 240, true, []⟩]] 71 two

theorem witness_report_completes :
    let e := sent70 .pending 1 [⟨0, 240, true, []⟩]
    (parseReport (up 0x21 2 70 [2, 240, 0]) = some ⟨1, 70, false, true, 0, 240, []⟩ ∧ second.ChainSound) ∧
    (second.queue.entries = { sent70 .pending 0 [] with tag := 69 } :: [e] ∧
      ({ sent70 .pending 0 [] with tag := 69 } : Entry).state = .pending ∧ e ∈ second.queue.entries) ∧
    (hasPos e.required 1 = true ∧ hasPos e.answered 1 = false ∧ e.state = .pending ∧ addPos e.answered 1 = e.required) ∧
    (awaiting.queue.entries = e :: [] ∧ awaiting.lineHeld true = true) ∧
    (∀ e ∈ (lost none).queue.entries, e.tag ≠ 70) ∧ (lost none).ChainSound ∧
    two.DegradedBy 1 13 ∧ ¬two.DegradedBy 1 12 := by
  refine ⟨⟨?_, ⟨?_, ?_, ?_, ?_, ?_, ?_, ?_⟩⟩, ⟨?_, ?_, ?_⟩, ⟨?_, ?_, ?_, ?_⟩, ⟨?_, ?_⟩, ?_,
    ⟨?_, ?_, ?_, ?_, ?_, ?_, ?_⟩, ?_, ?_⟩ <;> decide +kernel

theorem witness_ident_identifies :
    let t := up 0x22 3 255 [1, 0, 0, 0, 12, 2]
    let clash := up 0x22 3 255 [0x10, 0x04, 0x31, 0x0A, 1, 0]
    parseIdent t = some ⟨2, 1, 12, true, 0⟩ ∧ parseIdent clash = some ⟨2, 0x0A310410, 1, false, 0⟩ ∧
    two.ChainSound ∧ (two.posAt 2).state = .probing ∧ two.lineHeld true = true ∧ two.HeldByAnother 2 0x0A310410 ∧
    ¬two.HeldByAnother 2 1 ∧ (3 : Pos).val = (2 : Pos).val + 1 ∧
    (two.tables.mode = .run ∧ two.queue.entries.length < 16 ∧ two.queue.slot = none) ∧
    (two.updQueue fun q => { q with slot := some 0 }).queue.slot ≠ none := by
  refine ⟨?_, ?_, ⟨?_, ?_, ?_, ?_, ?_, ?_, ?_⟩, ?_, ?_, ?_, ?_, ?_, ?_, ?_⟩ <;> decide +kernel

theorem witness_ident_discarded :
    parseIdent (up 0x22 1 255 [1, 0, 0, 0, 12, 0]) = some ⟨0, 1, 12, false, 0⟩ ∧ (two.posAt 0).state = .active ∧
    parseIdent (up 0x22 2 255 [1, 0, 0, 0, 12, 0xF2]) = some ⟨1, 1, 12, true, 15⟩ ∧ (two.posAt 1).state = .active ∧
    parseIdent (up 0x22 4 255 [1, 0, 0, 0, 12, 2]) = some ⟨3, 1, 12, true, 0⟩ ∧ (two.posAt 3).state = .absent ∧
    two.ChainSound ∧ two.lineHeld true = true ∧ two.DegradedBy 1 15 := by
  refine ⟨?_, ?_, ?_, ?_, ?_, ?_, ⟨?_, ?_, ?_, ?_, ?_, ?_, ?_⟩, ?_, ?_⟩ <;> decide +kernel

theorem witness_ident_record :
    let s := { two with cache := [⟨5, Vector.replicate 12 none⟩, ⟨1, Vector.replicate 12 none⟩] }
    parseIdent (up 0x22 3 255 [1, 0, 0, 0, 12, 0xF0]) = some ⟨2, 1, 12, false, 15⟩ ∧ s.ChainSound ∧
    s.cache.find? (·.identity == 1) = some ⟨1, Vector.replicate 12 none⟩ ∧ s.DegradedBy 2 15 ∧ ¬s.HeldByAnother 2 1 := by
  refine ⟨?_, ⟨?_, ?_, ?_, ?_, ?_, ?_, ?_⟩, ?_, ?_, ?_⟩ <;> decide +kernel

/-- P1 and P2 hold one identity and are marked, P2 LOST since 0 with its QUERY window open. -/
def clashed : State :=
  put 0 { unit .active 7 10 with identityClash := true } <|
  put 1 { unit .lost 7 12 with identityClash := true, queryUntil := some 20 } run0

theorem witness_clash_ends :
    clashed.ChainSound ∧ clashed.ClashEnds (· = 1) 0 ∧ clashed.ClashEnds (1 ≤ ·) 0 ∧ ¬two.ClashEnds (· = 1) 0 ∧
    parseIdent (up 0x22 2 255 [1, 0, 0, 0, 12, 0]) = some ⟨1, 1, 12, false, 0⟩ ∧ (clashed.posAt 1).state = .lost ∧
    (clashed.posAt 1).queryUntil ≠ none ∧ (clashed.posAt 1).identity ≠ some 1 ∧ clashed.lineHeld true = true ∧
    (clashed.posAt 1).lostSince = some 0 ∧ clashed.queue.entries = [] ∧
    0 + clashed.settings.absenceInterval * 1000 ≤ (at' 5000 clashed).now := by
  refine ⟨⟨?_, ?_, ?_, ?_, ?_, ?_, ?_⟩, ?_, ?_, ?_, ?_, ?_, ?_, ?_, ?_, ?_, ?_, ?_⟩ <;> decide +kernel

theorem witness_lost_position_returns :
    parseIdent (up 0x22 2 255 [0x07, 0x22, 0x5C, 0x0B, 1, 0]) = some ⟨1, 0x0B5C2207, 1, false, 0⟩ ∧
    parseIdent (up 0x22 2 255 [0x10, 0x04, 0x31, 0x0A, 12, 2]) = some ⟨1, 0x0A310410, 12, true, 0⟩ ∧
    (lost none).ChainSound ∧ (lost (some 20)).ChainSound ∧ ((lost none).posAt 1).state = .lost ∧
    (lost none).lineHeld true = true ∧ ((lost none).posAt 1).queryUntil = none ∧
    ((lost (some 20)).posAt 1).queryUntil ≠ none ∧ ((lost (some 20)).posAt 1).identity = some 0x0B5C2207 ∧
    ((lost (some 20)).posAt 1).identity ≠ some 0x0A310410 ∧ (lost (some 20)).tables.mode = .run ∧
    (lost (some 20)).queue.entries.length < 16 ∧ (lost (some 20)).queue.slot = none := by
  refine ⟨?_, ?_, ⟨?_, ?_, ?_, ?_, ?_, ?_, ?_⟩, ⟨?_, ?_, ?_, ?_, ?_, ?_, ?_⟩, ?_, ?_, ?_, ?_, ?_, ?_, ?_, ?_, ?_⟩ <;>
    decide +kernel

theorem witness_restored_at_identity_change :
    let slots : Vector (Option Slot) 12 := (Vector.replicate 12 none).set 0 (some ⟨(two.rowAt 1 0).profile, 918, 259⟩)
    let s := { lost (some 20) with cache := [⟨1, slots⟩] }
    (s.ChainSound ∧ (s.posAt 1).identity ≠ some 1 ∧ ¬s.HeldByAnother 1 1) ∧
    (s.writeBack 1).cache.find? (·.identity == 1) = some ⟨1, slots⟩ ∧
    ((s.rowAt 1 0).function.isSome = true ∧ (0 : Circ).val + 1 ≤ 1 ∧ (s.profileAt 1 0).learn = true) := by
  refine ⟨⟨⟨?_, ?_, ?_, ?_, ?_, ?_, ?_⟩, ?_, ?_⟩, ?_, ?_⟩ <;> decide +kernel

/-- P2 LOST with its window open and a fault listed on its circuit 2; P3 as given. -/
def returning (p3 : Position) : State :=
  put 2 p3 <| ((lost (some 20)).updCirc 1 1 fun k => { k with condition := .shorted }).updImage fun ib =>
    { ib with faults := [⟨0, ⟨1, some 1, .short⟩, 0, 1, true⟩] }

theorem witness_warm_return :
    let s := returning (probing 1)
    let away := Position.absent PosCounters.zero
    s.ChainSound ∧ (returning away).ChainSound ∧ s.Unfits 1 1 1 ∧ ¬s.Unfits 1 1 0 ∧
    (s.circAt 1 1).condition.fault = some .short ∧ (s.posAt 2).state = .probing ∧
    ((returning away).posAt 2).state = .absent ∧
    parseIdent (up 0x22 2 255 [0x07, 0x22, 0x5C, 0x0B, 1, 0xD2]) = some ⟨1, 0x0B5C2207, 1, true, 13⟩ ∧
    s.DegradedBy 1 13 ∧ s.settings.linkThreshold < min 65535 13 ∧
    (s.updQueue fun q => { q with slot := some 0 }).queue.slot ≠ none := by
  refine ⟨⟨?_, ?_, ?_, ?_, ?_, ?_, ?_⟩, ⟨?_, ?_, ?_, ?_, ?_, ?_, ?_⟩, ?_, ?_, ?_, ?_, ?_, ?_, ?_, ?_, ?_⟩ <;> decide +kernel

/-- At the end of an upstream telegram on a receiving line, or on a free one, the port becomes free: a REPORT that is stale and
one that is awaited, an IDENT of a PROBING, a PASSIVE and a LOST position, in RUN and in SETUP. -/
theorem witness_pick_at_upstream_end :
    let quiet := { two with tables := { two.tables with mode := .setup } }
    (awaiting.lineHeld false = false ∧ two.lineHeld false = false) ∧
    parseReport (up 0x21 2 70 [2, 240, 0]) = some ⟨1, 70, false, true, 0, 240, []⟩ ∧
    (parseReport (up 0x21 4 70 [2, 240, 0]) = some ⟨3, 70, false, true, 0, 240, []⟩ ∧ (two.posAt 3).state.onChain = false) ∧
    (parseIdent (up 0x22 3 255 [1, 0, 0, 0, 12, 2]) = some ⟨2, 1, 12, true, 0⟩ ∧ (awaiting.posAt 2).state = .probing ∧
      awaiting.queue.firstSet = none ∧ awaiting.ChainSound ∧ awaiting.tables.mode = .run ∧
      awaiting.queue.entries.length < 16 ∧ awaiting.queue.slot = none) ∧
    (quiet.ChainSound ∧ quiet.queue.firstSet = none ∧ quiet.tables.mode = .setup ∧ (quiet.posAt 2).state = .probing) ∧
    ((put 2 { probing 3 with state := .passive } two).posAt 2).state = .passive ∧ ((lost (some 20)).posAt 1).state = .lost := by
  refine ⟨?_, ?_, ?_, ⟨?_, ?_, ?_, ⟨?_, ?_, ?_, ?_, ?_, ?_, ?_⟩, ?_, ?_, ?_⟩, ⟨⟨?_, ?_, ?_, ?_, ?_, ?_, ?_⟩, ?_, ?_, ?_⟩, ?_⟩ <;>
    decide +kernel

theorem witness_bad_telegrams :
    two.lineHeld true = true ∧ two.lineHeld false = false ∧ (onLine (.sending (.poll 255)) two).lineHeld false = true ∧
    wfBadTelegram [] = true ∧ wfBadTelegram (bytes [0x21, 1, 70, 3, 0]) = true ∧
    wfBadTelegram (telegramBytes 0x12 1 70 []) = true ∧
    (let t : UpTelegram := ⟨1, 70, 3, bytes [0, 240, 0, 1]⟩; t.rest.length < t.length.toNat + 2) ∧
    (let t : UpTelegram := ⟨1, 70, 3, bytes [0, 240, 0, 1, 2]⟩
     t.rest.drop t.length.toNat ≠ crcBytes (crc16 ([0x21, 1, 70, 3] ++ t.rest.take t.length.toNat))) ∧
    6 < (up 0x21 7 70 [0, 240, 0]).address.toNat ∧ (up 0x21 0 70 [0, 240, 0]).address.toNat = 0 ∧
    (up 0x21 1 70 [0, 240, 0, 1]).length.toNat % 3 ≠ 0 ∧ (up 0x21 1 70 []).length.toNat < 3 ∧
    39 < (up 0x21 1 70 (List.replicate 42 0)).length.toNat ∧
    400 < byteAt (up 0x21 1 70 [0, 0x91, 1]).rest 1 + 256 * byteAt (up 0x21 1 70 [0, 0x91, 1]).rest 2 ∧
    (up 0x22 1 255 [1, 0, 0, 0, 12]).length.toNat ≠ 6 ∧ byteAt (up 0x22 1 255 [1, 0, 0, 0, 0, 0]).rest 4 = 0 ∧
    12 < byteAt (up 0x22 1 255 [1, 0, 0, 0, 13, 0]).rest 4 := by decide +kernel

theorem witness_chain_timers :
    let s (n : Nat) := at' 20 (onLine .receiving (put 2 (probing n) two))
    ((s 2).posAt 2).state = .probing ∧ ((s 2).posAt 2).enumTimeout = some 20 ∧ (at' 19 (s 2)).now < 20 ∧
    20 ≤ (s 2).now ∧ (s 2).chain.line ≠ .free ∧ ((s 2).posAt 2).probeAttempts < 3 ∧ 3 ≤ ((s 3).posAt 2).probeAttempts ∧
    ((lost (some 20)).posAt 1).queryUntil = some 20 ∧ (at' 19 (lost (some 20))).now < 20 ∧
    20 ≤ (at' 20 (lost (some 20))).now ∧ (at' 9999 two).now < two.chain.linkIntervalEnd ∧
    two.chain.linkIntervalEnd ≤ (at' 10000 two).now := by decide +kernel

theorem witness_enum_sent :
    let s (n : Nat) := at' 20 (put 2 (probing n) two)
    let asks (r : List LinkRequest) (s : State) := s.updChain fun ch => { ch with linkRequests := r }
    let sending := asks [.enum 2] (onLine (.sending (.poll 255)) two)
    (((s 2).posAt 2).state = .probing ∧ ((s 2).posAt 2).enumTimeout = some 20 ∧ 20 ≤ (s 2).now ∧
      (s 2).chain.line = .free ∧ (s 2).queue.firstSet = none ∧ (s 2).queue.slot = none ∧
      ((s 2).posAt 2).probeAttempts < 3 ∧ (s 2).chain.linkRequests = []) ∧
    (asks [.query 1] (s 2)).chain.linkRequests = .query 1 :: [] ∧
    (3 ≤ ((s 3).posAt 2).probeAttempts ∧ (∀ e ∈ (s 3).queue.entries, e.state ≠ .waiting) ∧
      ¬((s 3).tables.mode = .setup ∧ (s 3).chain.livenessPoll = true)) ∧
    (sending.chain.line = .sending (.poll 255) ∧ sending.queue.firstSet = none ∧ sending.queue.slot = none ∧
      sending.chain.linkRequests = .enum 2 :: []) := by decide +kernel

theorem witness_loss_and_absence :
    (two.posAt 1).state = .active ∧ (two.posAt 1).lastHeard = some 0 ∧
    (at' 299 two).now < 0 + two.settings.lossInterval ∧ 0 + two.settings.lossInterval ≤ (at' 300 two).now ∧
    (lost none).ChainSound ∧ ((lost none).posAt 1).state = .lost ∧ ((lost none).posAt 1).lostSince = some 0 ∧
    (at' 4999 (lost none)).now < 0 + (lost none).settings.absenceInterval * 1000 ∧
    0 + (lost none).settings.absenceInterval * 1000 ≤ (at' 5000 (lost none)).now := by
  refine ⟨?_, ?_, ?_, ?_, ⟨?_, ?_, ?_, ?_, ?_, ?_, ?_⟩, ?_, ?_, ?_, ?_⟩ <;> decide +kernel

/-- Behind tag 70, which misses P2 alone: a PENDING and a WAITING CHECK of P2, an EXPIRED entry, and a WAITING CHANGE. -/
def leaving : State :=
  let c : Entry := { waitingCheck 71 with target := some ⟨1, 0, 4⟩ }
  withEntries [sent70 .pending 1 [⟨0, 240, false, []⟩],
    { c with state := .pending, image := some 0, tx := (sent70 .pending 0 []).tx, required := 2 },
    { sent70 .expired 2 [⟨1, 240, false, []⟩] with tag := 72 }, waitingSet 73, { c with tag := 74 }] 75 two

theorem witness_leaving_active :
    let s := at' 300 leaving
    let gone := onLine .receiving <| at' 5000 <| withEntries [{ sent70 .pending 0 [] with required := 2 }] 71 <|
      put 0 (unit .lost 7 10) two
    (s.AnswersActive ∧ (s.posAt 1).state = .active ∧ 0 + s.settings.lossInterval ≤ s.now) ∧
    (waitingSet 73 ∈ s.queue.entries ∧ (waitingSet 73).state = .waiting ∧ (waitingSet 73).required = 0 ∧
      (waitingSet 73).target = none) ∧
    (∃ e ∈ s.queue.entries, e.state = .pending ∧ e.required = posBit 1 ∧ e.answered = 0 ∧ e.answers = []) ∧
    (gone.ChainSound ∧ gone.chain.line ≠ .free ∧ (gone.posAt 0).lostSince = some 0 ∧ (gone.posAt 1).state = .active ∧
      0 + gone.settings.absenceInterval * 1000 ≤ gone.now) := by
  refine ⟨⟨?_, ?_, ?_⟩, ?_, ?_, ⟨?_, ?_, ?_, ?_, ?_, ?_, ?_⟩, ?_, ?_, ?_, ?_⟩ <;> decide +kernel

/-- R68, R69: P2's leaving completes tags 70 and 71, which retire with the EXPIRED 72; the CHANGE of tag 73 waits on, and the
CHECK of tag 74 behind it is COMPLETE. -/
theorem test_leaving_active :
    (doc (.lossIntervalExpiry 1) (at' 300 leaving)).queue.entries.map (fun e => (e.tag, e.state)) =
      [(73, .waiting), (74, .complete)] := by decide +kernel

/-- P2's absence expiry with P1 ACTIVE, its flag set or not, on a free line and on a busy one, a QUERY of P2 pending. -/
theorem witness_absence_probes_again :
    let s := at' 5000 ((lost none).updChain fun ch => { ch with linkRequests := [.query 1] })
    let dark := at' 5000 (put 0 { unit .active 0x0A310410 10 with downstreamLoad := false } (lost none))
    (s.ChainSound ∧ (s.posAt 1).state = .lost ∧ (s.posAt 0).state = .active ∧ (s.posAt 0).downstreamLoad = true ∧
      s.chain.line = .free ∧ s.queue.firstSet = none ∧ s.queue.slot = none ∧ (onLine .receiving s).chain.line ≠ .free) ∧
    s.chain.linkRequests.filter (fun k => decide (∀ q : Pos, 1 ≤ q → k ≠ .enum q ∧ k ≠ .query q)) = [] ∧
    (dark.ChainSound ∧ (∀ e ∈ dark.queue.entries, e.state ≠ .waiting) ∧ dark.chain.linkRequests = [] ∧
      dark.tables.mode = .run ∧ (dark.posAt 0).downstreamLoad = false ∧ dark.chain.line = .free) := by
  refine ⟨⟨⟨?_, ?_, ?_, ?_, ?_, ?_, ?_⟩, ?_⟩, ?_, ⟨⟨?_, ?_, ?_, ?_, ?_, ?_, ?_⟩, ?_⟩⟩ <;> decide +kernel

theorem witness_deadline_expires :
    let a := at' 89 awaiting
    let e := sent70 .pending 1 [⟨0, 240, true, []⟩]
    let behind := withEntries [{ waitingSet 69 with state := .waiting }, e] 71 a
    a.TagsInOrder ∧ e ∈ a.queue.entries ∧ e.tx = some ⟨1, 60, 89, Vector.replicate 10 none, 0, false⟩ ∧
    e.state = .pending ∧ e.answered ≠ e.required ∧ 89 ≤ a.now ∧ (at' 88 awaiting).now < 89 ∧
    (sent70 .expired 1 []).state ≠ .pending ∧
    behind.TagsInOrder ∧ behind.queue.entries = waitingSet 69 :: [e] ∧ (waitingSet 69).state.final = false ∧
    (waitingSet 69).tag ≠ e.tag ∧ (∀ e ∈ a.queue.entries, e.tag ≠ 254) ∧
    (a.queue.entries = e :: [] ∧ hasPos e.required 1 = true ∧ hasPos e.answered 1 = false ∧ hasPos e.answered 0 = true) ∧
    (put 1 { unit .active 7 12 with linkErrors := 12 } a).DegradedBy 1 1 ∧ ¬a.DegradedBy 1 1 := by
  refine ⟨?_, ?_, ?_, ?_, ?_, ?_, ?_, ?_, ?_, ?_, ?_, ?_, ?_, ?_, ?_, ?_⟩ <;> decide +kernel

theorem witness_retirement :
    let a (p : Pos) : Answer := ⟨p, 240, false, []⟩
    let e := sent70 .complete 3 [a 1, a 0]
    let s := withEntries [e, { waitingSet 71 with image := some 5 }] 72 two
    s.queue.entries = e :: [{ waitingSet 71 with image := some 5 }] ∧ e.state = .complete ∧
    (sent70 .expired 1 []).state = .expired ∧
    (s.retireOne e s.queue.entries.tail).queue.entries.head?.map (·.state) = some .waiting ∧
    e.tx = some ⟨1, 60, 89, Vector.replicate 10 none, 0, false⟩ ∧ [a 0, a 1].Perm e.answers ∧
    [a 0, a 1].Pairwise (fun a b => a.pos < b.pos) ∧ (waitingSet 70).tx = none ∧ (sent70 .expired 0 []).answers = [] := by
  refine ⟨?_, ?_, ?_, ?_, ?_, ?_, ?_, ?_, ?_⟩ <;> decide +kernel

/-- Two circuits of the second position for F3, lit, both reading OPEN. -/
def fed : State := withRow 1 1 ⟨some 2, 1, true, true⟩ two

theorem witness_answer_gates :
    let e := sent70 .complete 3 []
    let x : Transmission := ⟨1, 60, 89, Vector.replicate 10 (some 1), 0, false⟩
    let a (supply c1 c2 : Nat) : Answer := ⟨1, supply, false, [⟨1, c1, false⟩, ⟨2, c2, false⟩, ⟨1, 9, false⟩]⟩
    let lit (s : State) (a : Answer) := (s.usedReadings e x a).filter fun j => j.commanded == .on
    ({ a 240 0 0 with superseded := true } : Answer).superseded = true ∧ (a 179 0 0).supply < fed.settings.supplyFloor ∧
    fed.settings.supplyFloor ≤ (a 180 0 0).supply ∧
    (2 ≤ (lit fed (a 180 0 0)).length ∧ ∀ j ∈ lit fed (a 180 0 0), j.verdict = .openCircuit) ∧
    (∃ j ∈ lit fed (a 180 0 875), j.verdict ≠ .openCircuit) ∧
    ((lit two (a 180 0 0)).length < 2 ∧ ∀ j ∈ lit two (a 180 0 0), j.verdict = .openCircuit) ∧ (0 : Pos) ≠ 1 := by
  decide +kernel

theorem witness_confirmation :
    let e := sent70 .complete 3 []
    let x : Transmission := ⟨1, 60, 89, Vector.replicate 10 (some 1), 0, false⟩
    let a : Answer := ⟨1, 240, false, [⟨1, 875, false⟩]⟩
    let s := two.updCirc 1 0 fun k => { k with candidate := some .good, agreement := 1, condition := .failedOpen }
    let c : CheckTarget := ⟨1, 0, 4⟩
    let chk : Entry := { e with kind := .check, target := some c }
    (s.usedReadings e x a).map (fun j => (j.circ, j.commanded, j.verdict)) = [(0, .on, .good)] ∧
    (s.profileAt 1 0).learn = true ∧ min (s.profileAt 1 0).confirmCount (1 + 1) = (s.profileAt 1 0).confirmCount ∧
    (s.circAt 1 0).candidate = some .good ∧ (two.circAt 1 0).candidate ≠ some .good ∧
    (two.usedReadings chk x a).map (·.commanded) = [.checked] ∧
    ((two.usedReadings { e with image := some 0 } x a).map (·.commanded) = [.off]) ∧
    ((put 1 { unit .active 7 12 with feedLost := true } two).posAt 1).feedLost = true := by decide +kernel

theorem witness_arithmetic :
    (0 : Nat) < 80 ∧ (4095 : Nat) ≤ 4095 ∧ (16 : Nat) ≤ 16 ∧ (80 : Nat) ≤ 400 ∧ 255 * 1 ≤ 3 * 100 ∧
    419 * 100 < 255 * 420 := by decide

theorem witness_verdict_ladders : Profile.default.inRange = true ∧ ¬(false = true ∨ Profile.default.shortCurrent ≤ 2999) := by
  decide

theorem witness_confirmed_verdict :
    moveCondition .good (two.circAt 1 0).condition ≠ (two.circAt 1 0).condition ∧
    moveCondition .darkOk (two.circAt 1 0).condition = (two.circAt 1 0).condition := by decide +kernel

theorem witness_baseline_learning :
    let g : Nat × Nat × Verdict := (930, 262, .good)
    ([g, g, g].filter fun r => r.2.2 == .good).length < 4 ∧ 4 ≤ ([g, g, g, g].filter fun r => r.2.2 == .good).length := by
  decide

theorem witness_fault_list :
    let e (n : Nat) (active : Bool) : FaultEntry := ⟨n, ⟨⟨n % 6, by omega⟩, some ⟨n / 6 % 12, by omega⟩, .short⟩, 0, 1, active⟩
    let full (k : Nat) := (List.range 32).map fun n => e n (n < k)
    let new : FaultKey := ⟨0, none, .feedLoss⟩
    (∃ x ∈ full 31, x.key = (e 31 false).key ∧ x.active = false) ∧ (∀ x ∈ full 31, x.key ≠ new) ∧ (full 31).length = 32 ∧
    full 31 = (full 31).take 31 ++ e 31 false :: [] ∧ (∀ x ∈ (full 31).take 31, x.active = true) ∧
    (∀ x ∈ full 32, x.active = true) ∧ ((full 32).take 31).length < 32 ∧ ((full 32).map (·.key)).Nodup := by
  decide +kernel

theorem witness_history_cache :
    let c (n : Nat) : CacheEntry := ⟨BitVec.ofNat 32 n, Vector.replicate 12 none⟩
    let s (k : Nat) : State := { two with cache := (List.range k).map c }
    let learned := (s 8).updCirc 1 0 fun k => { k with baseline := .learned 918 259 }
    learned.CacheSound ∧ (learned.circAt 1 0).baseline = .learned 918 259 ∧ learned.slotOf 1 0 ≠ none ∧
    (learned.posAt 1).identityClash = false ∧ (learned.posAt 1).identity = some 0x0B5C2207 ∧
    (put 1 { unit .active 7 12 with identityClash := true } two |>.posAt 1).identityClash = true ∧
    (∀ e ∈ learned.cache, e.identity ≠ 0x0B5C2207) ∧ learned.cache.length = 8 ∧ (s 7).cache.length < 8 ∧
    (∀ c : Circ, (s 8).slotOf 1 c = none) ∧ (s 8).cache = (s 3).cache ++ c 3 :: [c 4, c 5, c 6, c 7] := by
  decide +kernel

theorem witness_write_back_at_absence :
    let s := at' 5000 (lost none)
    let fall := at' 100 (two.updChain fun ch => { ch with connectDebounced := true })
    ((s.posAt 1).state = .lost ∧ (two.posAt 1).state = .active ∧ (two.posAt 3).state.onChain = false ∧
      (two.posAt 2).state ≠ .absent) ∧
    ((s.posAt 1).lostSince = some 0 ∧ 0 + s.settings.absenceInterval * 1000 ≤ s.now ∧
      ∀ q : Pos, 1 < q → (s.posAt q).state.onChain = false) ∧
    (fall.chain.connectRaw = false ∧ fall.chain.connectDebounced = true ∧ fall.chain.connectSince + 100 ≤ fall.now) ∧
    (two.Takes (req []) (0x06 :: (req []).data) ∧ ∀ q : Pos, (two.posAt q).identityClash = false) ∧
    (((lost (some 20)).posAt 1).identity ≠ some 1 ∧ ((lost (some 20)).posAt 1).identity ≠ some 0x0A310410) ∧
    ((lost (some 20)).HeldByAnother 1 0x0A310410 ∧ ¬(lost (some 20)).HeldByAnother 1 1) := by decide +kernel

theorem witness_set_carries :
    ((two.rowAt 0 2).function = some 5 ∧ on 0x020 5 = true ∧ ∃ n ∈ (two.posAt 0).circuitCount, (2 : Circ).val + 1 ≤ n) ∧
    (waitingSet 70).kind = .change ∧ ({ waitingSet 70 with kind := .resync } : Entry).kind = .resync ∧
    (waitingSet 70).target = none ∧ (waitingCheck 70).target = some ⟨0, 0, 2⟩ := by
  refine ⟨⟨?_, ?_, 10, ?_, ?_⟩, ?_, ?_, ?_, ?_⟩ <;> decide +kernel

end Sys2Proof.Tests
end

