-- ==== Sys2Proof/Proofs/Places.lean ====
section
/-! SUPPORT. The soundness of the chain, place by place: what one position's record, requests, circuits and listed faults have
to agree in, and which operations leave one place as it was. -/

namespace Sys2Proof.Machine

/-! ### Sets of positions -/

@[simp] theorem hasPos_zero (p : Pos) : hasPos 0#6 p = false := by simp [hasPos]

@[simp] theorem hasPos_posBit (p q : Pos) : hasPos (posBit p) q = decide (q = p) := by
  revert p q; decide

@[simp] theorem hasPos_addPos (ps : PosSet) (p q : Pos) : hasPos (addPos ps p) q = (hasPos ps q || decide (q = p)) := by
  have h := hasPos_posBit p q
  simp only [hasPos, addPos, BitVec.getLsbD_or] at h ⊢
  rw [h]

@[simp] theorem hasPos_dropPos (ps : PosSet) (p q : Pos) : hasPos (dropPos ps p) q = (hasPos ps q && !decide (q = p)) := by
  have h := hasPos_posBit p q
  simp only [hasPos, dropPos, BitVec.getLsbD_and, BitVec.getLsbD_not, q.isLt, decide_true, Bool.true_and] at h ⊢
  rw [h]

theorem hasPos_foldl (test : Pos → Bool) (l : List Pos) (ps : PosSet) (q : Pos) :
    hasPos (l.foldl (fun ps p => if test p then addPos ps p else ps) ps) q = (hasPos ps q || (l.contains q && test q)) := by
  induction l generalizing ps with
  | nil => simp
  | cons p l ih =>
    rw [List.foldl_cons, ih]
    by_cases hq : q = p
    · subst hq
      cases ht : test q <;> simp
    · cases ht : test p <;> simp [hq]

theorem mem_allPos (p : Pos) : p ∈ allPos := by revert p; decide

theorem mem_allCirc (c : Circ) : c ∈ allCirc := by revert c; decide

@[simp] theorem hasPos_posSetOf (test : Pos → Bool) (q : Pos) : hasPos (posSetOf test) q = test q := by
  rw [posSetOf, hasPos_foldl]
  simp [mem_allPos]

/-! ### One place -/

/-- The records of circuit `c` are those its position allows: as at reset while the place is empty, and with no condition,
baseline or confirmation state beyond the position's count. -/
def Circuit.Fits (k : Circuit) (r : Position) (c : Circ) : Prop :=
  (r.state.onChain = false → k = Circuit.clear) ∧
  (countReaches r.circuitCount c = false →
    k.condition = .unknown ∧ k.baseline = .none ∧ k.candidate = none ∧ k.agreement = 0 ∧ k.last = none)

/-- The clauses of `RequestsSound` on one position. -/
def State.RequestsAt (s : State) (p : Pos) : Prop :=
  (.enum p ∈ s.chain.linkRequests → (s.posAt p).state = .probing ∧ (s.posAt p).enumTimeout = none ∧
    (s.posAt p).probeAttempts < Config.enumAttempts) ∧
  (.query p ∈ s.chain.linkRequests → (s.posAt p).state = .lost ∧ (s.posAt p).queryUntil = none) ∧
  ((s.posAt p).enumTimeout.isSome = true → (s.posAt p).state = .probing) ∧
  ((s.posAt p).queryUntil.isSome = true → (s.posAt p).state = .lost)

/-- What `ChainSound` asks of one position: its record, its requests, its circuits and its listed faults. -/
structure State.PlaceSound (s : State) (p : Pos) : Prop where
  record : (s.posAt p).Sound
  requests : s.RequestsAt p
  circuits : ∀ c, (s.circAt p c).Fits (s.posAt p) c
  faults : ∀ e ∈ s.image.faults, e.key.pos = p →
    (s.posAt p).state.onChain = true ∧ (e.active = true → s.stands e.key = true)

/-- What `AnswersActive` asks of one entry. -/
def State.EntryActive (s : State) (e : Entry) : Prop :=
  (e.state = .waiting → e.required = 0 ∧ e.answered = 0 ∧ e.answers = [] ∧
    ∀ g ∈ e.target, s.isActive g.pos = true) ∧
  ∀ p : Pos,
    (hasPos e.required p = true → s.isActive p = true) ∧
    (hasPos e.answered p = true → hasPos e.required p = true) ∧
    ((∃ a ∈ e.answers, a.pos = p) → hasPos e.answered p = true)

/-- `ChainSound` but for the shape of the chain, which an ascending cascade breaks until its end (R36). -/
structure State.PartsSound (s : State) : Prop where
  requests : s.chain.linkRequests.Nodup
  tags : s.TagsInOrder
  entries : ∀ e ∈ s.queue.entries, s.EntryActive e
  places : ∀ p, s.PlaceSound p

/-- `ChainSound`, its clauses on positions gathered place by place. -/
structure State.Coherent (s : State) : Prop where
  shape : s.ChainShape
  parts : s.PartsSound

theorem State.chainSound_iff (s : State) : s.ChainSound ↔ s.Coherent := by
  constructor
  · rintro ⟨shape, records, ⟨nodup, requests⟩, tags, answers, circuits, faults⟩
    exact ⟨shape, nodup, tags, answers, fun p => ⟨records p, requests p, circuits p, fun e he hp => hp ▸ faults e he⟩⟩
  · rintro ⟨shape, nodup, tags, answers, places⟩
    exact ⟨shape, fun p => (places p).record, ⟨nodup, fun p => (places p).requests⟩, tags, answers,
      fun p => (places p).circuits, fun e he => (places e.key.pos).faults e he rfl⟩

/-- Whether a fault stands is read from its position's record and circuits. -/
theorem State.stands_congr {s u : State} (k : FaultKey) (pos : u.posAt k.pos = s.posAt k.pos)
    (circ : ∀ c, u.circAt k.pos c = s.circAt k.pos c) : u.stands k = s.stands k := by
  unfold State.stands
  simp only [pos, circ]

/-- Place `q` is in `u` as it is in `s`, but that requests and faults of its may be gone. -/
structure State.SameAt (s u : State) (q : Pos) : Prop where
  pos : u.posAt q = s.posAt q
  circ : ∀ c, u.circAt q c = s.circAt q c
  requests : ∀ r ∈ u.chain.linkRequests, r = .enum q ∨ r = .query q → r ∈ s.chain.linkRequests
  faults : ∀ e ∈ u.image.faults, e.key.pos = q → e ∈ s.image.faults

theorem State.SameAt.refl (s : State) (q : Pos) : s.SameAt s q :=
  ⟨rfl, fun _ => rfl, fun _ h _ => h, fun _ h _ => h⟩

theorem State.SameAt.trans {s t u : State} {q : Pos} (a : s.SameAt t q) (b : t.SameAt u q) : s.SameAt u q where
  pos := b.pos.trans a.pos
  circ c := (b.circ c).trans (a.circ c)
  requests r hr h := a.requests r (b.requests r hr h) h
  faults e he h := a.faults e (b.faults e he h) h

/-- A place that is as it was is as sound as it was. -/
theorem State.PlaceSound.of_sameAt {s u : State} {q : Pos} (h : s.PlaceSound q) (a : s.SameAt u q) : u.PlaceSound q := by
  obtain ⟨record, ⟨enum, query, timeout, window⟩, circuits, faults⟩ := h
  refine ⟨by rw [a.pos]; exact record, ⟨?_, ?_, ?_, ?_⟩, fun c => by rw [a.pos, a.circ]; exact circuits c, ?_⟩
  · rw [a.pos]
    exact fun h => enum (a.requests _ h (.inl rfl))
  · rw [a.pos]
    exact fun h => query (a.requests _ h (.inr rfl))
  · rw [a.pos]
    exact timeout
  · rw [a.pos]
    exact window
  · intro e he hq
    subst hq
    rw [a.pos, State.stands_congr e.key a.pos a.circ]
    exact faults e (a.faults e he rfl) rfl

/-! ### What one operation leaves at other places -/

theorem State.SameAt.updPos {s : State} {p q : Pos} (h : q ≠ p) (f : Position → Position) : s.SameAt (s.updPos p f) q :=
  ⟨State.updPos_posAt_ne _ _ _ _ h, fun _ => rfl, fun _ h _ => h, fun _ h _ => h⟩

theorem State.SameAt.updCirc {s : State} {p q : Pos} (h : q ≠ p) (c : Circ) (f : Circuit → Circuit) :
    s.SameAt (s.updCirc p c f) q :=
  ⟨rfl, fun k => by simp [State.updCirc_circAt, h], fun _ h _ => h, fun _ h _ => h⟩

theorem State.SameAt.updCircs {s : State} {p q : Pos} (h : q ≠ p) (f : Circ → Circuit → Circuit) :
    s.SameAt (s.updCircs p f) q :=
  ⟨rfl, fun k => by simp [State.updCircs_circAt, h], fun _ h _ => h, fun _ h _ => h⟩

/-- An entry of the list after an add is the key's own or stood there before. -/
theorem mem_faultAdd {k : FaultKey} {ib : ImageBuilder} {e : FaultEntry} (h : e ∈ (faultAdd k ib).faults) :
    e.key = k ∨ e ∈ ib.faults := by
  unfold faultAdd at h
  split at h
  · obtain ⟨e', he', rfl⟩ := List.mem_map.1 h
    by_cases hk : e'.key = k
    · left
      simp only [hk, beq_self_eq_true, if_true, FaultEntry.reactivate]
      split
      · exact hk
      · rfl
    · right
      simpa [hk] using he'
  · split at h
    · rcases List.mem_append.1 h with h | h
      · exact .inr h
      · exact .inl (by rw [List.mem_singleton.1 h])
    · split at h
      · rcases List.mem_append.1 h with h | h
        · exact .inr (List.mem_of_mem_eraseP h)
        · exact .inl (by rw [List.mem_singleton.1 h])
      · exact .inr h

/-- An entry of the list after a heal was there before, and is active only where it was and its key is another. -/
theorem mem_faultHeal {k : FaultKey} {ib : ImageBuilder} {e : FaultEntry} (h : e ∈ (faultHeal k ib).faults) :
    (e ∈ ib.faults ∧ e.key ≠ k) ∨ (e.key = k ∧ e.active = false ∧ ∃ e' ∈ ib.faults, e'.key = k) := by
  obtain ⟨e', he', rfl⟩ := List.mem_map.1 h
  by_cases hk : e'.key = k
  · exact .inr (by simp only [hk, beq_self_eq_true, if_true, true_and]; exact ⟨e', he', hk⟩)
  · exact .inl (by simp [hk, he'])

theorem State.SameAt.heal {s : State} {k : FaultKey} {q : Pos} (h : q ≠ k.pos) : s.SameAt (s.heal k) q :=
  ⟨rfl, fun _ => rfl, fun _ h _ => h, fun _ he hq =>
    (mem_faultHeal he).elim And.left (fun hk => absurd (by rw [← hq, hk.1]) h)⟩

theorem State.SameAt.removeFaults (s : State) (p q : Pos) : s.SameAt (s.removeFaults p) q :=
  ⟨rfl, fun _ => rfl, fun _ h _ => h, fun _ he _ => (List.mem_filter.1 he).1⟩

theorem State.SameAt.updQueue (s : State) (f : Queue → Queue) (q : Pos) : s.SameAt (s.updQueue f) q :=
  ⟨rfl, fun _ => rfl, fun _ h _ => h, fun _ h _ => h⟩

theorem State.SameAt.dropRequests (s : State) (p q : Pos) : s.SameAt (s.dropRequests p) q :=
  ⟨rfl, fun _ => rfl, fun _ h _ => (List.mem_filter.1 h).1, fun _ h _ => h⟩

/-- A state equal in the records, the requests, the circuits and the fault list has the same places. -/
theorem State.SameAt.of_eq (s u : State) (pos : u.chain.positions = s.chain.positions)
    (requests : u.chain.linkRequests = s.chain.linkRequests) (circuits : u.circuits = s.circuits)
    (faults : u.image.faults = s.image.faults) (q : Pos) : s.SameAt u q :=
  ⟨by simp only [State.posAt, pos], fun _ => by simp only [State.circAt, circuits], fun _ h _ => requests ▸ h,
    fun _ h _ => faults ▸ h⟩

/-- A write-back touches the cache alone. -/
theorem State.writeBack_frame (s : State) (p : Pos) : ∃ cache, s.writeBack p = { s with cache := cache } := by
  unfold State.writeBack
  split
  · exact ⟨s.cache, rfl⟩
  · split
    · exact ⟨_, rfl⟩
    · exact ⟨s.cache, rfl⟩

theorem State.SameAt.writeBack (s : State) (p q : Pos) : s.SameAt (s.writeBack p) q := by
  obtain ⟨cache, h⟩ := s.writeBack_frame p
  rw [h]
  exact ⟨rfl, fun _ => rfl, fun _ h _ => h, fun _ h _ => h⟩

theorem State.SameAt.healCondition {s : State} {p q : Pos} (h : q ≠ p) (c : Circ) (k : Condition) :
    s.SameAt (s.healCondition p c k) q := by
  unfold State.healCondition
  split
  · exact .heal h
  · exact .refl s q

/-! ### What one operation keeps at its own place -/

/-- Record `r'` takes the place of `r` with the state, the count and the probing fields kept and no flag of a listed fault
lowered. -/
structure Position.Follows (r r' : Position) : Prop where
  sound : r.Sound → r'.Sound
  state : r'.state = r.state
  count : r'.circuitCount = r.circuitCount
  attempts : r'.probeAttempts = r.probeAttempts
  timeout : r'.enumTimeout = r.enumTimeout
  window : r'.queryUntil = r.queryUntil
  feed : r.feedLost = true → r'.feedLost = true
  link : r.linkDegraded = true → r'.linkDegraded = true
  clash : r.identityClash = true → r'.identityClash = true

theorem State.PlaceSound.updPos {s : State} {p q : Pos} {f : Position → Position} (h : s.PlaceSound q)
    (hf : (s.posAt p).Follows (f (s.posAt p))) : (s.updPos p f).PlaceSound q := by
  by_cases hq : q = p
  · subst hq
    obtain ⟨record, ⟨enum, query, timeout, window⟩, circuits, faults⟩ := h
    refine ⟨?_, ⟨?_, ?_, ?_, ?_⟩, fun c => ?_, fun e he hk => ?_⟩
    · simpa using hf.sound record
    · simpa [hf.state, hf.timeout, hf.attempts] using enum
    · simpa [hf.state, hf.window] using query
    · simpa [hf.state, hf.timeout] using timeout
    · simpa [hf.state, hf.window] using window
    · simpa [Circuit.Fits, hf.state, hf.count] using circuits c
    · obtain ⟨on, stands⟩ := faults e he hk
      refine ⟨by simpa [hf.state] using on, fun ha => ?_⟩
      have hs := stands ha
      unfold State.stands at hs ⊢
      subst hk
      simp only [State.updPos_circAt, State.updPos_posAt_same]
      split at hs <;> simp_all [hf.feed, hf.link, hf.clash]
  · exact h.of_sameAt (.updPos hq f)

theorem State.PlaceSound.add {s : State} {k : FaultKey} {q : Pos} (h : s.PlaceSound q)
    (on : (s.posAt k.pos).state.onChain = true) (stands : s.stands k = true) : (s.add k).PlaceSound q := by
  obtain ⟨record, requests, circuits, faults⟩ := h
  refine ⟨record, requests, circuits, fun e he hq => ?_⟩
  rcases mem_faultAdd he with hk | he
  · subst hk
    subst hq
    exact ⟨on, fun _ => stands⟩
  · exact faults e he hq

/-- Rewriting one circuit without its condition. -/
theorem State.PlaceSound.updCirc {s : State} {p q : Pos} {c : Circ} {f : Circuit → Circuit} (h : s.PlaceSound q)
    (hc : (f (s.circAt p c)).condition = (s.circAt p c).condition)
    (hf : (f (s.circAt p c)).Fits (s.posAt p) c) : (s.updCirc p c f).PlaceSound q := by
  by_cases hq : q = p
  · subst hq
    obtain ⟨record, requests, circuits, faults⟩ := h
    refine ⟨record, requests, fun k => ?_, fun e he hk => ?_⟩
    · rw [State.updCirc_circAt, State.updCirc_posAt]
      split
      · next hk => rw [hk.2]; exact hf
      · exact circuits k
    · obtain ⟨on, stands⟩ := faults e he hk
      refine ⟨on, fun ha => ?_⟩
      rw [← stands ha]
      unfold State.stands
      subst hk
      split
      · rw [State.updCirc_circAt]
        split
        · next hkc => rw [hkc.2, hc]
        · rfl
      all_goals rfl
  · exact h.of_sameAt (.updCirc hq c f)

theorem Circuit.fits_of_reached {r : Position} {c : Circ} (on : r.state.onChain = true)
    (reached : countReaches r.circuitCount c = true) (k : Circuit) : k.Fits r c :=
  ⟨fun h => absurd (h.symm.trans on) (by decide), fun h => absurd (h.symm.trans reached) (by decide)⟩

/-- A fault still stands once a circuit's records change, unless it is the fault of the condition that circuit was in. -/
theorem State.stands_updCirc {s : State} {p : Pos} {c : Circ} {k : FaultKey} (f : Circuit → Circuit)
    (h : s.stands k = true) (hk : ∀ kd, (s.circAt p c).condition.fault = some kd → k ≠ ⟨p, some c, kd⟩) :
    (s.updCirc p c f).stands k = true := by
  obtain ⟨q, circ, kind⟩ := k
  unfold State.stands at h ⊢
  cases circ with
  | none => cases kind <;> exact h
  | some d =>
    dsimp only at h ⊢
    rw [State.updCirc_circAt]
    split
    · next hqd =>
      obtain ⟨rfl, rfl⟩ := hqd
      exact absurd rfl (hk kind (by simpa using h))
    · exact h

/-- A heal of a condition's fault leaves no active entry of it. -/
theorem mem_healCondition {s : State} {p : Pos} {c : Circ} {k : Condition} {e : FaultEntry}
    (he : e ∈ (s.healCondition p c k).image.faults) :
    (e ∈ s.image.faults ∧ ∀ kd, k.fault = some kd → e.key ≠ ⟨p, some c, kd⟩) ∨
    (e.active = false ∧ ∃ e' ∈ s.image.faults, e'.key = e.key) := by
  unfold State.healCondition at he
  split at he
  · next kd hkd =>
    rcases mem_faultHeal he with ⟨he, hne⟩ | ⟨hk, ha, e', he', hk'⟩
    · exact .inl ⟨he, fun kd' h => by rw [hkd] at h; cases h; exact hne⟩
    · exact .inr ⟨ha, e', he', hk'.trans hk.symm⟩
  · next hkd => exact .inl ⟨he, fun kd h => by simp [hkd] at h⟩

@[simp] theorem State.healCondition_posAt (s : State) (p q : Pos) (c : Circ) (k : Condition) :
    (s.healCondition p c k).posAt q = s.posAt q := by
  unfold State.healCondition
  split <;> rfl

@[simp] theorem State.healCondition_circAt (s : State) (p q : Pos) (c d : Circ) (k : Condition) :
    (s.healCondition p c k).circAt q d = s.circAt q d := by
  unfold State.healCondition
  split <;> rfl

@[simp] theorem State.healCondition_chain (s : State) (p : Pos) (c : Circ) (k : Condition) :
    (s.healCondition p c k).chain = s.chain := by
  unfold State.healCondition
  split <;> rfl

/-- A circuit's condition rewritten, and the fault of its old condition healed (R129, R131, R133). -/
theorem State.PlaceSound.changeCondition {s : State} {p q : Pos} {c : Circ} {f : Circuit → Circuit} (h : s.PlaceSound q)
    (hf : (f (s.circAt p c)).Fits (s.posAt p) c) :
    ((s.updCirc p c f).healCondition p c (s.circAt p c).condition).PlaceSound q := by
  by_cases hq : q = p
  · subst hq
    obtain ⟨record, requests, circuits, faults⟩ := h
    refine ⟨by simpa using record, by simpa [State.RequestsAt] using requests, fun k => ?_, fun e he hk => ?_⟩
    · rw [State.healCondition_circAt, State.healCondition_posAt, State.updCirc_circAt]
      split
      · next hk => rw [hk.2]; exact hf
      · exact circuits k
    · rcases mem_healCondition he with ⟨he, hne⟩ | ⟨ha, e', he', hk'⟩
      · obtain ⟨on, stands⟩ := faults e he hk
        refine ⟨by simpa using on, fun ha => ?_⟩
        rw [State.stands_congr (s := s.updCirc q c f) e.key (by simp) (by simp)]
        exact State.stands_updCirc f (stands ha) hne
      · exact ⟨by simpa using (faults e' he' (hk' ▸ hk)).1, fun h => absurd (ha.symm.trans h) (by decide)⟩
  · exact (h.of_sameAt (.updCirc hq c f)).of_sameAt (.healCondition hq c _)

end Sys2Proof.Machine
end

