-- ==== Sys2Proof/Proofs/Retire.lean ====
section
/-! SUPPORT. Flags, link errors, judging and retirement keep every part of the chain sound. -/

namespace Sys2Proof.Machine

/-! ### Records -/

/-- Nothing of what is empty away from the chain is asked of an ACTIVE or LOST record. -/
theorem Position.sound_onChain {r : Position} (on : r.state.onChain = true) : r.Sound ↔
    r.identity.isSome = true ∧ r.circuitCount.isSome = true ∧ r.lastHeard.isSome = true ∧
    r.lostSince.isSome = (r.state == .lost) ∧ (∀ n ∈ r.circuitCount, 1 ≤ n ∧ n ≤ 12) ∧
    r.probeAttempts ≤ Config.enumAttempts := by
  have absent : r.state ≠ .absent := fun h => by simp [h, PosState.onChain] at on
  simp [Position.Sound, on, absent]

/-- A record on the chain rewritten in what its state leaves free, no flag of a listed fault lowered. -/
theorem Position.Follows.onChain {r r' : Position} (on : r.state.onChain = true) (state : r'.state = r.state)
    (identity : r'.identity.isSome = r.identity.isSome) (count : r'.circuitCount = r.circuitCount)
    (heard : r.lastHeard.isSome = true → r'.lastHeard.isSome = true) (lost : r'.lostSince = r.lostSince)
    (attempts : r'.probeAttempts = r.probeAttempts) (timeout : r'.enumTimeout = r.enumTimeout)
    (window : r'.queryUntil = r.queryUntil) (feed : r.feedLost = true → r'.feedLost = true)
    (link : r.linkDegraded = true → r'.linkDegraded = true)
    (clash : r.identityClash = true → r'.identityClash = true) : r.Follows r' where
  sound h := by
    obtain ⟨h1, h2, h3, h4, h5, h6⟩ := (Position.sound_onChain on).1 h
    exact (Position.sound_onChain (state ▸ on)).2
      ⟨identity ▸ h1, count ▸ h2, heard h3, by rw [lost, state, h4], count ▸ h5, attempts ▸ h6⟩
  state := state
  count := count
  attempts := attempts
  timeout := timeout
  window := window
  feed := feed
  link := link
  clash := clash

/-- Record `r'` takes the place of `r` as in `Follows`, but that the flag behind the fault kind `kind` may be lowered. -/
structure Position.Lowers (kind : FaultKind) (r r' : Position) : Prop where
  sound : r.Sound → r'.Sound
  state : r'.state = r.state
  count : r'.circuitCount = r.circuitCount
  attempts : r'.probeAttempts = r.probeAttempts
  timeout : r'.enumTimeout = r.enumTimeout
  window : r'.queryUntil = r.queryUntil
  feed : kind ≠ .feedLoss → r'.feedLost = r.feedLost
  link : kind ≠ .linkDegraded → r'.linkDegraded = r.linkDegraded
  clash : kind ≠ .identityClash → r'.identityClash = r.identityClash

/-- A record with one flag cleared is sound where it was. -/
theorem Position.Sound.clearFlag {r r' : Position} (h : r.Sound)
    (hr : r' = { r with feedLost := false } ∨ r' = { r with linkDegraded := false } ∨
      r' = { r with identityClash := false }) :
    r'.Sound := by
  obtain ⟨h1, h2, h3, h4, h5, h6, h7, h8⟩ := h
  have absent : r.state = .absent → r' = r := fun ha => by
    have e := h7 ha
    rcases hr with hr | hr | hr <;> rw [hr, e] <;> rfl
  have fields : r'.identity = r.identity ∧ r'.circuitCount = r.circuitCount ∧ r'.lastHeard = r.lastHeard ∧
      r'.lostSince = r.lostSince ∧ r'.probeAttempts = r.probeAttempts ∧ r'.state = r.state := by
    rcases hr with rfl | rfl | rfl <;> exact ⟨rfl, rfl, rfl, rfl, rfl, rfl⟩
  obtain ⟨e1, e2, e3, e4, e5, e6⟩ := fields
  refine ⟨by rw [e1, e6, h1], by rw [e2, e6, h2], by rw [e3, e6, h3], by rw [e4, e6, h4], by rw [e2]; exact h5,
    by rw [e5]; exact h6, fun ha => ?_, fun off => ?_⟩
  · rw [absent (e6 ▸ ha)]
    exact h7 (e6 ▸ ha)
  · obtain ⟨o1, o2, o3, o4, o5, o6⟩ := h8 (e6 ▸ off)
    rcases hr with rfl | rfl | rfl <;> simp [o1, o2, o3, o4, o5, o6]

/-- A flag cleared and its fault healed (R137, R138, R139). -/
theorem State.PlaceSound.lowerFlag {s : State} {p q : Pos} {kind : FaultKind} {f : Position → Position}
    (h : s.PlaceSound q) (hf : (s.posAt p).Lowers kind (f (s.posAt p))) :
    ((s.updPos p f).heal (posFault p kind)).PlaceSound q := by
  by_cases hq : q = p
  · subst hq
    obtain ⟨record, ⟨enum, query, timeout, window⟩, circuits, faults⟩ := h
    have hpos : ((s.updPos q f).heal (posFault q kind)).posAt q = f (s.posAt q) := State.updPos_posAt_same s q f
    refine ⟨by rw [hpos]; exact hf.sound record, ⟨?_, ?_, ?_, ?_⟩, fun c => ?_, fun e he hk => ?_⟩
    · rw [hpos, hf.state, hf.timeout, hf.attempts]; exact enum
    · rw [hpos, hf.state, hf.window]; exact query
    · rw [hpos, hf.state, hf.timeout]; exact timeout
    · rw [hpos, hf.state, hf.window]; exact window
    · rw [hpos, Circuit.Fits, hf.state, hf.count]; exact circuits c
    · rw [hpos, hf.state]
      rcases mem_faultHeal he with ⟨he, hne⟩ | ⟨hkey, ha, e', he', hk'⟩
      · obtain ⟨on, stands⟩ := faults e he hk
        refine ⟨on, fun ha => ?_⟩
        have hs := stands ha
        obtain ⟨n, ⟨r, circ, k⟩, first, count, active⟩ := e
        obtain rfl : r = q := hk
        unfold State.stands at hs ⊢
        cases circ with
        | some c => exact hs
        | none =>
          have hkne : kind ≠ k := fun h => hne (by rw [h]; rfl)
          cases k <;> simp_all [hf.feed, hf.link, hf.clash]
      · exact ⟨(faults e' he' (by rw [hk']; rfl)).1, fun h => absurd (ha.symm.trans h) (by decide)⟩
  · exact (h.of_sameAt (.updPos hq f)).of_sameAt (.heal (by exact hq))

/-! ### Flags -/

theorem State.PlaceSound.setSupplyLow {s : State} {p q : Pos} (h : s.PlaceSound q)
    (on : (s.posAt p).state.onChain = true) (b : Bool) : (s.setSupplyLow p b).PlaceSound q :=
  h.updPos (.onChain on rfl rfl rfl id rfl rfl rfl rfl id id id)

theorem State.PlaceSound.raiseFeedLost {s : State} {p q : Pos} (h : s.PlaceSound q)
    (on : (s.posAt p).state.onChain = true) : (s.raiseFeedLost p).PlaceSound q := by
  unfold State.raiseFeedLost
  split
  · exact h
  · exact (h.updPos (.onChain on rfl rfl rfl id rfl rfl rfl rfl (fun _ => rfl) id id)).add
      (by simpa [posFault] using on) (by simp [State.stands, posFault])

theorem State.PlaceSound.clearFeedLost {s : State} {p q : Pos} (h : s.PlaceSound q) : (s.clearFeedLost p).PlaceSound q := by
  unfold State.clearFeedLost
  split
  · exact h.lowerFlag ⟨fun h => h.clearFlag (.inl rfl), rfl, rfl, rfl, rfl, rfl, fun h => absurd rfl h, fun _ => rfl,
      fun _ => rfl⟩
  · exact h

theorem State.PlaceSound.raiseLinkDegraded {s : State} {p q : Pos} (h : s.PlaceSound q)
    (on : (s.posAt p).state.onChain = true) : (s.raiseLinkDegraded p).PlaceSound q := by
  unfold State.raiseLinkDegraded
  split
  · exact h
  · exact (h.updPos (.onChain on rfl rfl rfl id rfl rfl rfl rfl id (fun _ => rfl) id)).add
      (by simpa [posFault] using on) (by simp [State.stands, posFault])

theorem State.PlaceSound.clearLinkDegraded {s : State} {p q : Pos} (h : s.PlaceSound q) :
    (s.clearLinkDegraded p).PlaceSound q :=
  h.lowerFlag ⟨fun h => h.clearFlag (.inr (.inl rfl)), rfl, rfl, rfl, rfl, rfl, fun _ => rfl, fun h => absurd rfl h,
    fun _ => rfl⟩

theorem State.PlaceSound.reviewClash {s : State} {p q : Pos} (i : Identity) (h : s.PlaceSound q) :
    (State.reviewClash i s p).PlaceSound q := by
  unfold State.reviewClash
  split
  · exact h.lowerFlag ⟨fun h => h.clearFlag (.inr (.inr rfl)), rfl, rfl, rfl, rfl, rfl, fun _ => rfl, fun _ => rfl,
      fun h => absurd rfl h⟩
  · exact h

/-! ### Link errors (R49) -/

theorem State.PlaceSound.addLinkErrors {s : State} {p q : Pos} (h : s.PlaceSound q)
    (on : (s.posAt p).state.onChain = true) (n : Nat) : (s.addLinkErrors p n).PlaceSound q := by
  have h1 := h.updPos (f := fun r => { r with linkErrors := bump r.linkErrors n })
    (.onChain on rfl rfl rfl id rfl rfl rfl rfl id id id)
  unfold State.addLinkErrors
  dsimp only
  split
  · exact h1.raiseLinkDegraded (by simpa using on)
  · exact h1

theorem State.PlaceSound.addFarEnd {s : State} {p q : Pos} (h : s.PlaceSound q)
    (on : (s.posAt p).state.onChain = true) (n : Nat) : (s.addFarEnd p n).PlaceSound q :=
  (h.updPos (.onChain on rfl rfl rfl id rfl rfl rfl rfl id id id)).addLinkErrors (by simpa using on) n

theorem State.PlaceSound.addMissed {s : State} {p q : Pos} (h : s.PlaceSound q)
    (on : (s.posAt p).state.onChain = true) : (s.addMissed p).PlaceSound q :=
  (h.updPos (.onChain on rfl rfl rfl id rfl rfl rfl rfl id id id)).addLinkErrors (by simpa using on) 1

/-- The end of a link error interval at one position, on the chain or not (R49). -/
theorem State.PlaceSound.endLinkInterval {s : State} {p q : Pos} (h : s.PlaceSound q) :
    (s.endLinkInterval p).PlaceSound q := by
  have zero : ∀ r : Position, r.Follows { r with linkErrors := 0 } := fun r =>
    ⟨fun ⟨h1, h2, h3, h4, h5, h6, h7, h8⟩ => ⟨h1, h2, h3, h4, h5, h6, fun ha => by rw [h7 ha]; rfl, fun off =>
      let ⟨o1, o2, o3, o4, _, o6⟩ := h8 off
      ⟨o1, o2, o3, o4, rfl, o6⟩⟩, rfl, rfl, rfl, rfl, rfl, id, id, id⟩
  unfold State.endLinkInterval
  dsimp only
  split
  · exact h.clearLinkDegraded.updPos (zero _)
  · exact h.updPos (zero _)

/-! ### Judging (R80) -/

theorem State.PlaceSound.addCondition {s : State} {p q : Pos} {c : Circ} {k : Condition} (h : s.PlaceSound q)
    (on : (s.posAt p).state.onChain = true) (hk : (s.circAt p c).condition = k) :
    (s.addCondition p c k).PlaceSound q := by
  unfold State.addCondition
  split
  · next kind hkind => exact h.add on (by simp [State.stands, hk, hkind])
  · exact h

theorem State.PlaceSound.confirm {s : State} {p q : Pos} {c : Circ} (h : s.PlaceSound q)
    (on : (s.posAt p).state.onChain = true) (reached : countReaches (s.posAt p).circuitCount c = true) (v : Verdict) :
    (s.confirm p c v).PlaceSound q := by
  unfold State.confirm
  dsimp only
  split
  · exact h
  · exact (h.changeCondition (Circuit.fits_of_reached on reached _)).addCondition (by simpa using on)
      (by simp [State.updCirc_circAt])

theorem State.PlaceSound.recordReading {s : State} {p q : Pos} {kind : EntryKind} {loss : Bool} {j : Judged} (h : s.PlaceSound q)
    (on : (s.posAt p).state.onChain = true) (reached : countReaches (s.posAt p).circuitCount j.circ = true) :
    (s.record p kind loss j).PlaceSound q :=
  h.updCirc rfl (Circuit.fits_of_reached on reached _)

theorem State.PlaceSound.handBaseline {s : State} {p q : Pos} {loss : Bool} {j : Judged} (h : s.PlaceSound q)
    (on : (s.posAt p).state.onChain = true) (reached : countReaches (s.posAt p).circuitCount j.circ = true) :
    (s.handBaseline p loss j).PlaceSound q := by
  unfold State.handBaseline
  split
  · exact h.updCirc rfl (Circuit.fits_of_reached on reached _)
  · exact h

theorem State.PlaceSound.toConfirmation {s : State} {p q : Pos} {loss : Bool} {j : Judged} (h : s.PlaceSound q)
    (on : (s.posAt p).state.onChain = true) (reached : countReaches (s.posAt p).circuitCount j.circ = true) :
    (s.toConfirmation p loss j).PlaceSound q := by
  unfold State.toConfirmation
  split
  · exact h
  · have agreed : ∀ n, (s.updCirc p j.circ (agree n j.verdict)).PlaceSound q := fun n =>
      h.updCirc (by unfold agree; split <;> rfl) (Circuit.fits_of_reached on reached _)
    dsimp only
    split
    · exact (agreed _).confirm on reached _
    · exact agreed _

/-- Judging keeps a position's state. -/
theorem State.JudgedFrom.state {s u : State} (h : s.JudgedFrom u) (p : Pos) : (u.posAt p).state = (s.posAt p).state := by
  rw [h.pos p]

/-- Judging keeps a position's count. -/
theorem State.JudgedFrom.count {s u : State} (h : s.JudgedFrom u) (p : Pos) :
    (u.posAt p).circuitCount = (s.posAt p).circuitCount := by
  rw [h.pos p]

/-- Step 5 of R80 for one used reading of a circuit that the count of an ACTIVE or LOST position reaches. -/
theorem State.PlaceSound.takeReading {s : State} {p q : Pos} {kind : EntryKind} {loss : Bool} {j : Judged}
    (h : s.PlaceSound q) (on : (s.posAt p).state.onChain = true)
    (reached : countReaches (s.posAt p).circuitCount j.circ = true) :
    (State.takeReading p kind loss s j).PlaceSound q := by
  have frame := State.JudgedFrom.handBaseline (s.record p kind loss j) p loss j
  exact ((h.recordReading on reached).handBaseline on reached).toConfirmation (by rw [frame.state]; exact on)
    (by rw [frame.count]; exact reached)

theorem State.PlaceSound.takeReadings {p q : Pos} {kind : EntryKind} {loss : Bool} (js : List Judged) {s : State}
    (h : s.PlaceSound q) (on : (s.posAt p).state.onChain = true)
    (reached : ∀ j ∈ js, countReaches (s.posAt p).circuitCount j.circ = true) :
    (js.foldl (State.takeReading p kind loss) s).PlaceSound q := by
  induction js generalizing s with
  | nil => exact h
  | cons j js ih =>
    have frame := State.JudgedFrom.takeReading p kind loss s j
    refine ih (h.takeReading on (reached j (by simp))) (by rw [frame.state]; exact on) fun k hk => ?_
    rw [frame.count]
    exact reached k (by simp [hk])

/-- A used reading is of a fitted circuit (R83). -/
theorem State.usedReadings_reached {s : State} {e : Entry} {x : Transmission} {a : Answer} {j : Judged}
    (h : j ∈ s.usedReadings e x a) : countReaches (s.posAt a.pos).circuitCount j.circ = true := by
  obtain ⟨c, -, hc⟩ := List.mem_filterMap.1 h
  unfold State.usedReading at hc
  split at hc
  · split at hc
    · next used =>
      cases hc
      simp only [State.fitted, Bool.and_eq_true] at used
      exact used.1.1.2
    · cases hc
  · cases hc

theorem State.PlaceSound.feedTest {s : State} {p q : Pos} (h : s.PlaceSound q)
    (on : (s.posAt p).state.onChain = true) (js : List Judged) : (s.feedTest p js).PlaceSound q := by
  unfold State.feedTest
  split
  · exact h.raiseFeedLost on
  · split
    · exact h.clearFeedLost
    · exact h

/-- An answer of an ACTIVE or LOST position handed to the Reconciler. -/
theorem State.PlaceSound.reconcile {s : State} {e : Entry} {x : Transmission} {a : Answer} {q : Pos} (h : s.PlaceSound q)
    (on : (s.posAt a.pos).state.onChain = true) : (s.reconcile e x a).PlaceSound q := by
  unfold State.reconcile
  split
  · exact h
  · split
    · exact h.setSupplyLow on true
    · have low := h.setSupplyLow on false
      have on' : ((s.setSupplyLow a.pos false).posAt a.pos).state.onChain = true := by
        rw [(State.JudgedFrom.setSupplyLow s a.pos false).state]
        exact on
      have frame := State.JudgedFrom.feedTest (s.setSupplyLow a.pos false) a.pos
        ((s.setSupplyLow a.pos false).usedReadings e x a)
      refine .takeReadings _ (low.feedTest on' _) (by rw [frame.state]; exact on') fun j hj => ?_
      rw [frame.count]
      exact State.usedReadings_reached hj

/-- The answers of an entry handed, all of them from ACTIVE or LOST positions (R70). -/
theorem State.PlaceSound.handAnswers {s : State} {e : Entry} {q : Pos} (h : s.PlaceSound q)
    (on : ∀ a ∈ e.answers, (s.posAt a.pos).state.onChain = true) : (s.handAnswers e).PlaceSound q := by
  unfold State.handAnswers
  split
  · next x _ =>
    generalize allPos = l
    induction l generalizing s with
    | nil => exact h
    | cons p l ih =>
      rw [List.foldl_cons]
      split
      · next a ha =>
        have frame := State.JudgedFrom.reconcile s e x a
        refine ih (h.reconcile (on a (List.mem_of_find?_eq_some ha))) fun b hb => ?_
        rw [frame.state]
        exact on b hb
      · exact ih h on
  · exact h

/-! ### Retirement (R69 to R73) -/

/-- Two states alike in all that `ChainSound` reads. -/
structure State.SameChain (s u : State) : Prop where
  positions : u.chain.positions = s.chain.positions
  requests : u.chain.linkRequests = s.chain.linkRequests
  entries : u.queue.entries = s.queue.entries
  tags : u.queue.tagCounter = s.queue.tagCounter
  circuits : u.circuits = s.circuits
  faults : u.image.faults = s.image.faults

theorem State.SameChain.posAt {s u : State} (a : s.SameChain u) (p : Pos) : u.posAt p = s.posAt p := by
  simp only [State.posAt, a.positions]

theorem State.PartsSound.of_same {s u : State} (h : s.PartsSound) (a : s.SameChain u) : u.PartsSound where
  requests := a.requests ▸ h.requests
  tags := by
    have := h.tags
    simpa only [State.TagsInOrder, a.entries, a.tags] using this
  entries := by
    intro e he
    have := h.entries e (a.entries ▸ he)
    simpa only [State.EntryActive, State.isActive, a.posAt] using this
  places q := (h.places q).of_sameAt (.of_eq s u a.positions a.requests a.circuits a.faults q)

/-- The shape of the chain is read from the positions' states. -/
theorem State.ChainShape.of_states {s u : State} (h : s.ChainShape) (a : ∀ p, (u.posAt p).state = (s.posAt p).state) :
    u.ChainShape := by
  intro p q hpq off
  rw [a] at off ⊢
  exact h p q hpq off

theorem State.Coherent.of_same {s u : State} (h : s.Coherent) (a : s.SameChain u) : u.Coherent := by
  exact ⟨h.1.of_states fun p => by rw [a.posAt], h.2.of_same a⟩

theorem State.EntryActive.mono {s u : State} {e : Entry} (h : s.EntryActive e)
    (a : ∀ p, s.isActive p = true → u.isActive p = true) : u.EntryActive e := by
  obtain ⟨waiting, positions⟩ := h
  refine ⟨fun hw => ?_, fun p => ?_⟩
  · obtain ⟨h1, h2, h3, h4⟩ := waiting hw
    exact ⟨h1, h2, h3, fun g hg => a _ (h4 g hg)⟩
  · obtain ⟨h1, h2, h3⟩ := positions p
    exact ⟨fun h => a p (h1 h), h2, h3⟩

/-- States with the same positions ACTIVE hold the same entries to the same standard. -/
theorem State.EntryActive.of_states {s u : State} {e : Entry} (h : s.EntryActive e)
    (a : ∀ p, (u.posAt p).state = (s.posAt p).state) : u.EntryActive e :=
  h.mono fun p hp => by simpa [State.isActive, a p] using hp

theorem State.isActive_onChain {s : State} {p : Pos} (h : s.isActive p = true) : (s.posAt p).state.onChain = true := by
  have : (s.posAt p).state = .active := by simpa [State.isActive] using h
  rw [this]
  rfl

/-- The positions that answered an entry are ACTIVE. -/
theorem State.EntryActive.answers {s : State} {e : Entry} (h : s.EntryActive e) {a : Answer} (ha : a ∈ e.answers) :
    s.isActive a.pos = true := by
  obtain ⟨required, answered, answers⟩ := h.2 a.pos
  exact required (answered (answers ⟨a, ha, rfl⟩))

/-- What judging keeps of the parts, once the places are kept. -/
theorem State.PartsSound.judged {s u : State} (h : s.PartsSound) (a : s.JudgedFrom u) (places : ∀ q, u.PlaceSound q) :
    u.PartsSound where
  requests := by rw [a.chain]; exact h.requests
  tags := by
    have := h.tags
    simpa only [State.TagsInOrder, a.queue] using this
  entries e he := (h.entries e (a.queue ▸ he)).of_states a.state
  places := places

/-- The tags stay in order when the head leaves. -/
theorem State.TagsInOrder.tail {s : State} {e : Entry} {rest : List Entry} (h : s.TagsInOrder)
    (he : s.queue.entries = e :: rest) : (s.updQueue fun q => { q with entries := rest }).TagsInOrder := by
  obtain ⟨counter, length, tags⟩ := h
  rw [he] at length tags
  simp only [List.length_cons] at length tags
  refine ⟨counter, by simp only [State.updQueue_queue]; omega, ?_⟩
  rw [List.range_succ_eq_map, List.map_cons, List.map_cons, List.map_map] at tags
  have tail := (List.cons.inj tags).2
  rw [State.updQueue_queue]
  dsimp only
  rw [tail]
  refine List.map_congr_left fun i hi => ?_
  have hi' := List.mem_range.1 hi
  simp only [Function.comp, Config.queueCapacity] at length ⊢
  congr 1
  omega

theorem State.PartsSound.retireOne {s : State} {e : Entry} {rest : List Entry} (h : s.PartsSound)
    (he : s.queue.entries = e :: rest) : (s.retireOne e rest).PartsSound := by
  have active := h.entries e (by rw [he]; simp)
  have frame := State.JudgedFrom.handAnswers s e
  have h1 : (s.handAnswers e).PartsSound := h.judged frame fun q =>
    (h.places q).handAnswers fun a ha => State.isActive_onChain (active.answers ha)
  have h2 : ((s.handAnswers e).setRetired e).PartsSound := h1.of_same (by
    unfold State.setRetired
    split
    · split <;> exact ⟨rfl, rfl, rfl, rfl, rfl, rfl⟩
    · exact ⟨rfl, rfl, rfl, rfl, rfl, rfl⟩)
  have h3 : (((s.handAnswers e).setRetired e).clearUntracked e).PartsSound := h2.of_same (by
    unfold State.clearUntracked
    split
    · split <;> exact ⟨rfl, rfl, rfl, rfl, rfl, rfl⟩
    · exact ⟨rfl, rfl, rfl, rfl, rfl, rfl⟩)
  have entries : (((s.handAnswers e).setRetired e).clearUntracked e).queue.entries = e :: rest := by
    have hq : (((s.handAnswers e).setRetired e).clearUntracked e).queue = (s.handAnswers e).queue := by
      unfold State.clearUntracked State.setRetired
      repeat' split
      all_goals rfl
    rw [hq, frame.queue, he]
  exact ⟨h3.requests, h3.tags.tail entries, fun x hx => h3.entries x (by rw [entries]; exact List.mem_cons_of_mem _ hx),
    fun q => (h3.places q).of_sameAt (.updQueue _ _ q)⟩

theorem State.PartsSound.retireFrom (l : List Entry) {s : State} (h : s.PartsSound) (hl : s.queue.entries = l) :
    (State.retireFrom l s).PartsSound := by
  induction l generalizing s with
  | nil => exact h
  | cons e rest ih =>
    unfold State.retireFrom
    split
    · exact ih (h.retireOne hl) rfl
    · exact h

/-- The retirements due at an event keep every part sound (R69). -/
theorem State.PartsSound.retire {s : State} (h : s.PartsSound) : s.retire.PartsSound := h.retireFrom _ rfl

/-- Retirements keep every position's state. -/
theorem State.RetiredFrom.state {s u : State} (h : s.RetiredFrom u) (p : Pos) : (u.posAt p).state = (s.posAt p).state := by
  rw [h.pos p]

end Sys2Proof.Machine
end

