-- ==== Sys2Proof/Proofs/Send.lean ====
section
/-! SUPPORT. Allocations, the transmitter's pick and the Check Scheduler's run keep every part of the chain sound. -/

namespace Sys2Proof.Machine

/-! ### Tags -/

/-- The tags of the live entries are distinct. -/
theorem State.TagsInOrder.nodup {s : State} (h : s.TagsInOrder) : (s.queue.entries.map (·.tag)).Nodup := by
  obtain ⟨counter, length, tags⟩ := h
  rw [tags]
  refine List.Nodup.map_on (fun i hi j hj hij => ?_) List.nodup_range
  have hi' := List.mem_range.1 hi
  have hj' := List.mem_range.1 hj
  simp only [Config.queueCapacity] at length
  omega

/-- A live entry is told by its tag. -/
theorem State.TagsInOrder.entry_unique {s : State} (h : s.TagsInOrder) {e x : Entry} (he : e ∈ s.queue.entries)
    (hx : x ∈ s.queue.entries) (ht : x.tag = e.tag) : x = e :=
  List.inj_on_of_nodup_map h.nodup hx he ht

/-- The tags stay in order when no entry's tag is rewritten. -/
theorem State.TagsInOrder.mapEntries {s : State} (h : s.TagsInOrder) (f : Entry → Entry)
    (hf : ∀ e ∈ s.queue.entries, (f e).tag = e.tag) :
    (s.updQueue fun q => { q with entries := q.entries.map f }).TagsInOrder := by
  obtain ⟨counter, length, tags⟩ := h
  refine ⟨counter, by simpa using length, ?_⟩
  simp only [State.updQueue_queue, List.length_map, List.map_map]
  rw [← tags]
  exact List.map_congr_left hf

/-- The tags stay in order when an entry joins at the tail (R53). -/
theorem State.TagsInOrder.allocate {s : State} (h : s.TagsInOrder) (room : s.queue.hasRoom = true) (kind : EntryKind)
    (image : Option Image) (changed : FnSet) (target : Option CheckTarget) :
    (s.updQueue fun q => q.allocate kind image changed target).TagsInOrder := by
  obtain ⟨counter, length, tags⟩ := h
  have room' : s.queue.entries.length < 16 := of_decide_eq_true room
  simp only [State.TagsInOrder, State.updQueue_queue, Queue.allocate, List.length_append, List.length_singleton,
    List.map_append, List.map_singleton, Config.queueCapacity]
  refine ⟨by omega, by omega, ?_⟩
  rw [List.range_succ, List.map_append, tags]
  congr 1
  · refine List.map_congr_left fun i hi => ?_
    have := List.mem_range.1 hi
    omega
  · rw [List.map_singleton]
    congr 1
    omega

/-! ### Entries rewritten and allocated -/

/-- The live entries rewritten, tags kept and each as sound as before. -/
theorem State.PartsSound.mapEntries {s : State} (h : s.PartsSound) (f : Entry → Entry)
    (hf : ∀ e ∈ s.queue.entries, (f e).tag = e.tag ∧ s.EntryActive (f e)) :
    (s.updQueue fun q => { q with entries := q.entries.map f }).PartsSound where
  requests := h.requests
  tags := h.tags.mapEntries f fun e he => (hf e he).1
  entries x hx := by
    obtain ⟨e, he, rfl⟩ := List.mem_map.1 hx
    exact (hf e he).2
  places q := (h.places q).of_sameAt (.updQueue _ _ q)

/-- One live entry rewritten. -/
theorem State.PartsSound.updEntry {s : State} (h : s.PartsSound) (tag : Nat) (f : Entry → Entry)
    (hf : ∀ e ∈ s.queue.entries, e.tag = tag → (f e).tag = e.tag ∧ s.EntryActive (f e)) : (s.updEntry tag f).PartsSound :=
  h.mapEntries _ fun e he => by
    by_cases ht : e.tag = tag
    · simpa [ht] using hf e he ht
    · simpa [ht] using h.entries e he

/-- A new entry requires nothing and awaits nothing; its target, if it has one, is ACTIVE (R53, R54, R116). -/
theorem State.PartsSound.allocate {s : State} (h : s.PartsSound) (room : s.queue.hasRoom = true) (kind : EntryKind)
    (image : Option Image) (changed : FnSet) (target : Option CheckTarget)
    (active : ∀ g ∈ target, s.isActive g.pos = true) :
    (s.updQueue fun q => q.allocate kind image changed target).PartsSound where
  requests := h.requests
  tags := h.tags.allocate room kind image changed target
  entries e he := by
    rcases List.mem_append.1 he with he | he
    · exact h.entries e he
    · obtain rfl := List.mem_singleton.1 he
      exact ⟨fun _ => ⟨rfl, rfl, rfl, active⟩, fun p => ⟨fun hp => by simp at hp, fun hp => by simp at hp,
        fun ⟨_, ha, _⟩ => by simp at ha⟩⟩
  places q := (h.places q).of_sameAt (.updQueue _ _ q)

theorem State.PartsSound.divert {s : State} (h : s.PartsSound) (changed : FnSet) : (s.divert changed).PartsSound :=
  h.of_same ⟨rfl, rfl, rfl, rfl, rfl, rfl⟩

theorem State.PartsSound.requestChange {s : State} (h : s.PartsSound) (old : Image) : (s.requestChange old).PartsSound := by
  unfold State.requestChange
  dsimp only
  split
  · next track =>
    simp only [Queue.canTrack, Bool.and_eq_true] at track
    exact h.allocate track.2.1 _ _ _ _ (by simp)
  · exact h.divert _

theorem State.PartsSound.requestResync {s : State} (h : s.PartsSound) : s.requestResync.PartsSound := by
  unfold State.requestResync
  split
  · next track =>
    simp only [Queue.canTrack, Bool.and_eq_true] at track
    exact h.allocate track.2.1 _ _ _ _ (by simp)
  · exact h.divert _

theorem State.PartsSound.requestPoll {s : State} (h : s.PartsSound) : s.requestPoll.PartsSound := by
  unfold State.requestPoll
  split
  · next room =>
    simp only [Queue.hasPollCheckRoom, Bool.and_eq_true] at room
    exact h.allocate room.1 _ _ _ _ (by simp)
  · exact h.of_same ⟨rfl, rfl, rfl, rfl, rfl, rfl⟩

/-! ### Transmission -/

theorem State.PartsSound.beginTelegram {s : State} (h : s.PartsSound) (x : Downstream) : (s.beginTelegram x).PartsSound :=
  h.of_same ⟨rfl, rfl, rfl, rfl, rfl, rfl⟩

theorem State.PartsSound.imageSent {s : State} (h : s.PartsSound) (i : Image) : (s.imageSent i).PartsSound :=
  h.of_same ⟨rfl, rfl, rfl, rfl, rfl, rfl⟩

/-- A WAITING entry sent requires ACTIVE positions alone and has no answer yet (R64). -/
theorem State.PartsSound.transmitEntry {s : State} (h : s.PartsSound) {e : Entry} (he : e ∈ s.queue.entries)
    (waiting : e.state = .waiting) (i : Image) (delay : Nat) {required : PosSet}
    (active : ∀ p, hasPos required p = true → s.isActive p = true) : (s.transmitEntry e i delay required).PartsSound :=
  h.updEntry _ _ fun x hx ht => by
    obtain rfl := h.tags.entry_unique he hx ht
    obtain ⟨-, answered, answers, -⟩ := (h.entries _ hx).1 waiting
    refine ⟨rfl, fun hw => ?_, fun p => ⟨active p, fun hp => ?_, fun ⟨a, ha, _⟩ => ?_⟩⟩
    · dsimp only at hw
      split at hw <;> cases hw
    · simp [answered] at hp
    · simp [answers] at ha

theorem State.activeSet_active {s : State} (p : Pos) (h : hasPos s.activeSet p = true) : s.isActive p = true := by
  simpa [State.activeSet] using h

theorem State.PartsSound.sendSet {s : State} (h : s.PartsSound) {e : Entry} (he : e ∈ s.queue.entries)
    (waiting : e.state = .waiting) : (s.sendSet e).PartsSound :=
  (((h.imageSent _).beginTelegram _).transmitEntry he waiting _ _ State.activeSet_active).retire

theorem State.PartsSound.sendSlot {s : State} (h : s.PartsSound) (i : Image) : (s.sendSlot i).PartsSound :=
  h.of_same ⟨rfl, rfl, rfl, rfl, rfl, rfl⟩

theorem State.PartsSound.sendPoll {s : State} (h : s.PartsSound) {e : Entry} (he : e ∈ s.queue.entries)
    (waiting : e.state = .waiting) : (s.sendPoll e).PartsSound :=
  ((h.beginTelegram _).transmitEntry he waiting _ _ State.activeSet_active).retire

/-- What a CHECK's transmission leaves with the Check Scheduler, at an ACTIVE position (R122). -/
theorem State.PlaceSound.checkSent {s : State} {q : Pos} (h : s.PlaceSound q) {t : CheckTarget}
    (target : s.PlaceSound t.pos) (active : s.isActive t.pos = true) : (s.checkSent t).PlaceSound q := by
  have on := State.isActive_onChain active
  have same : (s.updChecks fun k => { k with times := upd k.times t.pos (pushCheckTime s.now) }).PlaceSound q :=
    h.of_sameAt ⟨rfl, fun _ => rfl, fun _ h _ => h, fun _ h _ => h⟩
  exact same.updCirc rfl ⟨fun off => absurd (off.symm.trans on) (by decide), (target.circuits t.circ).2⟩

theorem State.PartsSound.sendCheck {s : State} (h : s.PartsSound) {e : Entry} {t : CheckTarget}
    (he : e ∈ s.queue.entries) (waiting : e.state = .waiting) (ht : e.target = some t) : (s.sendCheck e t).PartsSound := by
  have active : s.isActive t.pos = true := ((h.entries e he).1 waiting).2.2.2 t ht
  have sent := (h.beginTelegram (.check e.tag t.pos t.circ t.pulse)).transmitEntry he waiting s.chain.transmitted 0
    (required := if s.isActive t.pos then posBit t.pos else 0) fun p hp => by
      rw [if_pos active] at hp
      simp only [hasPos_posBit, decide_eq_true_eq] at hp
      exact hp ▸ active
  exact State.PartsSound.retire ⟨sent.requests, sent.tags, sent.entries,
    fun q => (sent.places q).checkSent (sent.places _) active⟩

theorem State.PartsSound.pickPoll {s : State} (h : s.PartsSound) : s.pickPoll.PartsSound := by
  unfold State.pickPoll
  split
  · next e he =>
    have waiting := List.find?_some he
    simp only [Bool.and_eq_true, beq_iff_eq] at waiting
    exact h.sendPoll (List.mem_of_find?_eq_some he) waiting.1
  · split
    · exact h.of_same ⟨rfl, rfl, rfl, rfl, rfl, rfl⟩
    · exact h

/-- A CHECK that completes empty (R65). -/
theorem State.PartsSound.completeEmpty {s : State} (h : s.PartsSound) (tag : Nat) : (s.completeEmpty tag).PartsSound :=
  State.PartsSound.retire (h.updEntry tag _ fun e he _ => ⟨rfl, fun hw => (by cases hw), (h.entries e he).2⟩)

/-- Completing one entry leaves the live entries of other tags among those there were. -/
theorem State.mem_completeEmpty {s : State} {tag : Nat} {e : Entry} (he : e ∈ (s.completeEmpty tag).queue.entries)
    (ht : e.tag ≠ tag) : e ∈ s.queue.entries := by
  rw [State.completeEmpty, State.retire_entries] at he
  obtain ⟨x, hx, rfl⟩ := List.mem_map.1 ((List.dropWhile_sublist _).subset he)
  by_cases hxt : x.tag = tag
  · simp [hxt] at ht
  · simpa [hxt] using hx

/-- The search among CHECKs that are all WAITING (R39, step 3). -/
theorem State.PartsSound.pickCheck (tags : List Nat) {s : State} (h : s.PartsSound) (nodup : tags.Nodup)
    (waiting : ∀ e ∈ s.queue.entries, e.tag ∈ tags → e.state = .waiting) : (State.pickCheck tags s).PartsSound := by
  induction tags generalizing s with
  | nil => exact h.pickPoll
  | cons tag tags ih =>
    obtain ⟨fresh, nodup'⟩ := List.nodup_cons.1 nodup
    have rest := fun e he ht => waiting e he (List.mem_cons_of_mem tag ht)
    unfold State.pickCheck
    split
    · next e he =>
      have mem := List.mem_of_find?_eq_some he
      have tag_eq : e.tag = tag := by simpa using List.find?_some he
      split
      · next t ht =>
        split
        · refine ih (h.completeEmpty tag) nodup' fun x hx hxt => ?_
          exact rest x (State.mem_completeEmpty hx fun hxtag => fresh (hxtag ▸ hxt)) hxt
        · split
          · exact h.sendCheck mem (waiting e mem (by simp [tag_eq])) ht
          · exact ih h nodup' rest
      · exact ih h nodup' rest
    · exact ih h nodup' rest

/-- The CHECKs of the search are WAITING and of distinct tags. -/
theorem State.PartsSound.waitingChecks {s : State} (h : s.PartsSound) : s.queue.waitingChecks.Nodup ∧
    ∀ e ∈ s.queue.entries, e.tag ∈ s.queue.waitingChecks → e.state = .waiting := by
  refine ⟨h.tags.nodup.sublist (List.filter_sublist.map _), fun e he ht => ?_⟩
  obtain ⟨x, hx, hxt⟩ := List.mem_map.1 ht
  obtain ⟨hx, hw⟩ := List.mem_filter.1 hx
  simp only [Bool.and_eq_true, beq_iff_eq] at hw
  rw [← h.tags.entry_unique he hx hxt]
  exact hw.1

/-- A place that differs in its probing fields alone is sound as its requests are. -/
theorem State.PlaceSound.reask {s u : State} {q : Pos} (h : s.PlaceSound q) {a : Nat} {t w : Option Time}
    (pos : u.posAt q = { s.posAt q with probeAttempts := a, enumTimeout := t, queryUntil := w })
    (circ : ∀ c, u.circAt q c = s.circAt q c) (faults : u.image.faults = s.image.faults)
    (requests : u.RequestsAt q) (present : (s.posAt q).state ≠ .absent) (attempts : a ≤ Config.enumAttempts) :
    u.PlaceSound q := by
  obtain ⟨⟨h1, h2, h3, h4, h5, -, -, h8⟩, -, fits, stand⟩ := h
  refine ⟨?_, requests, fun c => ?_, fun e he hq => ?_⟩
  · rw [pos]
    exact ⟨h1, h2, h3, h4, h5, attempts, fun ha => absurd ha present, h8⟩
  · rw [pos, circ]
    exact fits c
  · obtain ⟨on, stands⟩ := stand e (faults ▸ he) hq
    refine ⟨by rw [pos]; exact on, fun ha => ?_⟩
    rw [← stands ha]
    unfold State.stands
    subst hq
    simp only [pos, circ]

/-- The pick keeps every position's state. -/
theorem State.SentFrom.state {s u : State} (h : s.SentFrom u) (p : Pos) : (u.posAt p).state = (s.posAt p).state := by
  rw [h.pos p]

/-- What is pending once a request of another position is sent was pending before. -/
theorem State.SameAt.sendLink {s : State} {r : LinkRequest} {rest : List LinkRequest} {q : Pos}
    (hr : s.chain.linkRequests = r :: rest) (he : r ≠ .enum q) (hq : r ≠ .query q) : s.SameAt (s.sendLink r rest) q := by
  have kept : ∀ x ∈ rest, x ∈ s.chain.linkRequests := fun x hx => by rw [hr]; exact List.mem_cons_of_mem _ hx
  cases r with
  | enum p =>
    exact ⟨State.updPos_posAt_ne _ p q _ fun h => he (by rw [h]), fun _ => rfl, fun x hx _ => kept x hx, fun _ h _ => h⟩
  | query p =>
    exact ⟨State.updPos_posAt_ne _ p q _ fun h => hq (by rw [h]), fun _ => rfl, fun x hx _ => kept x hx, fun _ h _ => h⟩

/-- A pending ENUM or QUERY sent (R26, R32): the position's record shows the attempt or the window, and the request is gone. -/
theorem State.PartsSound.sendLink {s : State} (h : s.PartsSound) {r : LinkRequest} {rest : List LinkRequest}
    (hr : s.chain.linkRequests = r :: rest) : (s.sendLink r rest).PartsSound := by
  have nodup := h.requests
  rw [hr] at nodup
  obtain ⟨fresh, nodup'⟩ := List.nodup_cons.1 nodup
  have front : r ∈ s.chain.linkRequests := by rw [hr]; simp
  have queue : (s.sendLink r rest).queue = s.queue := by cases r <;> rfl
  have requests : (s.sendLink r rest).chain.linkRequests = rest := by cases r <;> rfl
  refine ⟨by rw [requests]; exact nodup', ?_, fun e he => ?_, fun q => ?_⟩
  · have := h.tags
    simpa only [State.TagsInOrder, queue] using this
  · exact (h.entries e (queue ▸ he)).of_states (State.SentFrom.sendLink s r rest).state
  · obtain ⟨enum, query, timeout, window⟩ := (h.places q).requests
    by_cases he : r = .enum q
    · subst he
      obtain ⟨state, none, left⟩ := enum front
      have pos : (s.sendLink (.enum q) rest).posAt q = { s.posAt q with
          probeAttempts := (s.posAt q).probeAttempts + 1, enumTimeout := some (s.now + Config.enumTimeoutMs) } :=
        State.updPos_posAt_same _ q _
      refine (h.places q).reask pos (fun _ => rfl) rfl
        ⟨fun hm => absurd (requests ▸ hm) fresh, fun hm => ?_, fun _ => ?_, ?_⟩
        (by simp [state]) left
      · rw [pos]
        exact query (by rw [hr]; exact List.mem_cons_of_mem _ (requests ▸ hm))
      · rw [pos]
        exact state
      · rw [pos]
        exact window
    · by_cases hq : r = .query q
      · subst hq
        obtain ⟨state, none⟩ := query front
        have pos : (s.sendLink (.query q) rest).posAt q = { s.posAt q with
            queryUntil := some (s.now + Config.enumTimeoutMs) } := State.updPos_posAt_same _ q _
        refine (h.places q).reask pos (fun _ => rfl) rfl
          ⟨fun hm => ?_, fun hm => absurd (requests ▸ hm) fresh, ?_, fun _ => ?_⟩
          (by simp [state]) (h.places q).record.2.2.2.2.2.1
        · rw [pos]
          exact enum (by rw [hr]; exact List.mem_cons_of_mem _ (requests ▸ hm))
        · rw [pos]
          exact timeout
        · rw [pos]
          exact state
      · exact (h.places q).of_sameAt (.sendLink hr he hq)

/-- The transmitter's pick keeps every part sound (R39). -/
theorem State.PartsSound.transmit {s : State} (h : s.PartsSound) : s.transmit.PartsSound := by
  unfold State.transmit
  split
  · exact h
  · split
    · next e he =>
      have waiting := List.find?_some he
      simp only [Bool.and_eq_true, beq_iff_eq] at waiting
      exact h.sendSet (List.mem_of_find?_eq_some he) waiting.1
    · split
      · exact h.sendSlot _
      · split
        · next hr => exact h.sendLink hr
        · exact .pickCheck _ h h.waitingChecks.1 h.waitingChecks.2

theorem State.Coherent.transmit {s : State} (h : s.Coherent) : s.transmit.Coherent := by
  exact ⟨h.1.of_states (State.SentFrom.transmit s).state, h.2.transmit⟩

/-- A composition of the telltale image reads the chain and leaves it (R143). -/
theorem State.SameChain.recompose (s : State) : s.SameChain s.recompose :=
  ⟨by simp, by simp, by simp, by simp, by simp, by simp⟩

theorem State.Coherent.recompose {s : State} (h : s.Coherent) : s.recompose.Coherent := h.of_same (.recompose s)

/-! ### The Check Scheduler's run (R117, R118) -/

theorem State.PartsSound.runChecks (ps : List Pos) {s : State} (h : s.PartsSound) : (State.runChecks ps s).PartsSound := by
  induction ps generalizing s with
  | nil => exact h
  | cons p ps ih =>
    unfold State.runChecks
    split
    · next may =>
      simp only [Bool.and_eq_true] at may
      split
      · split
        · next room =>
          simp only [Queue.hasPollCheckRoom, Bool.and_eq_true] at room
          refine ih ((h.allocate room.1 _ _ _ _ ?_).of_same ⟨rfl, rfl, rfl, rfl, rfl, rfl⟩)
          rintro g hg
          cases hg
          exact may.1
        · exact h
      · exact ih h
    · exact ih h

/-- The run touches no position. -/
theorem State.runChecks_chain (ps : List Pos) (s : State) : (State.runChecks ps s).chain = s.chain := by
  induction ps generalizing s with
  | nil => rfl
  | cons p ps ih =>
    unfold State.runChecks
    split
    · split
      · split
        · rw [ih]; rfl
        · rfl
      · exact ih s
    · exact ih s

end Sys2Proof.Machine
end

