-- ==== Sys2Proof/Proofs/Leave.lean ====
section
/-! SUPPORT. Positions that leave ACTIVE, go ABSENT, or begin to be probed: every part of the chain stays sound, and the cascade
gives the chain its shape again. -/

namespace Sys2Proof.Machine

/-! ### Leaving ACTIVE (R31, R68) -/

/-- The model's removal of a position from one entry is the one the statements speak of. -/
theorem Entry.without_eq_leftBy (e : Entry) (p : Pos) : e.without p = e.leftBy p := by
  unfold Entry.without Entry.leftBy
  obtain ⟨tag, kind, state, image, changed, target, tx, required, answered, answers⟩ := e
  have filter : (answers.filter fun a => a.pos != p) = answers.filter fun a => decide (a.pos ≠ p) := by
    congr 1
    funext a
    by_cases h : a.pos = p <;> simp [h]
  dsimp only
  rw [filter]
  cases target <;> cases state <;> simp <;> split <;> simp_all

/-- With `p` taken out, an entry asks nothing of `p`. -/
theorem State.EntryActive.leftBy {s u : State} {e : Entry} (h : s.EntryActive e) (p : Pos)
    (a : ∀ q, q ≠ p → s.isActive q = true → u.isActive q = true) : u.EntryActive (e.leftBy p) := by
  obtain ⟨waiting, positions⟩ := h
  refine ⟨fun hw => ?_, fun q => ⟨fun hq => ?_, fun hq => ?_, fun ⟨x, hx, hq⟩ => ?_⟩⟩
  · simp only [Entry.leftBy] at hw ⊢
    split at hw
    · cases hw
    · next untouched =>
      obtain ⟨h1, h2, h3, h4⟩ := waiting hw
      refine ⟨by simp [h1, dropPos], by simp [h2, dropPos], by simp [h3], fun g hg => a _ (fun hp => ?_) (h4 g hg)⟩
      exact untouched (.inl ⟨hw, g, hg, hp⟩)
  · simp only [Entry.leftBy, hasPos_dropPos, Bool.and_eq_true, Bool.not_eq_true', decide_eq_false_iff_not] at hq
    exact a q hq.2 ((positions q).1 hq.1)
  · simp only [Entry.leftBy, hasPos_dropPos, Bool.and_eq_true] at hq ⊢
    exact ⟨(positions q).2.1 hq.1, hq.2⟩
  · obtain ⟨hx, hne⟩ := List.mem_filter.1 hx
    subst hq
    simpa [Entry.leftBy, (positions x.pos).2.2 ⟨x, hx, rfl⟩] using hne

/-- No live entry asks anything of position `p`. -/
def State.Freed (s : State) (p : Pos) : Prop :=
  ∀ e ∈ s.queue.entries, ∀ u : State, (∀ q, q ≠ p → s.isActive q = true → u.isActive q = true) → u.EntryActive e

/-- Retirements keep a position free of the live entries. -/
theorem State.Freed.retire {s : State} {p : Pos} (h : s.Freed p) : s.retire.Freed p := by
  intro e he u a
  rw [State.retire_entries] at he
  refine h e ((List.dropWhile_sublist _).subset he) u fun q hq hs => a q hq ?_
  simpa [State.isActive, (State.RetiredFrom.retire s).state q] using hs

/-- A place whose circuits are rewritten without their conditions. -/
theorem State.PlaceSound.of_circuits {s u : State} {q : Pos} (h : s.PlaceSound q) (pos : u.posAt q = s.posAt q)
    (requests : u.chain.linkRequests = s.chain.linkRequests) (faults : u.image.faults = s.image.faults)
    (condition : ∀ c, (u.circAt q c).condition = (s.circAt q c).condition)
    (fits : ∀ c, (u.circAt q c).Fits (s.posAt q) c) : u.PlaceSound q := by
  refine ⟨by rw [pos]; exact h.record, ?_, fun c => by rw [pos]; exact fits c, fun e he hq => ?_⟩
  · have := h.requests
    simpa only [State.RequestsAt, pos, requests] using this
  · obtain ⟨on, stands⟩ := h.faults e (faults ▸ he) hq
    refine ⟨by rw [pos]; exact on, fun ha => ?_⟩
    rw [← stands ha]
    unfold State.stands
    subst hq
    simp only [pos, condition]

/-- A due mark cleared leaves a place as sound as it was. -/
theorem State.PlaceSound.clearDue {s : State} {q : Pos} (h : s.PlaceSound q) (p : Pos) :
    (s.updCircs p fun _ k => { k with due := false }).PlaceSound q := by
  have circ : ∀ c, (s.updCircs p fun _ k => { k with due := false }).circAt q c = s.circAt q c ∨
      (s.updCircs p fun _ k => { k with due := false }).circAt q c = { s.circAt q c with due := false } := by
    intro c
    rw [State.updCircs_circAt]
    split
    · exact .inr rfl
    · exact .inl rfl
  refine h.of_circuits rfl rfl rfl (fun c => ?_) fun c => ?_
  · rcases circ c with h | h <;> rw [h]
  · obtain ⟨empty, unreached⟩ := h.circuits c
    rcases circ c with h | h <;> rw [h]
    · exact ⟨empty, unreached⟩
    · exact ⟨fun off => by rw [empty off]; rfl, unreached⟩

/-- A position that leaves ACTIVE is taken out of every live entry (R31, R68). -/
theorem State.PartsSound.leaveActive {s : State} (h : s.PartsSound) (p : Pos) :
    (s.leaveActive p).PartsSound ∧ (s.leaveActive p).Freed p := by
  have marks : (s.updCircs p fun _ k => { k with due := false }).PartsSound :=
    ⟨h.requests, h.tags, h.entries, fun q => (h.places q).clearDue p⟩
  have entries := marks.mapEntries (·.without p) fun e he => by
    rw [Entry.without_eq_leftBy]
    exact ⟨rfl, (h.entries e he).leftBy p fun _ _ hq => hq⟩
  refine ⟨entries.retire, State.Freed.retire fun x hx u a => ?_⟩
  obtain ⟨e, he, rfl⟩ := List.mem_map.1 hx
  rw [Entry.without_eq_leftBy]
  exact (h.entries e he).leftBy p a

theorem State.leaveActive_state (s : State) (p q : Pos) : ((s.leaveActive p).posAt q).state = (s.posAt q).state :=
  (State.RetiredFrom.retire _).state q

/-- LOSS_INTERVAL_EXPIRY keeps every part sound (R30). -/
theorem State.PartsSound.lossExpiry {s : State} (h : s.PartsSound) (p : Pos) : (s.lossExpiry p).PartsSound := by
  unfold State.lossExpiry
  split
  · next due =>
    obtain ⟨parts, freed⟩ := h.leaveActive p
    have active : ((s.leaveActive p).posAt p).state = .active := by
      rw [State.leaveActive_state]
      simp only [State.lossDue, Bool.and_eq_true, beq_iff_eq] at due
      exact due.1
    refine ⟨parts.requests, parts.tags, fun e he => freed e he _ fun q hq ha => ?_, fun q => ?_⟩
    · simpa [State.isActive, State.updPos_posAt_ne _ _ _ _ hq] using ha
    · by_cases hq : q = p
      · subst hq
        obtain ⟨record, ⟨enum, query, timeout, window⟩, circuits, faults⟩ := parts.places q
        have on : ((s.leaveActive q).posAt q).state.onChain = true := by rw [active]; rfl
        obtain ⟨h1, h2, h3, -, h5, h6⟩ := (Position.sound_onChain on).1 record
        refine ⟨?_, ⟨fun hm => ?_, fun hm => ?_, fun ht => ?_, fun _ => ?_⟩, fun c => ?_, fun e he hk => ?_⟩
        · rw [State.updPos_posAt_same]
          exact (Position.sound_onChain rfl).2 ⟨h1, h2, h3, rfl, h5, h6⟩
        · rw [(enum hm).1] at active
          cases active
        · rw [(query hm).1] at active
          cases active
        · rw [State.updPos_posAt_same] at ht
          rw [timeout ht] at active
          cases active
        · rw [State.updPos_posAt_same]
        · rw [State.updPos_posAt_same]
          exact ⟨fun off => (by cases off), (circuits c).2⟩
        · obtain ⟨-, stands⟩ := faults e he hk
          refine ⟨by rw [State.updPos_posAt_same]; rfl, fun ha => ?_⟩
          rw [← stands ha]
          unfold State.stands
          subst hk
          simp only [State.updPos_posAt_same, State.updPos_circAt]
      · exact (parts.places q).of_sameAt (.updPos hq _)
  · exact h

/-- The loss of a position leaves it on the chain. -/
theorem State.lossExpiry_onChain (s : State) (p q : Pos) :
    ((s.lossExpiry p).posAt q).state.onChain = (s.posAt q).state.onChain ∧
    ((s.posAt q).state ≠ .active → ((s.lossExpiry p).posAt q).state = (s.posAt q).state) := by
  unfold State.lossExpiry
  split
  · next due =>
    simp only [State.lossDue, Bool.and_eq_true, beq_iff_eq] at due
    rw [State.updPos_posAt]
    split
    · next hq =>
      subst hq
      exact ⟨by rw [due.1]; rfl, fun h => absurd due.1 h⟩
    · rw [State.leaveActive_state]
      exact ⟨rfl, fun _ => rfl⟩
  · exact ⟨rfl, fun _ => rfl⟩

theorem State.Coherent.lossExpiry {s : State} (h : s.Coherent) (p : Pos) : (s.lossExpiry p).Coherent := by
  refine ⟨fun a b hab off => ?_, h.2.lossExpiry p⟩
  rw [(s.lossExpiry_onChain p a).1] at off
  have absent := h.1 a b hab off
  rw [(s.lossExpiry_onChain p b).2 (by simp [absent]), absent]

/-! ### Going ABSENT (R35) -/

/-- A place with an ABSENT record, circuits as at reset, and neither requests nor faults. -/
theorem State.PlaceSound.of_absent {s : State} {p : Pos} (pos : s.posAt p = Position.absent (s.posAt p).counters)
    (circ : ∀ c, s.circAt p c = Circuit.clear) (enum : .enum p ∉ s.chain.linkRequests)
    (query : .query p ∉ s.chain.linkRequests) (faults : ∀ e ∈ s.image.faults, e.key.pos ≠ p) : s.PlaceSound p := by
  refine ⟨?_, ⟨fun h => absurd h enum, fun h => absurd h query, ?_, ?_⟩, fun c => ?_,
    fun e he hp => absurd hp (faults e he)⟩
  · rw [pos]
    simp [Position.Sound, Position.absent, PosState.onChain]
  · rw [pos]
    simp [Position.absent]
  · rw [pos]
    simp [Position.absent]
  · rw [circ]
    exact ⟨fun _ => rfl, fun _ => ⟨rfl, rfl, rfl, rfl, rfl⟩⟩

/-- A place that is neither ACTIVE nor LOST has circuits as at reset and no listed fault. -/
theorem State.PlaceSound.empty {s : State} {p : Pos} (h : s.PlaceSound p) (off : (s.posAt p).state.onChain = false) :
    (∀ c, s.circAt p c = Circuit.clear) ∧ ∀ e ∈ s.image.faults, e.key.pos ≠ p :=
  ⟨fun c => (h.circuits c).1 off, fun e he hp => absurd ((h.faults e he hp).1.symm.trans off) (by decide)⟩

theorem State.not_mem_dropRequests (s : State) (p : Pos) :
    .enum p ∉ (s.dropRequests p).chain.linkRequests ∧ .query p ∉ (s.dropRequests p).chain.linkRequests := by
  simp [State.dropRequests]

@[simp] theorem State.dropRequests_posAt (s : State) (p q : Pos) : (s.dropRequests p).posAt q = s.posAt q := rfl

@[simp] theorem State.makeAbsent_posAt_same (s : State) (p : Pos) :
    (s.makeAbsent p).posAt p = Position.absent (s.posAt p).counters := State.updPos_posAt_same _ p _

theorem State.makeAbsent_posAt_ne (s : State) {p q : Pos} (h : q ≠ p) : (s.makeAbsent p).posAt q = s.posAt q :=
  State.updPos_posAt_ne _ _ _ _ h

theorem State.SameAt.makeAbsent {s : State} {p q : Pos} (h : q ≠ p) : s.SameAt (s.makeAbsent p) q :=
  (State.SameAt.updPos h _).trans (.dropRequests _ p q)

/-- A place whose circuits are as at reset and that has no fault, made ABSENT. -/
theorem State.makeAbsent_placeSound {s : State} {p : Pos} (circ : ∀ c, s.circAt p c = Circuit.clear)
    (faults : ∀ e ∈ s.image.faults, e.key.pos ≠ p) : (s.makeAbsent p).PlaceSound p :=
  .of_absent (by rw [State.makeAbsent_posAt_same]; rfl) circ (State.not_mem_dropRequests _ p).1
    (State.not_mem_dropRequests _ p).2 faults

/-- Steps 1 to 4 of R35 leave the circuits as at reset and no fault. -/
theorem State.takeOff_clear (s : State) (p : Pos) :
    (∀ c, (s.takeOff p).circAt p c = Circuit.clear) ∧ ∀ e ∈ (s.takeOff p).image.faults, e.key.pos ≠ p := by
  refine ⟨fun c => ?_, fun e he => ?_⟩
  · change (((s.writeBack p).clearCircuits p).circAt p c) = _
    rw [State.clearCircuits, State.updCircs_circAt, if_pos rfl]
  · simpa using (List.mem_filter.1 he).2

theorem State.SameAt.takeOff {s : State} {p q : Pos} (h : q ≠ p) : s.SameAt (s.takeOff p) q :=
  (((State.SameAt.writeBack s p q).trans (.updCircs h _)).trans (.removeFaults _ p q)).trans (.updPos h _)

/-- Steps 1 to 4 of R35 leave the queue and the pending requests. -/
theorem State.takeOff_frame (s : State) (p : Pos) :
    (s.takeOff p).queue = s.queue ∧ (s.takeOff p).chain.linkRequests = s.chain.linkRequests ∧
    ∀ q, ((s.takeOff p).posAt q) = if q = p then { s.posAt q with
      supplyLow := false, feedLost := false, linkDegraded := false, identityClash := false } else s.posAt q := by
  obtain ⟨cache, h⟩ := s.writeBack_frame p
  unfold State.takeOff
  rw [h]
  exact ⟨rfl, rfl, fun q => State.updPos_posAt _ _ _ _⟩

/-- One place made ABSENT, no live entry asking anything of it. -/
theorem State.PartsSound.makeAbsent {s : State} {p : Pos} (requests : s.chain.linkRequests.Nodup) (tags : s.TagsInOrder)
    (freed : s.Freed p) (others : ∀ q, q ≠ p → s.PlaceSound q) (circ : ∀ c, s.circAt p c = Circuit.clear)
    (faults : ∀ e ∈ s.image.faults, e.key.pos ≠ p) : (s.makeAbsent p).PartsSound where
  requests := requests.filter _
  tags := tags
  entries e he := freed e he _ fun q hq ha => by
    simpa [State.isActive, State.makeAbsent_posAt_ne _ hq] using ha
  places q := by
    by_cases hq : q = p
    · subst hq
      exact State.makeAbsent_placeSound circ faults
    · exact (others q hq).of_sameAt (.makeAbsent hq)

/-- The live entries ask nothing of a position that is not ACTIVE, but that a CHECK may be WAITING for it: none is. -/
theorem State.PartsSound.freed {s : State} (h : s.PartsSound) {p : Pos} (inactive : s.isActive p = false) : s.Freed p := by
  intro e he u a
  refine (h.entries e he).mono fun q hq => a q (fun hqp => ?_) hq
  rw [hqp, inactive] at hq
  cases hq

theorem State.Freed.of_queue {s u : State} {p : Pos} (h : s.Freed p) (queue : u.queue = s.queue)
    (state : ∀ q, q ≠ p → (u.posAt q).state = (s.posAt q).state) : u.Freed p := by
  intro e he v a
  refine h e (queue ▸ he) v fun q hq hs => a q hq ?_
  simpa [State.isActive, state q hq] using hs

/-- A position taken off and made ABSENT (R35). -/
theorem State.PartsSound.takenOff {s : State} (h : s.PartsSound) {p : Pos} (freed : s.Freed p) :
    ((s.takeOff p).makeAbsent p).PartsSound := by
  obtain ⟨queue, requests, pos⟩ := s.takeOff_frame p
  refine .makeAbsent (requests ▸ h.requests) ?_ (freed.of_queue queue fun q hq => by rw [pos, if_neg hq])
    (fun q hq => (h.places q).of_sameAt (.takeOff hq)) (s.takeOff_clear p).1 (s.takeOff_clear p).2
  have := h.tags
  simpa only [State.TagsInOrder, queue] using this

/-- A mark reviewed changes one flag and may heal its fault. -/
theorem State.reviewClash_frame (i : Identity) (s : State) (p : Pos) :
    (State.reviewClash i s p).queue = s.queue ∧
    (State.reviewClash i s p).chain.linkRequests = s.chain.linkRequests ∧
    ∀ q, ∃ clash, (State.reviewClash i s p).posAt q = { s.posAt q with identityClash := clash } := by
  unfold State.reviewClash
  split
  · refine ⟨rfl, rfl, fun q => ?_⟩
    change ∃ _, (s.updPos p _).posAt q = _
    rw [State.updPos_posAt]
    split
    · exact ⟨false, rfl⟩
    · exact ⟨(s.posAt q).identityClash, rfl⟩
  · exact ⟨rfl, rfl, fun q => ⟨(s.posAt q).identityClash, rfl⟩⟩

theorem State.PartsSound.reviewClash {s : State} (h : s.PartsSound) (i : Identity) (p : Pos) :
    (State.reviewClash i s p).PartsSound := by
  obtain ⟨queue, requests, pos⟩ := State.reviewClash_frame i s p
  refine ⟨requests ▸ h.requests, ?_, fun e he => (h.entries e (queue ▸ he)).of_states fun q => ?_,
    fun q => (h.places q).reviewClash i⟩
  · have := h.tags
    simpa only [State.TagsInOrder, queue] using this
  · obtain ⟨_, hq⟩ := pos q
    rw [hq]

/-- What reviews leave of the records: all but the IDENTITY_CLASH flag. -/
theorem State.reviewClashes_frame (s : State) (i : Option Identity) :
    (s.reviewClashes i).queue = s.queue ∧ (s.reviewClashes i).chain.linkRequests = s.chain.linkRequests ∧
    ∀ q, ∃ clash, (s.reviewClashes i).posAt q = { s.posAt q with identityClash := clash } := by
  cases i with
  | none => exact ⟨rfl, rfl, fun q => ⟨(s.posAt q).identityClash, rfl⟩⟩
  | some i =>
    refine foldl_keeps (fun s u : State => u.queue = s.queue ∧ u.chain.linkRequests = s.chain.linkRequests ∧
      ∀ q, ∃ clash, u.posAt q = { s.posAt q with identityClash := clash })
      (fun s => ⟨rfl, rfl, fun q => ⟨(s.posAt q).identityClash, rfl⟩⟩) (fun a b c hab hbc => ?_)
      (State.reviewClash i) (State.reviewClash_frame i) allPos s
    refine ⟨hbc.1.trans hab.1, hbc.2.1.trans hab.2.1, fun q => ?_⟩
    obtain ⟨x, hx⟩ := hab.2.2 q
    obtain ⟨y, hy⟩ := hbc.2.2 q
    exact ⟨y, by rw [hy, hx]⟩

theorem State.PartsSound.reviewClashes {s : State} (h : s.PartsSound) (i : Option Identity) :
    (s.reviewClashes i).PartsSound := by
  cases i with
  | none => exact h
  | some i =>
    change (allPos.foldl (State.reviewClash i) s).PartsSound
    generalize allPos = l
    induction l generalizing s with
    | nil => exact h
    | cons p l ih => exact ih (h.reviewClash i p)

theorem State.isActive_false {s : State} {p : Pos} {x : PosState} (h : (s.posAt p).state = x) (hx : x ≠ .active) :
    s.isActive p = false := by
  simpa [State.isActive, h] using hx

/-- One position made ABSENT (R35) keeps every part sound. -/
theorem State.PartsSound.goAbsent {s : State} (h : s.PartsSound) (p : Pos) : (s.goAbsent p).PartsSound := by
  have empty : ∀ x : PosState, (s.posAt p).state = x → x.onChain = false → (s.makeAbsent p).PartsSound := fun x hx off => by
    have clear := (h.places p).empty (hx ▸ off)
    refine .makeAbsent h.requests h.tags (h.freed (State.isActive_false hx fun ha => ?_)) (fun q _ => h.places q) clear.1 clear.2
    rw [ha] at off
    cases off
  unfold State.goAbsent
  split
  · exact h
  · next hs => exact empty _ hs rfl
  · next hs => exact empty _ hs rfl
  · obtain ⟨parts, freed⟩ := h.leaveActive p
    exact (parts.takenOff freed).reviewClashes _
  · next hs => exact (h.takenOff (h.freed (State.isActive_false hs (by decide)))).reviewClashes _

/-- A position made ABSENT is, and every other keeps its state. -/
theorem State.goAbsent_state (s : State) (p q : Pos) :
    ((s.goAbsent p).posAt q).state = if q = p then .absent else (s.posAt q).state := by
  have made : ∀ u : State, (∀ r, (u.posAt r).state = (s.posAt r).state) →
      ((u.makeAbsent p).posAt q).state = if q = p then .absent else (s.posAt q).state := fun u hu => by
    split
    · next hq =>
      rw [hq, State.makeAbsent_posAt_same]
      rfl
    · next hq => rw [State.makeAbsent_posAt_ne _ hq, hu]
  have taken : ∀ u : State, (∀ r, (u.posAt r).state = (s.posAt r).state) →
      ∀ r, ((u.takeOff p).posAt r).state = (s.posAt r).state := fun u hu r => by
    rw [(u.takeOff_frame p).2.2 r]
    split
    · exact hu r
    · exact hu r
  have reviewed : ∀ (u : State) i, ((u.reviewClashes i).posAt q).state = (u.posAt q).state := fun u i => by
    obtain ⟨_, hq⟩ := (u.reviewClashes_frame i).2.2 q
    rw [hq]
  unfold State.goAbsent
  split
  · next hs =>
    split
    · next hq => rw [hq, hs]
    · rfl
  · exact made s fun _ => rfl
  · exact made s fun _ => rfl
  · rw [reviewed]
    exact made _ (taken _ (s.leaveActive_state p))
  · rw [reviewed]
    exact made _ (taken _ fun _ => rfl)

/-! ### The cascade (R36) -/

theorem State.foldl_goAbsent (l : List Pos) {s : State} (h : s.PartsSound) :
    (l.foldl State.goAbsent s).PartsSound ∧
    ∀ q, ((l.foldl State.goAbsent s).posAt q).state = if q ∈ l then .absent else (s.posAt q).state := by
  induction l generalizing s with
  | nil => exact ⟨h, fun q => by simp⟩
  | cons p l ih =>
    obtain ⟨parts, states⟩ := ih (h.goAbsent p)
    refine ⟨parts, fun q => ?_⟩
    rw [List.foldl_cons, states, State.goAbsent_state]
    by_cases hq : q ∈ l <;> by_cases hp : q = p <;> simp [hq, hp]

/-- A cascade makes its position and every higher one ABSENT, and keeps the states of the lower ones. -/
theorem State.PartsSound.cascade {s : State} (h : s.PartsSound) (p : Pos) : (s.cascade p).PartsSound ∧
    ∀ q, ((s.cascade p).posAt q).state = if p ≤ q then .absent else (s.posAt q).state := by
  obtain ⟨parts, states⟩ := State.foldl_goAbsent (allPos.filter fun q => decide (p ≤ q)) h
  refine ⟨parts, fun q => ?_⟩
  unfold State.cascade
  rw [states]
  simp [mem_allPos]

theorem State.Coherent.cascade {s : State} (h : s.Coherent) (p : Pos) : (s.cascade p).Coherent := by
  obtain ⟨parts, states⟩ := h.2.cascade p
  refine ⟨fun a b hab off => ?_, parts⟩
  rw [states] at off ⊢
  split
  · rfl
  · next hb =>
    have ha : ¬p ≤ a := fun hpa => hb (hpa.trans hab.le)
    rw [if_neg ha] at off
    exact h.1 a b hab off

/-! ### Probing (R24, R25, R26) -/

/-- A request becomes pending, behind those that are (R39). -/
def State.ask (s : State) (r : LinkRequest) : State :=
  s.updChain fun ch => { ch with linkRequests := ch.linkRequests ++ [r] }

theorem State.mem_ask {s : State} {r x : LinkRequest} (h : x ∈ (s.ask r).chain.linkRequests) :
    x ∈ s.chain.linkRequests ∨ x = r := by
  simpa [State.ask] using h

/-- A request that a position's record allows becomes pending. -/
theorem State.PartsSound.ask {s : State} (h : s.PartsSound) {r : LinkRequest} (fresh : r ∉ s.chain.linkRequests)
    (enum : ∀ p, r = .enum p → (s.posAt p).state = .probing ∧ (s.posAt p).enumTimeout = none ∧
      (s.posAt p).probeAttempts < Config.enumAttempts)
    (query : ∀ p, r = .query p → (s.posAt p).state = .lost ∧ (s.posAt p).queryUntil = none) : (s.ask r).PartsSound := by
  refine ⟨?_, h.tags, h.entries, fun q => ?_⟩
  · exact List.nodup_append.2 ⟨h.requests, by simp, by simpa using fun x hx => ne_of_mem_of_not_mem hx fresh⟩
  · obtain ⟨record, ⟨enum', query', timeout, window⟩, circuits, faults⟩ := h.places q
    refine ⟨record, ⟨fun hm => ?_, fun hm => ?_, timeout, window⟩, circuits, faults⟩
    · exact (State.mem_ask hm).elim enum' fun hr => enum q hr.symm
    · exact (State.mem_ask hm).elim query' fun hr => query q hr.symm

theorem State.beginProbe_posAt (s : State) (p q : Pos) :
    (s.beginProbe p).posAt q = if q = p then { s.posAt q with state := .probing, probeAttempts := 0 } else s.posAt q :=
  State.updPos_posAt s p q _

/-- No ENUM is pending for a position that is not PROBING. -/
theorem State.PlaceSound.no_enum {s : State} {p : Pos} (h : s.PlaceSound p) (idle : (s.posAt p).state ≠ .probing) :
    .enum p ∉ s.chain.linkRequests := fun hm => idle (h.requests.1 hm).1

/-- No QUERY is pending for a position that is not LOST. -/
theorem State.PlaceSound.no_query {s : State} {p : Pos} (h : s.PlaceSound p) (idle : (s.posAt p).state ≠ .lost) :
    .query p ∉ s.chain.linkRequests := fun hm => idle (h.requests.2.1 hm).1

/-- An ABSENT position begins to be probed. -/
theorem State.PartsSound.beginProbe {s : State} (h : s.PartsSound) {p : Pos} (absent : (s.posAt p).state = .absent) :
    (s.beginProbe p).PartsSound := by
  have noEnum := (h.places p).no_enum (by simp [absent])
  have noQuery := (h.places p).no_query (by simp [absent])
  have pos : (s.updPos p fun r => { r with state := .probing, probeAttempts := 0 }).posAt p =
      { Position.absent (s.posAt p).counters with state := .probing } := by
    rw [State.updPos_posAt_same, (h.places p).record.2.2.2.2.2.2.1 absent]
    rfl
  have probed : (s.updPos p fun r => { r with state := .probing, probeAttempts := 0 }).PartsSound := by
    refine ⟨h.requests, h.tags, fun e he => (h.freed (State.isActive_false absent (by decide))) e he _ fun q hq ha => ?_,
      fun q => ?_⟩
    · simpa [State.isActive, State.updPos_posAt_ne _ _ _ _ hq] using ha
    · by_cases hq : q = p
      · subst hq
        obtain ⟨clear, noFault⟩ := (h.places q).empty (by rw [absent]; rfl)
        refine ⟨?_, ⟨fun hm => absurd hm noEnum, fun hm => absurd hm noQuery, ?_, ?_⟩, fun c => ?_,
          fun e he hp => absurd hp (noFault e he)⟩
        · rw [pos]
          simp [Position.Sound, Position.absent, PosState.onChain]
        · rw [pos]
          exact fun _ => rfl
        · rw [pos]
          exact fun hw => by cases hw
        · rw [State.updPos_circAt, clear]
          exact ⟨fun _ => rfl, fun _ => ⟨rfl, rfl, rfl, rfl, rfl⟩⟩
      · exact (h.places q).of_sameAt (.updPos hq _)
  refine probed.ask noEnum (fun q hq => ?_) (fun q hq => by cases hq)
  cases hq
  rw [pos]
  exact ⟨rfl, rfl, Nat.succ_pos 2⟩

/-- An ABSENT position whose lower neighbours are all ACTIVE or LOST begins to be probed. -/
theorem State.Coherent.beginProbe {s : State} (h : s.Coherent) {p : Pos} (absent : (s.posAt p).state = .absent)
    (lower : ∀ q, q < p → (s.posAt q).state.onChain = true) : (s.beginProbe p).Coherent := by
  refine ⟨fun a b hab off => ?_, h.2.beginProbe absent⟩
  have above : p < b → (s.posAt b).state = .absent := fun hb => h.1 p b hb (by rw [absent]; rfl)
  rw [State.beginProbe_posAt] at off ⊢
  by_cases ha : a = p
  · subst ha
    rw [if_neg hab.ne']
    exact above hab
  · rw [if_neg ha] at off
    have hpa : ¬a < p := fun hlt => by
      rw [lower a hlt] at off
      cases off
    have hpb : p < b := lt_of_le_of_lt (not_lt.1 hpa) hab
    rw [if_neg hpb.ne']
    exact above hpb

theorem nextPos_eq_some {p q : Pos} (h : nextPos p = some q) : q.val = p.val + 1 := by
  unfold nextPos at h
  split at h
  · cases h
    rfl
  · cases h

/-- The positions below one that is not ABSENT are ACTIVE or LOST (R24). -/
theorem State.ChainShape.below {s : State} (h : s.ChainShape) {p : Pos} (present : (s.posAt p).state ≠ .absent) (q : Pos)
    (hq : q < p) : (s.posAt q).state.onChain = true := by
  by_contra off
  exact present (h q p hq (by simpa using off))

theorem State.Coherent.probeNext {s : State} (h : s.Coherent) (p : Pos) : (s.probeNext p).Coherent := by
  unfold State.probeNext
  split
  · next q hq =>
    split
    · next begins =>
      simp only [Bool.and_eq_true, beq_iff_eq] at begins
      have active : (s.posAt p).state = .active := by simpa [State.isActive] using begins.1.1
      refine h.beginProbe begins.2 fun r hr => ?_
      have hv := nextPos_eq_some hq
      by_cases hrp : r = p
      · rw [hrp, active]
        rfl
      · have hlt : r.val < q.val := hr
        have hne : r.val ≠ p.val := fun e => hrp (Fin.ext e)
        exact h.shape.below (p := p) (by simp [active]) r (Fin.lt_def.2 (by omega))
    · exact h
  · exact h

theorem State.Coherent.probeFirst {s : State} (h : s.Coherent) : s.probeFirst.Coherent := by
  unfold State.probeFirst
  split
  · next absent => exact h.beginProbe (by simpa using absent) fun q hq => absurd hq (Fin.not_lt_zero q)
  · exact h

/-- A cascade, after which its position may begin to be probed again (R36). -/
theorem State.Coherent.cascadeFrom {s : State} (h : s.Coherent) (p : Pos) : (s.cascadeFrom p).Coherent := by
  unfold State.cascadeFrom
  split
  · exact (h.cascade p).probeNext _
  · exact h.cascade p

theorem State.Coherent.absenceExpiry {s : State} (h : s.Coherent) (p : Pos) : (s.absenceExpiry p).Coherent := by
  unfold State.absenceExpiry
  split
  · exact h.cascadeFrom p
  · exact h

end Sys2Proof.Machine
end

