-- ==== Sys2Proof/Proofs/Telegrams.lean ====
section
/-! SUPPORT. Upstream telegrams, enumeration timers and deadlines keep the chain sound. -/

namespace Sys2Proof.Machine

/-! ### States alike but for their places -/

/-- A state with the queue, the requests and the position states of a sound one is sound when its places are. -/
theorem State.PartsSound.of_places {s u : State} (h : s.PartsSound) (queue : u.queue = s.queue)
    (requests : u.chain.linkRequests = s.chain.linkRequests) (state : ∀ q, (u.posAt q).state = (s.posAt q).state)
    (places : ∀ q, u.PlaceSound q) : u.PartsSound where
  requests := requests ▸ h.requests
  tags := by
    have := h.tags
    simpa only [State.TagsInOrder, queue] using this
  entries e he := (h.entries e (queue ▸ he)).of_states state
  places := places

theorem State.Coherent.of_places {s u : State} (h : s.Coherent) (queue : u.queue = s.queue)
    (requests : u.chain.linkRequests = s.chain.linkRequests) (state : ∀ q, (u.posAt q).state = (s.posAt q).state)
    (places : ∀ q, u.PlaceSound q) : u.Coherent := by
  exact ⟨h.1.of_states state, h.2.of_places queue requests state places⟩

theorem State.updPos_state {s : State} {p : Pos} {f : Position → Position} (hf : (f (s.posAt p)).state = (s.posAt p).state)
    (q : Pos) : ((s.updPos p f).posAt q).state = (s.posAt q).state := by
  rw [State.updPos_posAt]
  split
  · next hq => rw [hq, hf]
  · rfl

/-- One record rewritten as `Follows` allows. -/
theorem State.Coherent.updPos {s : State} (h : s.Coherent) {p : Pos} {f : Position → Position}
    (hf : (s.posAt p).Follows (f (s.posAt p))) : (s.updPos p f).Coherent :=
  h.of_places rfl rfl (State.updPos_state hf.state) fun q => (h.parts.places q).updPos hf

/-! ### Link errors (R49) -/

/-- `u` is `s` after link errors counted at position `p`: of its record the counts and LINK_DEGRADED may differ, and the fault
list. -/
structure State.CountedFrom (p : Pos) (s u : State) : Prop where
  queue : u.queue = s.queue
  requests : u.chain.linkRequests = s.chain.linkRequests
  others : ∀ q, q ≠ p → u.posAt q = s.posAt q
  pos : u.posAt p = { s.posAt p with
    linkErrors := (u.posAt p).linkErrors, linkDegraded := (u.posAt p).linkDegraded, counters := (u.posAt p).counters }

theorem State.CountedFrom.refl (p : Pos) (s : State) : State.CountedFrom p s s := ⟨rfl, rfl, fun _ _ => rfl, rfl⟩

theorem State.CountedFrom.trans {p : Pos} {s t u : State} (a : State.CountedFrom p s t) (b : State.CountedFrom p t u) :
    State.CountedFrom p s u where
  queue := b.queue.trans a.queue
  requests := b.requests.trans a.requests
  others q hq := (b.others q hq).trans (a.others q hq)
  pos := by rw [b.pos, a.pos]

theorem State.CountedFrom.updPos (p : Pos) (s : State) (f : Position → Position)
    (h : ∀ r, f r = { r with
      linkErrors := (f r).linkErrors, linkDegraded := (f r).linkDegraded, counters := (f r).counters }) :
    State.CountedFrom p s (s.updPos p f) :=
  ⟨rfl, rfl, fun _ hq => State.updPos_posAt_ne _ _ _ _ hq, by rw [State.updPos_posAt_same]; exact h _⟩

theorem State.CountedFrom.raiseLinkDegraded (p : Pos) (s : State) : State.CountedFrom p s (s.raiseLinkDegraded p) := by
  unfold State.raiseLinkDegraded
  split
  · exact .refl p s
  · exact (State.CountedFrom.updPos p s _ fun _ => rfl).trans ⟨rfl, rfl, fun _ _ => rfl, rfl⟩

theorem State.CountedFrom.addLinkErrors (p : Pos) (s : State) (n : Nat) : State.CountedFrom p s (s.addLinkErrors p n) := by
  have counted : State.CountedFrom p s (s.updPos p fun r => { r with linkErrors := bump r.linkErrors n }) :=
    .updPos p s _ fun _ => rfl
  unfold State.addLinkErrors
  dsimp only
  split
  · exact counted.trans (.raiseLinkDegraded p _)
  · exact counted

theorem State.CountedFrom.addFarEnd (p : Pos) (s : State) (n : Nat) : State.CountedFrom p s (s.addFarEnd p n) :=
  (State.CountedFrom.updPos p s _ fun _ => rfl).trans (.addLinkErrors p _ n)

theorem State.CountedFrom.addMissed (p : Pos) (s : State) : State.CountedFrom p s (s.addMissed p) :=
  (State.CountedFrom.updPos p s _ fun _ => rfl).trans (.addLinkErrors p _ 1)

theorem State.CountedFrom.state {p : Pos} {s u : State} (h : State.CountedFrom p s u) (q : Pos) :
    (u.posAt q).state = (s.posAt q).state := by
  by_cases hq : q = p
  · rw [hq, h.pos]
  · rw [h.others q hq]

theorem State.Coherent.addFarEnd {s : State} (h : s.Coherent) {p : Pos} (on : (s.posAt p).state.onChain = true)
    (n : Nat) : (s.addFarEnd p n).Coherent :=
  have frame := State.CountedFrom.addFarEnd p s n
  h.of_places frame.queue frame.requests frame.state fun q => (h.parts.places q).addFarEnd on n

/-! ### Deadlines (R67) -/

/-- The missing positions of an entry counted, each of them ACTIVE (R50). -/
theorem State.PartsSound.missed (l : List Pos) {s : State} (h : s.PartsSound) (test : Pos → Bool)
    (active : ∀ p, test p = true → (s.posAt p).state.onChain = true) :
    (l.foldl (fun s p => if test p then s.addMissed p else s) s).PartsSound ∧
    ∀ q, ((l.foldl (fun s p => if test p then s.addMissed p else s) s).posAt q).state = (s.posAt q).state := by
  induction l generalizing s with
  | nil => exact ⟨h, fun _ => rfl⟩
  | cons p l ih =>
    rw [List.foldl_cons]
    split
    · next hp =>
      have frame := State.CountedFrom.addMissed p s
      obtain ⟨parts, states⟩ := ih (h.of_places frame.queue frame.requests frame.state fun q =>
        (h.places q).addMissed (active p hp)) fun q hq => by rw [frame.state]; exact active q hq
      exact ⟨parts, fun q => (states q).trans (frame.state q)⟩
    · exact ih h active

/-- An entry whose deadline passes expires (R67). -/
theorem State.Coherent.expire {s : State} (h : s.Coherent) {e : Entry} (he : e ∈ s.queue.entries) :
    (s.expire e).Coherent := by
  have entries := h.parts.entries
  have expired : (s.updEntry e.tag fun e => { e with state := .expired }).PartsSound :=
    h.parts.updEntry _ _ fun x hx _ => ⟨rfl, fun hw => (by cases hw), (entries x hx).2⟩
  obtain ⟨parts, states⟩ := expired.missed allPos (fun p => hasPos e.required p && !hasPos e.answered p) fun p hp => by
    simp only [Bool.and_eq_true] at hp
    exact State.isActive_onChain (s := s) (((entries e he).2 p).1 hp.1)
  exact ⟨h.shape.of_states fun q => ((State.RetiredFrom.retire _).state q).trans (states q), parts.retire⟩

/-! ### Enumeration timers (R26, R32) -/

/-- ENUM_TIMEOUT: a further ENUM, or PASSIVE (R26, R29). -/
theorem State.Coherent.enumExpiry {s : State} (h : s.Coherent) (p : Pos) : (s.enumExpiry p).Coherent := by
  unfold State.enumExpiry
  split
  · next elapsed =>
    simp only [State.enumOver, Bool.and_eq_true, beq_iff_eq] at elapsed
    obtain ⟨state, elapsed⟩ := elapsed
    have running : (s.posAt p).enumTimeout ≠ none := fun hn => by simp [hn] at elapsed
    have place := h.parts.places p
    have noEnum : LinkRequest.enum p ∉ s.chain.linkRequests := fun hm => running (place.requests.1 hm).2.1
    have noQuery := place.no_query (by simp [state])
    have noWindow : (s.posAt p).queryUntil = none := by
      by_contra hw
      have := place.requests.2.2.2 (Option.isSome_iff_ne_none.2 hw)
      rw [state] at this
      cases this
    obtain ⟨h1, h2, h3, h4, h5, h6, -, h8⟩ := place.record
    obtain ⟨clear, noFault⟩ := place.empty (by rw [state]; rfl)
    split
    · next left =>
      have pos : (s.updPos p fun r => { r with enumTimeout := none }).posAt p = { s.posAt p with enumTimeout := none } :=
        State.updPos_posAt_same _ _ _
      have stopped : (s.updPos p fun r => { r with enumTimeout := none }).Coherent :=
        h.of_places rfl rfl (State.updPos_state rfl) fun q => by
          by_cases hq : q = p
          · subst hq
            refine place.reask (w := (s.posAt q).queryUntil) pos (fun _ => rfl) rfl
              ⟨fun hm => absurd hm noEnum, fun hm => absurd hm noQuery, fun ht => ?_, fun hw => ?_⟩ (by simp [state]) h6
            · rw [pos] at ht
              cases ht
            · rw [pos] at hw
              rw [noWindow] at hw
              cases hw
          · exact (h.parts.places q).of_sameAt (.updPos hq _)
      refine ⟨stopped.shape, stopped.parts.ask noEnum (fun q hq => ?_) (fun q hq => by cases hq)⟩
      cases hq
      rw [pos]
      exact ⟨state, rfl, left⟩
    · have pos : (s.updPos p fun r => { r with enumTimeout := none, state := .passive }).posAt p =
          { s.posAt p with enumTimeout := none, state := .passive } := State.updPos_posAt_same _ _ _
      refine ⟨fun a b hab off => ?_, h.parts.requests, h.parts.tags, fun e he => ?_, fun q => ?_⟩
      · have off' : (s.posAt a).state.onChain = false := by
          by_cases ha : a = p
          · rw [ha, state]
            rfl
          · rw [State.updPos_posAt_ne _ _ _ _ ha] at off
            exact off
        have absent := h.shape a b hab off'
        rw [State.updPos_posAt_ne _ _ _ _ fun hb => by rw [hb, state] at absent; cases absent]
        exact absent
      · refine (h.parts.entries e he).mono fun q hq => ?_
        have hqp : q ≠ p := fun hqp => by
          rw [hqp, State.isActive_false state (by decide)] at hq
          cases hq
        simpa [State.isActive, State.updPos_posAt_ne _ _ _ _ hqp] using hq
      · by_cases hq : q = p
        · subst hq
          rw [state] at h1 h2 h3 h4 h8
          refine ⟨?_, ⟨fun hm => absurd hm noEnum, fun hm => absurd hm noQuery, fun ht => ?_, fun hw => ?_⟩, fun c => ?_,
            fun e he hp => absurd hp (noFault e he)⟩
          · rw [pos]
            exact ⟨h1, h2, h3, h4, h5, h6, fun ha => (by cases ha), h8⟩
          · rw [pos] at ht
            cases ht
          · rw [pos] at hw
            rw [noWindow] at hw
            cases hw
          · rw [State.updPos_circAt, clear]
            exact ⟨fun _ => rfl, fun _ => ⟨rfl, rfl, rfl, rfl, rfl⟩⟩
        · exact (h.parts.places q).of_sameAt (.updPos hq _)
  · exact h

/-- QUERY_WINDOW_END (R32). -/
theorem State.Coherent.queryExpiry {s : State} (h : s.Coherent) (p : Pos) : (s.queryExpiry p).Coherent := by
  unfold State.queryExpiry
  split
  · next elapsed =>
    have place := h.parts.places p
    have opened : (s.posAt p).queryUntil.isSome = true := by
      rw [Option.isSome_iff_ne_none]
      intro hn
      simp [State.queryOver, hn] at elapsed
    have lost := place.requests.2.2.2 opened
    have pos : (s.updPos p fun r => { r with queryUntil := none }).posAt p = { s.posAt p with queryUntil := none } :=
      State.updPos_posAt_same _ _ _
    refine h.of_places rfl rfl (State.updPos_state rfl) fun q => ?_
    by_cases hq : q = p
    · subst hq
      refine place.reask pos (fun _ => rfl) rfl ⟨fun hm => ?_, fun hm => ?_, fun ht => ?_, fun hw => ?_⟩ (by simp [lost])
        place.record.2.2.2.2.2.1
      · rw [pos]
        exact place.requests.1 hm
      · rw [pos]
        exact ⟨lost, rfl⟩
      · rw [pos] at ht ⊢
        exact place.requests.2.2.1 ht
      · rw [pos] at hw
        cases hw
    · exact (h.parts.places q).of_sameAt (.updPos hq _)
  · exact h

/-- LINK_ERROR_INTERVAL_END (R49). -/
theorem State.endLinkInterval_frame (s : State) (p : Pos) :
    (s.endLinkInterval p).queue = s.queue ∧ (s.endLinkInterval p).chain.linkRequests = s.chain.linkRequests ∧
    ∀ q, ((s.endLinkInterval p).posAt q).state = (s.posAt q).state := by
  unfold State.endLinkInterval
  dsimp only
  split
  · refine ⟨rfl, rfl, fun q => ?_⟩
    exact (State.updPos_state rfl q).trans (State.updPos_state (s := s) rfl q)
  · exact ⟨rfl, rfl, fun q => State.updPos_state rfl q⟩

theorem State.Coherent.endLinkIntervals (l : List Pos) {s : State} (h : s.Coherent) :
    (l.foldl State.endLinkInterval s).Coherent := by
  induction l generalizing s with
  | nil => exact h
  | cons p l ih =>
    obtain ⟨queue, requests, state⟩ := s.endLinkInterval_frame p
    exact ih (h.of_places queue requests state fun q => (h.parts.places q).endLinkInterval)

theorem State.Coherent.linkIntervalExpiry {s : State} (h : s.Coherent) : s.linkIntervalExpiry.Coherent := by
  unfold State.linkIntervalExpiry
  split
  · have next : ∀ u : State, u.SameChain (u.updChain fun ch =>
        { ch with linkIntervalEnd := ch.linkIntervalEnd + Config.linkIntervalMs }) :=
      fun _ => ⟨rfl, rfl, rfl, rfl, rfl, rfl⟩
    exact (h.endLinkIntervals allPos).of_same (next _)
  · exact h

/-! ### Hearing a position (R46) -/

theorem State.goAbsent_of_absent {s : State} {p : Pos} (h : (s.posAt p).state = .absent) : s.goAbsent p = s := by
  unfold State.goAbsent
  rw [h]

theorem State.foldl_goAbsent_of_absent (l : List Pos) (s : State) (h : ∀ p ∈ l, (s.posAt p).state = .absent) :
    l.foldl State.goAbsent s = s := by
  induction l with
  | nil => rfl
  | cons p l ih =>
    rw [List.foldl_cons, State.goAbsent_of_absent (h p (by simp))]
    exact ih fun q hq => h q (List.mem_cons_of_mem p hq)

theorem allPos_from (p : Pos) :
    (allPos.filter fun q => decide (p ≤ q)) = p :: allPos.filter fun q => decide (p < q) := by
  revert p; decide

/-- The cascade from a PROBING or PASSIVE position, above which all is ABSENT, makes that one ABSENT. -/
theorem State.ChainShape.cascade_eq {s : State} (h : s.ChainShape) {p : Pos}
    (hp : (s.posAt p).state = .probing ∨ (s.posAt p).state = .passive) : s.cascade p = s.makeAbsent p := by
  have off : (s.posAt p).state.onChain = false := by rcases hp with hp | hp <;> rw [hp] <;> rfl
  have first : s.goAbsent p = s.makeAbsent p := by
    unfold State.goAbsent
    rcases hp with hp | hp <;> rw [hp]
  rw [State.cascade, allPos_from, List.foldl_cons, first]
  refine State.foldl_goAbsent_of_absent _ _ fun q hq => ?_
  have hlt : p < q := by simpa using (List.mem_filter.1 hq).2
  rw [State.makeAbsent_posAt_ne _ hlt.ne']
  exact h p q hlt off

theorem nextPos_ne {p q : Pos} (h : nextPos p = some q) : p ≠ q := fun e => by
  have := nextPos_eq_some h
  rw [e] at this
  omega

theorem State.probeNext_posAt (s : State) (p : Pos) : (s.probeNext p).posAt p = s.posAt p := by
  unfold State.probeNext
  split
  · next q hq =>
    split
    · rw [State.beginProbe_posAt, if_neg (nextPos_ne hq)]
    · rfl
  · rfl

/-- The downstream-load flag taken at an ACTIVE or LOST position (R46). -/
theorem State.Coherent.setLoad {s : State} (h : s.Coherent) {p : Pos} (on : (s.posAt p).state.onChain = true)
    (load : Bool) : (s.setLoad p load).Coherent ∧
    (s.setLoad p load).posAt p = { s.posAt p with downstreamLoad := load } := by
  have flag : (s.updPos p fun r => { r with downstreamLoad := load }).Coherent :=
    h.updPos (.onChain on rfl rfl rfl id rfl rfl rfl rfl id id id)
  have pos : (s.updPos p fun r => { r with downstreamLoad := load }).posAt p = { s.posAt p with downstreamLoad := load } :=
    State.updPos_posAt_same _ _ _
  unfold State.setLoad
  dsimp only
  split
  · exact ⟨flag.probeNext p, by rw [State.probeNext_posAt, pos]⟩
  · split
    · next q hq =>
      have hpq := nextPos_ne hq
      split
      · next gone =>
        have gone' : ((s.updPos p fun r => { r with downstreamLoad := load }).posAt q).state = .probing ∨
            ((s.updPos p fun r => { r with downstreamLoad := load }).posAt q).state = .passive := by
          rw [State.updPos_posAt_ne _ _ _ _ hpq.symm]
          simpa using gone
        refine ⟨flag.cascade q, ?_⟩
        rw [flag.shape.cascade_eq gone', State.makeAbsent_posAt_ne _ hpq, pos]
      · exact ⟨flag, pos⟩
    · exact ⟨flag, pos⟩

/-- A position heard: its last-heard time and its flag (R46). -/
theorem State.Coherent.heard {s : State} (h : s.Coherent) {p : Pos} (on : (s.posAt p).state.onChain = true)
    (load : Bool) : (s.heard p load).Coherent ∧
    (s.heard p load).posAt p = { s.posAt p with lastHeard := some s.now, downstreamLoad := load } := by
  have time : (s.updPos p fun r => { r with lastHeard := some s.now }).Coherent :=
    h.updPos (.onChain on rfl rfl rfl (fun _ => rfl) rfl rfl rfl rfl id id id)
  have pos : (s.updPos p fun r => { r with lastHeard := some s.now }).posAt p =
      { s.posAt p with lastHeard := some s.now } := State.updPos_posAt_same _ _ _
  obtain ⟨sound, heard⟩ := time.setLoad (p := p) (by rw [pos]; exact on) load
  exact ⟨sound, heard.trans (by rw [pos])⟩

/-- A LOST position heard is asked (R32). -/
theorem State.Coherent.askQuery {s : State} (h : s.Coherent) (p : Pos) : (s.askQuery p).Coherent := by
  unfold State.askQuery
  split
  · next asks =>
    simp only [Bool.and_eq_true, beq_iff_eq, Bool.not_eq_true', List.contains_eq_mem, decide_eq_false_iff_not,
      Option.isNone_iff_eq_none] at asks
    refine ⟨h.shape, h.parts.ask (r := .query p) asks.2 (fun q hq => by cases hq) fun q hq => ?_⟩
    cases hq
    exact asks.1
  · exact h

/-- The effects of R46 of a REPORT or IDENT from an ACTIVE or LOST position. -/
theorem State.Coherent.heardFarEnd {s : State} (h : s.Coherent) {p : Pos} (on : (s.posAt p).state.onChain = true)
    (load : Bool) (n : Nat) : ((s.heard p load).addFarEnd p n).Coherent := by
  obtain ⟨sound, pos⟩ := h.heard on load
  exact sound.addFarEnd (by rw [pos]; exact on) n

theorem State.Coherent.reportHeard {s : State} (h : s.Coherent) {r : ReportFields}
    (on : (s.posAt r.pos).state.onChain = true) : (s.reportHeard r).Coherent := by
  have heard := h.heardFarEnd on r.load r.farEnd
  have on' : (((s.heard r.pos r.load).addFarEnd r.pos r.farEnd).posAt r.pos).state.onChain = true := by
    rw [(State.CountedFrom.addFarEnd _ _ _).state, (h.heard on r.load).2]
    exact on
  unfold State.reportHeard State.when
  dsimp only
  split
  · exact (heard.updPos (.onChain on' rfl rfl rfl id rfl rfl rfl rfl id id id)).askQuery _
  · exact heard.askQuery _

/-- An answer stashed in an entry that awaits it (R66). -/
theorem State.EntryActive.stash {s : State} {e : Entry} (h : s.EntryActive e) {a : Answer} (awaits : e.awaits a.pos = true) :
    s.EntryActive (e.stash a) := by
  simp only [Entry.awaits, Bool.and_eq_true] at awaits
  have required : hasPos e.required a.pos = true := awaits.1.1
  obtain ⟨waiting, positions⟩ := h
  have sent : e.state ≠ .waiting := fun hw => by
    rw [(waiting hw).1] at required
    simp at required
  refine ⟨fun hw => ?_, fun p => ⟨(positions p).1, fun hp => ?_, fun ⟨x, hx, hp⟩ => ?_⟩⟩
  · simp only [Entry.stash] at hw
    split at hw
    · cases hw
    · exact absurd hw sent
  · simp only [Entry.stash, hasPos_addPos, Bool.or_eq_true, decide_eq_true_eq] at hp
    rcases hp with hp | rfl
    · exact (positions p).2.1 hp
    · exact required
  · simp only [Entry.stash, hasPos_addPos, Bool.or_eq_true, decide_eq_true_eq]
    rcases List.mem_append.1 hx with hx | hx
    · exact .inl ((positions p).2.2 ⟨x, hx, hp⟩)
    · rw [List.mem_singleton.1 hx] at hp
      exact .inr hp.symm

theorem State.Coherent.matchReport {s : State} (h : s.Coherent) (r : ReportFields) : (s.matchReport r).Coherent := by
  have stale : s.countStale.Coherent := h.of_same ⟨rfl, rfl, rfl, rfl, rfl, rfl⟩
  unfold State.matchReport
  split
  · next e he =>
    split
    · next awaits =>
      have stashed : (s.updEntry r.tag fun e => e.stash ⟨r.pos, r.supply, r.superseded, r.readings⟩).PartsSound :=
        h.parts.updEntry _ _ fun x hx ht => by
          have tag : e.tag = r.tag := by simpa using List.find?_some he
          rw [h.parts.tags.entry_unique (List.mem_of_find?_eq_some he) hx (ht.trans tag.symm)]
          exact ⟨rfl, (h.parts.entries e (List.mem_of_find?_eq_some he)).stash awaits⟩
      exact ⟨h.shape.of_states fun q => (State.RetiredFrom.retire _).state q, stashed.retire⟩
    · exact stale
  · exact stale

theorem State.Coherent.takeReport {s : State} (h : s.Coherent) (r : ReportFields) : (s.takeReport r).Coherent := by
  unfold State.takeReport
  split
  · next on => exact (h.reportHeard on).matchReport r
  · exact h.of_same ⟨rfl, rfl, rfl, rfl, rfl, rfl⟩

/-! ### IDENT (R27, R33, R34) -/

/-- A place ready for an accepted identity: circuits as at reset, no fault, and no more attempts than R26 makes. -/
structure State.Vacant (s : State) (p : Pos) : Prop where
  circuits : ∀ c, s.circAt p c = Circuit.clear
  faults : ∀ e ∈ s.image.faults, e.key.pos ≠ p
  attempts : (s.posAt p).probeAttempts ≤ Config.enumAttempts

/-- A lookup restores baselines of one position's fitted circuits, and orders the cache (R108, R109). -/
theorem State.lookup_frame (s : State) (p : Pos) (i : Identity) :
    (s.lookup p i).chain = s.chain ∧ (s.lookup p i).queue = s.queue ∧ (s.lookup p i).image = s.image ∧
    ∀ q c, q ≠ p ∨ s.fitted p c = false → (s.lookup p i).circAt q c = s.circAt q c := by
  unfold State.lookup
  split
  · next e _ =>
    refine ⟨rfl, rfl, rfl, fun q c h => ?_⟩
    change (s.updCircs p (s.restoreSlot p e.slots)).circAt q c = _
    rw [State.updCircs_circAt]
    split
    · next hq =>
      have unfitted := h.resolve_left fun hne => hne hq
      unfold State.restoreSlot
      split
      · simp [unfitted]
      · rfl
    · rfl
  · exact ⟨rfl, rfl, rfl, fun _ _ _ => rfl⟩

/-- Steps 1 to 4 of R27 but for the far-end errors: the record of the accepted identity, the lookup, and ACTIVE. -/
def State.identified (s : State) (i : IdentFields) : State :=
  let clash := s.heldElsewhere i.pos i.identity
  let s1 := s.updPos i.pos (identifyRecord s.now i clash)
  let s3 := if clash then s1 else s1.lookup i.pos i.identity
  (s3.updPos i.pos fun r => { r with state := .active }).dropRequests i.pos

theorem State.acceptIdent_eq (s : State) (i : IdentFields) : s.acceptIdent i =
    (((((s.identified i).addFarEnd i.pos i.farEnd).requestResync).probeNext i.pos).when
      (s.heldElsewhere i.pos i.identity) fun s => s.add (posFault i.pos .identityClash)) := rfl

theorem State.identified_frame (s : State) (i : IdentFields) :
    (s.identified i).queue = s.queue ∧ (s.identified i).image = s.image ∧
    (s.identified i).chain.linkRequests = (s.chain.linkRequests.filter fun r => r != .enum i.pos && r != .query i.pos) ∧
    (s.identified i).posAt i.pos = { identifyRecord s.now i (s.heldElsewhere i.pos i.identity) (s.posAt i.pos) with
      state := .active } ∧
    (∀ q, q ≠ i.pos → (s.identified i).posAt q = s.posAt q) ∧
    ∀ q c, q ≠ i.pos ∨ i.count < c.val + 1 → (s.identified i).circAt q c = s.circAt q c := by
  have record : (s.updPos i.pos (identifyRecord s.now i (s.heldElsewhere i.pos i.identity))).posAt i.pos =
      identifyRecord s.now i (s.heldElsewhere i.pos i.identity) (s.posAt i.pos) := State.updPos_posAt_same _ _ _
  unfold State.identified
  dsimp only
  split
  · refine ⟨rfl, rfl, rfl, ?_, fun q hq => ?_, fun _ _ _ => rfl⟩
    · rw [State.dropRequests_posAt, State.updPos_posAt_same, record]
    · rw [State.dropRequests_posAt, State.updPos_posAt_ne _ _ _ _ hq, State.updPos_posAt_ne _ _ _ _ hq]
  · obtain ⟨chain, queue, image, circ⟩ := (s.updPos i.pos
      (identifyRecord s.now i (s.heldElsewhere i.pos i.identity))).lookup_frame i.pos i.identity
    refine ⟨queue, image, ?_, ?_, fun q hq => ?_, fun q c hqc => circ q c (hqc.imp id fun hc => ?_)⟩
    · simp only [State.dropRequests, State.updChain_chain, State.updPos_chain, chain]
    · rw [State.dropRequests_posAt, State.updPos_posAt_same]
      simp only [State.posAt, chain] at record ⊢
      rw [record]
    · rw [State.dropRequests_posAt, State.updPos_posAt_ne _ _ _ _ hq]
      simp only [State.posAt, chain]
      exact State.updPos_posAt_ne _ _ _ _ hq
    · have unreached : countReaches (some i.count) c = false := by simpa [countReaches] using hc
      simp [State.fitted, record, identifyRecord, unreached]

/-- An identity accepted at a vacant PROBING or LOST position, every other place sound (R27). -/
theorem State.identified_sound {s : State} {i : IdentFields} (shape : s.ChainShape) (requests : s.chain.linkRequests.Nodup)
    (tags : s.TagsInOrder) (entries : ∀ e ∈ s.queue.entries, s.EntryActive e) (others : ∀ q, q ≠ i.pos → s.PlaceSound q)
    (vacant : s.Vacant i.pos) (present : (s.posAt i.pos).state ≠ .absent) (count : 1 ≤ i.count ∧ i.count ≤ 12) :
    (s.identified i).Coherent := by
  obtain ⟨queue, image, pending, pos, posOthers, circ⟩ := s.identified_frame i
  have noRequest := State.not_mem_dropRequests
  refine ⟨fun a b hab off => ?_, ?_, ?_, fun e he => ?_, fun q => ?_⟩
  · have ha : a ≠ i.pos := fun ha => by
      rw [ha, pos] at off
      cases off
    rw [posOthers a ha] at off
    have absent := shape a b hab off
    rw [posOthers b fun hb => present (hb ▸ absent)]
    exact absent
  · rw [pending]
    exact requests.filter _
  · simpa only [State.TagsInOrder, queue] using tags
  · refine (entries e (queue ▸ he)).mono fun q hq => ?_
    by_cases hqp : q = i.pos
    · simp [State.isActive, hqp, pos]
    · simpa [State.isActive, posOthers q hqp] using hq
  · by_cases hq : q = i.pos
    · subst hq
      have enum : LinkRequest.enum i.pos ∉ (s.identified i).chain.linkRequests := (noRequest _ i.pos).1
      have query : LinkRequest.query i.pos ∉ (s.identified i).chain.linkRequests := (noRequest _ i.pos).2
      refine ⟨?_, ⟨fun h => absurd h enum, fun h => absurd h query, ?_, ?_⟩, fun c => ?_, fun e he hp =>
        absurd hp (vacant.faults e (image ▸ he))⟩
      · rw [pos]
        refine (Position.sound_onChain rfl).2 ⟨rfl, rfl, rfl, rfl, fun n hn => ?_, vacant.attempts⟩
        cases hn
        exact count
      · rw [pos]
        exact fun h => by cases h
      · rw [pos]
        exact fun h => by cases h
      · rw [pos]
        refine ⟨fun off => (by cases off), fun unreached => ?_⟩
        have : i.count < c.val + 1 := by simpa [identifyRecord, countReaches] using unreached
        rw [circ _ c (.inr this), vacant.circuits]
        exact ⟨rfl, rfl, rfl, rfl, rfl⟩
    · exact (others q hq).of_sameAt ⟨posOthers q hq, fun c => circ q c (.inl hq), fun r hr _ =>
        (List.mem_filter.1 (pending ▸ hr)).1, fun e he _ => image ▸ he⟩

/-- A RESYNC request keeps the chain block but for a counter. -/
theorem State.requestResync_posAt (s : State) (p : Pos) : s.requestResync.posAt p = s.posAt p := by
  unfold State.requestResync
  split <;> rfl

theorem State.Coherent.requestResync {s : State} (h : s.Coherent) : s.requestResync.Coherent := by
  exact ⟨h.shape.of_states fun q => by rw [State.requestResync_posAt], h.parts.requestResync⟩

theorem State.Coherent.add {s : State} (h : s.Coherent) {k : FaultKey} (on : (s.posAt k.pos).state.onChain = true)
    (stands : s.stands k = true) : (s.add k).Coherent :=
  h.of_places rfl rfl (fun _ => rfl) fun q => (h.parts.places q).add on stands

/-- An IDENT accepted (R27), once the identified position is sound. -/
theorem State.acceptIdent_sound {s : State} {i : IdentFields} (identified : (s.identified i).Coherent) :
    (s.acceptIdent i).Coherent := by
  have pos := (s.identified_frame i).2.2.2.1
  have frame := State.CountedFrom.addFarEnd i.pos (s.identified i) i.farEnd
  have on : ((s.identified i).posAt i.pos).state.onChain = true := by rw [pos]; rfl
  have probed := ((identified.addFarEnd on i.farEnd).requestResync).probeNext i.pos
  have same : ((((s.identified i).addFarEnd i.pos i.farEnd).requestResync).probeNext i.pos).posAt i.pos =
      ((s.identified i).addFarEnd i.pos i.farEnd).posAt i.pos := by
    rw [State.probeNext_posAt, State.requestResync_posAt]
  rw [State.acceptIdent_eq]
  unfold State.when
  split
  · next clash =>
    refine probed.add ?_ ?_
    · change (State.posAt _ i.pos).state.onChain = true
      rw [same, frame.state]
      exact on
    · change (State.posAt _ i.pos).identityClash = true
      rw [same, frame.pos, pos]
      exact clash
  · exact probed

/-- An IDENT accepted from a PROBING position (R27). -/
theorem State.Coherent.acceptIdent {s : State} (h : s.Coherent) {i : IdentFields}
    (probing : (s.posAt i.pos).state = .probing) (count : 1 ≤ i.count ∧ i.count ≤ 12) : (s.acceptIdent i).Coherent := by
  obtain ⟨clear, noFault⟩ := (h.parts.places i.pos).empty (by rw [probing]; rfl)
  exact State.acceptIdent_sound (State.identified_sound h.shape h.parts.requests h.parts.tags h.parts.entries
    (fun q _ => h.parts.places q) ⟨clear, noFault, (h.parts.places i.pos).record.2.2.2.2.2.1⟩ (by simp [probing]) count)

/-- Reviews leave circuits and the keys of the fault list. -/
theorem State.reviewClashes_records (s : State) (i : Option Identity) :
    (s.reviewClashes i).circuits = s.circuits ∧
    ∀ e ∈ (s.reviewClashes i).image.faults, ∃ e' ∈ s.image.faults, e'.key = e.key := by
  cases i with
  | none => exact ⟨rfl, fun e he => ⟨e, he, rfl⟩⟩
  | some i =>
    refine foldl_keeps (fun s u : State => u.circuits = s.circuits ∧
      ∀ e ∈ u.image.faults, ∃ e' ∈ s.image.faults, e'.key = e.key) (fun s => ⟨rfl, fun e he => ⟨e, he, rfl⟩⟩)
      (fun a b c hab hbc => ⟨hbc.1.trans hab.1, fun e he => ?_⟩) (State.reviewClash i) (fun s p => ?_) allPos s
    · obtain ⟨x, hx, hxe⟩ := hbc.2 e he
      obtain ⟨y, hy, hyx⟩ := hab.2 x hx
      exact ⟨y, hy, hyx.trans hxe⟩
    · unfold State.reviewClash
      split
      · refine ⟨rfl, fun e he => ?_⟩
        rcases mem_faultHeal he with ⟨he, -⟩ | ⟨hk, -, e', he', hk'⟩
        · exact ⟨e, he, rfl⟩
        · exact ⟨e', he', hk'.trans hk.symm⟩
      · exact ⟨rfl, fun e he => ⟨e, he, rfl⟩⟩

theorem State.reviewClashes_placeSound {s : State} {q : Pos} (h : s.PlaceSound q) (i : Option Identity) :
    (s.reviewClashes i).PlaceSound q := by
  cases i with
  | none => exact h
  | some i =>
    change (allPos.foldl (State.reviewClash i) s).PlaceSound q
    generalize allPos = l
    induction l generalizing s with
    | nil => exact h
    | cons p l ih => exact ih (h.reviewClash i)

/-- An identity change at a warm return (R34): the departing unit is taken off and the arriving one identified. -/
theorem State.Coherent.identityChange {s : State} (h : s.Coherent) {i : IdentFields}
    (lost : (s.posAt i.pos).state = .lost) (count : 1 ≤ i.count ∧ i.count ≤ 12) : (s.identityChange i).Coherent := by
  obtain ⟨heard, pos⟩ := h.heard (p := i.pos) (by rw [lost]; rfl) i.load
  have lost' : ((s.heard i.pos i.load).posAt i.pos).state = .lost := by rw [pos]; exact lost
  unfold State.identityChange
  generalize s.heard i.pos i.load = u at heard lost'
  dsimp only
  obtain ⟨queue, pending, taken⟩ := u.takeOff_frame i.pos
  obtain ⟨circuits, faults⟩ := u.takeOff_clear i.pos
  generalize hv : (u.takeOff i.pos).updPos i.pos (fun r => { r with linkErrors := 0, identity := none }) = v
  have vpos : ∀ q, (v.posAt q).state = (u.posAt q).state ∧
      (v.posAt q).probeAttempts = (u.posAt q).probeAttempts := fun q => by
    rw [← hv, State.updPos_posAt, taken]
    split <;> exact ⟨rfl, rfl⟩
  have vqueue : v.queue = u.queue := by rw [← hv]; exact queue
  have vpending : v.chain.linkRequests = u.chain.linkRequests := by rw [← hv]; exact pending
  obtain ⟨rqueue, rpending, rpos⟩ := v.reviewClashes_frame (u.posAt i.pos).identity
  obtain ⟨rcircuits, rfaults⟩ := v.reviewClashes_records (u.posAt i.pos).identity
  have wpos : ∀ q, ((v.reviewClashes (u.posAt i.pos).identity).posAt q).state = (u.posAt q).state ∧
      ((v.reviewClashes (u.posAt i.pos).identity).posAt q).probeAttempts = (u.posAt q).probeAttempts := fun q => by
    obtain ⟨_, hq⟩ := rpos q
    rw [hq]
    exact vpos q
  refine State.acceptIdent_sound (State.identified_sound (heard.shape.of_states fun q => (wpos q).1) ?_ ?_ (fun e he => ?_)
    (fun q hq => ?_) ⟨fun c => ?_, fun e he => ?_, ?_⟩ ?_ count)
  · rw [rpending, vpending]
    exact heard.parts.requests
  · have := heard.parts.tags
    simpa only [State.TagsInOrder, rqueue, vqueue] using this
  · rw [rqueue, vqueue] at he
    exact (heard.parts.entries e he).of_states fun q => (wpos q).1
  · refine State.reviewClashes_placeSound ?_ _
    rw [← hv]
    exact ((heard.parts.places q).of_sameAt (.takeOff hq)).of_sameAt (.updPos hq _)
  · rw [State.circAt, rcircuits, ← hv]
    exact circuits c
  · obtain ⟨e', he', hk⟩ := rfaults e he
    rw [← hk]
    rw [← hv] at he'
    exact faults e' he'
  · rw [(wpos i.pos).2]
    exact (heard.parts.places i.pos).record.2.2.2.2.2.1
  · rw [(wpos i.pos).1, lost']
    decide

/-! ### A changed count at a warm return (R33) -/

/-- A circuit with no condition, baseline or confirmation state. -/
def Circuit.Blank (k : Circuit) : Prop :=
  k.condition = .unknown ∧ k.baseline = .none ∧ k.candidate = none ∧ k.agreement = 0 ∧ k.last = none

/-- Step 2 of R33 on one circuit: one that the old count reaches and the new does not starts again. -/
def State.unfit (p : Pos) (old : Option Nat) (new : Nat) (s : State) (c : Circ) : State :=
  if countReaches old c && !countReaches (some new) c then
    (s.updCirc p c fun k =>
      { k with candidate := none, agreement := 0, last := none, baseline := .none, condition := .unknown }).healCondition
        p c (s.circAt p c).condition
  else s

theorem State.unfit_updPos (p : Pos) (old : Option Nat) (new : Nat) (s : State) (c : Circ) (f : Position → Position) :
    State.unfit p old new (s.updPos p f) c = (State.unfit p old new s c).updPos p f := by
  unfold State.unfit
  split
  · unfold State.healCondition
    simp only [State.updPos_circAt]
    split <;> rfl
  · rfl

/-- The count may be recorded after the circuits that start again as well as before. -/
theorem State.recount_eq (s : State) (p : Pos) (new : Nat) : s.recount p new =
    (allCirc.foldl (State.unfit p (s.posAt p).circuitCount new) s).updPos p fun r => { r with circuitCount := some new } := by
  have commute : ∀ (l : List Circ) (u : State), l.foldl (State.unfit p (s.posAt p).circuitCount new)
      (u.updPos p fun r => { r with circuitCount := some new }) =
      (l.foldl (State.unfit p (s.posAt p).circuitCount new) u).updPos p fun r => { r with circuitCount := some new } := by
    intro l
    induction l with
    | nil => exact fun _ => rfl
    | cons c l ih => exact fun u => by rw [List.foldl_cons, State.unfit_updPos, ih, List.foldl_cons]
  exact commute allCirc s

theorem State.unfit_frame (p : Pos) (old : Option Nat) (new : Nat) (s : State) (c : Circ) :
    (State.unfit p old new s c).queue = s.queue ∧ (State.unfit p old new s c).chain = s.chain ∧
    (∀ d, (s.circAt p d).Blank → ((State.unfit p old new s c).circAt p d).Blank) ∧
    (countReaches old c = true → countReaches (some new) c = false → ((State.unfit p old new s c).circAt p c).Blank) := by
  unfold State.unfit
  split
  · have frame := State.JudgedFrom.healCondition (s.updCirc p c fun k =>
      { k with candidate := none, agreement := 0, last := none, baseline := .none, condition := .unknown }) p c
      (s.circAt p c).condition
    refine ⟨frame.queue, State.healCondition_chain _ _ _ _, fun d hd => ?_, fun _ _ => ?_⟩
    · rw [State.healCondition_circAt, State.updCirc_circAt]
      split
      · exact ⟨rfl, rfl, rfl, rfl, rfl⟩
      · exact hd
    · rw [State.healCondition_circAt, State.updCirc_circAt, if_pos ⟨rfl, rfl⟩]
      exact ⟨rfl, rfl, rfl, rfl, rfl⟩
  · next other => exact ⟨rfl, rfl, fun _ hd => hd, fun h1 h2 => absurd (by simp [h1, h2]) other⟩

theorem State.PlaceSound.unfit {s : State} {p q : Pos} (h : s.PlaceSound q) (place : s.PlaceSound p) (old : Option Nat)
    (new : Nat) (c : Circ) : (State.unfit p old new s c).PlaceSound q := by
  unfold State.unfit
  split
  · exact h.changeCondition ⟨fun off => by rw [(place.circuits c).1 off]; rfl, fun _ => ⟨rfl, rfl, rfl, rfl, rfl⟩⟩
  · exact h

/-- The circuits that start again, in ascending order (R33). -/
theorem State.Coherent.unfits (p : Pos) (old : Option Nat) (new : Nat) (l : List Circ) {s : State} (h : s.Coherent) :
    (l.foldl (State.unfit p old new) s).Coherent ∧ (l.foldl (State.unfit p old new) s).chain = s.chain ∧
    ∀ c, (c ∈ l ∧ countReaches old c = true ∧ countReaches (some new) c = false ∨ (s.circAt p c).Blank) →
      ((l.foldl (State.unfit p old new) s).circAt p c).Blank := by
  induction l generalizing s with
  | nil => exact ⟨h, rfl, fun c hc => hc.resolve_left fun hm => by simp at hm⟩
  | cons d l ih =>
    obtain ⟨queue, chain, kept, made⟩ := State.unfit_frame p old new s d
    have stepped : (State.unfit p old new s d).Coherent := h.of_places queue (by rw [chain])
      (fun q => by simp only [State.posAt, chain]) fun q => (h.parts.places q).unfit (h.parts.places p) old new d
    obtain ⟨sound, chains, blank⟩ := ih stepped
    refine ⟨sound, chains.trans chain, fun c hc => blank c ?_⟩
    rcases hc with ⟨hm, h1, h2⟩ | hc
    · rcases List.mem_cons.1 hm with rfl | hm
      · exact .inr (made h1 h2)
      · exact .inl ⟨hm, h1, h2⟩
    · exact .inr (kept c hc)

/-- A changed count recorded at an ACTIVE or LOST position (R33). -/
theorem State.Coherent.recount {s : State} (h : s.Coherent) {p : Pos} (on : (s.posAt p).state.onChain = true)
    {new : Nat} (count : 1 ≤ new ∧ new ≤ 12) : (s.recount p new).Coherent ∧
    (s.recount p new).posAt p = { s.posAt p with circuitCount := some new } := by
  obtain ⟨sound, chain, blank⟩ := State.Coherent.unfits p (s.posAt p).circuitCount new allCirc h
  rw [State.recount_eq]
  generalize allCirc.foldl (State.unfit p (s.posAt p).circuitCount new) s = u at sound chain blank
  have pos : u.posAt p = s.posAt p := by simp only [State.posAt, chain]
  refine ⟨sound.of_places rfl rfl (State.updPos_state rfl) fun q => ?_, by rw [State.updPos_posAt_same, pos]⟩
  by_cases hq : q = p
  · subst hq
    obtain ⟨record, ⟨enum, query, timeout, window⟩, circuits, faults⟩ := sound.parts.places q
    rw [← pos] at on
    obtain ⟨h1, h2, h3, h4, h5, h6⟩ := (Position.sound_onChain on).1 record
    refine ⟨?_, ⟨?_, ?_, ?_, ?_⟩, fun c => ?_, fun e he hk => ?_⟩
    · rw [State.updPos_posAt_same]
      exact (Position.sound_onChain (r := { u.posAt q with circuitCount := some new }) on).2
        ⟨h1, rfl, h3, h4, fun n hn => (by cases hn; exact count), h6⟩
    · rw [State.updPos_posAt_same]; exact enum
    · rw [State.updPos_posAt_same]; exact query
    · rw [State.updPos_posAt_same]; exact timeout
    · rw [State.updPos_posAt_same]; exact window
    · rw [State.updPos_posAt_same, State.updPos_circAt]
      refine ⟨fun off => absurd (off.symm.trans on) (by decide), fun unreached => ?_⟩
      by_cases reached : countReaches (s.posAt q).circuitCount c = true
      · exact blank c (.inl ⟨mem_allCirc c, reached, unreached⟩)
      · exact (circuits c).2 (by rw [pos]; simpa using reached)
    · obtain ⟨-, stands⟩ := faults e he hk
      rw [State.updPos_posAt_same]
      refine ⟨on, fun ha => ?_⟩
      rw [← stands ha]
      unfold State.stands
      subst hk
      simp only [State.updPos_posAt_same, State.updPos_circAt]
  · exact (sound.parts.places q).of_sameAt (.updPos hq _)

/-- A LOST position with its QUERY's window open is ACTIVE again (R33). -/
theorem State.Coherent.returned {s : State} (h : s.Coherent) {p : Pos} (lost : (s.posAt p).state = .lost)
    (asked : (s.posAt p).queryUntil ≠ none) :
    (s.updPos p fun r => { r with state := .active, lostSince := none, queryUntil := none }).Coherent := by
  have pos : (s.updPos p fun r => { r with state := .active, lostSince := none, queryUntil := none }).posAt p =
      { s.posAt p with state := .active, lostSince := none, queryUntil := none } := State.updPos_posAt_same _ _ _
  have place := h.parts.places p
  have noEnum := place.no_enum (by simp [lost])
  have noQuery : LinkRequest.query p ∉ s.chain.linkRequests := fun hm => asked (place.requests.2.1 hm).2
  have noTimeout : (s.posAt p).enumTimeout = none := by
    by_contra ht
    have := place.requests.2.2.1 (Option.isSome_iff_ne_none.2 ht)
    rw [lost] at this
    cases this
  have on : (s.posAt p).state.onChain = true := by rw [lost]; rfl
  refine ⟨fun a b hab off => ?_, h.parts.requests, h.parts.tags, fun e he => ?_, fun q => ?_⟩
  · have ha : a ≠ p := fun ha => by
      rw [ha, pos] at off
      cases off
    rw [State.updPos_posAt_ne _ _ _ _ ha] at off
    have absent := h.shape a b hab off
    rw [State.updPos_posAt_ne _ _ _ _ fun hb => by rw [hb, lost] at absent; cases absent]
    exact absent
  · refine (h.parts.entries e he).mono fun q hq => ?_
    by_cases hqp : q = p
    · subst hqp
      simp [State.isActive, pos]
    · simpa [State.isActive, State.updPos_posAt_ne _ _ _ _ hqp] using hq
  · by_cases hq : q = p
    · subst hq
      obtain ⟨h1, h2, h3, -, h5, h6⟩ := (Position.sound_onChain on).1 place.record
      refine ⟨?_, ⟨fun hm => absurd hm noEnum, fun hm => absurd hm noQuery, fun ht => ?_, fun hw => ?_⟩, fun c => ?_,
        fun e he hk => ?_⟩
      · rw [pos]
        exact (Position.sound_onChain rfl).2 ⟨h1, h2, h3, rfl, h5, h6⟩
      · rw [pos] at ht
        rw [noTimeout] at ht
        cases ht
      · rw [pos] at hw
        cases hw
      · rw [pos]
        exact ⟨fun off => (by cases off), (place.circuits c).2⟩
      · rw [pos]
        refine ⟨rfl, fun ha => ?_⟩
        rw [← (place.faults e he hk).2 ha]
        unfold State.stands
        subst hk
        simp only [State.updPos_posAt_same, State.updPos_circAt]
    · exact (h.parts.places q).of_sameAt (.updPos hq _)

/-- A warm return (R33). -/
theorem State.Coherent.warmReturn {s : State} (h : s.Coherent) {i : IdentFields}
    (lost : (s.posAt i.pos).state = .lost) (asked : (s.posAt i.pos).queryUntil.isSome = true)
    (count : 1 ≤ i.count ∧ i.count ≤ 12) : (s.warmReturn i).Coherent := by
  have on : (s.posAt i.pos).state.onChain = true := by rw [lost]; rfl
  have heard := h.heardFarEnd on i.load i.farEnd
  have counted := State.CountedFrom.addFarEnd i.pos (s.heard i.pos i.load) i.farEnd
  have state : (((s.heard i.pos i.load).addFarEnd i.pos i.farEnd).posAt i.pos).state = .lost := by
    rw [counted.state, (h.heard on i.load).2]
    exact lost
  have window : (((s.heard i.pos i.load).addFarEnd i.pos i.farEnd).posAt i.pos).queryUntil = (s.posAt i.pos).queryUntil := by
    rw [counted.pos, (h.heard on i.load).2]
  obtain ⟨recounted, pos⟩ := heard.recount (p := i.pos) (by rw [state]; rfl) count
  refine ((recounted.returned (p := i.pos) ?_ ?_).requestResync).probeNext i.pos
  · rw [pos]
    exact state
  · rw [pos]
    exact fun hn => Option.isSome_iff_ne_none.1 asked (window.symm.trans hn)

theorem State.Coherent.takeIdent {s : State} (h : s.Coherent) {i : IdentFields} (count : 1 ≤ i.count ∧ i.count ≤ 12) :
    (s.takeIdent i).Coherent := by
  unfold State.takeIdent
  split
  · next probing => exact h.acceptIdent probing count
  · next active => exact h.heardFarEnd (by rw [active]; rfl) _ _
  · next lost =>
    split
    · next asked =>
      split
      · exact h.warmReturn lost asked count
      · exact h.identityChange lost count
    · exact (h.heardFarEnd (by rw [lost]; rfl) _ _).askQuery _
  · exact h
  · exact h

/-! ### The end of an upstream telegram (R178) -/

theorem parseIdent_count {t : UpTelegram} {i : IdentFields} (h : parseIdent t = some i) : 1 ≤ i.count ∧ i.count ≤ 12 := by
  unfold parseIdent at h
  dsimp only at h
  split at h
  · split at h
    · split at h
      · next bounds =>
        cases h
        exact bounds.2
      · cases h
    · cases h
  · cases h

theorem State.Coherent.countBad {s : State} (h : s.Coherent) : s.countBad.Coherent :=
  h.of_same ⟨rfl, rfl, rfl, rfl, rfl, rfl⟩

theorem State.Coherent.reportEnds {s : State} (h : s.Coherent) (t : UpTelegram) : (s.reportEnds t).Coherent := by
  unfold State.reportEnds
  split
  · exact h.takeReport _
  · exact h.countBad

theorem State.Coherent.identEnds {s : State} (h : s.Coherent) (t : UpTelegram) : (s.identEnds t).Coherent := by
  unfold State.identEnds
  split
  · next i hi => exact h.takeIdent (parseIdent_count hi)
  · exact h.countBad

theorem State.Coherent.telegramEnds {s : State} (h : s.Coherent) (bytes : List Byte) :
    (s.telegramEnds bytes).Coherent := by
  unfold State.telegramEnds
  split
  · split
    · exact h.reportEnds _
    · split
      · exact h.identEnds _
      · exact h.countBad
  · exact h.countBad

end Sys2Proof.Machine
end

