-- ==== Sys2Proof/Proofs/Requests.lean ====
section
/-! SUPPORT. What a tractor-bus frame can be handled by, and what the handlers that only read leave. -/

namespace Sys2Proof.Machine

/-- The handlers of requests that change nothing but the port (R163, R165, R158, R5, R7, R9, R52). -/
def readHandlers : List Handler :=
  [handleUnknown, handleIdentify, handleReadMapRow, handleReadProfileA, handleReadProfileB, handleReadSetting,
   handleReadPosition, handleReadCircuit, handleReadFault, handleReadSnapshot]

/-- The handlers of every other request. -/
def effectHandlers : List Handler :=
  [handleEnterSetup, handleEnterRun, handleCommit, handleRestart, handleRestartChain, handleWriteMapRow,
   handleWriteProfileA, handleWriteProfileB, handleWriteSetting, handleClearHealed, handleSnapshotCounters,
   handleFullCheck, handleForgetBaselines, handleForgetHistory]

/-- A request that reads leaves the state it is handled over. -/
theorem readHandlers_fst {h : Handler} (hh : h ∈ readHandlers) (d : List Byte) (s : State) : (h d s).1 = s := by
  simp only [readHandlers, List.mem_cons, List.not_mem_nil, or_false] at hh
  rcases hh with rfl | rfl | rfl | rfl | rfl | rfl | rfl | rfl | rfl | rfl
  · rfl
  · rfl
  · unfold handleReadMapRow; split <;> rfl
  · unfold handleReadProfileA; split <;> rfl
  · unfold handleReadProfileB; split <;> rfl
  · unfold handleReadSetting; dsimp only; split <;> rfl
  · unfold handleReadPosition; repeat' split
    all_goals rfl
  · unfold handleReadCircuit; repeat' split
    all_goals rfl
  · unfold handleReadFault; repeat' split
    all_goals rfl
  · unfold handleReadSnapshot; split <;> rfl

/-- Every request code is handled by a handler of the two lists. -/
theorem handlerOf_mem (code : Byte) : handlerOf code ∈ readHandlers ++ effectHandlers := by
  unfold handlerOf
  iterate 23
    refine iteInduction (motive := (· ∈ readHandlers ++ effectHandlers)) (fun _ => by simp [readHandlers, effectHandlers])
      fun _ => ?_
  simp [readHandlers]

/-- A command that brings a frame takes it with a handler of the two lists (R159). -/
theorem exec_frame {c : Instr} {f : BusFrame} {d : List Byte} (hc : frameOf c = some (f, d)) (s : State) :
    ∃ h, h ∈ readHandlers ++ effectHandlers ∧ exec c s = .next (s.takeFrame f d h) := by
  cases c <;> cases hc
  case lampCommandFrame => exact ⟨_, handlerOf_mem _, rfl⟩
  all_goals exact ⟨_, by simp [readHandlers, effectHandlers], rfl⟩

/-- What holds after a frame is taken, whatever handles it, holds after a command that brings it. -/
theorem exec_of_frame {P : State → Prop} {c : Instr} {f : BusFrame} {d : List Byte} {s : State}
    (hc : frameOf c = some (f, d)) (h : ∀ k ∈ readHandlers ++ effectHandlers, P (s.takeFrame f d k)) :
    ∃ u, exec c s = .next u ∧ P u := by
  obtain ⟨k, hk, he⟩ := exec_frame hc s
  exact ⟨_, he, h k hk⟩

/-- What holds of a state holds after a request is taken from it, when it holds after each of the request's outcomes. -/
theorem State.takeRequest_cases (P : State → Prop) {s : State} {d : List Byte} {h : Handler}
    (handled : d.length = 8 → s.port.request = none → ∀ list : List TxFrame → List TxFrame,
      P ((h d (s.updPort fun po => { po with request := some d })).1.updPort fun po => { po with transmit := list po.transmit }))
    (dropped : P s.dropRequest) : P (s.takeRequest d h) := by
  unfold State.takeRequest
  split
  · next taken =>
    split
    · next s1 r hr =>
      have := handled taken.1 taken.2 (handTo ⟨.response, canId s.settings.responseId, r.bytes (d.getD 0 0)⟩)
      rw [hr] at this
      exact this
    · next s1 hr =>
      have := handled taken.1 taken.2 id
      rw [hr] at this
      exact this
  · exact dropped

end Sys2Proof.Machine
end

