-- ==== Sys2Proof/Proofs/ChainSound.lean ====
section
/-! Every step keeps the chain sound: resets, modes, requests and timers, over the lemmas on places. -/

namespace Sys2Proof.Machine

/-! ### From the parts to the whole -/

/-- A state whose parts are sound has the shape of a sound one with the same position states. -/
theorem State.Coherent.of_parts {s u : State} (h : s.Coherent) (parts : u.PartsSound)
    (state : ∀ q, (u.posAt q).state = (s.posAt q).state) : u.Coherent :=
  ⟨h.shape.of_states state, parts⟩

theorem State.Coherent.updChain {s : State} (h : s.Coherent) {f : Chain → Chain}
    (positions : (f s.chain).positions = s.chain.positions)
    (requests : (f s.chain).linkRequests = s.chain.linkRequests) : (s.updChain f).Coherent :=
  h.of_same ⟨positions, requests, rfl, rfl, rfl, rfl⟩

theorem State.Coherent.updQueue {s : State} (h : s.Coherent) {f : Queue → Queue}
    (entries : (f s.queue).entries = s.queue.entries) (tags : (f s.queue).tagCounter = s.queue.tagCounter) :
    (s.updQueue f).Coherent :=
  h.of_same ⟨rfl, rfl, entries, tags, rfl, rfl⟩

theorem State.Coherent.updImage {s : State} (h : s.Coherent) {f : ImageBuilder → ImageBuilder}
    (faults : (f s.image).faults = s.image.faults) : (s.updImage f).Coherent :=
  h.of_same ⟨rfl, rfl, rfl, rfl, rfl, faults⟩

theorem State.Coherent.updPort {s : State} (h : s.Coherent) (f : Port → Port) : (s.updPort f).Coherent :=
  h.of_same ⟨rfl, rfl, rfl, rfl, rfl, rfl⟩

theorem State.Coherent.updTables {s : State} (h : s.Coherent) (f : MapTables → MapTables) :
    (s.updTables f).Coherent :=
  h.of_same ⟨rfl, rfl, rfl, rfl, rfl, rfl⟩

theorem State.Coherent.updChecks {s : State} (h : s.Coherent) (f : Checks → Checks) : (s.updChecks f).Coherent :=
  h.of_same ⟨rfl, rfl, rfl, rfl, rfl, rfl⟩

theorem State.Coherent.updStore {s : State} (h : s.Coherent) (f : Store → Store) : (s.updStore f).Coherent :=
  h.of_same ⟨rfl, rfl, rfl, rfl, rfl, rfl⟩

theorem State.Coherent.requestChange {s : State} (h : s.Coherent) (old : Image) : (s.requestChange old).Coherent :=
  h.of_parts (h.parts.requestChange old) fun q => by
    unfold State.requestChange
    dsimp only
    split <;> rfl

theorem State.Coherent.requestPoll {s : State} (h : s.Coherent) : s.requestPoll.Coherent :=
  h.of_parts h.parts.requestPoll fun q => by
    unfold State.requestPoll
    split <;> rfl

theorem State.Coherent.checkRun {s : State} (h : s.Coherent) : s.checkRun.Coherent :=
  h.of_parts (h.parts.runChecks _) fun q => by
    rw [State.checkRun]
    simp only [State.posAt, State.runChecks_chain]

/-- The flush of the queue (R74). -/
theorem State.Coherent.flush {s : State} (h : s.Coherent) : s.flush.Coherent := by
  refine h.of_parts ⟨h.parts.requests, ⟨h.parts.tags.1, Nat.zero_le _, rfl⟩, fun e he => ?_, fun q =>
    (h.parts.places q).of_sameAt (.updQueue _ _ q)⟩ fun _ => rfl
  cases he

/-- Circuits rewritten without their conditions, at every place that stays as its position allows. -/
theorem State.Coherent.mapCircuits {s : State} (h : s.Coherent) (f : Pos → Circ → Circuit → Circuit)
    (condition : ∀ p c, (f p c (s.circAt p c)).condition = (s.circAt p c).condition)
    (fits : ∀ p c, (s.circAt p c).Fits (s.posAt p) c → (f p c (s.circAt p c)).Fits (s.posAt p) c) :
    (s.mapCircuits f).Coherent :=
  h.of_places rfl rfl (fun _ => rfl) fun q => (h.parts.places q).of_circuits rfl rfl rfl
    (fun c => by rw [State.mapCircuits_circAt, condition])
    fun c => by rw [State.mapCircuits_circAt]; exact fits q c ((h.parts.places q).circuits c)

theorem Circuit.Fits.clearCandidate {k : Circuit} {r : Position} {c : Circ} (h : k.Fits r c) : k.clearCandidate.Fits r c :=
  ⟨fun off => by rw [h.1 off]; rfl, fun unreached =>
    let ⟨condition, baseline, _, _, last⟩ := h.2 unreached
    ⟨condition, baseline, rfl, rfl, last⟩⟩

theorem Circuit.Fits.forget {k : Circuit} {r : Position} {c : Circ} (h : k.Fits r c) :
    ({ k with baseline := .none } : Circuit).Fits r c :=
  ⟨fun off => by rw [h.1 off]; rfl, fun unreached =>
    let ⟨condition, _, candidate, agreement, last⟩ := h.2 unreached
    ⟨condition, rfl, candidate, agreement, last⟩⟩

/-! ### Resets -/

/-- A chain with every place empty and an empty queue is sound. -/
theorem State.Coherent.of_blank {s : State}
    (positions : s.chain.positions = Vector.replicate 6 (Position.absent PosCounters.zero))
    (requests : s.chain.linkRequests = []) (entries : s.queue.entries = []) (tags : s.queue.tagCounter < 255)
    (circuits : s.circuits = Vector.replicate 6 (Vector.replicate 12 Circuit.clear)) (faults : s.image.faults = []) :
    s.Coherent := by
  have pos : ∀ p, s.posAt p = Position.absent PosCounters.zero := fun p => by simp [State.posAt, positions]
  refine ⟨fun p q _ _ => by rw [pos]; rfl, by rw [requests]; exact List.nodup_nil,
    ⟨tags, by simp [entries], by simp [entries]⟩,
    fun e he => ?_, fun p => .of_absent (by rw [pos]; rfl) (fun c => by simp [State.circAt, circuits]) (by simp [requests])
      (by simp [requests]) (by simp [faults])⟩
  rw [entries] at he
  cases he

theorem State.hardReset_sound (s : State) : s.hardReset.Coherent :=
  .of_blank rfl rfl rfl (Nat.succ_pos 254) rfl rfl

theorem State.Coherent.probeAfterRestart {s : State} (h : s.Coherent) : s.probeAfterRestart.Coherent := by
  unfold State.probeAfterRestart
  split
  · exact h.probeFirst
  · exact h

theorem State.softRestart_sound (s : State) : s.softRestart.Coherent := by
  unfold State.softRestart
  dsimp only
  refine State.Coherent.recompose (State.Coherent.transmit (State.Coherent.probeAfterRestart ?_))
  exact .of_blank rfl rfl rfl (Nat.succ_pos 254) rfl rfl

theorem State.Coherent.chainRestart {s : State} (h : s.Coherent) : s.chainRestart.Coherent := by
  have emptied : (s.flush.cascade 0).restartChecks.Coherent := (h.flush.cascade 0).updChecks _
  unfold State.chainRestart
  exact emptied.probeAfterRestart.transmit.recompose

/-! ### Modes -/

theorem State.SameChain.divertUnsent (s : State) : s.SameChain s.divertUnsent := by
  unfold State.divertUnsent
  split <;> exact ⟨rfl, rfl, rfl, rfl, rfl, rfl⟩

theorem State.Coherent.setupEntry {s : State} (h : s.Coherent) : s.setupEntry.Coherent := by
  have flushed := (h.updTables fun t => { t with mode := .setup }).flush.of_same (.divertUnsent _)
  have cleared := flushed.mapCircuits (fun _ _ k => k.clearCandidate) (fun _ _ => rfl) fun _ _ fits => fits.clearCandidate
  exact cleared.transmit.recompose

/-- The listed faults that meet a test, healed (R155). -/
def State.healWhere (s : State) (test : FaultEntry → Bool) : State :=
  s.updImage fun ib => { ib with faults := ib.faults.map fun e => if test e then { e with active := false } else e }

/-- Whether an entry names the standing fault of circuit `c` of position `p`. -/
def State.namesAt (s : State) (p : Pos) (c : Circ) (e : FaultEntry) : Bool :=
  decide (e.key.pos = p) && decide (e.key.circ = some c) && s.stands e.key

theorem State.namesAt_iff (s : State) (p : Pos) (c : Circ) (e : FaultEntry) :
    s.namesAt p c e = true ↔ ∃ k, (s.circAt p c).condition.fault = some k ∧ e.key = ⟨p, some c, k⟩ := by
  obtain ⟨n, ⟨q, circ, kind⟩, first, count, active⟩ := e
  simp only [State.namesAt, Bool.and_eq_true, decide_eq_true_eq]
  constructor
  · rintro ⟨⟨rfl, rfl⟩, stands⟩
    exact ⟨kind, by simpa [State.stands] using stands, rfl⟩
  · rintro ⟨k, hk, he⟩
    cases he
    exact ⟨⟨rfl, rfl⟩, by simp [State.stands, hk]⟩

@[simp] theorem State.healWhere_namesAt (s : State) (test : FaultEntry → Bool) : (s.healWhere test).namesAt = s.namesAt := by
  funext p c e
  unfold State.namesAt
  congr 1

/-- A heal that meets no entry. -/
theorem State.healWhere_none (s : State) {test : FaultEntry → Bool} (h : ∀ e, test e = false) : s.healWhere test = s := by
  have : (fun e => if test e then { e with active := false } else e) = (id : FaultEntry → FaultEntry) := by
    funext e
    simp [h]
  simp [State.healWhere, State.updImage, this]

/-- Two heals in turn, by tests that do not read whether an entry is active. -/
theorem State.healWhere_healWhere (s : State) {a b : FaultEntry → Bool}
    (hb : ∀ e : FaultEntry, b { e with active := false } = b e) :
    (s.healWhere a).healWhere b = s.healWhere fun e => a e || b e := by
  simp only [State.healWhere, State.updImage, List.map_map]
  congr 3
  funext e
  by_cases ha : a e = true <;> by_cases hbe : b e = true <;> simp [ha, hbe, hb]

/-- The heal of one circuit's condition. -/
theorem State.healCondition_eq (s : State) (p : Pos) (c : Circ) :
    s.healCondition p c (s.circAt p c).condition = s.healWhere (s.namesAt p c) := by
  unfold State.healCondition
  split
  · next k hk =>
    have named : ∀ e : FaultEntry, (e.key == ⟨p, some c, k⟩) = s.namesAt p c e := fun e => by
      rw [Bool.eq_iff_iff, State.namesAt_iff, beq_iff_eq]
      exact ⟨fun he => ⟨k, hk, he⟩, fun ⟨k', hk', he⟩ => by rw [hk] at hk'; cases hk'; exact he⟩
    unfold State.heal State.healWhere faultHeal
    simp only [named]
  · next hk =>
    refine (s.healWhere_none fun e => ?_).symm
    rw [Bool.eq_false_iff, ne_eq, State.namesAt_iff]
    rintro ⟨k, hk', -⟩
    simp [hk] at hk'

/-- The heals of the conditions of some circuits of one position. -/
theorem State.healCircuits_eq (p : Pos) (cs : List Circ) (s : State) :
    cs.foldl (fun s c => s.healCondition p c (s.circAt p c).condition) s =
      s.healWhere fun e => cs.any fun c => s.namesAt p c e := by
  induction cs generalizing s with
  | nil => exact (s.healWhere_none fun _ => rfl).symm
  | cons c cs ih =>
    rw [List.foldl_cons, State.healCondition_eq, ih, State.healWhere_namesAt, State.healWhere_healWhere _ fun _ => rfl]
    rfl

theorem State.healPositions_eq (ps : List Pos) (s : State) :
    ps.foldl (fun s p => allCirc.foldl (fun s c => s.healCondition p c (s.circAt p c).condition) s) s =
      s.healWhere fun e => ps.any fun p => allCirc.any fun c => s.namesAt p c e := by
  induction ps generalizing s with
  | nil => exact (s.healWhere_none fun _ => rfl).symm
  | cons p ps ih =>
    rw [List.foldl_cons, State.healCircuits_eq, ih, State.healWhere_namesAt, State.healWhere_healWhere _ fun _ => rfl]
    rfl

/-- RUN entry heals every listed circuit fault that stands (R131). -/
theorem State.healAll_eq (s : State) : s.healAll = s.healWhere fun e => e.key.circ.isSome && s.stands e.key := by
  rw [State.healAll, State.healPositions_eq]
  congr 1
  funext e
  rw [Bool.eq_iff_iff]
  simp only [List.any_eq_true, State.namesAt, Bool.and_eq_true, decide_eq_true_eq]
  constructor
  · rintro ⟨p, -, c, -, ⟨-, hc⟩, stands⟩
    exact ⟨by simp [hc], stands⟩
  · rintro ⟨hc, stands⟩
    obtain ⟨c, hc⟩ := Option.isSome_iff_exists.1 hc
    exact ⟨e.key.pos, mem_allPos _, c, mem_allCirc c, ⟨rfl, hc⟩, stands⟩

theorem Circuit.Fits.atRunEntry {k : Circuit} {r : Position} {c : Circ} (h : k.Fits r c) (touched : Bool) :
    (k.atRunEntry touched).Fits r c := by
  refine ⟨fun off => ?_, fun unreached => ?_⟩
  · rw [h.1 off]
    cases touched <;> rfl
  · obtain ⟨-, baseline, -, -, last⟩ := h.2 unreached
    refine ⟨rfl, ?_, rfl, rfl, last⟩
    simp [Circuit.atRunEntry, Circuit.clearCandidate, baseline]

/-- Step 2 of RUN entry and the heals before it: every condition UNKNOWN, and no circuit fault active (R17, R131). -/
theorem State.Coherent.cleared {s : State} (h : s.Coherent) (touched : Pos → Circ → Bool) :
    (s.healAll.mapCircuits fun p c k => k.atRunEntry (touched p c)).Coherent := by
  rw [State.healAll_eq]
  refine h.of_places rfl rfl (fun _ => rfl) fun q => ?_
  obtain ⟨record, requests, circuits, faults⟩ := h.parts.places q
  refine ⟨record, requests, fun c => ?_, fun x hx hq => ?_⟩
  · rw [State.mapCircuits_circAt]
    exact (circuits c).atRunEntry _
  · obtain ⟨e, he, rfl⟩ := List.mem_map.1 hx
    by_cases healed : (e.key.circ.isSome && s.stands e.key) = true
    · rw [if_pos healed] at hq ⊢
      exact ⟨(faults e he hq).1, fun ha => by cases ha⟩
    · rw [if_neg healed] at hq ⊢
      obtain ⟨on, stands⟩ := faults e he hq
      refine ⟨on, fun ha => ?_⟩
      have hs := stands ha
      obtain ⟨n, ⟨p, circ, kind⟩, first, count, active⟩ := e
      cases circ with
      | some c => simp [hs] at healed
      | none => cases kind <;> exact hs

theorem State.Coherent.forgetLiveness {s : State} (h : s.Coherent) :
    (s.updChain fun ch => { ch with livenessPoll := false }).Coherent :=
  h.updChain rfl rfl

theorem State.Coherent.beginCommit {s : State} (h : s.Coherent) : s.beginCommit.Coherent := (h.updStore _).updPort _

theorem State.Coherent.runEntry {s : State} (h : s.Coherent) : s.runEntry.Coherent := by
  have cleared := (h.updTables fun t => { t with mode := .run }).cleared s.touched
  have resync := (cleared.updTables fun t => { t with
    rowTouched := Vector.replicate 6 (Vector.replicate 12 false), profileTouched := Vector.replicate 8 false }).requestResync
  unfold State.runEntry
  exact resync.forgetLiveness.transmit.recompose

/-! ### Timers and settings -/

theorem State.Coherent.pollExpiry {s : State} (h : s.Coherent) : s.pollExpiry.Coherent := by
  unfold State.pollExpiry
  split
  · have due : (s.updQueue fun q => { q with lastPoll := q.lastPoll + s.settings.pollPeriod }).Coherent :=
      h.updQueue rfl rfl
    dsimp only
    split
    · exact due.requestPoll.transmit.checkRun.transmit
    · exact (due.updChain rfl rfl).transmit
  · exact h

/-- An operation that keeps the chain sound keeps it so over every position in turn. -/
theorem State.Coherent.foldl {f : State → Pos → State} (hf : ∀ s p, s.Coherent → (f s p).Coherent) (l : List Pos)
    {s : State} (h : s.Coherent) : (l.foldl f s).Coherent := by
  induction l generalizing s with
  | nil => exact h
  | cons p l ih => exact ih (hf s p h)

theorem State.SameChain.handTelltale (s : State) : s.SameChain s.handTelltale := ⟨rfl, rfl, rfl, rfl, rfl, rfl⟩

theorem State.SameChain.refl (s : State) : s.SameChain s := ⟨rfl, rfl, rfl, rfl, rfl, rfl⟩

theorem State.SameChain.periodExpiry (s : State) : s.SameChain s.periodExpiry := by
  unfold State.periodExpiry
  split
  · exact .handTelltale s
  · exact .refl s

theorem State.SameChain.spacingExpiry (s : State) : s.SameChain s.spacingExpiry := by
  unfold State.spacingExpiry
  split
  · exact .handTelltale s
  · exact .refl s

theorem State.SameChain.silenceExpiry (s : State) : s.SameChain s.silenceExpiry := by
  unfold State.silenceExpiry
  split <;> exact ⟨rfl, rfl, rfl, rfl, rfl, rfl⟩

theorem State.SameChain.secondEnd (s : State) : s.SameChain s.secondEnd := by
  unfold State.secondEnd
  split <;> exact ⟨rfl, rfl, rfl, rfl, rfl, rfl⟩

theorem State.Coherent.expireAtWrite {s : State} (h : s.Coherent) (i : Nat) : (s.expireAtWrite i).Coherent := by
  unfold State.expireAtWrite
  split
  · exact h.pollExpiry
  · exact h.foldl (fun _ p hs => hs.lossExpiry p) _
  · exact h.foldl (fun _ p hs => hs.absenceExpiry p) _
  · exact h.of_same (.silenceExpiry s)
  · exact h.of_same (.periodExpiry s)
  · exact h

/-! ### Requests -/

/-- A gate passes a request on or answers it. -/
theorem State.gate_cases (P : State → Prop) {s : State} {mode : Option Mode} {busy : Bool} {k : State × Option Reply}
    (h : P s) (hk : P k.1) : P (s.gate mode busy k).1 := by
  unfold State.gate
  split
  · exact h
  · split
    · exact h
    · exact hk

/-- A record without its counters is as sound as with them. -/
theorem Position.Follows.zeroCounters (r : Position) : r.Follows { r with counters := PosCounters.zero } where
  sound := fun ⟨h1, h2, h3, h4, h5, h6, h7, h8⟩ => ⟨h1, h2, h3, h4, h5, h6, fun ha => by rw [h7 ha]; rfl, h8⟩
  state := rfl
  count := rfl
  attempts := rfl
  timeout := rfl
  window := rfl
  feed := id
  link := id
  clash := id

theorem State.Coherent.snapPos {s : State} (h : s.Coherent) (p : Pos) : (s.snapPos p).Coherent := by
  unfold State.snapPos
  exact (h.updChain (by rfl) (by rfl)).updPos (.zeroCounters _)

theorem State.Coherent.clearHealed {s : State} (h : s.Coherent) :
    (s.updImage fun ib => { ib with faults := ib.faults.filter (·.active), overflow := false }).Coherent :=
  h.of_places rfl rfl (fun _ => rfl) fun q => (h.parts.places q).of_sameAt
    ⟨rfl, fun _ => rfl, fun _ h _ => h, fun _ he _ => (List.mem_filter.1 he).1⟩

theorem State.Coherent.markDue {s : State} (h : s.Coherent) : s.markDue.Coherent := by
  refine h.mapCircuits _ (fun p c => ?_) fun p c fits => ?_
  · split <;> rfl
  · split
    · next may =>
      have active : s.isActive p = true := by
        simp only [State.checkable, Bool.and_eq_true] at may
        exact may.1.1.1.1.1.1
      exact ⟨fun off => absurd (off.symm.trans (State.isActive_onChain active)) (by decide), fits.2⟩
    · exact fits

theorem State.Coherent.forgetBaselines {s : State} (h : s.Coherent) (p : Option Pos) :
    (s.forgetBaselines p).Coherent := by
  cases p with
  | none => exact h.mapCircuits _ (fun _ _ => rfl) fun _ _ fits => fits.forget
  | some p =>
    refine h.of_places rfl rfl (fun _ => rfl) fun q => ?_
    have circ : ∀ c, (s.forgetPos p).circAt q c = if q = p then { s.circAt q c with baseline := .none } else s.circAt q c :=
      fun c => State.updCircs_circAt s p q c _
    refine (h.parts.places q).of_circuits rfl rfl rfl (fun c => ?_) fun c => ?_
    · refine (congrArg Circuit.condition (circ c)).trans ?_
      split <;> rfl
    · change ((s.forgetPos p).circAt q c).Fits _ c
      rw [circ]
      split
      · exact ((h.parts.places q).circuits c).forget
      · exact (h.parts.places q).circuits c

theorem State.Coherent.setRow {s : State} (h : s.Coherent) (p : Pos) (c : Circ) (r : MapRow) : (s.setRow p c r).Coherent :=
  h.updTables _

theorem State.Coherent.setProfile {s : State} (h : s.Coherent) (i : ProfileNo) (p : Profile) :
    (s.setProfile i p).Coherent :=
  h.updTables _

theorem State.Coherent.setSetting {s : State} (h : s.Coherent) (i v : Nat) : (s.setSetting i v).Coherent :=
  h.updTables _

theorem State.Coherent.snapChain {s : State} (h : s.Coherent) : s.snapChain.Coherent := h.updChain rfl rfl

theorem State.Coherent.dropRequest {s : State} (h : s.Coherent) : s.dropRequest.Coherent :=
  h.of_same ⟨rfl, rfl, rfl, rfl, rfl, rfl⟩

/-- Every request keeps the chain sound. -/
theorem State.Coherent.handled {s : State} (hs : s.Coherent) {h : Handler} (hh : h ∈ readHandlers ++ effectHandlers)
    (d : List Byte) : (h d s).1.Coherent := by
  rcases List.mem_append.1 hh with hh | hh
  · rw [readHandlers_fst hh]
    exact hs
  · simp only [effectHandlers, List.mem_cons, List.not_mem_nil, or_false] at hh
    rcases hh with rfl | rfl | rfl | rfl | rfl | rfl | rfl | rfl | rfl | rfl | rfl | rfl | rfl | rfl
    · -- ENTER SETUP
      refine State.gate_cases State.Coherent hs ?_
      split
      · exact hs.setupEntry
      · exact hs
    · -- ENTER RUN
      refine State.gate_cases State.Coherent hs ?_
      split
      · exact hs
      · split
        · exact hs
        · dsimp only
          exact hs.runEntry
    · -- COMMIT
      refine State.gate_cases State.Coherent hs ?_
      exact hs.beginCommit
    · -- RESTART
      refine State.gate_cases State.Coherent hs ?_
      exact s.softRestart_sound
    · -- RESTART CHAIN
      unfold handleRestartChain
      dsimp only
      exact hs.chainRestart
    · -- WRITE MAP ROW
      refine State.gate_cases State.Coherent hs ?_
      split
      · split
        · exact (hs.setRow _ _ _).recompose
        · exact hs
      · exact hs
    · -- WRITE PROFILE A
      refine State.gate_cases State.Coherent hs ?_
      split
      · exact hs.setProfile _ _
      · exact hs
    · -- WRITE PROFILE B
      refine State.gate_cases State.Coherent hs ?_
      split
      · exact hs.setProfile _ _
      · exact hs
    · -- WRITE SETTING
      refine State.gate_cases State.Coherent hs ?_
      dsimp only
      split
      · split
        · exact hs
        · exact ((hs.setSetting _ _).expireAtWrite _).transmit.recompose
      · exact hs
    · exact hs.clearHealed.recompose -- CLEAR HEALED
    · -- SNAPSHOT COUNTERS
      unfold handleSnapshotCounters
      split
      · exact (hs.foldl (fun _ p hs => hs.snapPos p) allPos).snapChain
      · split
        · exact hs.snapPos _
        · exact hs
    · -- FULL CHECK
      refine State.gate_cases State.Coherent hs ?_
      exact hs.markDue
    · -- FORGET BASELINES
      unfold handleForgetBaselines
      split
      · exact hs.forgetBaselines none
      · split
        · exact hs.forgetBaselines (some _)
        · exact hs
    · exact hs.of_same ⟨rfl, rfl, rfl, rfl, rfl, rfl⟩ -- FORGET HISTORY

theorem State.Coherent.takeCommandFrame {s : State} (h : s.Coherent) (d : List Byte) :
    (s.takeCommandFrame d).Coherent := by
  unfold State.takeCommandFrame
  split
  · dsimp only
    split
    · exact ((h.updPort _).updImage rfl).recompose
    · exact ((((h.updPort _).updImage rfl).updPort _).requestChange _).transmit.recompose
  · exact h.of_same ⟨rfl, rfl, rfl, rfl, rfl, rfl⟩

theorem State.Coherent.takeFrame {s : State} (hs : s.Coherent) {h : Handler} (hh : h ∈ readHandlers ++ effectHandlers)
    (f : BusFrame) (d : List Byte) : (s.takeFrame f d h).Coherent := by
  unfold State.takeFrame
  split
  · split
    · exact hs.takeCommandFrame d
    · split
      · exact State.takeRequest_cases _ (fun _ _ _ => ((hs.updPort _).handled hh d).updPort _)
          hs.dropRequest
      · exact hs
  · exact hs

/-! ### The step -/

theorem State.SameChain.frameCarried (s : State) : s.SameChain s.frameCarried := by
  unfold State.frameCarried
  split
  · exact .refl s
  · dsimp only
    split <;> exact ⟨rfl, rfl, rfl, rfl, rfl, rfl⟩

theorem State.SameChain.commitDone (s : State) : s.SameChain s.commitDone := by
  unfold State.commitDone
  split
  · split
    · exact ⟨rfl, rfl, rfl, rfl, rfl, rfl⟩
    · exact .refl s
  · exact .refl s

theorem State.Coherent.telegramDone {s : State} (h : s.Coherent) (begins : Bool) : (s.telegramDone begins).Coherent := by
  unfold State.telegramDone
  split
  · split
    · exact h.of_same ⟨rfl, rfl, rfl, rfl, rfl, rfl⟩
    · exact (h.updChain rfl rfl).transmit
  · exact h

theorem State.Coherent.answerEnds {s : State} (h : s.Coherent) (begins : Bool) : (s.answerEnds begins).Coherent :=
  h.updChain rfl rfl

theorem State.Coherent.connectTo {s : State} (h : s.Coherent) (high : Bool) : (s.connectTo high).Coherent := by
  unfold State.connectTo
  split
  · exact h
  · exact h.of_same ⟨rfl, rfl, rfl, rfl, rfl, rfl⟩

theorem State.Coherent.connectRise {s : State} (h : s.Coherent) : s.connectRise.Coherent := by
  unfold State.connectRise
  split
  · exact (h.updChain rfl rfl).probeFirst
  · exact h

theorem State.Coherent.connectFall {s : State} (h : s.Coherent) : s.connectFall.Coherent := by
  unfold State.connectFall
  split
  · exact (h.updChain rfl rfl).cascade 0
  · exact h

/-- Whether a timer's time has come or not, the command keeps what both outcomes keep. -/
theorem ite_cases (P : State → Prop) {b : Prop} [Decidable b] {s u : State} (hu : P u) (hs : P s) :
    P (if b then u else s) := by
  split
  · exact hu
  · exact hs

/-- Every command keeps the chain sound. -/
theorem exec_coherent (c : Instr) {s : State} (h : s.Coherent) : ∃ u, exec c s = .next u ∧ u.Coherent := by
  cases c with
  | hardReset => exact ⟨_, rfl, s.hardReset_sound⟩
  | connectChange high => exact ⟨_, rfl, h.connectTo high⟩
  | connectDebouncedRise => exact ⟨_, rfl, ite_cases _ h.connectRise.transmit.recompose h⟩
  | connectDebouncedFall => exact ⟨_, rfl, ite_cases _ h.connectFall.recompose h⟩
  | commitComplete => exact ⟨_, rfl, h.of_same (.commitDone s)⟩
  | frameCarried => exact ⟨_, rfl, h.of_same (.frameCarried s)⟩
  | telltaleSpacingExpiry => exact ⟨_, rfl, h.of_same (.spacingExpiry s)⟩
  | telltalePeriodExpiry => exact ⟨_, rfl, h.of_same (.periodExpiry s)⟩
  | commandSilenceExpiry => exact ⟨_, rfl, ite_cases _ (h.of_same (.silenceExpiry s)).recompose h⟩
  | operatingSecond => exact ⟨_, rfl, h.of_same (.secondEnd s)⟩
  | pollDue => exact ⟨_, rfl, ite_cases _ h.pollExpiry.recompose h⟩
  | checkBudgetReady => exact ⟨_, rfl, ite_cases _ h.transmit.recompose h⟩
  | downstreamTelegramDone b => exact ⟨_, rfl, (h.telegramDone b).recompose⟩
  | report t b => exact ⟨_, rfl, ((h.answerEnds b).reportEnds t).transmit.recompose⟩
  | ident t b => exact ⟨_, rfl, ((h.answerEnds b).identEnds t).transmit.recompose⟩
  | enumTimeout p => exact ⟨_, rfl, ite_cases _ (h.enumExpiry p).transmit.recompose h⟩
  | queryWindowEnd p => exact ⟨_, rfl, h.queryExpiry p⟩
  | lossIntervalExpiry p => exact ⟨_, rfl, ite_cases _ (h.lossExpiry p).recompose h⟩
  | absenceIntervalExpiry p => exact ⟨_, rfl, ite_cases _ (h.absenceExpiry p).transmit.recompose h⟩
  | deadline tag =>
    refine ⟨_, rfl, ?_⟩
    split
    · next e he => exact ite_cases _ (h.expire (List.mem_of_find?_eq_some he)).recompose h
    · exact h
  | linkErrorIntervalEnd => exact ⟨_, rfl, ite_cases _ h.linkIntervalExpiry.recompose h⟩
  | badUpstreamTelegram bytes b => exact ⟨_, rfl, ((h.answerEnds b).telegramEnds bytes).transmit.recompose⟩
  | _ => exact exec_of_frame rfl fun k hk => h.takeFrame hk _ _

/-- What every command keeps, and the passing of a millisecond, every step keeps: the queue of commands is no part of it. -/
theorem step_keeps (P : State → Prop) (hexec : ∀ (c : Instr) (s : State), P s → ∃ u, exec c s = .next u ∧ P u)
    (hpending : ∀ (s : State) (rest : List Instr), P s → P { s with pending := rest })
    (htick : ∀ s : State, P s → P s.tick)
    {s t : State} (h : P s) (ht : step s = .next t) : P t := by
  have kept : ∀ (c : Instr) (s : State), P s → exec c s = .next t → P t := fun c s hs he => by
    obtain ⟨u, hu, hP⟩ := hexec c s hs
    cases hu.symm.trans he
    exact hP
  unfold step at ht
  split at ht
  · exact kept _ _ (hpending _ _ h) ht
  · split at ht
    · exact kept _ _ h ht
    · cases ht
      exact htick s h

/-- Settles O4: every command keeps the places, entries and requests sound and gives the chain its shape again; the passing of
a millisecond touches none of them. -/
theorem chainStaysSound : Obligations.ChainStaysSound := by
  unfold Obligations.ChainStaysSound
  intro s t h ht
  rw [State.chainSound_iff] at h ⊢
  exact step_keeps State.Coherent (fun c _ h => exec_coherent c h) (fun _ _ h => h.of_same ⟨rfl, rfl, rfl, rfl, rfl, rfl⟩)
    (fun _ h => h.of_same ⟨rfl, rfl, rfl, rfl, rfl, rfl⟩) h ht

end Sys2Proof.Machine
end

