-- ==== Sys2Proof/Proofs/ChainFrame.lean ====
section
/-! SUPPORT. What the operations of the chain, the queue and the checks leave: the tables, the store, the port and the clocks. -/

namespace Sys2Proof.Machine

/-- `u` is `s` but for the Chain Master, the queue, the circuits, the cache, the checks, and of the Image Builder the fault
list, the retired image and the untracked flags. -/
structure State.ChainFrom (s u : State) : Prop where
  now : u.now = s.now
  tables : u.tables = s.tables
  port : u.port = s.port
  store : u.store = s.store
  arrivals : u.arrivals = s.arrivals
  pending : u.pending = s.pending
  image : u.image = { s.image with
    faults := u.image.faults, overflow := u.image.overflow, sequence := u.image.sequence
    retired := u.image.retired, untracked := u.image.untracked }

theorem State.ChainFrom.refl (s : State) : s.ChainFrom s := ⟨rfl, rfl, rfl, rfl, rfl, rfl, rfl⟩

theorem State.ChainFrom.trans {s t u : State} (a : s.ChainFrom t) (b : t.ChainFrom u) : s.ChainFrom u where
  now := b.now.trans a.now
  tables := b.tables.trans a.tables
  port := b.port.trans a.port
  store := b.store.trans a.store
  arrivals := b.arrivals.trans a.arrivals
  pending := b.pending.trans a.pending
  image := by rw [b.image, a.image]

theorem State.SentFrom.chainFrom {s u : State} (h : s.SentFrom u) : s.ChainFrom u :=
  ⟨h.now, h.tables, h.port, h.store, h.arrivals, h.pending, h.image⟩

theorem State.ChainFrom.transmit (s : State) : s.ChainFrom s.transmit := (State.SentFrom.transmit s).chainFrom

theorem State.ChainFrom.retire (s : State) : s.ChainFrom s.retire := (State.SentFrom.retire s).chainFrom

/-- A fold of operations that leave the rest leaves it. -/
theorem State.ChainFrom.foldl {β : Type} (f : State → β → State) (h : ∀ (s : State) b, s.ChainFrom (f s b)) (l : List β)
    (s : State) :
    s.ChainFrom (l.foldl f s) :=
  foldl_keeps State.ChainFrom .refl (fun _ _ _ => .trans) f h l s

theorem State.ChainFrom.updPos (s : State) (p : Pos) (f : Position → Position) : s.ChainFrom (s.updPos p f) :=
  ⟨rfl, rfl, rfl, rfl, rfl, rfl, rfl⟩

theorem State.ChainFrom.updChain (s : State) (f : Chain → Chain) : s.ChainFrom (s.updChain f) :=
  ⟨rfl, rfl, rfl, rfl, rfl, rfl, rfl⟩

theorem State.ChainFrom.updQueue (s : State) (f : Queue → Queue) : s.ChainFrom (s.updQueue f) :=
  ⟨rfl, rfl, rfl, rfl, rfl, rfl, rfl⟩

theorem State.ChainFrom.dropRequests (s : State) (p : Pos) : s.ChainFrom (s.dropRequests p) := .updChain s _

theorem State.ChainFrom.countStale (s : State) : s.ChainFrom s.countStale := ⟨rfl, rfl, rfl, rfl, rfl, rfl, rfl⟩

theorem State.ChainFrom.countBad (s : State) : s.ChainFrom s.countBad := ⟨rfl, rfl, rfl, rfl, rfl, rfl, rfl⟩

theorem State.ChainFrom.updCircs (s : State) (p : Pos) (f : Circ → Circuit → Circuit) : s.ChainFrom (s.updCircs p f) :=
  ⟨rfl, rfl, rfl, rfl, rfl, rfl, rfl⟩

theorem State.ChainFrom.updChecks (s : State) (f : Checks → Checks) : s.ChainFrom (s.updChecks f) :=
  ⟨rfl, rfl, rfl, rfl, rfl, rfl, rfl⟩

theorem State.ChainFrom.add (s : State) (k : FaultKey) : s.ChainFrom (s.add k) :=
  (State.JudgedFrom.add s k).retired.sent.chainFrom

theorem State.ChainFrom.healCondition (s : State) (p : Pos) (c : Circ) (k : Condition) :
    s.ChainFrom (s.healCondition p c k) :=
  (State.JudgedFrom.healCondition s p c k).retired.sent.chainFrom

/-! ### Leaving ACTIVE, absence, probing -/

theorem State.ChainFrom.leaveActive (s : State) (p : Pos) : s.ChainFrom (s.leaveActive p) :=
  ((State.ChainFrom.updCircs s p _).trans (.updQueue _ _)).trans (.retire _)

theorem State.ChainFrom.lossExpiry (s : State) (p : Pos) : s.ChainFrom (s.lossExpiry p) := by
  unfold State.lossExpiry
  split
  · exact (State.ChainFrom.leaveActive s p).trans (.updPos _ _ _)
  · exact .refl s

theorem State.ChainFrom.makeAbsent (s : State) (p : Pos) : s.ChainFrom (s.makeAbsent p) :=
  (State.ChainFrom.updPos s p _).trans (.dropRequests _ p)

theorem State.ChainFrom.takeOff (s : State) (p : Pos) : s.ChainFrom (s.takeOff p) := by
  obtain ⟨cache, h⟩ := s.writeBack_frame p
  unfold State.takeOff
  rw [h]
  exact ⟨rfl, rfl, rfl, rfl, rfl, rfl, rfl⟩

theorem State.ChainFrom.reviewClashes (s : State) (i : Option Identity) : s.ChainFrom (s.reviewClashes i) := by
  cases i with
  | none => exact .refl s
  | some i =>
    refine .foldl (State.reviewClash i) (fun s p => ?_) allPos s
    unfold State.reviewClash
    split
    · exact ⟨rfl, rfl, rfl, rfl, rfl, rfl, rfl⟩
    · exact .refl s

theorem State.ChainFrom.goAbsent (s : State) (p : Pos) : s.ChainFrom (s.goAbsent p) := by
  unfold State.goAbsent
  split
  · exact .refl s
  · exact .makeAbsent s p
  · exact .makeAbsent s p
  · exact (((State.ChainFrom.leaveActive s p).trans (.takeOff _ p)).trans (.makeAbsent _ p)).trans (.reviewClashes _ _)
  · exact ((State.ChainFrom.takeOff s p).trans (.makeAbsent _ p)).trans (.reviewClashes _ _)

theorem State.ChainFrom.cascade (s : State) (p : Pos) : s.ChainFrom (s.cascade p) := .foldl _ .goAbsent _ s

theorem State.ChainFrom.beginProbe (s : State) (p : Pos) : s.ChainFrom (s.beginProbe p) :=
  (State.ChainFrom.updPos s p _).trans (.updChain _ _)

theorem State.ChainFrom.probeNext (s : State) (p : Pos) : s.ChainFrom (s.probeNext p) := by
  unfold State.probeNext
  split
  · split
    · exact .beginProbe s _
    · exact .refl s
  · exact .refl s

theorem State.ChainFrom.probeFirst (s : State) : s.ChainFrom s.probeFirst := by
  unfold State.probeFirst
  split
  · exact .beginProbe s 0
  · exact .refl s

theorem State.ChainFrom.cascadeFrom (s : State) (p : Pos) : s.ChainFrom (s.cascadeFrom p) := by
  unfold State.cascadeFrom
  split
  · exact (State.ChainFrom.cascade s p).trans (.probeNext _ _)
  · exact .cascade s p

theorem State.ChainFrom.absenceExpiry (s : State) (p : Pos) : s.ChainFrom (s.absenceExpiry p) := by
  unfold State.absenceExpiry
  split
  · exact .cascadeFrom s p
  · exact .refl s

theorem State.ChainFrom.enumExpiry (s : State) (p : Pos) : s.ChainFrom (s.enumExpiry p) := by
  unfold State.enumExpiry
  split
  · split
    · exact (State.ChainFrom.updPos s p _).trans (.updChain _ _)
    · exact .updPos s p _
  · exact .refl s

theorem State.ChainFrom.queryExpiry (s : State) (p : Pos) : s.ChainFrom (s.queryExpiry p) := by
  unfold State.queryExpiry
  split
  · exact .updPos s p _
  · exact .refl s

/-! ### Link errors -/

theorem State.ChainFrom.addLinkErrors (s : State) (p : Pos) (n : Nat) : s.ChainFrom (s.addLinkErrors p n) := by
  unfold State.addLinkErrors
  dsimp only
  split
  · unfold State.raiseLinkDegraded
    split
    · exact .updPos s p _
    · exact ((State.ChainFrom.updPos s p _).trans (.updPos _ p _)).trans (.add _ _)
  · exact .updPos s p _

theorem State.ChainFrom.addFarEnd (s : State) (p : Pos) (n : Nat) : s.ChainFrom (s.addFarEnd p n) :=
  (State.ChainFrom.updPos s p _).trans (.addLinkErrors _ p n)

theorem State.ChainFrom.addMissed (s : State) (p : Pos) : s.ChainFrom (s.addMissed p) :=
  (State.ChainFrom.updPos s p _).trans (.addLinkErrors _ p 1)

theorem State.ChainFrom.endLinkInterval (s : State) (p : Pos) : s.ChainFrom (s.endLinkInterval p) := by
  unfold State.endLinkInterval
  dsimp only
  split
  · exact ⟨rfl, rfl, rfl, rfl, rfl, rfl, rfl⟩
  · exact .updPos s p _

theorem State.ChainFrom.linkIntervalExpiry (s : State) : s.ChainFrom s.linkIntervalExpiry := by
  unfold State.linkIntervalExpiry
  split
  · exact (State.ChainFrom.foldl _ .endLinkInterval allPos s).trans (.updChain _ _)
  · exact .refl s

theorem State.ChainFrom.expire (s : State) (e : Entry) : s.ChainFrom (s.expire e) := by
  refine ((State.ChainFrom.updQueue s _).trans (.foldl _ (fun s p => ?_) allPos _)).trans (.retire _)
  split
  · exact .addMissed s p
  · exact .refl s

/-! ### Allocation -/

theorem State.ChainFrom.divert (s : State) (changed : FnSet) : s.ChainFrom (s.divert changed) :=
  ⟨rfl, rfl, rfl, rfl, rfl, rfl, rfl⟩

theorem State.ChainFrom.requestChange (s : State) (old : Image) : s.ChainFrom (s.requestChange old) := by
  unfold State.requestChange
  dsimp only
  split
  · exact .updQueue s _
  · exact .divert s _

theorem State.ChainFrom.requestResync (s : State) : s.ChainFrom s.requestResync := by
  unfold State.requestResync
  split
  · exact .updQueue s _
  · exact .divert s _

theorem State.ChainFrom.requestPoll (s : State) : s.ChainFrom s.requestPoll := by
  unfold State.requestPoll
  split
  · exact .updQueue s _
  · exact .updChain s _

theorem State.ChainFrom.runChecks (ps : List Pos) (s : State) : s.ChainFrom (State.runChecks ps s) := by
  induction ps generalizing s with
  | nil => exact .refl s
  | cons p ps ih =>
    unfold State.runChecks
    split
    · split
      · split
        · exact ((State.ChainFrom.updQueue s _).trans (.updChecks _ _)).trans (ih _)
        · exact .refl s
      · exact ih s
    · exact ih s

theorem State.ChainFrom.pollExpiry (s : State) : s.ChainFrom s.pollExpiry := by
  unfold State.pollExpiry
  split
  · dsimp only
    split
    · exact ((((State.ChainFrom.updQueue s _).trans (.requestPoll _)).trans (.transmit _)).trans (.runChecks _ _)).trans
        (.transmit _)
    · exact ((State.ChainFrom.updQueue s _).trans (.updChain _ _)).trans (.transmit _)
  · exact .refl s

/-! ### Upstream telegrams and CONNECT -/

theorem State.ChainFrom.setLoad (s : State) (p : Pos) (load : Bool) : s.ChainFrom (s.setLoad p load) := by
  unfold State.setLoad
  dsimp only
  split
  · exact (State.ChainFrom.updPos s p _).trans (.probeNext _ p)
  · split
    · split
      · exact (State.ChainFrom.updPos s p _).trans (.cascade _ _)
      · exact .updPos s p _
    · exact .updPos s p _

theorem State.ChainFrom.heard (s : State) (p : Pos) (load : Bool) : s.ChainFrom (s.heard p load) :=
  (State.ChainFrom.updPos s p _).trans (.setLoad _ p load)

theorem State.ChainFrom.askQuery (s : State) (p : Pos) : s.ChainFrom (s.askQuery p) := by
  unfold State.askQuery
  split
  · exact .updChain s _
  · exact .refl s

theorem State.ChainFrom.heardFarEnd (s : State) (p : Pos) (load : Bool) (n : Nat) :
    s.ChainFrom ((s.heard p load).addFarEnd p n) :=
  (State.ChainFrom.heard s p load).trans (.addFarEnd _ p n)

theorem State.ChainFrom.reportHeard (s : State) (r : ReportFields) : s.ChainFrom (s.reportHeard r) := by
  refine ((State.ChainFrom.heardFarEnd s r.pos r.load r.farEnd).trans ?_).trans (.askQuery _ _)
  unfold State.when
  split
  · exact .updPos _ _ _
  · exact .refl _

theorem State.ChainFrom.takeReport (s : State) (r : ReportFields) : s.ChainFrom (s.takeReport r) := by
  unfold State.takeReport
  split
  · refine (State.ChainFrom.reportHeard s r).trans ?_
    unfold State.matchReport
    split
    · split
      · exact (State.ChainFrom.updQueue _ _).trans (.retire _)
      · exact .countStale _
    · exact .countStale _
  · exact .countStale s

theorem State.ChainFrom.identified (s : State) (i : IdentFields) : s.ChainFrom (s.identified i) := by
  refine ((State.ChainFrom.updPos s i.pos (identifyRecord s.now i (s.heldElsewhere i.pos i.identity))).trans ?_).trans
    ((State.ChainFrom.updPos _ _ _).trans (.dropRequests _ _))
  split
  · exact .refl _
  · unfold State.lookup
    split
    · exact ⟨rfl, rfl, rfl, rfl, rfl, rfl, rfl⟩
    · exact .refl _

theorem State.ChainFrom.acceptIdent (s : State) (i : IdentFields) : s.ChainFrom (s.acceptIdent i) := by
  rw [State.acceptIdent_eq]
  have heard : s.ChainFrom ((s.identified i).addFarEnd i.pos i.farEnd) :=
    (State.ChainFrom.identified s i).trans (.addFarEnd _ _ _)
  have probed := (heard.trans (.requestResync _)).trans (.probeNext _ i.pos)
  refine probed.trans ?_
  unfold State.when
  split
  · exact .add _ _
  · exact .refl _

theorem State.ChainFrom.recount (s : State) (p : Pos) (new : Nat) : s.ChainFrom (s.recount p new) := by
  rw [State.recount_eq]
  refine (State.ChainFrom.foldl _ (fun s c => ?_) allCirc s).trans (.updPos _ _ _)
  unfold State.unfit
  split
  · exact State.ChainFrom.trans (t := s.updCirc p c _) ⟨rfl, rfl, rfl, rfl, rfl, rfl, rfl⟩ (.healCondition _ _ _ _)
  · exact .refl s

theorem State.ChainFrom.takeIdent (s : State) (i : IdentFields) : s.ChainFrom (s.takeIdent i) := by
  unfold State.takeIdent
  split
  · exact .acceptIdent s i
  · exact .heardFarEnd s _ _ _
  · split
    · split
      · exact ((((State.ChainFrom.heardFarEnd s _ _ _).trans (.recount _ _ _)).trans (.updPos _ _ _)).trans
          (.requestResync _)).trans (.probeNext _ _)
      · exact ((((State.ChainFrom.heard s _ _).trans (.takeOff _ _)).trans (.updPos _ _ _)).trans
          (.reviewClashes _ _)).trans (.acceptIdent _ i)
    · exact (State.ChainFrom.heardFarEnd s _ _ _).trans (.askQuery _ _)
  · exact .refl s
  · exact .refl s

theorem State.ChainFrom.reportEnds (s : State) (t : UpTelegram) : s.ChainFrom (s.reportEnds t) := by
  unfold State.reportEnds
  split
  · exact .takeReport s _
  · exact .countBad s

theorem State.ChainFrom.identEnds (s : State) (t : UpTelegram) : s.ChainFrom (s.identEnds t) := by
  unfold State.identEnds
  split
  · exact .takeIdent s _
  · exact .countBad s

theorem State.ChainFrom.telegramEnds (s : State) (bytes : List Byte) : s.ChainFrom (s.telegramEnds bytes) := by
  unfold State.telegramEnds
  split
  · split
    · exact .reportEnds s _
    · split
      · exact .identEnds s _
      · exact .countBad s
  · exact .countBad s

theorem State.ChainFrom.telegramDone (s : State) (begins : Bool) : s.ChainFrom (s.telegramDone begins) := by
  unfold State.telegramDone
  split
  · split
    · exact .updChain s _
    · exact (State.ChainFrom.updChain s _).trans (.transmit _)
  · exact .refl s

theorem State.ChainFrom.connectTo (s : State) (high : Bool) : s.ChainFrom (s.connectTo high) := by
  unfold State.connectTo
  split
  · exact .refl s
  · exact .updChain s _

theorem State.ChainFrom.connectRise (s : State) : s.ChainFrom s.connectRise := by
  unfold State.connectRise
  split
  · exact (State.ChainFrom.updChain s _).trans (.probeFirst _)
  · exact .refl s

theorem State.ChainFrom.connectFall (s : State) : s.ChainFrom s.connectFall := by
  unfold State.connectFall
  split
  · exact (State.ChainFrom.updChain s _).trans (.cascade _ 0)
  · exact .refl s

theorem State.ChainFrom.chainRestart (s : State) : ∃ u : State, s.ChainFrom u ∧ s.chainRestart = u.recompose := by
  refine ⟨_, ?_, rfl⟩
  have emptied : s.ChainFrom ((s.flush.cascade 0).restartChecks) :=
    ((State.ChainFrom.updQueue s _).trans (.cascade _ 0)).trans (.updChecks _ _)
  refine (emptied.trans ?_).trans (.transmit _)
  unfold State.probeAfterRestart
  split
  · exact .probeFirst _
  · exact .refl _

end Sys2Proof.Machine
end

