-- ==== Sys2Proof/Proofs/TableMoves.lean ====
section
/-! SUPPORT and PROOF. What a command can do to the tables in use and the store, and that it keeps them sound (O8, O14). -/

namespace Sys2Proof.Machine

/-! ### Settings by their numbers (R8, R9) -/

theorem Settings.read_write_same {i : Nat} (hi : 1 ≤ i) (hj : i ≤ 14) (t : Settings) (v : Nat) :
    (t.write i v).read i = v := by
  interval_cases i <;> rfl

theorem Settings.read_write_ne {i j : Nat} (hi : 1 ≤ i ∧ i ≤ 14) (hj : 1 ≤ j ∧ j ≤ 14) (hne : j ≠ i) (t : Settings)
    (v : Nat) :
    (t.write i v).read j = t.read j := by
  obtain ⟨hi, hi'⟩ := hi
  obtain ⟨hj, hj'⟩ := hj
  interval_cases i <;> interval_cases j <;> first | rfl | exact absurd rfl hne

theorem clampedSetting_idem (i v : Nat) : clampedSetting i (clampedSetting i v) = clampedSetting i v := by
  unfold clampedSetting clamp
  omega

theorem State.idTaken_false_iff (s : State) (i v : Nat) :
    s.idTaken i v = false ↔ (11 ≤ i → ∀ j, 11 ≤ j → j ≤ 14 → j ≠ i → s.settings.read j ≠ v) := by
  have ids : ∀ j, j ∈ otherIds i ↔ (11 ≤ j ∧ j ≤ 14) ∧ j ≠ i := fun j => by
    have range : j ∈ [11, 12, 13, 14] ↔ 11 ≤ j ∧ j ≤ 14 := by
      simp only [List.mem_cons, List.not_mem_nil, or_false]
      omega
    rw [otherIds, List.mem_filter, range, bne_iff_ne]
  simp only [State.idTaken, Bool.and_eq_false_imp, decide_eq_true_eq, List.any_eq_false, beq_iff_eq, ids, and_imp, ne_eq]

/-- A setting written in range, and for an identifier one that no other identifier setting holds, leaves the settings sound. -/
theorem Settings.Sound.write {t : Settings} (h : t.Sound) {i : Nat} (hi : 1 ≤ i ∧ i ≤ 14) (v : Nat)
    (free : 11 ≤ i → ∀ j, 11 ≤ j → j ≤ 14 → j ≠ i → t.read j ≠ clampedSetting i v) :
    (t.write i (clampedSetting i v)).Sound := by
  obtain ⟨ranges, distinct⟩ := h
  constructor
  · intro j hj
    have hj : 1 ≤ j ∧ j ≤ 14 := by simpa [Nat.lt_succ_iff] using hj
    by_cases hne : j = i
    · rw [hne, Settings.read_write_same hi.1 hi.2, clampedSetting_idem]
    · rw [Settings.read_write_ne hi hj hne]
      exact ranges j (by simpa [Nat.lt_succ_iff] using hj)
  · have ids : ∀ u : Settings, [u.commandId, u.telltaleId, u.requestId, u.responseId].Nodup ↔
        ∀ j, 11 ≤ j → j ≤ 14 → ∀ k, 11 ≤ k → k ≤ 14 → u.read j = u.read k → j = k := fun u => by
      have place : ∀ k, k ∈ [11, 12, 13, 14] ↔ 11 ≤ k ∧ k ≤ 14 := fun k => by
        simp only [List.mem_cons, List.not_mem_nil, or_false]
        omega
      refine (List.nodup_map_iff_inj_on (f := u.read) (l := [11, 12, 13, 14]) (by decide)).trans ?_
      simp only [place, and_imp]
    rw [ids] at distinct ⊢
    intro j hj hj' k hk hk' heq
    by_cases hji : j = i <;> by_cases hki : k = i
    · rw [hji, hki]
    · rw [hji, Settings.read_write_same hi.1 hi.2, Settings.read_write_ne hi ⟨by omega, hk'⟩ hki] at heq
      exact absurd heq.symm (free (hji ▸ hj) k hk hk' hki)
    · rw [hki, Settings.read_write_same hi.1 hi.2, Settings.read_write_ne hi ⟨by omega, hj'⟩ hji] at heq
      exact absurd heq (free (hki ▸ hk) j hj hj' hji)
    · rw [Settings.read_write_ne hi ⟨by omega, hj'⟩ hji, Settings.read_write_ne hi ⟨by omega, hk'⟩ hki] at heq
      exact distinct j hj hj' k hk hk' heq

/-! ### Profiles by their halves (R6, R7) -/

theorem clamp_idem (lo hi n : Nat) : clamp lo hi (clamp lo hi n) = clamp lo hi n := by
  unfold clamp
  omega

/-- A profile is in range when each of its halves is. -/
theorem Profile.inRange_iff (p : Profile) : p.inRange = true ↔ clampHalfA p = p ∧ clampHalfB p = p := by
  cases p
  simp only [Profile.inRange, clampHalfA, clampHalfB, beq_iff_eq, Profile.mk.injEq, and_true, true_and]
  tauto

theorem Profile.inRange_writeA {old : Profile} (h : old.inRange = true) (n : Nat) :
    (clampHalfA (rawHalfA n old)).inRange = true := by
  obtain ⟨_, hb⟩ := (Profile.inRange_iff old).1 h
  refine (Profile.inRange_iff _).2 ⟨by simp only [clampHalfA, clamp_idem], ?_⟩
  cases old
  simp_all only [clampHalfA, clampHalfB, rawHalfA, Profile.mk.injEq, and_true, true_and]

theorem Profile.inRange_writeB {old : Profile} (h : old.inRange = true) (n : Nat) :
    (clampHalfB (rawHalfB n old)).inRange = true := by
  obtain ⟨ha, _⟩ := (Profile.inRange_iff old).1 h
  refine (Profile.inRange_iff _).2 ⟨?_, by simp only [clampHalfB, clamp_idem]⟩
  cases old
  simp_all only [clampHalfA, clampHalfB, rawHalfB, Profile.mk.injEq, and_true, true_and]

/-! ### The moves -/

/-- The tables a management request that writes may leave of `t` (R5, R7, R9). -/
inductive Tables.Written (t : Tables) : Tables → Prop
  | row (p : Pos) (c : Circ) (r : MapRow) : Written t { t with map := upd t.map p fun rows => upd rows c fun _ => r }
  | profile (i : ProfileNo) (new : Profile) (hn : t.profiles[i].inRange = true → new.inRange = true) :
    Written t { t with profiles := upd t.profiles i fun _ => new }
  | setting (i v : Nat) (hi : 1 ≤ i ∧ i ≤ 14)
    (free : 11 ≤ i → ∀ j, 11 ≤ j → j ≤ 14 → j ≠ i → t.settings.read j ≠ clampedSetting i v) :
    Written t { t with settings := t.settings.write i (clampedSetting i v) }

theorem Tables.Sound.written {t u : Tables} (h : t.Sound) (w : t.Written u) : u.Sound := by
  cases w with
  | row => exact h
  | setting i v hi free => exact ⟨h.1, h.2.write hi v free⟩
  | profile i new hn =>
    refine ⟨fun j => ?_, h.2⟩
    dsimp only
    rw [upd_get]
    split
    · next hj => exact hn (hj ▸ h.1 j)
    · exact h.1 j

/-- Two states that hold the same tables in use and the same store. -/
structure State.SameHeld (s u : State) : Prop where
  tables : u.tables.tables = s.tables.tables
  store : u.store = s.store

theorem State.SameHeld.refl (s : State) : s.SameHeld s := ⟨rfl, rfl⟩

theorem State.SameHeld.trans {s t u : State} (a : s.SameHeld t) (b : t.SameHeld u) : s.SameHeld u :=
  ⟨b.tables.trans a.tables, b.store.trans a.store⟩

theorem State.SameHeld.recompose {s u : State} (h : s.SameHeld u) : s.SameHeld u.recompose :=
  h.trans ⟨by rw [State.recompose_tables], State.recompose_store u⟩

theorem State.ChainFrom.held {s u : State} (h : s.ChainFrom u) : s.SameHeld u := ⟨congrArg _ h.tables, h.store⟩

theorem State.SameHeld.transmit {s u : State} (h : s.SameHeld u) : s.SameHeld u.transmit :=
  h.trans (State.ChainFrom.transmit u).held

/-- What a command other than a hard reset can do to the tables in use and the store. -/
inductive State.TablesMove (s u : State) : Prop
  | kept (same : s.SameHeld u)
  | written (setup : s.tables.mode = .setup) (w : s.tables.tables.Written u.tables.tables) (store : u.store = s.store)
  | commits (tables : u.tables.tables = s.tables.tables)
    (store : u.store = { s.store with valid := false, commit := some ⟨s.now, s.tables.tables⟩ })
  | committed (k : Commit) (running : s.store.commit = some k) (tables : u.tables.tables = s.tables.tables)
    (store : u.store = ⟨k.contents, true, false, none⟩)

theorem State.TablesMove.keepsSound {s u : State} (m : s.TablesMove u) (h : s.TablesSound) : u.TablesSound := by
  obtain ⟨inUse, inStore, inCommit⟩ := h
  cases m with
  | kept same => exact ⟨same.tables ▸ inUse, same.store ▸ inStore, same.store ▸ inCommit⟩
  | written _ w store => exact ⟨inUse.written w, store ▸ inStore, store ▸ inCommit⟩
  | commits tables store =>
    refine ⟨tables ▸ inUse, store ▸ inStore, fun k hk => ?_⟩
    rw [store] at hk
    cases hk
    exact inUse
  | committed k running tables store =>
    refine ⟨tables ▸ inUse, store ▸ inCommit k running, fun k hk => ?_⟩
    rw [store] at hk
    cases hk

/-- The states around a move may differ in anything but the time, the mode, the tables in use and the store. -/
theorem State.TablesMove.around {s s' u u' : State} (m : s'.TablesMove u) (now : s'.now = s.now) (tables : s'.tables = s.tables)
    (store : s'.store = s.store) (same : u.SameHeld u') : s.TablesMove u' := by
  cases m with
  | kept h => exact .kept ⟨(same.tables.trans h.tables).trans (congrArg _ tables), (same.store.trans h.store).trans store⟩
  | written setup w h =>
    exact .written (tables ▸ setup) (by rw [same.tables, ← tables]; exact w) ((same.store.trans h).trans store)
  | commits ht hs =>
    exact .commits ((same.tables.trans ht).trans (congrArg _ tables)) (by rw [same.store, hs, now, tables, store])
  | committed k running ht hs =>
    exact .committed k (store ▸ running) ((same.tables.trans ht).trans (congrArg _ tables)) (same.store.trans hs)

/-! ### The commands -/

theorem State.SameHeld.handTelltale (s : State) : s.SameHeld s.handTelltale := ⟨rfl, rfl⟩

theorem State.SameHeld.silenceExpiry (s : State) : s.SameHeld s.silenceExpiry := ite_cases _ ⟨rfl, rfl⟩ (.refl s)

theorem State.SameHeld.periodExpiry (s : State) : s.SameHeld s.periodExpiry := ite_cases _ ⟨rfl, rfl⟩ (.refl s)

theorem State.SameHeld.expireAtWrite (s : State) (i : Nat) : s.SameHeld (s.expireAtWrite i) := by
  unfold State.expireAtWrite
  split
  · exact (State.ChainFrom.pollExpiry s).held
  · exact (State.ChainFrom.foldl _ .lossExpiry allPos s).held
  · exact (State.ChainFrom.foldl _ .absenceExpiry allPos s).held
  · exact .silenceExpiry s
  · exact .periodExpiry s
  · exact .refl s

theorem State.SameHeld.chainRestart (s : State) : s.SameHeld s.chainRestart := by
  obtain ⟨u, hu, he⟩ := State.ChainFrom.chainRestart s
  rw [he]
  exact hu.held.recompose

theorem State.SameHeld.probeAfterRestart (s : State) : s.SameHeld s.probeAfterRestart :=
  ite_cases _ (State.ChainFrom.probeFirst s).held (.refl s)

theorem State.SameHeld.softRestart (s : State) : s.SameHeld s.softRestart := by
  refine ((State.SameHeld.trans ?_ (.probeAfterRestart _)).transmit).recompose
  exact ⟨rfl, rfl⟩

theorem State.SameHeld.setupEntry (s : State) : s.SameHeld s.setupEntry := by
  refine (State.SameHeld.transmit ?_).recompose
  unfold State.divertUnsent
  exact ⟨by split <;> rfl, by split <;> rfl⟩

theorem State.SameHeld.runEntry (s : State) : s.SameHeld s.runEntry := by
  unfold State.runEntry
  dsimp only
  rw [State.healAll_eq]
  have cleared : ∀ f g, s.SameHeld ((((s.updTables fun t => { t with mode := .run }).healWhere f).mapCircuits g).clearMarks) :=
    fun _ _ => ⟨rfl, rfl⟩
  exact (((cleared _ _).trans (State.ChainFrom.requestResync _).held).trans
    (State.ChainFrom.updChain _ _).held).transmit.recompose

/-- A gate that SETUP alone opens. -/
theorem State.gate_setup (P : State → Prop) {s : State} {busy : Bool} {k : State × Option Reply} (hs : P s)
    (hk : s.tables.mode = .setup → P k.1) : P (s.gate (some .setup) busy k).1 := by
  cases hm : s.tables.mode with
  | run =>
    have : s.gate (some .setup) busy k = (s, some (.only .refusedMode)) := by simp [State.gate, hm]
    rwa [this]
  | setup => exact State.gate_cases P hs (hk hm)

theorem State.TablesMove.writeSetting {s : State} {i v : Nat} (setup : s.tables.mode = .setup) (hi : 1 ≤ i ∧ i ≤ 14)
    (free : ¬s.idTaken i (clampedSetting i v) = true) :
    s.TablesMove ((s.setSetting i (clampedSetting i v)).expireAtWrite i).transmit.recompose := by
  have wrote : s.TablesMove (s.setSetting i (clampedSetting i v)) :=
    .written setup (.setting i v hi ((s.idTaken_false_iff _ _).1 (eq_false_of_ne_true free))) rfl
  exact wrote.around rfl rfl rfl (State.SameHeld.expireAtWrite _ i).transmit.recompose

theorem State.ChainFrom.snapPos (s : State) (p : Pos) : s.ChainFrom (s.snapPos p) :=
  (State.ChainFrom.updChain s _).trans (.updPos _ _ _)

theorem State.SameHeld.snapshot (s : State) (d : List Byte) : s.SameHeld (handleSnapshotCounters d s).1 := by
  unfold handleSnapshotCounters
  split
  · have snapped := State.ChainFrom.foldl _ .snapPos allPos s
    have counted : ∀ u : State, u.SameHeld u.snapChain := fun _ => ⟨rfl, rfl⟩
    exact snapped.held.trans (counted _)
  · split
    · exact (State.ChainFrom.snapPos s _).held
    · exact .refl s

theorem State.TablesMove.handled {s : State} {h : Handler} (hh : h ∈ readHandlers ++ effectHandlers) (d : List Byte) :
    s.TablesMove (h d s).1 := by
  have same : s.TablesMove s := .kept (.refl s)
  rcases List.mem_append.1 hh with hh | hh
  · rw [readHandlers_fst hh]
    exact same
  · simp only [effectHandlers, List.mem_cons, List.not_mem_nil, or_false] at hh
    rcases hh with rfl | rfl | rfl | rfl | rfl | rfl | rfl | rfl | rfl | rfl | rfl | rfl | rfl | rfl
    · -- ENTER SETUP
      refine State.gate_cases s.TablesMove same ?_
      split
      · exact .kept (.setupEntry s)
      · exact same
    · -- ENTER RUN
      refine State.gate_cases s.TablesMove same ?_
      split
      · exact same
      · split
        · exact same
        · dsimp only
          exact .kept (.runEntry s)
    · -- COMMIT
      refine State.gate_cases s.TablesMove same ?_
      exact .commits rfl rfl
    · -- RESTART
      refine State.gate_cases s.TablesMove same ?_
      dsimp only
      exact .kept (.softRestart s)
    · -- RESTART CHAIN
      unfold handleRestartChain
      dsimp only
      exact .kept (.chainRestart s)
    · -- WRITE MAP ROW
      refine State.gate_setup s.TablesMove same fun setup => ?_
      split
      · split
        · refine .written setup ?_ (State.recompose_store _)
          dsimp only
          rw [State.recompose_tables]
          exact .row _ _ _
        · exact same
      · exact same
    · -- WRITE PROFILE A
      refine State.gate_setup s.TablesMove same fun setup => ?_
      split
      · exact .written setup (.profile _ _ fun old => Profile.inRange_writeA old _) rfl
      · exact same
    · -- WRITE PROFILE B
      refine State.gate_setup s.TablesMove same fun setup => ?_
      split
      · exact .written setup (.profile _ _ fun old => Profile.inRange_writeB old _) rfl
      · exact same
    · -- WRITE SETTING
      refine State.gate_setup s.TablesMove same fun setup => ?_
      dsimp only
      split
      · next hi =>
        split
        · exact same
        · next free =>
          exact .writeSetting setup hi free
      · exact same
    · exact .kept (State.SameHeld.recompose ⟨rfl, rfl⟩) -- CLEAR HEALED
    · exact .kept (.snapshot s d) -- SNAPSHOT COUNTERS
    · -- FULL CHECK
      refine State.gate_cases s.TablesMove same ?_
      exact .kept ⟨rfl, rfl⟩
    · -- FORGET BASELINES
      refine .kept ?_
      unfold handleForgetBaselines
      split
      · exact ⟨rfl, rfl⟩
      · split
        · exact ⟨rfl, rfl⟩
        · exact .refl s
    · exact .kept ⟨rfl, rfl⟩ -- FORGET HISTORY

theorem State.SameHeld.takeCommandFrame (s : State) (d : List Byte) : s.SameHeld (s.takeCommandFrame d) := by
  unfold State.takeCommandFrame
  split
  · dsimp only
    have heard : ∀ (f : Port → Port) (g : ImageBuilder → ImageBuilder), s.SameHeld ((s.updPort f).updImage g) :=
      fun _ _ => ⟨rfl, rfl⟩
    split
    · exact (heard _ _).recompose
    · have changed : ∀ (u : State) (f : Port → Port), u.SameHeld (u.updPort f) := fun _ _ => ⟨rfl, rfl⟩
      exact (((heard _ _).trans (changed _ _)).trans (State.ChainFrom.requestChange _ _).held).transmit.recompose
  · exact ⟨rfl, rfl⟩

theorem State.TablesMove.takeFrame {s : State} {h : Handler} (hh : h ∈ readHandlers ++ effectHandlers) (f : BusFrame)
    (d : List Byte) : s.TablesMove (s.takeFrame f d h) := by
  unfold State.takeFrame
  split
  · split
    · exact .kept (.takeCommandFrame s d)
    · split
      · exact State.takeRequest_cases _ (fun _ _ list =>
          (State.TablesMove.handled (s := s.updPort fun po => { po with request := some d }) hh d).around rfl rfl rfl
            ⟨rfl, rfl⟩)
          (.kept ⟨rfl, rfl⟩)
      · exact .kept (.refl s)
  · exact .kept (.refl s)

theorem State.TablesMove.commitDone (s : State) : s.TablesMove s.commitDone := by
  unfold State.commitDone
  split
  · next k running =>
    split
    · exact .committed k running rfl rfl
    · exact .kept (.refl s)
  · exact .kept (.refl s)

theorem State.SameHeld.frameCarried (s : State) : s.SameHeld s.frameCarried := by
  unfold State.frameCarried
  split
  · exact .refl s
  · exact ite_cases _ ⟨rfl, rfl⟩ ⟨rfl, rfl⟩

/-- What a command other than a hard reset does to the tables in use and the store is one of the moves. -/
theorem exec_tablesMove {c : Instr} (hc : c ≠ .hardReset) (s : State) : ∃ u, exec c s = .next u ∧ s.TablesMove u := by
  have same : s.SameHeld s := .refl s
  have ended : ∀ b, s.SameHeld (s.answerEnds b) := fun b => (State.ChainFrom.updChain s _).held
  cases c with
  | hardReset => exact absurd rfl hc
  | connectChange high => exact ⟨_, rfl, .kept (State.ChainFrom.connectTo s high).held⟩
  | connectDebouncedRise =>
    exact ⟨_, rfl, .kept (ite_cases _ (State.ChainFrom.connectRise s).held.transmit.recompose same)⟩
  | connectDebouncedFall => exact ⟨_, rfl, .kept (ite_cases _ (State.ChainFrom.connectFall s).held.recompose same)⟩
  | commitComplete => exact ⟨_, rfl, .commitDone s⟩
  | frameCarried => exact ⟨_, rfl, .kept (.frameCarried s)⟩
  | telltaleSpacingExpiry => exact ⟨_, rfl, .kept (ite_cases _ (.handTelltale s) same)⟩
  | telltalePeriodExpiry => exact ⟨_, rfl, .kept (.periodExpiry s)⟩
  | commandSilenceExpiry => exact ⟨_, rfl, .kept (ite_cases _ (State.SameHeld.silenceExpiry s).recompose same)⟩
  | operatingSecond => exact ⟨_, rfl, .kept (ite_cases _ ⟨rfl, rfl⟩ same)⟩
  | pollDue => exact ⟨_, rfl, .kept (ite_cases _ (State.ChainFrom.pollExpiry s).held.recompose same)⟩
  | checkBudgetReady => exact ⟨_, rfl, .kept (ite_cases _ same.transmit.recompose same)⟩
  | downstreamTelegramDone b => exact ⟨_, rfl, .kept (State.ChainFrom.telegramDone s b).held.recompose⟩
  | report t b => exact ⟨_, rfl, .kept ((ended b).trans (State.ChainFrom.reportEnds _ t).held).transmit.recompose⟩
  | ident t b => exact ⟨_, rfl, .kept ((ended b).trans (State.ChainFrom.identEnds _ t).held).transmit.recompose⟩
  | enumTimeout p => exact ⟨_, rfl, .kept (ite_cases _ (State.ChainFrom.enumExpiry s p).held.transmit.recompose same)⟩
  | queryWindowEnd p => exact ⟨_, rfl, .kept (State.ChainFrom.queryExpiry s p).held⟩
  | lossIntervalExpiry p => exact ⟨_, rfl, .kept (ite_cases _ (State.ChainFrom.lossExpiry s p).held.recompose same)⟩
  | absenceIntervalExpiry p =>
    exact ⟨_, rfl, .kept (ite_cases _ (State.ChainFrom.absenceExpiry s p).held.transmit.recompose same)⟩
  | deadline tag =>
    refine ⟨_, rfl, .kept ?_⟩
    split
    · exact ite_cases _ (State.ChainFrom.expire s _).held.recompose same
    · exact same
  | linkErrorIntervalEnd => exact ⟨_, rfl, .kept (ite_cases _ (State.ChainFrom.linkIntervalExpiry s).held.recompose same)⟩
  | badUpstreamTelegram bytes b =>
    exact ⟨_, rfl, .kept ((ended b).trans (State.ChainFrom.telegramEnds _ bytes).held).transmit.recompose⟩
  | _ => exact exec_of_frame rfl fun k hk => .takeFrame hk _ _

/-- The default tables are sound (R2, R6, R8). -/
theorem Tables.default_sound : Tables.default.Sound := by decide

/-- A hard reset loads sound tables: the store's, or the defaults. -/
theorem State.hardReset_tablesSound {s : State} (h : s.TablesSound) : s.hardReset.TablesSound := by
  obtain ⟨_, inStore, _⟩ := h
  refine ⟨?_, inStore, fun k hk => by cases hk⟩
  change (if s.store.valid then s.store.contents else Tables.default).Sound
  split
  · exact inStore
  · exact Tables.default_sound

/-- Settles O8: a hard reset loads tables that were sound, and every other command makes one of the moves. -/
theorem tablesStaySound : Obligations.TablesStaySound := by
  unfold Obligations.TablesStaySound
  intro s t h ht
  refine step_keeps State.TablesSound (fun c s h => ?_) (fun _ _ h => h) (fun _ h => h) h ht
  by_cases hc : c = .hardReset
  · subst hc
    exact ⟨_, rfl, State.hardReset_tablesSound h⟩
  · obtain ⟨u, hu, m⟩ := exec_tablesMove hc s
    exact ⟨u, hu, m.keepsSound h⟩

/-- Settles O14: of the moves only a write changes the tables in use, and a write needs SETUP. -/
theorem tablesChangeOnlyInSetup : Obligations.TablesChangeOnlyInSetup := by
  unfold Obligations.TablesChangeOnlyInSetup
  intro c s t ht hrun hc
  obtain ⟨u, hu, m⟩ := exec_tablesMove hc s
  cases ht.symm.trans hu
  cases m with
  | kept same => exact same.tables
  | written setup => rw [hrun] at setup; cases setup
  | commits tables => exact tables
  | committed _ _ tables => exact tables

end Sys2Proof.Machine
end

