-- ==== Sys2Proof/Proofs/TableReads.lean ====
section
/-! SUPPORT and PROOF. The bytes a request brings and a response carries; FRAME_CARRIED and the requests that read the tables
(O22, O24). -/

namespace Sys2Proof.Machine

/-! ### Numbers in bytes (R174, R176) -/

@[simp] theorem byteAt_zero (b : Byte) (d : List Byte) : byteAt (b :: d) 0 = b.toNat := rfl

@[simp] theorem numberAt_cons (b : Byte) (d : List Byte) (i k : Nat) : numberAt (b :: d) (i + 1) k = numberAt d i k := by
  induction k generalizing i with
  | zero => rfl
  | succ k ih => simp only [numberAt, byteAt_cons, ih]

/-- The number of the bytes a number is laid in is that number again, as far as the bytes reach. -/
theorem numberAt_leBytes (k n : Nat) : numberAt (leBytes k n) 0 k = n % 256 ^ k := by
  induction k generalizing n with
  | zero => simp [numberAt, Nat.mod_one]
  | succ k ih =>
    rw [leBytes, numberAt, byteAt_zero, numberAt_cons, ih, BitVec.toNat_ofNat,
      show 256 ^ (k + 1) = 256 * 256 ^ k from Nat.pow_succ', Nat.mod_mul]

theorem leBytes_length (k n : Nat) : (leBytes k n).length = k := by
  induction k generalizing n with
  | zero => rfl
  | succ k ih => rw [leBytes, List.length_cons, ih]

theorem bitsAt_eq (n lo width : Nat) : bitsAt n lo width = n / 2 ^ lo % 2 ^ width := by
  rw [bitsAt, Nat.shiftRight_eq_div_pow]

theorem bitsAt_one (n lo : Nat) : (bitsAt n lo 1 == 1) = n.testBit lo := by
  rw [bitsAt_eq, Nat.testBit_eq_decide_div_mod_eq, Nat.pow_one]
  rfl

theorem flagBit_eq (b : Bool) (place : Nat) : flagBit b place = if b = true then 2 ^ place else 0 := rfl

theorem profileOf_val (i : ProfileNo) : profileOf i.val = some i := dif_pos i.isLt

theorem profileOf_none {n : Nat} (h : 7 < n) : profileOf n = none := dif_neg (by omega)

theorem functionByte_eq (g : Option Fn) :
    BitVec.ofNat 8 (functionByte g) = match g with | none => 0 | some g => BitVec.ofNat 8 (g.val + 1) := by
  cases g <;> rfl

theorem fittedState_eq (count : Option Nat) (c : Circ) :
    BitVec.ofNat 8 (fittedState count c) =
      match count with | none => 2 | some n => if c.val + 1 ≤ n then (0 : Byte) else 1 := by
  cases count with
  | none => rfl
  | some n =>
    simp only [fittedState, countReaches, Option.isNone_some, Bool.false_eq_true, if_false, decide_eq_true_eq]
    split <;> rfl

/-- The fields of a profile in range lie below the places of the fields after them (R6, R176). -/
theorem Profile.bounds {p : Profile} (h : p.inRange = true) :
    (p.nominalCurrent < 2 ^ 12 ∧ p.nominalVoltage < 2 ^ 9 ∧ p.slope < 2 ^ 5 ∧ p.shortCurrent < 2 ^ 12 ∧
      p.leakCurrent < 2 ^ 9) ∧
    p.openLimit < 2 ^ 8 ∧ p.partialLimit < 2 ^ 8 ∧ p.overloadLimit < 2 ^ 9 ∧ p.settle < 2 ^ 9 ∧ p.confirmCount < 2 ^ 3 ∧
      p.checkPulse < 2 ^ 5 := by
  have capped : ∀ {lo hi n k : Nat}, clamp lo hi n = n → lo ≤ hi → hi < k → n < k := by
    unfold clamp
    omega
  obtain ⟨ha, hb⟩ := (Profile.inRange_iff p).1 h
  cases p
  simp only [clampHalfA, clampHalfB, Profile.mk.injEq, and_true, true_and] at ha hb
  obtain ⟨ha1, ha2, ha3, ha4, ha5⟩ := ha
  obtain ⟨hb1, hb2, hb3, hb4, hb5, hb6⟩ := hb
  exact ⟨⟨capped ha1 (by omega) (by omega), capped ha2 (by omega) (by omega), capped ha3 (by omega) (by omega),
      capped ha4 (by omega) (by omega), capped ha5 (by omega) (by omega)⟩,
    capped hb1 (by omega) (by omega), capped hb2 (by omega) (by omega), capped hb3 (by omega) (by omega),
    capped hb4 (by omega) (by omega), capped hb5 (by omega) (by omega), capped hb6 (by omega) (by omega)⟩

/-- Half A of a profile in range, read back from its six bytes (R176). -/
theorem packHalfA_fields {p : Profile} (h : p.inRange = true) (touched : Bool) :
    let n := numberAt (leBytes 6 (packHalfA p touched)) 0 6
    bitsAt n 0 12 = p.nominalCurrent ∧ bitsAt n 12 9 = p.nominalVoltage ∧ bitsAt n 21 5 = p.slope ∧
      bitsAt n 26 12 = p.shortCurrent ∧ bitsAt n 38 9 = p.leakCurrent ∧ bitsAt n 47 1 = if touched = true then 1 else 0 := by
  obtain ⟨⟨h1, h2, h3, h4, h5⟩, -⟩ := p.bounds h
  simp only [numberAt_leBytes, bitsAt_eq, packHalfA, flagBit_eq]
  split <;> omega

/-- Half B of a profile in range, read back from its six bytes (R176). -/
theorem packHalfB_fields {p : Profile} (h : p.inRange = true) (touched : Bool) :
    let n := numberAt (leBytes 6 (packHalfB p touched)) 0 6
    bitsAt n 0 8 = p.openLimit ∧ bitsAt n 8 8 = p.partialLimit ∧ bitsAt n 16 9 = p.overloadLimit ∧
      bitsAt n 25 9 = p.settle ∧ bitsAt n 34 3 = p.confirmCount ∧ bitsAt n 37 5 = p.checkPulse ∧
      bitsAt n 42 1 = (if p.learn = true then 1 else 0) ∧ bitsAt n 43 1 = (if touched = true then 1 else 0) ∧
      bitsAt n 44 4 = 0 := by
  obtain ⟨-, h1, h2, h3, h4, h5, h6⟩ := p.bounds h
  simp only [numberAt_leBytes, bitsAt_eq, packHalfB, flagBit_eq]
  split <;> split <;> omega

/-! ### Answers -/

/-- The state a request is handled over: its bytes are in the buffer (R162). -/
def State.buffering (s : State) (d : List Byte) : State := s.updPort fun po => { po with request := some d }

/-- A request taken whose handler changes nothing is answered with the handler's status and fields. -/
theorem State.Takes.answer {s : State} {f : BusFrame} {d : List Byte} (ht : s.Takes f d) {h : Handler} {r : Reply}
    (hr : h d (s.buffering d) = (s.buffering d, some r)) :
    s.takeFrame f d h = s.answered d ((BitVec.ofNat 8 r.status.code :: r.fields ++ List.replicate 6 0).take 7) :=
  State.takeFrame_answer ht hr

/-- A request taken whose handler leaves `u` is answered from there, its response last. -/
theorem State.Takes.reply {s u : State} {f : BusFrame} {d : List Byte} (ht : s.Takes f d) {h : Handler} {r : Reply}
    (hr : h d (s.buffering d) = (u, some r)) :
    s.takeFrame f d h = u.updPort fun po => { po with transmit := po.transmit ++ [s.responseTo d
      ((BitVec.ofNat 8 r.status.code :: r.fields ++ List.replicate 6 0).take 7)] } :=
  State.takeFrame_reply ht hr

/-- A status with six field bytes fills the response. -/
theorem responseBody_six (st : Status) (k n : Nat) (hk : k = 6) :
    (BitVec.ofNat 8 st.code :: leBytes k n ++ List.replicate 6 0).take 7 = BitVec.ofNat 8 st.code :: leBytes k n := by
  rw [List.take_append_of_le_length (by rw [List.length_cons, leBytes_length, hk]),
    List.take_of_length_le (by rw [List.length_cons, leBytes_length, hk])]

/-- Settles O22: by the frame the transmit list begins with. -/
theorem frameCarriedLeaves : Obligations.FrameCarriedLeaves := by
  unfold Obligations.FrameCarriedLeaves
  intro s
  have carried : exec .frameCarried s = .next s.frameCarried := rfl
  refine ⟨fun empty => ?_, fun fr rest list => ⟨fun hk => ?_, fun hk => ?_⟩⟩
  · rw [carried, State.frameCarried, empty]
  · rw [carried, State.frameCarried, list]
    dsimp only
    rw [if_neg hk]
    rfl
  · rw [carried, State.frameCarried, list]
    dsimp only
    rw [if_pos hk]
    rfl

/-! ### READ MAP ROW, READ SETTING, READ PROFILE A and B -/

theorem State.rowFields_eq (s : State) (p : Pos) (c : Circ) : s.rowFields p c =
    [(match (s.rowAt p c).function with | none => 0 | some g => BitVec.ofNat 8 (g.val + 1)),
      BitVec.ofNat 8 (s.rowAt p c).profile.val,
      BitVec.ofNat 8 ((if (s.rowAt p c).checkEnable = true then 1 else 0)
        + (if (s.rowAt p c).critical = true then 2 else 0) + (if s.tables.rowTouched[p][c] = true then 4 else 0)),
      (match (s.posAt p).circuitCount with | none => 2 | some n => if c.val + 1 ≤ n then 0 else 1)] := by
  rw [State.rowFields, functionByte_eq, fittedState_eq]
  rfl

theorem State.Takes.readMapRow {s : State} {f : BusFrame} (ht : s.Takes f (0x11 :: f.data)) {p : Pos} {c : Circ}
    (hp : byteAt f.data 0 = p.val + 1) (hc : byteAt f.data 1 = c.val + 1) :
    exec (.readMapRow f) s = .next (s.answered (0x11 :: f.data) (0 :: s.rowFields p c ++ [0, 0])) := by
  refine congrArg _ (ht.answer (h := handleReadMapRow) (r := ⟨.ok, s.rowFields p c⟩) ?_)
  simp only [handleReadMapRow, byteAt_cons, hp, hc, indexOf_val]
  rfl

theorem State.Takes.readMapRow_badIndex {s : State} {f : BusFrame} (ht : s.Takes f (0x11 :: f.data))
    (h : byteAt f.data 0 = 0 ∨ 6 < byteAt f.data 0 ∨ byteAt f.data 1 = 0 ∨ 12 < byteAt f.data 1) :
    exec (.readMapRow f) s = .next (s.answered (0x11 :: f.data) [3, 0, 0, 0, 0, 0, 0]) := by
  refine congrArg _ (ht.answer (h := handleReadMapRow) (r := ⟨.badIndex, []⟩) ?_)
  unfold handleReadMapRow
  simp only [byteAt_cons]
  split
  · next p c hp hc =>
    rcases h with h | h | h | h
    · rw [indexOf_none (.inl h)] at hp; cases hp
    · rw [indexOf_none (.inr h)] at hp; cases hp
    · rw [indexOf_none (.inl h)] at hc; cases hc
    · rw [indexOf_none (.inr h)] at hc; cases hc
  · rfl

theorem Settings.read_eq_getD {n : Nat} (h : 1 ≤ n ∧ n ≤ 14) (t : Settings) :
    [t.pollPeriod, t.lossInterval, t.absenceInterval, t.darkDwell, t.checkInterval, t.checkWindow,
      t.supplyFloor, t.linkThreshold, t.commandSilence, t.telltalePeriod, t.commandId, t.telltaleId, t.requestId,
      t.responseId].getD (n - 1) 0 = t.read n := by
  obtain ⟨h1, h14⟩ := h
  interval_cases n <;> rfl

theorem State.Takes.readSetting {s : State} {f : BusFrame} (ht : s.Takes f (0x17 :: f.data)) :
    exec (.readSetting f) s = .next (s.answered (0x17 :: f.data)
      (if 1 ≤ byteAt f.data 0 ∧ byteAt f.data 0 ≤ 14 then
        [0, BitVec.ofNat 8 (s.settings.read (byteAt f.data 0)), BitVec.ofNat 8 (s.settings.read (byteAt f.data 0) / 256),
          0, 0, 0, 0]
      else [3, 0, 0, 0, 0, 0, 0])) := by
  split
  · next h =>
    refine congrArg _ (ht.answer (h := handleReadSetting) (r := ⟨.ok, leBytes 2 (s.settings.read (byteAt f.data 0))⟩) ?_)
    simp only [handleReadSetting, byteAt_cons, if_pos h]
    rfl
  · next h =>
    refine congrArg _ (ht.answer (h := handleReadSetting) (r := ⟨.badIndex, []⟩) ?_)
    simp only [handleReadSetting, byteAt_cons, if_neg h]
    rfl

theorem State.Takes.readProfileA {s : State} {f : BusFrame} (ht : s.Takes f (0x14 :: f.data)) {i : ProfileNo}
    (hi : byteAt f.data 0 = i.val) : exec (.readProfileA f) s = .next (s.answered (0x14 :: f.data)
      (0 :: leBytes 6 (packHalfA s.tables.tables.profiles[i] s.tables.profileTouched[i]))) := by
  refine congrArg _ ((ht.answer (h := handleReadProfileA) (r := ⟨.ok, _⟩) ?_).trans
    (congrArg _ (responseBody_six .ok 6 _ rfl)))
  simp only [handleReadProfileA, byteAt_cons, hi, profileOf_val]
  rfl

theorem State.Takes.readProfileB {s : State} {f : BusFrame} (ht : s.Takes f (0x15 :: f.data)) {i : ProfileNo}
    (hi : byteAt f.data 0 = i.val) : exec (.readProfileB f) s = .next (s.answered (0x15 :: f.data)
      (0 :: leBytes 6 (packHalfB s.tables.tables.profiles[i] s.tables.profileTouched[i]))) := by
  refine congrArg _ ((ht.answer (h := handleReadProfileB) (r := ⟨.ok, _⟩) ?_).trans
    (congrArg _ (responseBody_six .ok 6 _ rfl)))
  simp only [handleReadProfileB, byteAt_cons, hi, profileOf_val]
  rfl

/-- Settles O24: each request is answered from the tables as they stand, and a profile half is read back field by field. -/
theorem tablesRead : Obligations.TablesRead := by
  unfold Obligations.TablesRead
  refine ⟨fun s f ht => ⟨fun p c hp hc => ?_, ht.readMapRow_badIndex⟩, fun s f ht => ?_, fun s f i hi => ?_,
    fun s f hi => ⟨fun ht => ?_, fun ht => ?_⟩⟩
  · rw [ht.readMapRow hp hc, State.rowFields_eq]
    rfl
  · dsimp only
    rw [ht.readSetting]
    split
    · next h => rw [Settings.read_eq_getD h]
    · rfl
  · intro pr range
    exact ⟨fun ht => ⟨_, leBytes_length 6 _, ht.readProfileA hi, packHalfA_fields range _⟩,
      fun ht => ⟨_, leBytes_length 6 _, ht.readProfileB hi, packHalfB_fields range _⟩⟩
  · refine congrArg _ (ht.answer (h := handleReadProfileA) (r := ⟨.badIndex, []⟩) ?_)
    simp only [handleReadProfileA, byteAt_cons, profileOf_none hi]
    rfl
  · refine congrArg _ (ht.answer (h := handleReadProfileB) (r := ⟨.badIndex, []⟩) ?_)
    simp only [handleReadProfileB, byteAt_cons, profileOf_none hi]
    rfl

end Sys2Proof.Machine
end

