-- ==== Sys2Proof/Proofs/TableWrites.lean ====
section
/-! SUPPORT and PROOF. The requests that write the tables: their statuses in order and their effects (O28, O29, O30). -/

namespace Sys2Proof.Machine

/-! ### The gate of R163 -/

theorem State.gate_refused {s : State} {m : Mode} (h : s.tables.mode ≠ m) (busy : Bool) (k : State × Option Reply) :
    s.gate (some m) busy k = (s, some (.only .refusedMode)) := by
  have : (some m != some s.tables.mode) = true := by simpa using fun he => h he.symm
  simp [State.gate, this]

theorem State.gate_busy {s : State} {m : Option Mode} (hm : ∀ n ∈ m, n = s.tables.mode) (h : s.store.commit ≠ none)
    (k : State × Option Reply) : s.gate m true k = (s, some (.only .busy)) := by
  have running : s.store.commit.isSome = true := Option.isSome_iff_ne_none.2 h
  cases m with
  | none => simp [State.gate, running]
  | some n => simp [State.gate, running, hm n rfl]

theorem State.gate_open {s : State} {m : Option Mode} (hm : ∀ n ∈ m, n = s.tables.mode) (h : s.store.commit = none)
    (busy : Bool) (k : State × Option Reply) : s.gate m busy k = k := by
  cases m with
  | none => simp [State.gate, h]
  | some n => simp [State.gate, h, hm n rfl]

/-- A handler that is a gate in front of what it does. -/
abbrev Gated (h : Handler) (m : Option Mode) : Prop := ∃ k : List Byte → State → State × Option Reply,
  ∀ d s, h d s = s.gate m true (k d s)

/-- A request that SETUP alone allows is answered REFUSED_MODE in RUN (R163, step 2). -/
theorem State.Takes.refused {s : State} {f : BusFrame} {d : List Byte} (ht : s.Takes f d) {h : Handler}
    (hg : Gated h (some .setup)) (run : s.tables.mode = .run) :
    s.takeFrame f d h = s.answered d [2, 0, 0, 0, 0, 0, 0] := by
  obtain ⟨k, hk⟩ := hg
  refine ht.answer (r := ⟨.refusedMode, []⟩) ?_
  rw [hk]
  exact State.gate_refused (s := s.buffering d) (fun he => by cases run.symm.trans he) _ _

/-- A request refused during a commit is answered BUSY (R163, step 3). -/
theorem State.Takes.busy {s : State} {f : BusFrame} {d : List Byte} (ht : s.Takes f d) {h : Handler} {m : Option Mode}
    (hg : Gated h m) (hm : ∀ n ∈ m, n = s.tables.mode) (running : s.store.commit ≠ none) :
    s.takeFrame f d h = s.answered d [5, 0, 0, 0, 0, 0, 0] := by
  obtain ⟨k, hk⟩ := hg
  refine ht.answer (r := ⟨.busy, []⟩) ?_
  rw [hk]
  exact State.gate_busy (s := s.buffering d) hm running _

theorem gated_writeMapRow : Gated handleWriteMapRow (some .setup) := ⟨_, fun _ _ => rfl⟩
theorem gated_writeProfileA : Gated handleWriteProfileA (some .setup) := ⟨_, fun _ _ => rfl⟩
theorem gated_writeProfileB : Gated handleWriteProfileB (some .setup) := ⟨_, fun _ _ => rfl⟩
theorem gated_writeSetting : Gated handleWriteSetting (some .setup) := ⟨_, fun _ _ => rfl⟩

theorem mode_of_setup {s : State} (h : s.tables.mode = .setup) : ∀ n ∈ some Mode.setup, n = s.tables.mode :=
  fun _ hn => (Option.mem_some.1 hn).symm.trans h.symm

/-- Past the gate of SETUP with no commit in progress, a handler does what stands behind it. -/
theorem State.buffering_open {s : State} (setup : s.tables.mode = .setup) (idle : s.store.commit = none) (d : List Byte)
    (k : State × Option Reply) : (s.buffering d).gate (some .setup) true k = k :=
  State.gate_open (s := s.buffering d) (mode_of_setup setup) idle true k

/-! ### What a composition leaves of its block and of the port -/

theorem State.recompose_sameInputs (s : State) : s.port.SameInputs s.recompose.port := by
  rw [State.recompose_frame]
  exact ⟨rfl, rfl, rfl, rfl⟩

@[simp] theorem State.recompose_rowAt (s : State) (p : Pos) (c : Circ) : s.recompose.rowAt p c = s.rowAt p c := by
  simp only [State.rowAt, State.recompose_tables]

@[simp] theorem State.recompose_request (s : State) : s.recompose.port.request = s.port.request := by
  rw [State.recompose_frame]

/-! ### WRITE MAP ROW -/

theorem functionOf_eq {g : Option Fn} {n : Nat} (h : functionByte g = n) :
    functionOf n = some g := by
  subst h
  cases g with
  | none => rfl
  | some g => simp [functionByte, functionOf, indexOf_val]

theorem functionOf_none {n : Nat} (h : 10 < n) : functionOf n = none := by
  rw [functionOf, if_neg (by omega), indexOf_none (.inr h)]
  rfl

/-- The row the bytes of a WRITE MAP ROW give (R5, R176). -/
def rowOf (g : Option Fn) (pr : ProfileNo) (bits : Nat) : MapRow := ⟨g, pr, bits.testBit 0, bits.testBit 1⟩

theorem State.Takes.writeMapRow_badIndex {s : State} {f : BusFrame} (ht : s.Takes f (0x10 :: f.data))
    (setup : s.tables.mode = .setup) (idle : s.store.commit = none)
    (h : byteAt f.data 0 = 0 ∨ 6 < byteAt f.data 0 ∨ byteAt f.data 1 = 0 ∨ 12 < byteAt f.data 1) :
    exec (.writeMapRow f) s = .next (s.answered (0x10 :: f.data) [3, 0, 0, 0, 0, 0, 0]) := by
  refine congrArg _ (ht.answer (h := handleWriteMapRow) (r := ⟨.badIndex, []⟩) ?_)
  rw [handleWriteMapRow, State.buffering_open setup idle]
  simp only [byteAt_cons]
  split
  · next p c hp hc =>
    rcases h with h | h | h | h
    · rw [indexOf_none (.inl h)] at hp; cases hp
    · rw [indexOf_none (.inr h)] at hp; cases hp
    · rw [indexOf_none (.inl h)] at hc; cases hc
    · rw [indexOf_none (.inr h)] at hc; cases hc
  · rfl

theorem State.Takes.writeMapRow_badValue {s : State} {f : BusFrame} (ht : s.Takes f (0x10 :: f.data))
    (setup : s.tables.mode = .setup) (idle : s.store.commit = none) {p : Pos} {c : Circ} (hp : byteAt f.data 0 = p.val + 1)
    (hc : byteAt f.data 1 = c.val + 1) (h : 10 < byteAt f.data 2 ∨ 7 < byteAt f.data 3) :
    exec (.writeMapRow f) s = .next (s.answered (0x10 :: f.data) [4, 0, 0, 0, 0, 0, 0]) := by
  refine congrArg _ (ht.answer (h := handleWriteMapRow) (r := ⟨.badValue, []⟩) ?_)
  rw [handleWriteMapRow, State.buffering_open setup idle]
  simp only [byteAt_cons, hp, hc, indexOf_val]
  split
  · next g pr hg hpr =>
    rcases h with h | h
    · rw [functionOf_none h] at hg; cases hg
    · rw [profileOf_none h] at hpr; cases hpr
  · rfl

/-- WRITE MAP ROW with every field in range: the row set, the image composed, the row answered. -/
theorem State.Takes.writeMapRow {s : State} {f : BusFrame} (ht : s.Takes f (0x10 :: f.data)) (setup : s.tables.mode = .setup)
    (idle : s.store.commit = none) {p : Pos} {c : Circ} (hp : byteAt f.data 0 = p.val + 1) (hc : byteAt f.data 1 = c.val + 1)
    {g : Option Fn} {pr : ProfileNo} (hg : functionOf (byteAt f.data 2) = some g) (hpr : profileOf (byteAt f.data 3) = some pr) :
    let u := ((s.buffering (0x10 :: f.data)).setRow p c (rowOf g pr (byteAt f.data 4))).recompose
    exec (.writeMapRow f) s = .next (u.updPort fun po => { po with
      transmit := po.transmit ++ [s.responseTo (0x10 :: f.data) (0 :: u.rowFields p c ++ [0, 0])] }) := by
  intro u
  refine congrArg Host.Outcome.next (ht.reply (u := u) (h := handleWriteMapRow) (r := ⟨.ok, u.rowFields p c⟩) ?_)
  rw [handleWriteMapRow, State.buffering_open setup idle]
  simp only [byteAt_cons, hp, hc, indexOf_val, hg, hpr, bitsAt_one]
  rfl

/-- One place of a table of tables set, and every other kept. -/
theorem upd_upd_get {α : Type} {n m : Nat} (v : Vector (Vector α m) n) (p q : Fin n) (c k : Fin m) (x : α) :
    (upd v p fun row => upd row c fun _ => x)[q][k] = if (q, k) = (p, c) then x else v[q][k] := by
  rw [upd_get]
  by_cases hq : q = p
  · rw [if_pos hq, upd_get, hq]
    by_cases hk : k = c
    · rw [if_pos hk, if_pos (by rw [hk])]
    · rw [if_neg hk, if_neg (by simpa using hk)]
  · rw [if_neg hq, if_neg (by simp [hq])]

theorem State.setRow_rowAt (s : State) (p q : Pos) (c k : Circ) (r : MapRow) :
    (s.setRow p c r).rowAt q k = if (q, k) = (p, c) then r else s.rowAt q k := upd_upd_get _ _ _ _ _ _

theorem State.setRow_rowTouched (s : State) (p q : Pos) (c k : Circ) (r : MapRow) :
    (s.setRow p c r).tables.rowTouched[q][k] = if (q, k) = (p, c) then true else s.tables.rowTouched[q][k] :=
  upd_upd_get _ _ _ _ _ _

/-- `u` is `s` with the request of bytes `d` in the buffer but for the tables in use and their marks, the telltale image and
its schedule, and the transmit list. -/
structure State.WroteFrom (s u : State) (d : List Byte) : Prop where
  mode : u.tables.mode = s.tables.mode
  now : u.now = s.now
  chain : u.chain = s.chain
  queue : u.queue = s.queue
  circuits : u.circuits = s.circuits
  cache : u.cache = s.cache
  checks : u.checks = s.checks
  store : u.store = s.store
  pending : u.pending = s.pending
  records : s.image.SameRecords u.image
  inputs : s.port.SameInputs u.port
  request : u.port.request = some d

/-- A composition touches none of it. -/
theorem State.WroteFrom.recompose {s u : State} {d : List Byte} (h : s.WroteFrom u d) : s.WroteFrom u.recompose d := by
  obtain ⟨mode, now, chain, queue, circuits, cache, checks, store, pending, records, inputs, request⟩ := h
  rw [State.recompose_frame]
  exact ⟨mode, now, chain, queue, circuits, cache, checks, store, pending, records, inputs, request⟩

theorem State.WroteFrom.setRow (s : State) (d : List Byte) (p : Pos) (c : Circ) (r : MapRow) :
    s.WroteFrom ((s.buffering d).setRow p c r) d :=
  ⟨rfl, rfl, rfl, rfl, rfl, rfl, rfl, rfl, rfl, ⟨rfl, rfl, rfl, rfl, rfl, rfl, rfl, rfl⟩, ⟨rfl, rfl, rfl, rfl⟩, rfl⟩

/-- The two low bits of a row's byte as a response gives them, with the touched mark set (R176). -/
theorem rowBits_eq (n : Nat) : flagBit (n.testBit 0) 0 + flagBit (n.testBit 1) 1 + flagBit true 2 = n % 4 + 4 := by
  simp only [flagBit_eq, Nat.testBit_eq_decide_div_mod_eq, decide_eq_true_eq, if_true]
  split <;> split <;> omega

/-- The row just written as the response gives it: the bytes of the request, the mark set, the fitted state (R5, R176). -/
theorem State.rowFields_written {v : State} {p : Pos} {c : Circ} {g : Option Fn} {pr : ProfileNo} {bits : Nat}
    (row : v.rowAt p c = rowOf g pr bits) (mark : v.tables.rowTouched[p][c] = true) :
    v.rowFields p c = [BitVec.ofNat 8 (functionByte g), BitVec.ofNat 8 pr.val, BitVec.ofNat 8 (bits % 4 + 4),
      BitVec.ofNat 8 (fittedState (v.posAt p).circuitCount c)] := by
  rw [State.rowFields, row, mark, ← rowBits_eq]
  rfl

/-- Settles O28: the gate, the indices and the values are judged in this order; past them one row and its mark are set. -/
theorem writeMapRowEffects : Obligations.WriteMapRowEffects := by
  unfold Obligations.WriteMapRowEffects
  intro s f ht
  refine ⟨fun run => congrArg _ (ht.refused gated_writeMapRow run),
    fun setup busy => congrArg _ (ht.busy gated_writeMapRow (mode_of_setup setup) busy),
    fun setup idle bad => ht.writeMapRow_badIndex setup idle bad,
    fun setup idle p c hp hc => ⟨fun bad => ht.writeMapRow_badValue setup idle hp hc bad, fun g pr hg hpr => ?_⟩⟩
  have byte : functionByte g = byteAt f.data 2 := by
    rw [← hg]
    cases g <;> rfl
  refine ⟨_, ht.writeMapRow setup idle hp hc (functionOf_eq byte) (hpr ▸ profileOf_val pr), ?_⟩
  generalize hv : ((s.buffering (0x10 :: f.data)).setRow p c (rowOf g pr (byteAt f.data 4))).recompose = v
  have row : ∀ q k, v.rowAt q k = if (q, k) = (p, c) then rowOf g pr (byteAt f.data 4) else s.rowAt q k := fun q k => by
    rw [← hv, State.recompose_rowAt]
    exact State.setRow_rowAt _ _ _ _ _ _
  have mark : ∀ q k, v.tables.rowTouched[q][k] = if (q, k) = (p, c) then true else s.tables.rowTouched[q][k] := fun q k => by
    rw [← hv, State.recompose_tables]
    exact State.setRow_rowTouched _ _ _ _ _ _
  have wrote : s.WroteFrom v (0x10 :: f.data) := hv ▸ (State.WroteFrom.setRow s _ p c _).recompose
  have tables : v.tables = ((s.buffering (0x10 :: f.data)).setRow p c (rowOf g pr (byteAt f.data 4))).tables := by
    rw [← hv, State.recompose_tables]
  have set := (row p c).trans (if_pos rfl)
  have marked := (mark p c).trans (if_pos rfl)
  refine ⟨set, marked, fun q k hne => ⟨(row q k).trans (if_neg hne), (mark q k).trans (if_neg hne)⟩,
    congrArg (·.tables.profiles) tables, congrArg (·.tables.settings) tables, congrArg (·.profileTouched) tables,
    wrote.mode.trans setup, wrote.now, wrote.chain, wrote.queue, wrote.circuits, wrote.cache, wrote.checks, wrote.store,
    wrote.pending, wrote.records, wrote.inputs, wrote.request, ?_⟩
  have record : v.posAt p = s.posAt p := congrArg (fun ch : Chain => ch.positions[p]) wrote.chain
  rw [State.rowFields_written set marked, record, byte, hpr, fittedState_eq]
  exact List.getLast?_concat

/-! ### WRITE PROFILE A and B -/

/-- Clamping replaces a value outside a range by the nearer bound (R7, R9). -/
theorem clamp_eq {lo hi : Nat} (h : lo ≤ hi) (v : Nat) :
    clamp lo hi v = if v < lo then lo else if hi < v then hi else v := by
  unfold clamp
  split
  · omega
  · split <;> omega

/-- The status byte of a write that clamped or did not (R7, R9). -/
theorem clampStatus_code (b : Bool) : BitVec.ofNat 8 (clampStatus b).code = if b = true then (1 : Byte) else 0 := by
  cases b <;> rfl

theorem clampHalfA_eq (p : Profile) : clampHalfA p = { p with
    nominalCurrent := if p.nominalCurrent < 10 then 10 else if 4000 < p.nominalCurrent then 4000 else p.nominalCurrent
    nominalVoltage := if p.nominalVoltage < 100 then 100 else if 300 < p.nominalVoltage then 300 else p.nominalVoltage
    slope := if p.slope < 0 then 0 else if 16 < p.slope then 16 else p.slope
    shortCurrent := if p.shortCurrent < 100 then 100 else if 4095 < p.shortCurrent then 4095 else p.shortCurrent
    leakCurrent := if p.leakCurrent < 5 then 5 else if 500 < p.leakCurrent then 500 else p.leakCurrent } := by
  rw [clampHalfA, clamp_eq (by omega), clamp_eq (by omega), clamp_eq (by omega), clamp_eq (by omega), clamp_eq (by omega)]

theorem clampHalfB_eq (p : Profile) : clampHalfB p = { p with
    openLimit := if p.openLimit < 5 then 5 else if 50 < p.openLimit then 50 else p.openLimit
    partialLimit := if p.partialLimit < 10 then 10 else if 99 < p.partialLimit then 99 else p.partialLimit
    overloadLimit := if p.overloadLimit < 101 then 101 else if 250 < p.overloadLimit then 250 else p.overloadLimit
    settle := if p.settle < 2 then 2 else if 250 < p.settle then 250 else p.settle
    confirmCount := if p.confirmCount < 1 then 1 else if 4 < p.confirmCount then 4 else p.confirmCount
    checkPulse := if p.checkPulse < 0 then 0 else if 20 < p.checkPulse then 20 else p.checkPulse } := by
  rw [clampHalfB, clamp_eq (by omega), clamp_eq (by omega), clamp_eq (by omega), clamp_eq (by omega), clamp_eq (by omega),
    clamp_eq (by omega)]

/-- The response body of a profile write: whether the values were clamped, then the half as written (R7). -/
theorem profileBody (new raw : Profile) (n : Nat) :
    (BitVec.ofNat 8 (clampStatus (new != raw)).code :: leBytes 6 n ++ List.replicate 6 0).take 7 =
      (if new = raw then 0 else 1) :: leBytes 6 n := by
  rw [responseBody_six _ 6 _ rfl, clampStatus_code]
  by_cases h : new = raw <;> simp [h]

/-- WRITE PROFILE A past the gate: the half clamped and held, and answered (R7). -/
theorem State.Takes.writeProfileA {s : State} {f : BusFrame} (ht : s.Takes f (0x12 :: f.data)) {i : ProfileNo}
    (hi : byteAt f.data 0 = i.val) (setup : s.tables.mode = .setup) (idle : s.store.commit = none) {raw new : Profile}
    (hraw : rawHalfA (numberAt f.data 1 6) s.tables.tables.profiles[i] = raw) (hnew : clampHalfA raw = new) :
    exec (.writeProfileA f) s = .next ((s.setProfile i new).answered (0x12 :: f.data)
      ((if new = raw then 0 else 1) :: leBytes 6 (packHalfA new true))) := by
  have handled := ht.reply (h := handleWriteProfileA) (u := (s.buffering _).setProfile i new)
    (r := ⟨clampStatus (new != raw), leBytes 6 (packHalfA new true)⟩) (by
      rw [handleWriteProfileA, State.buffering_open setup idle, ← hnew, ← hraw]
      simp only [byteAt_cons, numberAt_cons, hi, profileOf_val]
      rfl)
  rw [profileBody] at handled
  exact congrArg Host.Outcome.next handled

/-- WRITE PROFILE B past the gate: the half clamped and held, and answered (R7). -/
theorem State.Takes.writeProfileB {s : State} {f : BusFrame} (ht : s.Takes f (0x13 :: f.data)) {i : ProfileNo}
    (hi : byteAt f.data 0 = i.val) (setup : s.tables.mode = .setup) (idle : s.store.commit = none) {raw new : Profile}
    (hraw : rawHalfB (numberAt f.data 1 6) s.tables.tables.profiles[i] = raw) (hnew : clampHalfB raw = new) :
    exec (.writeProfileB f) s = .next ((s.setProfile i new).answered (0x13 :: f.data)
      ((if new = raw then 0 else 1) :: leBytes 6 (packHalfB new true))) := by
  have handled := ht.reply (h := handleWriteProfileB) (u := (s.buffering _).setProfile i new)
    (r := ⟨clampStatus (new != raw), leBytes 6 (packHalfB new true)⟩) (by
      rw [handleWriteProfileB, State.buffering_open setup idle, ← hnew, ← hraw]
      simp only [byteAt_cons, numberAt_cons, hi, profileOf_val]
      rfl)
  rw [profileBody] at handled
  exact congrArg Host.Outcome.next handled

/-- A request on no profile: the gate is judged first, the number after it (R163, R164). -/
theorem State.Takes.noProfile {s : State} {f : BusFrame} {d : List Byte} (ht : s.Takes f d) {h : Handler}
    (hg : Gated h (some .setup))
    (bad : s.tables.mode = .setup → s.store.commit = none → h d (s.buffering d) = (s.buffering d, some (.only .badIndex))) :
    s.takeFrame f d h = s.answered d
      [if s.tables.mode = .run then 2 else if s.store.commit ≠ none then 5 else 3, 0, 0, 0, 0, 0, 0] := by
  cases hm : s.tables.mode with
  | run => exact ht.refused hg hm
  | setup =>
    rw [if_neg (by decide)]
    split
    · next running => exact ht.busy hg (mode_of_setup hm) running
    · next idle => exact ht.answer (r := .only .badIndex) (bad hm (not_not.1 idle))

/-- Settles O29: the gate first, then the profile number; past both one half is clamped, held and answered. -/
theorem writeProfileEffects : Obligations.WriteProfileEffects := by
  unfold Obligations.WriteProfileEffects
  refine ⟨fun s f i hi => ⟨fun ht => ⟨fun run => ?_, fun setup running => ?_, fun setup idle => ?_⟩,
    fun ht => ⟨fun run => ?_, fun setup running => ?_, fun setup idle => ?_⟩⟩,
    fun s f hi => ⟨fun ht => ?_, fun ht => ?_⟩⟩
  · exact congrArg _ (ht.refused gated_writeProfileA run)
  · exact congrArg _ (ht.busy gated_writeProfileA (mode_of_setup setup) running)
  · exact ht.writeProfileA hi setup idle rfl (clampHalfA_eq _)
  · exact congrArg _ (ht.refused gated_writeProfileB run)
  · exact congrArg _ (ht.busy gated_writeProfileB (mode_of_setup setup) running)
  · refine ht.writeProfileB hi setup idle ?_ (clampHalfB_eq _)
    rw [rawHalfB, bitsAt_one]
    rfl
  · refine congrArg _ (ht.noProfile gated_writeProfileA fun setup idle => ?_)
    rw [handleWriteProfileA, State.buffering_open setup idle]
    simp only [byteAt_cons, profileOf_none hi]
    rfl
  · refine congrArg _ (ht.noProfile gated_writeProfileB fun setup idle => ?_)
    rw [handleWriteProfileB, State.buffering_open setup idle]
    simp only [byteAt_cons, profileOf_none hi]
    rfl

end Sys2Proof.Machine
end

