-- ==== Sys2Proof/Proofs/SettingWrites.lean ====
section
/-! SUPPORT and PROOF. WRITE SETTING: its statuses in order, its effect, and what the expiries at the write leave (O30). -/

namespace Sys2Proof.Machine

/-- `u` is `s` in its time, its tables with their marks and mode, its store, its waiting commands, and of the port in its
inputs and its request buffer. -/
structure State.PortFrom (s u : State) : Prop where
  now : u.now = s.now
  tables : u.tables = s.tables
  store : u.store = s.store
  pending : u.pending = s.pending
  inputs : s.port.SameInputs u.port
  request : u.port.request = s.port.request

theorem State.PortFrom.refl (s : State) : s.PortFrom s := ⟨rfl, rfl, rfl, rfl, ⟨rfl, rfl, rfl, rfl⟩, rfl⟩

theorem State.PortFrom.trans {s t u : State} (a : s.PortFrom t) (b : t.PortFrom u) : s.PortFrom u where
  now := b.now.trans a.now
  tables := b.tables.trans a.tables
  store := b.store.trans a.store
  pending := b.pending.trans a.pending
  request := b.request.trans a.request
  inputs := by
    obtain ⟨a1, a2, a3, a4⟩ := a.inputs
    obtain ⟨b1, b2, b3, b4⟩ := b.inputs
    exact ⟨b1.trans a1, b2.trans a2, b3.trans a3, b4.trans a4⟩

theorem State.ChainFrom.portFrom {s u : State} (h : s.ChainFrom u) : s.PortFrom u :=
  ⟨h.now, h.tables, h.store, h.pending, h.port ▸ ⟨rfl, rfl, rfl, rfl⟩, h.port ▸ rfl⟩

theorem State.PortFrom.recompose (s : State) : s.PortFrom s.recompose :=
  ⟨s.recompose_now, s.recompose_tables, s.recompose_store, s.recompose_pending, s.recompose_sameInputs, s.recompose_request⟩

theorem State.PortFrom.handTelltale (s : State) : s.PortFrom s.handTelltale :=
  ⟨rfl, rfl, rfl, rfl, ⟨rfl, rfl, rfl, rfl⟩, rfl⟩

theorem State.PortFrom.expireAtWrite (s : State) (i : Nat) : s.PortFrom (s.expireAtWrite i) := by
  unfold State.expireAtWrite
  split
  · exact (State.ChainFrom.pollExpiry s).portFrom
  · exact (State.ChainFrom.foldl _ .lossExpiry allPos s).portFrom
  · exact (State.ChainFrom.foldl _ .absenceExpiry allPos s).portFrom
  · exact ite_cases _ ⟨rfl, rfl, rfl, rfl, ⟨rfl, rfl, rfl, rfl⟩, rfl⟩ (.refl s)
  · exact ite_cases _ (.handTelltale s) (.refl s)
  · exact .refl s

/-- The event of a setting's write: the value held, the expiries it has reached, the transmitter's pick, the composition. -/
def State.settingWritten (s : State) (i v : Nat) : State := ((s.setSetting i v).expireAtWrite i).transmit.recompose

theorem State.settingWritten_from (s : State) (i v : Nat) : (s.setSetting i v).PortFrom (s.settingWritten i v) :=
  ((State.PortFrom.expireAtWrite _ i).trans (State.ChainFrom.transmit _).portFrom).trans (.recompose _)

theorem clampedSetting_eq {n : Nat} (h : 1 ≤ n ∧ n ≤ 14) (v : Nat) :
    let range := [(100, 1000), (100, 2000), (1, 30), (200, 10000), (1, 600), (20, 200), (80, 300), (1, 255), (200, 5000),
      (100, 2000), (0, 2047), (0, 2047), (0, 2047), (0, 2047)].getD (n - 1) (0, 0)
    clampedSetting n v = if v < range.1 then range.1 else if range.2 < v then range.2 else v := by
  have order : ∀ i, (settingRange i).1 ≤ (settingRange i).2 := fun i => by
    unfold settingRange
    split <;> decide
  rw [clampedSetting, clamp_eq (order n)]
  obtain ⟨h1, h14⟩ := h
  interval_cases n <;> rfl

/-- A setting in its range is held as written. -/
theorem clampedSetting_inRange {i v : Nat} (h : (settingRange i).1 ≤ v ∧ v ≤ (settingRange i).2) :
    clampedSetting i v = v := by
  unfold clampedSetting clamp
  omega

section Request
variable {s : State} {f : BusFrame} (ht : s.Takes f (0x16 :: f.data)) (setup : s.tables.mode = .setup)
  (idle : s.store.commit = none)
include ht setup idle

theorem State.Takes.writeSetting_badIndex (h : byteAt f.data 0 = 0 ∨ 14 < byteAt f.data 0) :
    exec (.writeSetting f) s = .next (s.answered (0x16 :: f.data) [3, 0, 0, 0, 0, 0, 0]) := by
  refine congrArg _ (ht.answer (h := handleWriteSetting) (r := ⟨.badIndex, []⟩) ?_)
  rw [handleWriteSetting, State.buffering_open setup idle]
  simp only [byteAt_cons]
  rw [if_neg (by omega)]
  rfl

theorem State.Takes.writeSetting_taken {n v : Nat} (hn : byteAt f.data 0 = n) (hv : byteAt f.data 1 + 256 * byteAt f.data 2 = v)
    (h : 1 ≤ n ∧ n ≤ 14) (taken : s.idTaken n (clampedSetting n v) = true) :
    exec (.writeSetting f) s = .next (s.answered (0x16 :: f.data) [4, 0, 0, 0, 0, 0, 0]) := by
  subst hn hv
  refine congrArg _ (ht.answer (h := handleWriteSetting) (r := ⟨.badValue, []⟩) ?_)
  rw [handleWriteSetting, State.buffering_open setup idle]
  simp only [byteAt_cons, numberAt_cons]
  rw [if_pos h]
  exact if_pos taken

/-- WRITE SETTING past the gate, the number and the identifiers: the clamped value held with what the write brings about. -/
theorem State.Takes.writeSetting {n v : Nat} (hn : byteAt f.data 0 = n) (hv : byteAt f.data 1 + 256 * byteAt f.data 2 = v)
    (h : 1 ≤ n ∧ n ≤ 14) (free : s.idTaken n (clampedSetting n v) = false) :
    exec (.writeSetting f) s = .next (((s.buffering (0x16 :: f.data)).settingWritten n (clampedSetting n v)).updPort fun po =>
      { po with transmit := po.transmit ++ [s.responseTo (0x16 :: f.data)
        [if clampedSetting n v = v then 0 else 1, BitVec.ofNat 8 (clampedSetting n v),
          BitVec.ofNat 8 (clampedSetting n v / 256), 0, 0, 0, 0]] }) := by
  subst hn hv
  generalize hv : byteAt f.data 1 + 256 * byteAt f.data 2 = v at free
  have status : (BitVec.ofNat 8 (clampStatus (clampedSetting (byteAt f.data 0) v != v)).code : Byte) =
      if clampedSetting (byteAt f.data 0) v = v then 0 else 1 := by
    rw [clampStatus_code]
    by_cases h : clampedSetting (byteAt f.data 0) v = v <;> simp [h]
  rw [← status]
  refine congrArg Host.Outcome.next (ht.reply (h := handleWriteSetting)
    (u := (s.buffering (0x16 :: f.data)).settingWritten (byteAt f.data 0) (clampedSetting (byteAt f.data 0) v))
    (r := ⟨clampStatus (clampedSetting (byteAt f.data 0) v != v), leBytes 2 (clampedSetting (byteAt f.data 0) v)⟩) ?_)
  have number : numberAt f.data 1 2 = v := hv
  rw [handleWriteSetting, State.buffering_open setup idle]
  simp only [byteAt_cons, numberAt_cons, number]
  rw [if_pos h]
  exact if_neg (Bool.eq_false_iff.1 free)

end Request

/-- Settles O30: the gate, the number and the identifiers are judged in this order; past them the clamped value is held, and
what the write brings about leaves the tables, the store and the port's inputs as the write left them. -/
theorem writeSettingEffects : Obligations.WriteSettingEffects := by
  unfold Obligations.WriteSettingEffects
  intro s f ht n v range held
  refine ⟨fun run => congrArg _ (ht.refused gated_writeSetting run),
    fun setup running => congrArg _ (ht.busy gated_writeSetting (mode_of_setup setup) running),
    fun setup idle bad => ht.writeSetting_badIndex setup idle bad, fun setup idle h11 h14 taken => ?_,
    fun setup idle h1 h14 free => ?_⟩
  · have clamped : clampedSetting n v = held := clampedSetting_eq ⟨by omega, h14⟩ v
    refine ht.writeSetting_taken setup idle rfl rfl ⟨by omega, h14⟩ (Bool.not_eq_false _ ▸ fun none => ?_)
    obtain ⟨j, hj, hj', hne, heq⟩ := taken
    exact (s.idTaken_false_iff _ _).1 none h11 j hj hj' hne (heq.trans clamped.symm)
  · have clamped : clampedSetting n v = held := clampedSetting_eq ⟨h1, h14⟩ v
    have none : s.idTaken n (clampedSetting n v) = false := (s.idTaken_false_iff _ _).2 fun h11 j hj hj' hne =>
      clamped.symm ▸ free j h11 hj hj' hne
    have done := ht.writeSetting setup idle rfl rfl ⟨h1, h14⟩ none
    have wrote := State.settingWritten_from (s.buffering (0x16 :: f.data)) n (clampedSetting n v)
    change exec _ s = .next (((s.buffering (0x16 :: f.data)).settingWritten n (clampedSetting n v)).updPort _) at done
    generalize (s.buffering (0x16 :: f.data)).settingWritten n (clampedSetting n v) = u at done wrote
    rw [clamped] at done wrote
    have settings : u.settings = s.settings.write n held := congrArg (·.tables.settings) wrote.tables
    refine ⟨_, done, ?_, fun j hj hj' hne => ?_, congrArg (·.tables.map) wrote.tables,
      congrArg (·.tables.profiles) wrote.tables,
      congrArg (·.rowTouched) wrote.tables, congrArg (·.profileTouched) wrote.tables,
      (congrArg (·.mode) wrote.tables).trans setup, wrote.now, wrote.store, wrote.pending, wrote.inputs, wrote.request, ?_⟩
    · change u.settings.read n = held
      rw [settings, Settings.read_write_same h1 h14]
    · change u.settings.read j = s.settings.read j
      rw [settings, Settings.read_write_ne ⟨h1, h14⟩ ⟨hj, hj'⟩ hne]
    · exact List.getLast?_concat

end Sys2Proof.Machine
end

