-- ==== Sys2Proof/Proofs/HardReset.lean ====
section
/-! SUPPORT and PROOF. The test of R16, the composition over an empty chain, and the state a hard reset leaves (O18). -/

namespace Sys2Proof.Machine

/-! ### The test of R16 -/

theorem Profile.failedCheck_eq_none (p : Profile) : p.failedCheck = none ↔ p.Consistent := by
  unfold Profile.failedCheck Profile.Consistent
  split
  · simp only [reduceCtorEq, false_iff]
    omega
  · split
    · simp only [reduceCtorEq, false_iff]
      omega
    · split
      · simp only [reduceCtorEq, false_iff]
        omega
      · simp only [true_iff]
        omega

theorem mem_profileNos (i : ProfileNo) : i ∈ ([0, 1, 2, 3, 4, 5, 6, 7] : List ProfileNo) := by
  revert i
  decide

theorem firstInconsistent_eq_none (ps : Vector Profile 8) :
    firstInconsistent ps = none ↔ ∀ i : ProfileNo, (ps[i]).Consistent := by
  simp only [firstInconsistent, List.findSome?_eq_none_iff, Option.map_eq_none_iff, Profile.failedCheck_eq_none]
  exact ⟨fun h i => h i (mem_profileNos i), fun h i _ => h i⟩

theorem modeOver_eq (t : Tables) : modeOver t = if ∀ i : ProfileNo, (t.profiles[i]).Consistent then .run else .setup := by
  simp only [modeOver, Option.isNone_iff_eq_none, firstInconsistent_eq_none]

/-! ### The composition while no position is on the chain (R143 to R146) -/

/-- Every position is ABSENT, as a reset leaves it. -/
def State.Empty (s : State) : Prop := ∀ p, s.posAt p = Position.absent PosCounters.zero

theorem State.Empty.considered {s : State} (h : s.Empty) (f : Fn) (test : Condition → Bool) : s.considered f test = false := by
  simp [State.considered, h _, Position.absent, PosState.onChain]

theorem State.Empty.serving {s : State} (h : s.Empty) (f : Fn) {test : Position → Bool}
    (ht : test (Position.absent PosCounters.zero) = false) : s.serving f test = false := by
  simp [State.serving, h _, ht]

theorem State.Empty.anyMapped {s : State} (h : s.Empty) (row : MapRow → Bool) (test : Condition → Bool) :
    s.anyMapped row test = false := by
  simp [State.anyMapped, h _, Position.absent, PosState.onChain]

theorem State.Empty.summary {s : State} (h : s.Empty) : s.summary = .none := by
  simp [State.summary, h.anyMapped, h _, Position.absent]

/-- With no position and no untracked function, a function is ABSENT in RUN and UNVERIFIED in SETUP (R145). -/
theorem State.Empty.fnState {s : State} (h : s.Empty) (tracked : s.image.untracked = 0) (f : Fn) :
    s.fnState f = if s.tables.mode = .run then .absent else .unverified := by
  cases hm : s.tables.mode with
  | setup => simp [State.fnState, hm]
  | run =>
    have gone : s.serving f (fun r => r.state == .lost || r.state == .passive) = false := h.serving f rfl
    have passive : s.serving f (fun r => r.state == .passive) = false := h.serving f rfl
    have power : s.serving f (fun r => r.supplyLow || r.feedLost) = false := h.serving f rfl
    simp [State.fnState, hm, h.considered, gone, passive, power, tracked, on]

/-! ### HARD_RESET -/

/-- The state a hard reset composes its telltale image over (R171). -/
def State.reloaded (s : State) : State :=
  { State.reset with
    tables := { State.reset.tables with tables := s.store.load, mode := s.store.loadMode }
    chain := { State.reset.chain with connectRaw := s.chain.connectRaw }
    image := { State.reset.image with lastFrame := none }
    port := { State.reset.port with
      transmit := [], commandId := canId s.store.load.settings.commandId, requestId := canId s.store.load.settings.requestId }
    store := ⟨s.store.contents, s.store.valid, !s.store.valid, none⟩
    arrivals := s.arrivals
    pending := s.pending }

theorem State.reloaded_empty (s : State) : s.reloaded.Empty := fun p => by
  simp [State.posAt, State.reloaded, State.reset]

theorem State.hardReset_compose (s : State) : s.hardReset.compose = s.reloaded.compose :=
  State.compose_congr _ _ rfl rfl rfl rfl rfl rfl rfl rfl

/-! ### What a table filled with one value holds -/

theorem replicate_get {α : Type} {n : Nat} (x : α) (i : Fin n) : (Vector.replicate n x)[i] = x := by simp

theorem replicate_replicate_get {α : Type} {n m : Nat} (x : α) (i : Fin n) (j : Fin m) :
    (Vector.replicate n (Vector.replicate m x))[i][j] = x := by simp

/-- Settles O18: the blocks stand as the definition of the reset lays them, and the image is composed over an empty chain. -/
theorem hardResetState : Obligations.HardResetState := by
  unfold Obligations.HardResetState
  intro s
  have mode : s.store.loadMode =
      if s.store.valid = true ∧ ∀ i : ProfileNo, (s.store.contents.profiles[i]).Consistent then .run else .setup := by
    rw [Store.loadMode, modeOver_eq]
    by_cases valid : s.store.valid = true
    · simp only [valid, if_true, true_and]
    · simp only [valid, false_and, if_false, Bool.false_eq_true]
  refine ⟨_, rfl, rfl, mode, replicate_replicate_get _, replicate_get _, rfl, replicate_get _, rfl, replicate_get _, rfl, rfl, rfl, rfl, rfl, rfl, rfl, rfl, rfl, replicate_get _,
    rfl, replicate_replicate_get _, rfl, replicate_get _, rfl, rfl, rfl, rfl, rfl, rfl, rfl, rfl, rfl, rfl, rfl, s.reloaded_empty.summary,
    ⟨s.hardReset_compose.symm, rfl⟩, fun f => ?_, rfl, rfl, rfl⟩
  have composed : s.hardReset.image.telltale.functions[f] = s.reloaded.fnState f := by
    change (Vector.ofFn s.reloaded.fnState)[f] = _
    simp
  rw [composed]
  exact s.reloaded_empty.fnState rfl f

end Sys2Proof.Machine
end

