-- ==== Sys2Proof/Proofs/Unfitted.lean ====
section
/-! SUPPORT. A position that holds no circuit count: no reading is judged at it, so retirements and the transmitter's pick leave
its conditions and baselines; and what becomes of a position on its way to ABSENT. -/

namespace Sys2Proof.Machine

/-- Counts stand, and where a position holds none its circuits' conditions and baselines stand too. -/
def State.KeepsUnfitted (s u : State) : Prop := ∀ p, (u.posAt p).circuitCount = (s.posAt p).circuitCount ∧
  ((s.posAt p).circuitCount = none → ∀ c,
    (u.circAt p c).condition = (s.circAt p c).condition ∧ (u.circAt p c).baseline = (s.circAt p c).baseline)

namespace State.KeepsUnfitted

theorem refl (s : State) : s.KeepsUnfitted s := fun _ => ⟨rfl, fun _ _ => ⟨rfl, rfl⟩⟩

theorem trans (s t u : State) (a : s.KeepsUnfitted t) (b : t.KeepsUnfitted u) : s.KeepsUnfitted u := fun p => by
  obtain ⟨ca, ha⟩ := a p
  obtain ⟨cb, hb⟩ := b p
  refine ⟨cb.trans ca, fun none c => ?_⟩
  obtain ⟨c1, b1⟩ := ha none c
  obtain ⟨c2, b2⟩ := hb (ca.trans none) c
  exact ⟨c2.trans c1, b2.trans b1⟩

/-- An operation on neither the records nor the circuits. -/
theorem of_eq (s u : State) (pos : u.chain.positions = s.chain.positions) (circuits : u.circuits = s.circuits) :
    s.KeepsUnfitted u := fun p =>
  ⟨by simp only [State.posAt, pos],
    fun _ c => ⟨by simp only [State.circAt, circuits], by simp only [State.circAt, circuits]⟩⟩

theorem updPos (s : State) (p : Pos) (f : Position → Position) (h : (f (s.posAt p)).circuitCount = (s.posAt p).circuitCount) :
    s.KeepsUnfitted (s.updPos p f) := fun q => by
  refine ⟨?_, fun _ _ => ⟨rfl, rfl⟩⟩
  rw [State.updPos_posAt]
  split
  · next hq => rw [hq, h]
  · rfl

/-- An operation on one circuit that the position's count reaches, or one that keeps the condition and the baseline. -/
theorem updCirc (s : State) (p : Pos) (c : Circ) (f : Circuit → Circuit)
    (h : (s.posAt p).circuitCount ≠ none ∨
      ((f (s.circAt p c)).condition = (s.circAt p c).condition ∧ (f (s.circAt p c)).baseline = (s.circAt p c).baseline)) :
    s.KeepsUnfitted (s.updCirc p c f) := fun q => by
  refine ⟨rfl, fun none k => ?_⟩
  rw [State.updCirc_circAt]
  split
  · next hq =>
    obtain ⟨rfl, rfl⟩ := hq
    exact h.resolve_left fun some => some none
  · exact ⟨rfl, rfl⟩

/-- A confirmed verdict at a position that holds a count. -/
theorem confirm {s : State} {p : Pos} (h : (s.posAt p).circuitCount ≠ none) (c : Circ) (v : Verdict) :
    s.KeepsUnfitted (s.confirm p c v) := by
  have healed : ∀ (u : State) (k : Condition), u.KeepsUnfitted (u.healCondition p c k) := fun u k => by
    unfold State.healCondition
    split
    · exact of_eq _ _ rfl rfl
    · exact refl _
  have added : ∀ (u : State) (k : Condition), u.KeepsUnfitted (u.addCondition p c k) := fun u k => by
    unfold State.addCondition
    split
    · exact of_eq _ _ rfl rfl
    · exact refl _
  unfold State.confirm
  dsimp only
  split
  · exact refl _
  · exact trans _ _ _ (updCirc _ p _ _ (.inl h)) (trans _ _ _ (healed _ _) (added _ _))

/-- Step 5 of R80 for a reading at a position that holds a count. -/
theorem takeReading {s : State} {p : Pos} (h : (s.posAt p).circuitCount ≠ none) (kind : EntryKind) (loss : Bool) (j : Judged) :
    s.KeepsUnfitted (State.takeReading p kind loss s j) := by
  have counted : ∀ {u : State}, s.JudgedFrom u → (u.posAt p).circuitCount ≠ none := fun a => by rwa [a.count]
  have recorded := State.JudgedFrom.record s p kind loss j
  have handed := State.JudgedFrom.handBaseline (s.record p kind loss j) p loss j
  have baseline : (s.record p kind loss j).KeepsUnfitted ((s.record p kind loss j).handBaseline p loss j) :=
    ite_cases _ (updCirc _ p _ _ (.inl (counted recorded))) (refl _)
  have counted := counted (.trans _ _ _ recorded handed)
  refine trans _ _ _ (updCirc s p _ _ (.inl h)) (trans _ _ _ baseline ?_)
  · unfold State.takeReading
    generalize (s.record p kind loss j).handBaseline p loss j = u at counted
    unfold State.toConfirmation
    split
    · exact refl _
    · dsimp only
      have agreed : u.KeepsUnfitted (u.updCirc p j.circ (agree (u.profileAt p j.circ).confirmCount j.verdict)) :=
        updCirc _ p _ _ (.inl counted)
      split
      · exact trans _ _ _ agreed (confirm (s := u.updCirc p j.circ _) counted j.circ j.verdict)
      · exact agreed

theorem takeReadings {p : Pos} (kind : EntryKind) (loss : Bool) (js : List Judged) {s : State}
    (h : js ≠ [] → (s.posAt p).circuitCount ≠ none) : s.KeepsUnfitted (js.foldl (State.takeReading p kind loss) s) := by
  induction js generalizing s with
  | nil => exact refl s
  | cons j js ih =>
    have counted := h (List.cons_ne_nil _ _)
    exact trans _ _ _ (takeReading counted kind loss j)
      (ih fun _ => by rwa [(State.JudgedFrom.takeReading p kind loss s j).count])

/-- One answer handed to the Reconciler (R80): its readings are used only where the count reaches them. -/
theorem reconcile (s : State) (e : Entry) (x : Transmission) (a : Answer) : s.KeepsUnfitted (s.reconcile e x a) := by
  have supply : ∀ b, s.KeepsUnfitted (s.setSupplyLow a.pos b) := fun b => updPos _ _ _ rfl
  unfold State.reconcile
  split
  · exact refl s
  · split
    · exact supply true
    · dsimp only
      generalize hu : s.setSupplyLow a.pos false = u
      have tested : u.KeepsUnfitted (u.feedTest a.pos (u.usedReadings e x a)) := by
        unfold State.feedTest State.raiseFeedLost State.clearFeedLost
        split
        · split
          · exact refl u
          · exact updPos _ _ _ rfl
        · split
          · split
            · exact updPos _ _ _ rfl
            · exact refl u
          · exact refl u
      refine trans _ _ _ (hu ▸ supply false) (trans _ _ _ tested (takeReadings _ _ _ fun some none => ?_))
      obtain ⟨j, hj⟩ := List.exists_mem_of_ne_nil _ some
      have reached := State.usedReadings_reached hj
      rw [(tested a.pos).1] at none
      rw [none] at reached
      cases reached

theorem retireOne (s : State) (e : Entry) (rest : List Entry) : s.KeepsUnfitted (s.retireOne e rest) := by
  have handed : s.KeepsUnfitted (s.handAnswers e) := by
    unfold State.handAnswers
    split
    · refine foldl_keeps State.KeepsUnfitted refl trans _ (fun t p => ?_) _ _
      split
      · exact reconcile _ _ _ _
      · exact refl _
    · exact refl s
  have retired : ∀ u : State, u.KeepsUnfitted (u.setRetired e) := fun u => by
    unfold State.setRetired
    split
    · exact ite_cases _ (refl u) (of_eq _ _ rfl rfl)
    · exact refl u
  have tracked : ∀ u : State, u.KeepsUnfitted (u.clearUntracked e) := fun u => by
    unfold State.clearUntracked
    split
    · exact ite_cases _ (of_eq _ _ rfl rfl) (refl u)
    · exact refl u
  exact trans _ _ _ handed (trans _ _ _ (retired _) (trans _ _ _ (tracked _) (of_eq _ _ rfl rfl)))

theorem retireFrom (l : List Entry) (s : State) : s.KeepsUnfitted (State.retireFrom l s) := by
  induction l generalizing s with
  | nil => exact refl s
  | cons e rest ih =>
    unfold State.retireFrom
    split
    · exact trans _ _ _ (retireOne s e rest) (ih _)
    · exact refl s

theorem retire (s : State) : s.KeepsUnfitted s.retire := retireFrom _ _

/-! ### The transmitter's pick -/

theorem transmitEntry (s : State) (e : Entry) (i : Image) (d : Nat) (r : PosSet) : s.KeepsUnfitted (s.transmitEntry e i d r) :=
  of_eq _ _ rfl rfl

theorem beginTelegram (s : State) (x : Downstream) : s.KeepsUnfitted (s.beginTelegram x) := of_eq _ _ rfl rfl

theorem sendSet (s : State) (e : Entry) : s.KeepsUnfitted (s.sendSet e) :=
  trans _ _ _ (of_eq s (s.imageSent (e.image.getD 0)) rfl rfl)
    (trans _ _ _ (beginTelegram _ _) (trans _ _ _ (transmitEntry _ _ _ _ _) (retire _)))

theorem sendLink (s : State) (r : LinkRequest) (rest : List LinkRequest) : s.KeepsUnfitted (s.sendLink r rest) := by
  have taken : s.KeepsUnfitted (s.updChain fun ch => { ch with linkRequests := rest }) := of_eq _ _ rfl rfl
  cases r with
  | enum p => exact trans _ _ _ taken (trans _ _ _ (updPos _ p _ rfl) (beginTelegram _ _))
  | query p => exact trans _ _ _ taken (trans _ _ _ (updPos _ p _ rfl) (beginTelegram _ _))

theorem sendCheck (s : State) (e : Entry) (t : CheckTarget) : s.KeepsUnfitted (s.sendCheck e t) := by
  have sent : ∀ u : State, u.KeepsUnfitted (u.checkSent t) := fun u =>
    trans _ _ _ (of_eq u (u.updChecks fun k => { k with times := upd k.times t.pos (pushCheckTime u.now) }) rfl rfl)
      (updCirc _ t.pos t.circ _ (.inr ⟨rfl, rfl⟩))
  exact trans _ _ _ (beginTelegram s _) (trans _ _ _ (transmitEntry _ _ _ _ _) (trans _ _ _ (sent _) (retire _)))

theorem sendPoll (s : State) (e : Entry) : s.KeepsUnfitted (s.sendPoll e) :=
  trans _ _ _ (beginTelegram s _) (trans _ _ _ (transmitEntry _ _ _ _ _) (retire _))

theorem pickPoll (s : State) : s.KeepsUnfitted s.pickPoll := by
  unfold State.pickPoll
  split
  · exact sendPoll _ _
  · exact ite_cases _ (of_eq _ _ rfl rfl) (refl s)

theorem pickCheck (tags : List Nat) (s : State) : s.KeepsUnfitted (State.pickCheck tags s) := by
  induction tags generalizing s with
  | nil => exact pickPoll s
  | cons tag tags ih =>
    unfold State.pickCheck
    split
    · split
      · split
        · exact trans _ _ _ (trans _ _ _ (of_eq _ (s.updEntry tag _) rfl rfl) (retire _)) (ih _)
        · split
          · exact sendCheck _ _ _
          · exact ih s
      · exact ih s
    · exact ih s

theorem transmit (s : State) : s.KeepsUnfitted s.transmit := by
  unfold State.transmit
  split
  · exact refl s
  · split
    · exact sendSet _ _
    · split
      · exact of_eq _ _ rfl rfl
      · split
        · exact sendLink _ _ _
        · exact pickCheck _ _

end State.KeepsUnfitted

/-! ### A position on its way to ABSENT (R32, R35, R36) -/

/-- A position that has gone ABSENT, and may be probed again: no identity, no count, every condition UNKNOWN and no baseline. -/
structure State.Departed (s : State) (p : Pos) : Prop where
  state : (s.posAt p).state = .absent ∨ (s.posAt p).state = .probing
  identity : (s.posAt p).identity = none
  count : (s.posAt p).circuitCount = none
  circuits : ∀ c, (s.circAt p c).condition = .unknown ∧ (s.circAt p c).baseline = .none

/-- A position is LOST since `l`, or has gone ABSENT from there. -/
def State.Leaving (s : State) (p : Pos) (l : Time) : Prop :=
  ((s.posAt p).state = .lost ∧ (s.posAt p).lostSince = some l) ∨ s.Departed p

/-- What keeps a position's state, identity, count and LOST-since time, and its circuits' conditions and baselines. -/
theorem State.Leaving.of_eq {s u : State} {p : Pos} {l : Time} (h : s.Leaving p l) (state : (u.posAt p).state = (s.posAt p).state)
    (identity : (u.posAt p).identity = (s.posAt p).identity) (lost : (u.posAt p).lostSince = (s.posAt p).lostSince)
    (kept : s.KeepsUnfitted u) : u.Leaving p l := by
  rcases h with ⟨hs, hl⟩ | ⟨hs, hi, hc, circuits⟩
  · exact .inl ⟨state.trans hs, lost.trans hl⟩
  · refine .inr ⟨state ▸ hs, identity.trans hi, (kept p).1.trans hc, fun c => ?_⟩
    obtain ⟨condition, baseline⟩ := (kept p).2 hc c
    exact ⟨condition.trans (circuits c).1, baseline.trans (circuits c).2⟩

theorem State.Leaving.sameAt {s u : State} {p : Pos} {l : Time} (h : s.Leaving p l) (a : s.SameAt u p) : u.Leaving p l := by
  rcases h with ⟨hs, hl⟩ | ⟨hs, hi, hc, circuits⟩
  · exact .inl ⟨a.pos ▸ hs, a.pos ▸ hl⟩
  · exact .inr ⟨a.pos ▸ hs, a.pos ▸ hi, a.pos ▸ hc, fun c => a.circ c ▸ circuits c⟩

/-- What the transmitter's pick can do keeps a position's state, identity and LOST-since time. -/
theorem State.SentFrom.posKept {s u : State} (h : s.SentFrom u) (p : Pos) : (u.posAt p).state = (s.posAt p).state ∧
    (u.posAt p).identity = (s.posAt p).identity ∧ (u.posAt p).lostSince = (s.posAt p).lostSince := by
  rw [h.pos p]
  exact ⟨rfl, rfl, rfl⟩

theorem State.Leaving.retire {s : State} {p : Pos} {l : Time} (h : s.Leaving p l) : s.retire.Leaving p l := by
  obtain ⟨state, identity, lost⟩ := (State.SentFrom.retire s).posKept p
  exact h.of_eq state identity lost (State.KeepsUnfitted.retire s)

theorem State.Leaving.transmit {s : State} {p : Pos} {l : Time} (h : s.Leaving p l) : s.transmit.Leaving p l := by
  obtain ⟨state, identity, lost⟩ := (State.SentFrom.transmit s).posKept p
  exact h.of_eq state identity lost (State.KeepsUnfitted.transmit s)

theorem State.reviewClashes_circuits (s : State) (i : Option Identity) : (s.reviewClashes i).circuits = s.circuits := by
  cases i with
  | none => rfl
  | some i =>
    change (allPos.foldl (State.reviewClash i) s).circuits = s.circuits
    generalize allPos = l
    induction l generalizing s with
    | nil => rfl
    | cons p l ih =>
      refine (ih _).trans ?_
      unfold State.reviewClash
      split <;> rfl

theorem State.Leaving.reviewClashes {s : State} {p : Pos} {l : Time} (h : s.Leaving p l) (i : Option Identity) :
    (s.reviewClashes i).Leaving p l := by
  obtain ⟨_, hp⟩ := (s.reviewClashes_frame i).2.2 p
  refine h.of_eq (by rw [hp]) (by rw [hp]) (by rw [hp]) fun q => ?_
  obtain ⟨_, hq⟩ := (s.reviewClashes_frame i).2.2 q
  exact ⟨by rw [hq], fun _ c => by simp only [State.circAt, s.reviewClashes_circuits, and_self]⟩

/-- A position made ABSENT with its circuits cleared is departed. -/
theorem State.Departed.makeAbsent {s : State} {p : Pos}
    (h : ∀ c, (s.circAt p c).condition = .unknown ∧ (s.circAt p c).baseline = .none) :
    (s.makeAbsent p).Departed p := by
  have pos := s.makeAbsent_posAt_same p
  exact ⟨.inl (by rw [pos]; rfl), by rw [pos]; rfl, by rw [pos]; rfl, h⟩

theorem State.Departed.takeOff (s : State) (p : Pos) : ((s.takeOff p).makeAbsent p).Departed p :=
  .makeAbsent fun c => by rw [(s.takeOff_clear p).1 c]; exact ⟨rfl, rfl⟩

/-- Positions going ABSENT keep a leaving position leaving, and one of them departs itself (R35). -/
theorem State.Leaving.goAbsent {s : State} {p : Pos} {l : Time} (h : s.Leaving p l) (q : Pos) :
    (s.goAbsent q).Leaving p l ∧ (q = p → (s.goAbsent q).Departed p) := by
  by_cases hq : q = p
  · subst hq
    suffices departed : (s.goAbsent q).Departed q from ⟨.inr departed, fun _ => departed⟩
    unfold State.goAbsent
    rcases h with ⟨lost, _⟩ | h
    · rw [lost]
      have taken : ((s.takeOff q).makeAbsent q).Leaving q 0 := .inr (.takeOff s q)
      refine (taken.reviewClashes _).resolve_left fun still => ?_
      obtain ⟨_, hp⟩ := (((s.takeOff q).makeAbsent q).reviewClashes_frame (s.posAt q).identity).2.2 q
      rw [hp, State.makeAbsent_posAt_same] at still
      cases still.1
    · rcases h.state with absent | probing
      · rw [absent]
        exact h
      · rw [probing]
        exact .makeAbsent h.circuits
  · refine ⟨?_, fun h => absurd h hq⟩
    have hne : p ≠ q := fun h => hq h.symm
    unfold State.goAbsent
    split
    · exact h
    · exact h.sameAt (.makeAbsent hne)
    · exact h.sameAt (.makeAbsent hne)
    · have left : (s.leaveActive q).Leaving p l :=
        (h.sameAt ((State.SameAt.updCircs hne _).trans (.updQueue _ _ p))).retire
      exact ((left.sameAt (.takeOff hne)).sameAt (.makeAbsent hne)).reviewClashes _
    · exact ((h.sameAt (.takeOff hne)).sameAt (.makeAbsent hne)).reviewClashes _

/-- A leaving position that is not LOST has departed. -/
theorem State.Departed.of_leaving {s : State} {p : Pos} {l : Time} (h : s.Leaving p l) (off : (s.posAt p).state ≠ .lost) :
    s.Departed p := h.resolve_left fun lost => off lost.1

theorem State.Departed.goAbsent {s : State} {p : Pos} (h : s.Departed p) (q : Pos) : (s.goAbsent q).Departed p := by
  have next := State.Leaving.goAbsent (l := 0) (.inr h) q
  by_cases hq : q = p
  · exact next.2 hq
  · refine .of_leaving next.1 ?_
    rw [State.goAbsent_state, if_neg (fun e => hq e.symm)]
    rcases h.state with hs | hs <;> rw [hs] <;> decide

/-- A cascade over `p` leaves it departed. -/
theorem State.Leaving.foldl_goAbsent {p : Pos} {l : Time} (qs : List Pos) {s : State} (h : s.Leaving p l) :
    (qs.foldl State.goAbsent s).Leaving p l ∧ (p ∈ qs ∨ s.Departed p → (qs.foldl State.goAbsent s).Departed p) := by
  induction qs generalizing s with
  | nil => exact ⟨h, fun hp => hp.resolve_left List.not_mem_nil⟩
  | cons q qs ih =>
    obtain ⟨next, self⟩ := h.goAbsent q
    obtain ⟨leaving, departed⟩ := ih next
    refine ⟨leaving, fun hp => departed ?_⟩
    rcases hp with hp | hp
    · rcases List.mem_cons.1 hp with hp | hp
      · exact .inr (self hp.symm)
      · exact .inl hp
    · exact .inr (hp.goAbsent q)

theorem State.Departed.beginProbe {s : State} {p : Pos} (h : s.Departed p) (q : Pos) : (s.beginProbe q).Departed p := by
  have pos := s.beginProbe_posAt q p
  by_cases hq : p = q
  · rw [if_pos hq] at pos
    exact ⟨.inr (by rw [pos]), by rw [pos]; exact h.identity, by rw [pos]; exact h.count, h.circuits⟩
  · rw [if_neg hq] at pos
    exact ⟨by rw [pos]; exact h.state, by rw [pos]; exact h.identity, by rw [pos]; exact h.count, h.circuits⟩

/-- A probe of the next position begins at an ABSENT one only. -/
theorem State.Leaving.probeNext {s : State} {p : Pos} {l : Time} (h : s.Leaving p l) (q : Pos) :
    (s.probeNext q).Leaving p l ∧ (s.Departed p → (s.probeNext q).Departed p) := by
  unfold State.probeNext
  split
  · next r _ =>
    split
    · next begins =>
      refine ⟨?_, fun h => h.beginProbe r⟩
      rcases h with ⟨lost, since⟩ | h
      · have hr : p ≠ r := fun hp => by
          simp only [Bool.and_eq_true, beq_iff_eq] at begins
          rw [← hp, lost] at begins
          cases begins.2
        have pos := s.beginProbe_posAt r p
        rw [if_neg hr] at pos
        exact .inl ⟨by rw [pos]; exact lost, by rw [pos]; exact since⟩
      · exact .inr (h.beginProbe r)
    · exact ⟨h, id⟩
  · exact ⟨h, id⟩

/-- An absence expiry keeps a leaving position leaving, and its own leaves it departed (R32, R36). -/
theorem State.Leaving.absenceExpiry {s : State} {p : Pos} {l : Time} (h : s.Leaving p l) (q : Pos) :
    (s.absenceExpiry q).Leaving p l ∧
      (s.Departed p ∨ (q = p ∧ s.absenceDue p = true) → (s.absenceExpiry q).Departed p) := by
  unfold State.absenceExpiry
  split
  · obtain ⟨leaving, departed⟩ := h.foldl_goAbsent (allPos.filter fun r => decide (q ≤ r))
    have gone : s.Departed p ∨ (q = p ∧ s.absenceDue p = true) → (s.cascade q).Departed p := fun hp => by
      refine departed (hp.symm.imp_left fun ⟨hq, _⟩ => ?_)
      simp [mem_allPos, hq]
    unfold State.cascadeFrom
    split
    · next r _ =>
      obtain ⟨probed, still⟩ := State.Leaving.probeNext (s := s.cascade q) leaving r
      exact ⟨probed, fun hp => still (gone hp)⟩
    · exact ⟨leaving, gone⟩
  · next early =>
    refine ⟨h, fun hp => hp.resolve_right fun ⟨hq, due⟩ => early (hq ▸ due)⟩

end Sys2Proof.Machine
end

