-- ==== Sys2Proof/Proofs/Shortened.lean ====
section
/-! PROOF. A write that shortens an interval already run out takes its expiry at the write (O31). -/

namespace Sys2Proof.Machine

/-! ### The write of an interval -/

/-- A write of setting 1 to 10 in its range leads to the event of the write, its response handed last. -/
theorem State.Takes.writeInterval {s : State} {f : BusFrame} (ht : s.Takes f (0x16 :: f.data))
    (setup : s.tables.mode = .setup) (idle : s.store.commit = none) {n v : Nat} (hn : byteAt f.data 0 = n)
    (hv : byteAt f.data 1 + 256 * byteAt f.data 2 = v) (h : 1 ≤ n ∧ n ≤ 10)
    (range : (settingRange n).1 ≤ v ∧ v ≤ (settingRange n).2) :
    ∃ g : Port → Port, exec (.writeSetting f) s = .next (((s.buffering (0x16 :: f.data)).settingWritten n v).updPort g) := by
  have held := clampedSetting_inRange range
  have free : s.idTaken n (clampedSetting n v) = false := (s.idTaken_false_iff _ _).2 fun h11 => by omega
  have done := ht.writeSetting setup idle hn hv ⟨h.1, by omega⟩ free
  rw [held] at done
  exact ⟨_, done⟩

/-! ### The poll period -/

theorem State.retire_livenessPoll (s : State) : s.retire.chain.livenessPoll = s.chain.livenessPoll := by
  rw [(State.RetiredFrom.retire s).chain]

/-- The pick takes a pending liveness POLL off only to send it (R40). -/
def State.LivenessKept (s : State) : Prop := s.chain.livenessPoll = true ∨ s.chain.line = .sending (.poll 255)

theorem State.LivenessKept.pickPoll {s : State} (h : s.chain.livenessPoll = true) : s.pickPoll.LivenessKept := by
  unfold State.pickPoll
  split
  · exact .inl ((State.retire_livenessPoll _).trans h)
  · exact ite_cases State.LivenessKept (.inr rfl) (.inl h)

theorem State.LivenessKept.pickCheck (tags : List Nat) {s : State} (h : s.chain.livenessPoll = true) :
    (State.pickCheck tags s).LivenessKept := by
  induction tags generalizing s with
  | nil => exact .pickPoll h
  | cons tag tags ih =>
    unfold State.pickCheck
    split
    · split
      · split
        · exact ih ((State.retire_livenessPoll _).trans h)
        · split
          · exact .inl ((State.retire_livenessPoll _).trans h)
          · exact ih h
      · exact ih h
    · exact ih h

theorem State.LivenessKept.transmit {s : State} (h : s.LivenessKept) : s.transmit.LivenessKept := by
  rcases h with h | h
  · unfold State.transmit
    split
    · exact .inl h
    · split
      · exact .inl ((State.retire_livenessPoll _).trans h)
      · split
        · exact .inl h
        · split
          · next r rest _ => cases r <;> exact .inl h
          · exact .pickCheck _ h
  · rw [State.transmit_busy s (by rw [h]; exact fun h => by cases h)]
    exact .inr h

theorem State.transmit_lastPoll (s : State) : s.transmit.queue.lastPoll = s.queue.lastPoll := by
  rw [(State.SentFrom.transmit s).queue]

/-- A POLL due in SETUP: the schedule goes on by one period, and the liveness POLL is pending or sent (R40, R60). -/
theorem State.pollExpiry_setup {s : State} (setup : s.tables.mode = .setup)
    (due : s.queue.lastPoll + s.settings.pollPeriod ≤ s.now) :
    s.pollExpiry.queue.lastPoll = s.queue.lastPoll + s.settings.pollPeriod ∧ s.pollExpiry.LivenessKept := by
  have ranOut : s.pollOver = true := by simpa [State.pollOver, past] using due
  have taken : s.pollExpiry = ((s.updQueue fun q => { q with lastPoll := q.lastPoll + s.settings.pollPeriod }).updChain
      fun ch => { ch with livenessPoll := true }).transmit := by
    simp [State.pollExpiry, ranOut, setup]
  rw [taken]
  exact ⟨State.transmit_lastPoll _, State.LivenessKept.transmit (.inl rfl)⟩

/-! ### The loss interval -/

/-- An ACTIVE position last heard at `h`, or LOST since now. -/
def State.LosingAt (s : State) (p : Pos) (h : Time) : Prop :=
  ((s.posAt p).state = .active ∧ (s.posAt p).lastHeard = some h) ∨
  ((s.posAt p).state = .lost ∧ (s.posAt p).lostSince = some s.now)

theorem State.leaveActive_record (s : State) (q p : Pos) : ((s.leaveActive q).posAt p).state = (s.posAt p).state ∧
    ((s.leaveActive q).posAt p).lastHeard = (s.posAt p).lastHeard ∧
    ((s.leaveActive q).posAt p).lostSince = (s.posAt p).lostSince := by
  have retired := (State.RetiredFrom.retire ((s.updCircs q fun _ k => { k with due := false }).updQueue fun qu =>
    { qu with entries := qu.entries.map (·.without q) })).pos p
  change (s.leaveActive q).posAt p = _ at retired
  rw [retired]
  exact ⟨rfl, rfl, rfl⟩

/-- A loss expiry of any position keeps it so; its own makes it LOST (R30). -/
theorem State.LosingAt.lossExpiry {s : State} {p : Pos} {h : Time} (hp : s.LosingAt p h) (q : Pos) :
    (s.lossExpiry q).LosingAt p h ∧
    (q = p → h + s.settings.lossInterval ≤ s.now → ((s.lossExpiry q).posAt p).state = .lost) := by
  have now : (s.lossExpiry q).now = s.now := (State.ChainFrom.lossExpiry s q).now
  unfold State.LosingAt
  rw [now]
  unfold State.lossExpiry
  by_cases due : s.lossDue q = true
  · rw [if_pos due, State.updPos_posAt]
    by_cases hq : p = q
    · rw [if_pos hq]
      exact ⟨.inr ⟨rfl, rfl⟩, fun _ _ => rfl⟩
    · obtain ⟨state, heard, lost⟩ := s.leaveActive_record q p
      rw [if_neg hq, state, heard, lost]
      exact ⟨hp, fun h => absurd h.symm hq⟩
  · rw [if_neg due]
    refine ⟨hp, fun hq ranOut => ?_⟩
    subst hq
    rcases hp with ⟨active, heard⟩ | lost
    · refine absurd ?_ due
      simpa [State.lossDue, active, heard, past] using ranOut
    · exact lost.1

/-- Every loss expiry in turn: a position whose loss interval is past is LOST from now. -/
theorem State.LosingAt.foldl {p : Pos} {h : Time} (l : List Pos) {s : State} (hp : s.LosingAt p h)
    (ranOut : h + s.settings.lossInterval ≤ s.now) (turn : p ∈ l ∨ (s.posAt p).state = .lost) :
    ((l.foldl State.lossExpiry s).posAt p).state = .lost ∧
    ((l.foldl State.lossExpiry s).posAt p).lostSince = some s.now := by
  induction l generalizing s with
  | nil =>
    have lost := turn.resolve_left List.not_mem_nil
    rcases hp with active | hp
    · rw [active.1] at lost
      cases lost
    · exact hp
  | cons q l ih =>
    obtain ⟨next, own⟩ := hp.lossExpiry q
    have frame := State.ChainFrom.lossExpiry s q
    have settings : (s.lossExpiry q).settings = s.settings := congrArg (·.tables.settings) frame.tables
    have step := ih next (by rw [settings, frame.now]; exact ranOut) (by
      rcases turn with hm | lost
      · rcases List.mem_cons.1 hm with hm | hm
        · exact .inr (own hm.symm ranOut)
        · exact .inl hm
      · exact .inr (((s.lossExpiry_onChain q p).2 (by rw [lost]; decide)).trans lost))
    rw [frame.now] at step
    exact step

/-! ### The absence interval -/

/-- Every absence expiry in turn: a position whose absence interval is past has departed. -/
theorem State.Leaving.foldl {p : Pos} {l : Time} (qs : List Pos) {s : State} (h : s.Leaving p l)
    (ranOut : l + s.settings.absenceInterval * 1000 ≤ s.now) (turn : p ∈ qs ∨ s.Departed p) :
    (qs.foldl State.absenceExpiry s).Departed p := by
  induction qs generalizing s with
  | nil => exact turn.resolve_left List.not_mem_nil
  | cons q qs ih =>
    obtain ⟨next, gone⟩ := h.absenceExpiry q
    have frame := State.ChainFrom.absenceExpiry s q
    have settings : (s.absenceExpiry q).settings = s.settings := congrArg (·.tables.settings) frame.tables
    refine ih next (by rw [settings, frame.now]; exact ranOut) ?_
    rcases turn with hm | departed
    · rcases List.mem_cons.1 hm with hm | hm
      · refine .inr ?_
        rcases h with ⟨lost, since⟩ | departed
        · exact gone (.inr ⟨hm.symm, by simpa [State.absenceDue, lost, since, past] using ranOut⟩)
        · exact gone (.inl departed)
      · exact .inl hm
    · exact .inr (gone (.inl departed))

theorem State.Departed.transmit {s : State} {p : Pos} (h : s.Departed p) : s.transmit.Departed p := by
  refine .of_leaving (State.Leaving.transmit (l := 0) (.inr h)) ?_
  rw [((State.SentFrom.transmit s).posKept p).1]
  rcases h.state with hs | hs <;> rw [hs] <;> decide

theorem State.Departed.recompose {s : State} {p : Pos} (h : s.Departed p) : s.recompose.Departed p := by
  obtain ⟨state, identity, count, circuits⟩ := h
  exact ⟨by rwa [State.recompose_posAt], by rwa [State.recompose_posAt], by rwa [State.recompose_posAt],
    fun c => by rw [State.recompose_circAt]; exact circuits c⟩

/-! ### The command silence and the telltale period -/

theorem State.silenceExpiry_stale {s : State} (ranOut : s.port.lastCommand + s.settings.commandSilence ≤ s.now) :
    s.silenceExpiry.image.commandStale = true := by
  have past : past s.port.lastCommand s.settings.commandSilence s.now = true := by simpa [Machine.past] using ranOut
  unfold State.silenceExpiry State.silenceOver
  rw [past]
  cases stale : s.image.commandStale <;> simp [stale]

theorem State.transmit_image (s : State) :
    s.transmit.image.commandStale = s.image.commandStale ∧ s.transmit.image.lastFrame = s.image.lastFrame := by
  rw [(State.SentFrom.transmit s).image]
  exact ⟨rfl, rfl⟩

/-- A composition leaves the last frame's time, or sets it to now. -/
theorem State.recompose_lastFrame (s : State) :
    s.recompose.image.lastFrame = s.image.lastFrame ∨ s.recompose.image.lastFrame = some s.now := by
  unfold State.recompose
  dsimp only
  split
  · exact .inl rfl
  · exact ite_cases (fun u : State => u.image.lastFrame = s.image.lastFrame ∨ u.image.lastFrame = some s.now)
      (.inr rfl) (.inl rfl)

theorem State.periodExpiry_lastFrame {s : State} {l : Time} (last : s.image.lastFrame = some l)
    (ranOut : l + s.settings.telltalePeriod ≤ s.now) : s.periodExpiry.image.lastFrame = some s.now := by
  have ranOut : s.periodOver = true := by simpa [State.periodOver, last, past] using ranOut
  rw [State.periodExpiry, if_pos ranOut]
  rfl

/-! ### The five writes -/

theorem State.settingWritten_poll {s : State} {v : Nat} (setup : s.tables.mode = .setup) (due : s.queue.lastPoll + v ≤ s.now) :
    (s.settingWritten 1 v).queue.lastPoll = s.queue.lastPoll + v ∧ (s.settingWritten 1 v).LivenessKept := by
  obtain ⟨poll, liveness⟩ := State.pollExpiry_setup (s := s.setSetting 1 v) setup due
  rw [State.LivenessKept, State.settingWritten, State.recompose_queue, State.recompose_chain, State.transmit_lastPoll]
  exact ⟨poll, liveness.transmit⟩

theorem State.settingWritten_loss {s : State} {v : Nat} {p : Pos} {h : Time} (active : (s.posAt p).state = .active)
    (heard : (s.posAt p).lastHeard = some h) (due : h + v ≤ s.now) :
    ((s.settingWritten 2 v).posAt p).state = .lost ∧ ((s.settingWritten 2 v).posAt p).lostSince = some s.now := by
  obtain ⟨state, since⟩ := State.LosingAt.foldl allPos (s := s.setSetting 2 v) (.inl ⟨active, heard⟩) due
    (.inl (mem_allPos p))
  obtain ⟨state', _, since'⟩ := (State.SentFrom.transmit ((s.setSetting 2 v).expireAtWrite 2)).posKept p
  rw [State.settingWritten, State.recompose_posAt]
  exact ⟨state'.trans state, since'.trans since⟩

theorem State.settingWritten_absence {s : State} {v : Nat} {p : Pos} {l : Time} (lost : (s.posAt p).state = .lost)
    (since : (s.posAt p).lostSince = some l) (due : l + v * 1000 ≤ s.now) : (s.settingWritten 3 v).Departed p :=
  have departed : ((s.setSetting 3 v).expireAtWrite 3).Departed p :=
    State.Leaving.foldl allPos (s := s.setSetting 3 v) (.inl ⟨lost, since⟩) due (.inl (mem_allPos p))
  departed.transmit.recompose

theorem State.settingWritten_silence {s : State} {v : Nat} (due : s.port.lastCommand + v ≤ s.now) :
    (s.settingWritten 9 v).image.commandStale = true ∧ (s.settingWritten 9 v).image.telltale.commandStale = true := by
  have stale := State.silenceExpiry_stale (s := s.setSetting 9 v) due
  have sent := (State.transmit_image ((s.setSetting 9 v).expireAtWrite 9)).1.trans stale
  rw [State.settingWritten, State.recompose_commandStale, State.recompose_telltale]
  exact ⟨sent, sent⟩

theorem State.settingWritten_period {s : State} {v : Nat} {l : Time} (last : s.image.lastFrame = some l) (due : l + v ≤ s.now) :
    (s.settingWritten 10 v).image.lastFrame = some s.now := by
  have handed := State.periodExpiry_lastFrame (s := s.setSetting 10 v) last due
  have sent := (State.transmit_image ((s.setSetting 10 v).expireAtWrite 10)).2.trans handed
  have now : ((s.setSetting 10 v).expireAtWrite 10).transmit.now = s.now :=
    (State.ChainFrom.transmit _).now.trans (State.PortFrom.expireAtWrite _ 10).now
  rw [State.settingWritten]
  rcases State.recompose_lastFrame ((s.setSetting 10 v).expireAtWrite 10).transmit with kept | again
  · exact kept.trans sent
  · exact again.trans (congrArg some now)

/-- Settles O31: the write holds the interval, its expiry is taken, and the pick and the composition after it keep what the
expiry did. -/
theorem shortenedIntervalExpires : Obligations.ShortenedIntervalExpires := by
  unfold Obligations.ShortenedIntervalExpires
  intro s f v ht setup idle hv
  refine ⟨fun hn lo hi due => ?_, fun hn lo hi p h active heard due => ?_, fun hn lo hi p l lost since due => ?_,
    fun hn lo hi due => ?_, fun hn lo hi l last due => ?_⟩
  · obtain ⟨g, done⟩ := ht.writeInterval setup idle hn hv (by decide) ⟨lo, hi⟩
    have written := State.settingWritten_poll (s := s.buffering (0x16 :: f.data)) setup due
    generalize (s.buffering (0x16 :: f.data)).settingWritten 1 v = u at done written
    exact ⟨_, done, written⟩
  · obtain ⟨g, done⟩ := ht.writeInterval setup idle hn hv (by decide) ⟨lo, hi⟩
    have written := State.settingWritten_loss (s := s.buffering (0x16 :: f.data)) active heard due
    generalize (s.buffering (0x16 :: f.data)).settingWritten 2 v = u at done written
    exact ⟨_, done, written⟩
  · obtain ⟨g, done⟩ := ht.writeInterval setup idle hn hv (by decide) ⟨lo, hi⟩
    have written := State.settingWritten_absence (s := s.buffering (0x16 :: f.data)) lost since due
    generalize (s.buffering (0x16 :: f.data)).settingWritten 3 v = u at done written
    exact ⟨_, done, written.identity, written.state, written.circuits⟩
  · obtain ⟨g, done⟩ := ht.writeInterval setup idle hn hv (by decide) ⟨lo, hi⟩
    have written := State.settingWritten_silence (s := s.buffering (0x16 :: f.data)) due
    generalize (s.buffering (0x16 :: f.data)).settingWritten 9 v = u at done written
    exact ⟨_, done, written⟩
  · obtain ⟨g, done⟩ := ht.writeInterval setup idle hn hv (by decide) ⟨lo, hi⟩
    have written := State.settingWritten_period (s := s.buffering (0x16 :: f.data)) last due
    generalize (s.buffering (0x16 :: f.data)).settingWritten 10 v = u at done written
    exact ⟨_, done, written⟩

end Sys2Proof.Machine
end

