-- ==== Sys2Proof/Proofs/Restart.lean ====
section
/-! SUPPORT and PROOF. The pick of a transmitter with little to send, the frame schedule of a composition, and the soft restart
(O34). -/

namespace Sys2Proof.Machine

/-! ### The pick with an empty queue and slot (R39) -/

/-- With nothing to send the pick does nothing. -/
theorem State.transmit_idle {s : State} (entries : s.queue.entries = []) (slot : s.queue.slot = none)
    (requests : s.chain.linkRequests = []) (liveness : s.chain.livenessPoll = false) : s.transmit = s := by
  unfold State.transmit
  simp [entries, slot, requests, liveness, Queue.waitingChecks, State.pickCheck, State.pickPoll]

/-- With the line free and only ENUMs and QUERYs to send, the first of them goes. -/
theorem State.transmit_link {s : State} {r : LinkRequest} {rest : List LinkRequest} (line : s.chain.line = .free)
    (entries : s.queue.entries = []) (slot : s.queue.slot = none) (requests : s.chain.linkRequests = r :: rest) :
    s.transmit = s.sendLink r rest := by
  unfold State.transmit
  simp [line, entries, slot, requests]

theorem State.sendLink_enum_posAt (s : State) (p q : Pos) (rest : List LinkRequest) : (s.sendLink (.enum p) rest).posAt q =
    if q = p then { s.posAt q with probeAttempts := (s.posAt q).probeAttempts + 1, enumTimeout := some (s.now + 20) }
    else s.posAt q :=
  State.updPos_posAt (s.updChain fun ch => { ch with linkRequests := rest }) p q _

/-! ### The frame schedule of a composition (R150) -/

theorem State.frameMayGo_iff (s : State) : s.frameMayGo = true ↔ ∀ l ∈ s.image.lastFrame, l + 50 ≤ s.now := by
  unfold State.frameMayGo
  cases s.image.lastFrame with
  | none => simp
  | some l => exact ⟨fun go x hx => by cases hx; exact of_decide_eq_true go, fun go => decide_eq_true (go l rfl)⟩

theorem State.recompose_same {s : State} (same : s.compose = s.image.telltale) :
    s.recompose.image.lastFrame = s.image.lastFrame ∧ s.recompose.image.framePending = s.image.framePending ∧
    s.recompose.port.transmit = s.port.transmit := by
  have kept : s.recompose = s.updImage fun ib =>
      { ib with telltale := s.compose, lampAlert := s.compose.summary == .red } := if_pos (by simpa using same)
  rw [kept]
  exact ⟨rfl, rfl, rfl⟩

/-- A changed image is handed when the spacing allows (R150). -/
theorem State.recompose_hands {s : State} (changed : s.compose ≠ s.image.telltale)
    (go : ∀ l ∈ s.image.lastFrame, l + 50 ≤ s.now) :
    s.recompose.image.lastFrame = some s.now ∧ s.recompose.image.framePending = false ∧
    s.recompose.port.transmit = handTo ⟨.telltale, canId s.settings.telltaleId, s.compose.bytes⟩ s.port.transmit := by
  have handed : s.recompose = State.handTelltale ((s.updImage fun ib =>
      { ib with telltale := s.compose, lampAlert := s.compose.summary == .red }).updImage fun ib =>
        { ib with framePending := true }) :=
    (if_neg (by simpa using changed)).trans (if_pos ((s.frameMayGo_iff).2 go))
  rw [handed]
  exact ⟨rfl, rfl, rfl⟩

/-- A changed image the spacing holds back is pending (R150). -/
theorem State.recompose_pends {s : State} (changed : s.compose ≠ s.image.telltale)
    (hold : ¬∀ l ∈ s.image.lastFrame, l + 50 ≤ s.now) :
    s.recompose.image.lastFrame = s.image.lastFrame ∧ s.recompose.image.framePending = true ∧
    s.recompose.port.transmit = s.port.transmit := by
  have pending : s.recompose = (s.updImage fun ib =>
      { ib with telltale := s.compose, lampAlert := s.compose.summary == .red }).updImage fun ib =>
        { ib with framePending := true } :=
    (if_neg (by simpa using changed)).trans (if_neg fun go => hold ((s.frameMayGo_iff).1 go))
  rw [pending]
  exact ⟨rfl, rfl, rfl⟩

/-- A telltale frame takes the place of one still waiting, or joins the end (R159). -/
theorem handTo_telltale {fr : TxFrame} (hk : fr.kind = .telltale) (list : List TxFrame) :
    handTo fr list = if list.any (·.kind == .telltale) = true then list.map fun g => if g.kind = .telltale then fr else g
      else list ++ [fr] := by
  simp only [handTo, hk, beq_self_eq_true, Bool.true_and, beq_iff_eq]

/-- `t` is `u` but for the telltale image, its schedule and the transmit list. -/
structure State.ComposedFrom (u t : State) : Prop where
  now : t.now = u.now
  tables : t.tables = u.tables
  chain : t.chain = u.chain
  queue : t.queue = u.queue
  circuits : t.circuits = u.circuits
  cache : t.cache = u.cache
  checks : t.checks = u.checks
  store : t.store = u.store
  pending : t.pending = u.pending
  records : u.image.SameRecords t.image
  inputs : u.port.SameInputs t.port
  request : t.port.request = u.port.request

/-- Nothing the composition reads has changed. -/
theorem State.ComposedFrom.compose {u t : State} (h : u.ComposedFrom t) : t.compose = u.compose := by
  obtain ⟨retired, untracked, faults, overflow, _, _, _, stale⟩ := h.records
  exact State.compose_congr u t h.tables h.circuits (by rw [h.chain]) retired untracked stale overflow faults

/-- A composition with a response handed after it. -/
theorem State.ComposedFrom.reply (u : State) (list : List TxFrame → List TxFrame) :
    u.ComposedFrom (u.recompose.updPort fun po => { po with transmit := list po.transmit }) := by
  rw [State.recompose_frame]
  exact ⟨rfl, rfl, rfl, rfl, rfl, rfl, rfl, rfl, rfl, ⟨rfl, rfl, rfl, rfl, rfl, rfl, rfl, rfl⟩,
    ⟨rfl, rfl, rfl, rfl⟩, rfl⟩

/-! ### RESTART -/

theorem gated_restart : Gated handleRestart none := ⟨_, fun _ _ => rfl⟩

/-- The state of a soft restart before P1 is probed and the image composed (R172). -/
def State.restarted (s : State) : State :=
  { s with
    tables := ⟨s.tables.tables, modeOver s.tables.tables,
      Vector.replicate 6 (Vector.replicate 12 false), Vector.replicate 8 false⟩
    chain := s.chain.softRestart
    queue := ⟨[], 0, none, 0, s.now⟩
    circuits := Vector.replicate 6 (Vector.replicate 12 Circuit.clear)
    checks := ⟨Vector.replicate 6 [], none, s.now⟩
    image := s.image.softRestart
    port := { s.port with commanded := 0, lastCommand := s.now } }

theorem State.softRestart_eq (s : State) : s.softRestart = s.restarted.probeAfterRestart.transmit.recompose := rfl

/-- The Chain Master after a soft restart and the pick that ends it, where the restart found `ch` (R25, R26, R38). -/
structure Chain.Restarted (ch : Chain) (now : Time) (c : Chain) : Prop where
  frame : c = { ch.softRestart with positions := c.positions, linkRequests := c.linkRequests, line := c.line }
  absent : ∀ p : Pos, p ≠ 0 ∨ ch.connectDebounced = false → c.positions[p] = Position.absent PosCounters.zero
  probed : ch.connectDebounced = true → c.positions[(0 : Pos)].state = .probing ∧
    c.positions[(0 : Pos)].counters = PosCounters.zero
  asked : ch.connectDebounced = true → ch.line = .free → c.line = .sending (.enum 0) ∧
    c.positions[(0 : Pos)].probeAttempts = 1 ∧ c.positions[(0 : Pos)].enumTimeout = some (now + 20)
  waits : ch.connectDebounced = true → ch.line ≠ .free → c.line = ch.line ∧ c.linkRequests = [.enum 0] ∧
    c.positions[(0 : Pos)].probeAttempts = 0
  quiet : ch.connectDebounced = false → c.line = ch.line ∧ c.linkRequests = []

/-- A restart's probe and pick touch the chain alone, and leave it as the restart of P1 has it. -/
theorem State.restarted_sent (s : State) : ∃ c : Chain,
    s.restarted.probeAfterRestart.transmit = { s.restarted with chain := c } ∧ s.chain.Restarted s.now c := by
  have blank : ∀ p, s.restarted.posAt p = Position.absent PosCounters.zero := fun p => by
    simp [State.posAt, State.restarted, Chain.softRestart]
  cases debounced : s.chain.connectDebounced with
  | false =>
    have low : s.restarted.probeAfterRestart = s.restarted := if_neg (by
      change ¬s.chain.connectDebounced = true
      rw [debounced]
      decide)
    refine ⟨s.restarted.chain, ?_, rfl, fun p _ => blank p, fun h => ?_, fun h => ?_, fun h => ?_, fun _ => ⟨rfl, rfl⟩⟩
    · rw [low, State.transmit_idle rfl rfl rfl rfl]
    all_goals exact absurd (debounced.symm.trans h) (by decide)
  | true =>
    have high : s.restarted.probeAfterRestart = s.restarted.beginProbe 0 := by
      refine (if_pos debounced).trans (if_pos ?_)
      rw [blank]
      rfl
    have begun : ∀ p, (s.restarted.beginProbe 0).posAt p =
        if p = 0 then { Position.absent PosCounters.zero with state := .probing } else Position.absent PosCounters.zero :=
      fun p => by
        rw [State.beginProbe_posAt, blank]
        rfl
    rw [high]
    by_cases free : s.chain.line = .free
    · have sent := State.transmit_link (s := s.restarted.beginProbe 0) (r := .enum 0) (rest := []) free rfl rfl rfl
      have pos : ∀ p, ((s.restarted.beginProbe 0).sendLink (.enum 0) []).posAt p =
          if p = 0 then { Position.absent PosCounters.zero with
            state := .probing, probeAttempts := 1, enumTimeout := some (s.now + 20) }
          else Position.absent PosCounters.zero := fun p => by
        rw [State.sendLink_enum_posAt, begun]
        split <;> rfl
      have first := (pos 0).trans (if_pos rfl)
      refine ⟨((s.restarted.beginProbe 0).sendLink (.enum 0) []).chain, sent, rfl, fun p hp => ?_, fun _ => ?_, fun _ _ => ?_,
        fun _ busy => absurd free busy, fun h => ?_⟩
      · exact (pos p).trans (if_neg (hp.resolve_right (by rw [debounced]; decide)))
      · exact ⟨congrArg Position.state first, congrArg Position.counters first⟩
      · exact ⟨rfl, congrArg Position.probeAttempts first, congrArg Position.enumTimeout first⟩
      · exact absurd (debounced.symm.trans h) (by decide)
    · have sent := State.transmit_busy (s.restarted.beginProbe 0) free
      have first := (begun 0).trans (if_pos rfl)
      refine ⟨(s.restarted.beginProbe 0).chain, sent, rfl, fun p hp => ?_, fun _ => ?_, fun _ h => absurd h free,
        fun _ _ => ⟨rfl, rfl, congrArg Position.probeAttempts first⟩, fun h => ?_⟩
      · exact (begun p).trans (if_neg (hp.resolve_right (by rw [debounced]; decide)))
      · exact ⟨congrArg Position.state first, congrArg Position.counters first⟩
      · exact absurd (debounced.symm.trans h) (by decide)

/-- What a soft restart leaves, its response handed last, over the state `s` the request was taken in. -/
theorem State.restarted_response (s : State) (d : List Byte) (response : TxFrame) {u : State} {c : Chain}
    (hu : u = { (s.buffering d).restarted with chain := c }) {t : State}
    (ht : t = u.recompose.updPort fun po => { po with transmit := po.transmit ++ [response] }) :
    t.image.telltale = t.compose ∧
    (let fr : TxFrame := ⟨.telltale, canId s.settings.telltaleId, t.image.telltale.bytes⟩
     if t.image.telltale = s.image.telltale then
       t.image.lastFrame = s.image.lastFrame ∧ t.image.framePending = s.image.framePending ∧
       t.port.transmit = s.port.transmit ++ [response]
     else if ∀ l ∈ s.image.lastFrame, l + 50 ≤ s.now then
       t.image.lastFrame = some s.now ∧ t.image.framePending = false ∧
       t.port.transmit = (if s.port.transmit.any (·.kind == .telltale) = true then
           s.port.transmit.map fun g => if g.kind = .telltale then fr else g
         else s.port.transmit ++ [fr]) ++ [response]
     else
       t.image.lastFrame = s.image.lastFrame ∧ t.image.framePending = true ∧
       t.port.transmit = s.port.transmit ++ [response]) := by
  have image : t.image = u.recompose.image := by rw [ht]; rfl
  have transmit : t.port.transmit = u.recompose.port.transmit ++ [response] := by rw [ht]; rfl
  have current : t.compose = u.compose := (ht ▸ State.ComposedFrom.reply u fun list => list ++ [response]).compose
  have last : u.image.lastFrame = s.image.lastFrame := by rw [hu]; rfl
  have list : u.port.transmit = s.port.transmit := by rw [hu]; rfl
  have held : u.image.telltale = s.image.telltale := by rw [hu]; rfl
  have now : u.now = s.now := by rw [hu]; rfl
  have settings : u.settings = s.settings := by rw [hu]; rfl
  have pending : u.image.framePending = s.image.framePending := by rw [hu]; rfl
  refine ⟨by rw [image, State.recompose_telltale, current], ?_⟩
  dsimp only
  rw [image, transmit, State.recompose_telltale]
  split
  · next same =>
    obtain ⟨h1, h2, h3⟩ := State.recompose_same (same.trans held.symm)
    exact ⟨h1.trans last, h2.trans pending, by rw [h3, list]⟩
  · next changed =>
    have changed : u.compose ≠ u.image.telltale := fun h => changed (h.trans held)
    split
    · next go =>
      obtain ⟨h1, h2, h3⟩ := State.recompose_hands changed (by rw [last, now]; exact go)
      exact ⟨h1.trans (by rw [now]), h2, by rw [h3, handTo_telltale rfl, list, settings]⟩
    · next hold =>
      obtain ⟨h1, h2, h3⟩ := State.recompose_pends changed (by rw [last, now]; exact hold)
      exact ⟨h1.trans last, h2, by rw [h3, list]⟩

/-- Settles O34: the blocks stand as the definition of the restart lays them, but for the chain's probe, and the composition
that ends it is one of its three outcomes. -/
theorem restartEffects : Obligations.RestartEffects := by
  unfold Obligations.RestartEffects
  intro s f ht
  refine ⟨fun running => congrArg _ (ht.busy gated_restart (fun _ h => by cases h) running), fun idle => ?_⟩
  obtain ⟨c, sent, chain⟩ := State.restarted_sent (s.buffering (0x05 :: f.data))
  generalize hu : { (s.buffering (0x05 :: f.data)).restarted with chain := c } = u at sent
  have handled : handleRestart (0x05 :: f.data) (s.buffering (0x05 :: f.data)) = (u.recompose, some (.only .ok)) := by
    rw [handleRestart, State.gate_open (s := s.buffering (0x05 :: f.data)) (by simp) idle, State.softRestart_eq, sent]
  have taken : exec (.restart f) s = .next (u.recompose.updPort fun po =>
      { po with transmit := po.transmit ++ [s.responseTo (0x05 :: f.data) [0, 0, 0, 0, 0, 0, 0]] }) :=
    congrArg Host.Outcome.next (ht.reply handled)
  obtain ⟨current, schedule⟩ := State.restarted_response s (0x05 :: f.data)
    (s.responseTo (0x05 :: f.data) [0, 0, 0, 0, 0, 0, 0]) hu.symm rfl
  obtain ⟨now, tables, chainAt, queue, circuits, cache, checks, store, pending, records, inputs, request⟩ :=
    State.ComposedFrom.reply u fun list => list ++ [s.responseTo (0x05 :: f.data) [0, 0, 0, 0, 0, 0, 0]]
  obtain ⟨retired, untracked, faults, overflow, sequence, opSeconds, secondDue, stale⟩ := records
  obtain ⟨commanded, lastCommand, commandId, requestId⟩ := inputs
  generalize (u.recompose.updPort fun _ => _) = t at *
  clear sent handled
  subst hu
  have positions : ∀ p, t.posAt p = c.positions[p] := fun p => congrArg (fun ch : Chain => ch.positions[p]) chainAt
  obtain ⟨frame, absent, probed, asked, waits, quiet⟩ := chain
  have kept := chainAt.trans frame
  have circuitAt : ∀ p c, t.circAt p c = Circuit.clear := fun p c =>
    (congrArg (fun v : Vector (Vector Circuit 12) 6 => v[p][c]) circuits).trans (replicate_replicate_get _ p c)
  refine ⟨t, taken, fun p hp => (positions p).trans (absent p hp), fun high => ?_, fun low => ?_,
    congrArg Chain.transmitted kept, fun g => ?_, congrArg Chain.livenessPoll kept, by rw [kept]; rfl,
    by rw [kept]; rfl, congrArg Chain.counters kept, congrArg (fun ch : Chain => ch.snapshot.chain) kept,
    fun p => ?_, queue, circuitAt, fun p => ?_, congrArg Checks.lastServed checks, congrArg Checks.budgetStart checks,
    retired, untracked, faults, overflow, sequence, stale, opSeconds, secondDue, by rw [tables]; rfl,
    (congrArg MapTables.mode tables).trans (modeOver_eq _), fun p c => ?_, fun i => ?_, commanded, lastCommand,
    request, commandId, requestId, current, schedule, now, cache, store, pending⟩
  · rw [positions 0, chainAt]
    exact ⟨(probed high).1, (probed high).2, asked high, waits high⟩
  · rw [chainAt]
    exact quiet low
  · exact (congrArg (fun ch : Chain => ch.changeTimes[g]) kept).trans (replicate_get _ g)
  · exact (congrArg (fun ch : Chain => ch.snapshot.positions[p]) kept).trans (replicate_get _ p)
  · exact (congrArg (fun k : Checks => k.times[p]) checks).trans (replicate_get _ p)
  · exact (congrArg (fun m : MapTables => m.rowTouched[p][c]) tables).trans (replicate_replicate_get _ p c)
  · exact (congrArg (fun m : MapTables => m.profileTouched[i]) tables).trans (replicate_get _ i)

end Sys2Proof.Machine
end

