-- ==== Sys2Proof/Proofs/EnterRun.lean ====
section
/-! SUPPORT and PROOF. The RESYNC of RUN entry, waiting or sent at once, and ENTER RUN's checks and steps (O33). -/

namespace Sys2Proof.Machine

/-! ### What a SET carries -/

theorem State.fitted_congr {s u : State} (positions : u.chain.positions = s.chain.positions)
    (tables : u.tables.tables = s.tables.tables) (p : Pos) (c : Circ) : u.fitted p c = s.fitted p c := by
  simp only [State.fitted, State.rowAt, State.posAt, positions, tables]

theorem State.activeSet_congr {s u : State} (positions : u.chain.positions = s.chain.positions) : u.activeSet = s.activeSet := by
  have active : u.isActive = s.isActive := by funext p; simp only [State.isActive, State.posAt, positions]
  rw [State.activeSet, active, State.activeSet]

/-- The masks of a SET depend on the records and the tables alone (R43). -/
theorem State.masks_congr {s u : State} (positions : u.chain.positions = s.chain.positions)
    (tables : u.tables.tables = s.tables.tables) (i : Image) : u.masks i = s.masks i := by
  have rows : u.rowAt = s.rowAt := by funext p c; simp only [State.rowAt, tables]
  have mask : u.maskOf i = s.maskOf i := by
    funext p
    unfold State.maskOf
    simp only [State.fitted_congr positions tables, rows]
  rw [State.masks, mask, State.masks]

/-- The measurement delay depends on the records and the tables alone (R44). -/
theorem State.delayOver_congr {s u : State} (positions : u.chain.positions = s.chain.positions)
    (tables : u.tables.tables = s.tables.tables) (fs : FnSet) : u.delayOver fs = s.delayOver fs := by
  have rows : u.rowAt = s.rowAt := by funext p c; simp only [State.rowAt, tables]
  have profiles : u.profileAt = s.profileAt := by funext p c; simp only [State.profileAt, rows, tables]
  have active : u.isActive = s.isActive := by funext p; simp only [State.isActive, State.posAt, positions]
  unfold State.delayOver
  simp only [State.fitted_congr positions tables, rows, profiles, active]

/-- The change times once an image is sent: those of the functions that change are now (R41). -/
theorem State.imageSent_changeTimes (s : State) (i : Image) (f : Fn) : (s.imageSent i).chain.changeTimes[f] =
    if on i f = on s.chain.transmitted f then s.chain.changeTimes[f] else some s.now := by
  have differ : on (differing i s.chain.transmitted) f = (on i f != on s.chain.transmitted f) := by
    simp only [on, differing, BitVec.getLsbD_xor]
  refine (mapIdx_get _ _ _).trans ?_
  rw [differ]
  by_cases h : on i f = on s.chain.transmitted f <;> simp [h]

/-! ### A retirement of a lone entry (R69 to R72) -/

theorem State.retire_unfinished {s : State} {e : Entry} (only : s.queue.entries = [e]) (live : e.state.final = false) :
    s.retire = s := by
  rw [State.retire, only, State.retireFrom, if_neg (by rw [live]; decide)]

/-- A lone SET entry that is COMPLETE with no answers retires: its image is the retired one, the untracked flags clear. -/
theorem State.retire_unanswered {s : State} {e : Entry} {i : Image} {x : Transmission} (only : s.queue.entries = [e])
    (done : e.state.final = true) (answers : e.answers = []) (image : e.image = some i) (sent : e.tx = some x)
    (first : x.overtaken = false) (generation : x.generation = s.queue.generation) (slot : s.queue.slot = none) :
    s.retire = { s with
      queue := { s.queue with entries := [] }
      image := { s.image with retired := i, untracked := 0 } } := by
  have handed : s.handAnswers e = s := by
    simp [State.handAnswers, sent, answers]
  have retired : s.setRetired e = s.updImage fun ib => { ib with retired := i } := by
    simp [State.setRetired, image, Entry.overtaken, sent, first]
  rw [State.retire, only, State.retireFrom, if_pos done, State.retireFrom, State.retireOne, handed, retired]
  simp [State.clearUntracked, sent, first, generation, slot, State.updImage, State.updQueue]

/-! ### The RESYNC's SET -/

/-- The RESYNC entry a request of the state allocates (R59). -/
def State.resyncEntry (s : State) : Entry :=
  ⟨s.queue.tagCounter, .resync, .waiting, some s.port.commanded, 0, none, none, 0, 0, []⟩

/-- A lone RESYNC's SET (R41): the entry records it, or retires at once when no position is ACTIVE (R64, R69). -/
theorem State.sendSet_resync {s : State} {e : Entry} {i : Image} {tag : Nat}
    (he : e = ⟨tag, .resync, .waiting, some i, 0, none, none, 0, 0, []⟩) (only : s.queue.entries = [e])
    (slot : s.queue.slot = none) : s.sendSet e = { s with
      chain := { s.chain with
        transmitted := i, changeTimes := (s.imageSent i).chain.changeTimes
        line := .sending (.set tag (s.delayOver i) (s.masks i)) }
      queue := { s.queue with
        entries := if s.activeSet = 0 then []
          else [s.sentNow e [] i (s.delayOver i) (s.imageSent i).chain.changeTimes s.activeSet] }
      image := { s.image with
        retired := if s.activeSet = 0 then i else s.image.retired
        untracked := if s.activeSet = 0 then 0 else s.image.untracked } } := by
  generalize hsent : s.sentNow e [] i (s.delayOver i) (s.imageSent i).chain.changeTimes s.activeSet = sent
  have begun : (((s.imageSent i).beginTelegram (.set tag (s.delayOver i) (s.masks i))).transmitEntry e i (s.delayOver i)
      s.activeSet) = { s with
        chain := { s.chain with
          transmitted := i, changeTimes := (s.imageSent i).chain.changeTimes
          line := .sending (.set tag (s.delayOver i) (s.masks i)) }
        queue := { s.queue with entries := [sent] } } := by
    subst hsent he
    simp only [State.transmitEntry, State.updEntry, State.updQueue, State.beginTelegram, State.imageSent, State.updChain, only,
      List.map_cons, List.map_nil, beq_self_eq_true, if_true]
    rfl
  have delay : (s.imageSent i).delayOver i = s.delayOver i := State.delayOver_congr rfl rfl i
  have masks : (s.imageSent i).masks i = s.masks i := State.masks_congr rfl rfl i
  have active : (s.imageSent i).activeSet = s.activeSet := State.activeSet_congr rfl
  have unfolded : s.sendSet e = (((s.imageSent i).beginTelegram (.set tag (s.delayOver i) (s.masks i))).transmitEntry e i
      (s.delayOver i) s.activeSet).retire := by
    subst he
    rw [← delay, ← masks, ← active]
    rfl
  rw [unfolded, begun]
  by_cases zero : s.activeSet = 0
  · have retired := State.retire_unanswered (s := { s with
      chain := { s.chain with
          transmitted := i, changeTimes := (s.imageSent i).chain.changeTimes
          line := .sending (.set tag (s.delayOver i) (s.masks i)) }
      queue := { s.queue with entries := [sent] } }) (e := sent) (i := i) rfl
      (by rw [← hsent]; simp [State.sentNow, zero, EntryState.final]) (by rw [← hsent, he]; rfl) (by rw [← hsent]; rfl)
      (by rw [← hsent]; rfl) (by rw [he]; rfl) rfl slot
    rw [retired]
    simp only [zero, if_true]
  · have live : sent.state.final = false := by
      rw [← hsent, State.sentNow]
      dsimp only
      rw [if_neg zero]
      rfl
    rw [State.retire_unfinished rfl live]
    simp only [zero, if_false]

/-- The untracked slot's SET (R41, R62). -/
theorem State.sendSlot_eq (s : State) (i : Image) : s.sendSlot i = { s with
    chain := { s.chain with
      transmitted := i, changeTimes := (s.imageSent i).chain.changeTimes
      line := .sending (.set 255 (s.delayOver (i ^^^ s.chain.transmitted)) (s.masks i)) }
    queue := { s.queue with slot := none, generation := (s.queue.generation + 1) % 65536 } } := by
  have masks : (s.imageSent i).masks i = s.masks i := State.masks_congr rfl rfl i
  rw [← masks]
  rfl

/-! ### RUN entry (R17, R131, R167) -/

theorem gated_enterRun : Gated handleEnterRun none := ⟨_, fun _ _ => rfl⟩

/-- The state of RUN entry before its RESYNC: the mode, the circuits cleared, the standing circuit faults healed, no mark. -/
def State.entered (s : State) : State :=
  { s with
    tables := ⟨s.tables.tables, .run, Vector.replicate 6 (Vector.replicate 12 false), Vector.replicate 8 false⟩
    chain := { s.chain with livenessPoll := false }
    circuits := mapIdx s.circuits fun p cs => mapIdx cs fun c k => k.atRunEntry (s.touched p c)
    image := { s.image with faults := s.image.faults.map fun e =>
      if (e.key.circ.isSome && s.stands e.key) = true then { e with active := false } else e } }

theorem State.requestResync_tracks {s : State} (track : (s.tables.mode == .run && s.queue.canTrack) = true) :
    s.requestResync = s.updQueue fun q => q.allocate .resync (some s.port.commanded) 0 none := if_pos track

theorem State.requestResync_diverts {s : State} (full : ¬(s.tables.mode == .run && s.queue.canTrack) = true) :
    s.requestResync = s.divert s.port.commanded := if_neg full

/-- Dropping a pending liveness POLL (R17) and asking for a RESYNC go in either order. -/
theorem State.requestResync_forgets (s : State) : s.requestResync.updChain (fun ch => { ch with livenessPoll := false }) =
    (s.updChain fun ch => { ch with livenessPoll := false }).requestResync := by
  by_cases track : (s.tables.mode == .run && s.queue.canTrack) = true
  · rw [State.requestResync_tracks track, State.requestResync_tracks (s := s.updChain _) track]
    rfl
  · rw [State.requestResync_diverts track, State.requestResync_diverts (s := s.updChain _) track]
    rfl

theorem State.runEntry_eq (s : State) : s.runEntry = s.entered.requestResync.transmit.recompose := by
  unfold State.runEntry
  dsimp only
  rw [State.healAll_eq, State.requestResync_forgets]
  rfl

/-- The faults as RUN entry leaves them: every circuit fault inactive, the position-level ones as they were (R131). -/
theorem State.entered_faults {s : State} (stand : s.FaultsStand) :
    s.entered.image.faults = s.image.faults.map fun e => if e.key.circ = none then e else { e with active := false } := by
  refine List.map_congr_left fun e he => ?_
  cases circ : e.key.circ with
  | none => simp
  | some c =>
    by_cases stands : s.stands e.key = true
    · simp [stands]
    · have inactive : e.active = false := Bool.eq_false_iff.2 fun active => stands ((stand e he).2 active)
      simp only [Option.isSome_some, Bool.true_and, stands, if_false, reduceCtorEq, Bool.false_eq_true]
      rw [← inactive]

theorem State.entered_circAt (s : State) (p : Pos) (c : Circ) : s.entered.circAt p c = { s.circAt p c with
    candidate := none, agreement := 0, condition := .unknown
    baseline := if s.tables.rowTouched[p][c] = true ∨ s.tables.profileTouched[(s.rowAt p c).profile] = true then .none
      else (s.circAt p c).baseline } := by
  have entry : s.entered.circAt p c = (s.circAt p c).atRunEntry (s.touched p c) := State.mapCircuits_circAt s p c _
  rw [entry, Circuit.atRunEntry, Circuit.clearCandidate, State.touched]
  simp only [Bool.or_eq_true]

/-- What RUN entry leaves before the composition, over the state `s` it was entered from: all but the queue, the Chain Master's
part of a SET, the retired image and the untracked flags is as the entry set it. -/
structure State.Entered (s u : State) : Prop where
  frame : u = { s.entered with
    chain := { s.entered.chain with
      transmitted := u.chain.transmitted, changeTimes := u.chain.changeTimes, line := u.chain.line
      counters := u.chain.counters }
    queue := u.queue
    image := { s.entered.image with retired := u.image.retired, untracked := u.image.untracked } }

/-- The diversion of the RESYNC: one untracked change more (R58, R59). -/
def Chain.diverted (ch : Chain) : ChainCounters :=
  { ch.counters with untrackedChanges := min 65535 (ch.counters.untrackedChanges + 1) }

/-- RUN entry with its RESYNC an entry, the first of the queue SETUP left empty (R59). -/
def State.enteredTracked (s : State) : State :=
  { s.entered with queue := { s.queue with entries := [s.resyncEntry], tagCounter := (s.queue.tagCounter + 1) % 255 } }

/-- RUN entry with its RESYNC diverted (R58, R59). -/
def State.enteredDiverted (s : State) : State :=
  { s.entered with
    chain := { s.entered.chain with counters := s.chain.diverted }
    queue := { s.queue with slot := some s.port.commanded }
    image := { s.entered.image with untracked := s.image.untracked ||| s.port.commanded } }

theorem State.entered_tracks {s : State} (empty : s.queue.entries = []) (slot : s.queue.slot = none) :
    s.entered.requestResync = s.enteredTracked := by
  have room : (s.entered.tables.mode == .run && s.entered.queue.canTrack) = true := by
    simp [State.entered, Queue.canTrack, Queue.hasRoom, empty, slot, Config.queueCapacity]
  rw [State.requestResync_tracks room, State.updQueue, Queue.allocate]
  have none : s.entered.queue.entries = [] := empty
  rw [none]
  rfl

theorem State.entered_diverts {s : State} (slot : s.queue.slot ≠ none) : s.entered.requestResync = s.enteredDiverted := by
  have taken : s.queue.slot.isNone = false :=
    Bool.eq_false_iff.2 fun h => slot (Option.isNone_iff_eq_none.1 h)
  have full : ¬(s.entered.tables.mode == .run && s.entered.queue.canTrack) = true := by
    simp [State.entered, Queue.canTrack, taken]
  exact State.requestResync_diverts full

/-- What RUN entry leaves of the queue, the Chain Master, the retired image and the untracked flags before the composition, with
the queue empty as SETUP leaves it (R39, R41, R59, R62). -/
structure State.ResyncGoes (s u : State) : Prop where
  waits : s.chain.line ≠ .free → u.image.retired = s.image.retired ∧
    (s.queue.slot = none → u.queue = { s.queue with
        entries := [s.resyncEntry], tagCounter := (s.queue.tagCounter + 1) % 255 } ∧
      u.image.untracked = s.image.untracked ∧ u.chain = { s.chain with livenessPoll := false }) ∧
    (s.queue.slot ≠ none → u.queue = { s.queue with slot := some s.port.commanded } ∧
      u.image.untracked = s.image.untracked ||| s.port.commanded ∧
      u.chain = { s.chain with livenessPoll := false, counters := s.chain.diverted })
  times : s.chain.line = .free → u.chain.changeTimes = (s.imageSent s.port.commanded).chain.changeTimes
  tracked : s.chain.line = .free → s.queue.slot = none →
    u.chain = { s.chain with
      livenessPoll := false, transmitted := s.port.commanded, changeTimes := u.chain.changeTimes
      line := .sending (.set s.queue.tagCounter (s.delayOver s.port.commanded) (s.masks s.port.commanded)) } ∧
    u.queue = { s.queue with
      entries := if s.activeSet = 0 then []
        else [s.sentNow s.resyncEntry [] s.port.commanded (s.delayOver s.port.commanded) u.chain.changeTimes s.activeSet]
      tagCounter := (s.queue.tagCounter + 1) % 255 } ∧
    u.image.retired = (if s.activeSet = 0 then s.port.commanded else s.image.retired) ∧
    u.image.untracked = (if s.activeSet = 0 then 0 else s.image.untracked)
  slot : s.chain.line = .free → s.queue.slot ≠ none →
    u.chain = { s.chain with
      livenessPoll := false, transmitted := s.port.commanded, changeTimes := u.chain.changeTimes, counters := s.chain.diverted
      line := .sending
        (.set 255 (s.delayOver (s.port.commanded ^^^ s.chain.transmitted)) (s.masks s.port.commanded)) } ∧
    u.queue = { s.queue with slot := none, generation := (s.queue.generation + 1) % 65536 } ∧
    u.image.retired = s.image.retired ∧ u.image.untracked = s.image.untracked ||| s.port.commanded

theorem State.enteredTracked_sends {s : State} (line : s.chain.line = .free) (slot : s.queue.slot = none) :
    s.enteredTracked.transmit = { s.enteredTracked with
      chain := { s.enteredTracked.chain with
        transmitted := s.port.commanded, changeTimes := (s.imageSent s.port.commanded).chain.changeTimes
        line := .sending (.set s.queue.tagCounter (s.delayOver s.port.commanded) (s.masks s.port.commanded)) }
      queue := { s.enteredTracked.queue with
        entries := if s.activeSet = 0 then []
          else [s.sentNow s.resyncEntry [] s.port.commanded (s.delayOver s.port.commanded)
            (s.imageSent s.port.commanded).chain.changeTimes s.activeSet] }
      image := { s.enteredTracked.image with
        retired := if s.activeSet = 0 then s.port.commanded else s.image.retired
        untracked := if s.activeSet = 0 then 0 else s.image.untracked } } := by
  have line : s.enteredTracked.chain.line = .free := line
  have free : (s.enteredTracked.chain.line != .free) = false := by rw [line]; rfl
  have sends : s.enteredTracked.transmit = s.enteredTracked.sendSet s.resyncEntry := by
    unfold State.transmit
    rw [free]
    rfl
  have delay : ∀ fs, s.enteredTracked.delayOver fs = s.delayOver fs := State.delayOver_congr rfl rfl
  have masks : ∀ i, s.enteredTracked.masks i = s.masks i := State.masks_congr rfl rfl
  have active : s.enteredTracked.activeSet = s.activeSet := State.activeSet_congr rfl
  rw [sends, State.sendSet_resync (s := s.enteredTracked) (e := s.resyncEntry) rfl rfl slot, delay, masks, active]
  rfl

theorem State.enteredDiverted_sends {s : State} (empty : s.queue.entries = []) (line : s.chain.line = .free) :
    s.enteredDiverted.transmit = { s.enteredDiverted with
      chain := { s.enteredDiverted.chain with
        transmitted := s.port.commanded, changeTimes := (s.imageSent s.port.commanded).chain.changeTimes
        line := .sending
          (.set 255 (s.delayOver (s.port.commanded ^^^ s.chain.transmitted)) (s.masks s.port.commanded)) }
      queue := { s.enteredDiverted.queue with slot := none, generation := (s.queue.generation + 1) % 65536 } } := by
  have line : s.enteredDiverted.chain.line = .free := line
  have free : (s.enteredDiverted.chain.line != .free) = false := by rw [line]; rfl
  have none : s.enteredDiverted.queue.entries = [] := empty
  have sends : s.enteredDiverted.transmit = s.enteredDiverted.sendSlot s.port.commanded := by
    unfold State.transmit
    rw [free, none]
    rfl
  have delay : ∀ fs, s.enteredDiverted.delayOver fs = s.delayOver fs := State.delayOver_congr rfl rfl
  have masks : ∀ i, s.enteredDiverted.masks i = s.masks i := State.masks_congr rfl rfl
  rw [sends, State.sendSlot_eq, delay, masks]
  rfl

/-- The RESYNC of RUN entry, waiting or sent, is all that the entry does after its steps. -/
theorem State.entered_sent {s u : State} (empty : s.queue.entries = []) (hu : s.entered.requestResync.transmit = u) :
    s.Entered u ∧ s.ResyncGoes u := by
  by_cases slot : s.queue.slot = none
  · rw [State.entered_tracks empty slot] at hu
    by_cases line : s.chain.line = .free
    · rw [State.enteredTracked_sends line slot] at hu
      subst hu
      exact ⟨⟨rfl⟩, fun h => absurd line h, fun _ => rfl, fun _ _ => ⟨rfl, rfl, rfl, rfl⟩, fun _ h => absurd slot h⟩
    · rw [State.transmit_busy s.enteredTracked line] at hu
      subst hu
      exact ⟨⟨rfl⟩, fun _ => ⟨rfl, fun _ => ⟨rfl, rfl, rfl⟩, fun h => absurd slot h⟩, fun h => absurd h line,
        fun h => absurd h line, fun h => absurd h line⟩
  · rw [State.entered_diverts slot] at hu
    by_cases line : s.chain.line = .free
    · rw [State.enteredDiverted_sends empty line] at hu
      subst hu
      exact ⟨⟨rfl⟩, fun h => absurd line h, fun _ => rfl, fun _ h => absurd h slot, fun _ _ => ⟨rfl, rfl, rfl, rfl⟩⟩
    · rw [State.transmit_busy s.enteredDiverted line] at hu
      subst hu
      exact ⟨⟨rfl⟩, fun _ => ⟨rfl, fun h => absurd h slot, fun _ => ⟨rfl, rfl, rfl⟩⟩, fun h => absurd h line,
        fun h => absurd h line, fun h => absurd h line⟩

/-! ### ENTER RUN (R16, R167) -/

/-- The check a profile fails first, one of three (R16). -/
theorem Profile.failedCheck_eq_some {p : Profile} {k : Nat}
    (h : (k = 1 ∧ p.partialLimit ≤ p.openLimit) ∨
      (k = 2 ∧ p.openLimit < p.partialLimit ∧ p.shortCurrent ≤ p.nominalCurrent) ∨
      (k = 3 ∧ p.openLimit < p.partialLimit ∧ p.nominalCurrent < p.shortCurrent ∧ p.nominalCurrent ≤ p.leakCurrent)) :
    p.failedCheck = some k := by
  unfold Profile.failedCheck
  rcases h with ⟨rfl, h1⟩ | ⟨rfl, h1, h2⟩ | ⟨rfl, h1, h2, h3⟩
  · rw [if_pos h1]
  · rw [if_neg (by omega), if_pos h2]
  · rw [if_neg (by omega), if_neg (by omega), if_pos h3]

/-- The first profile that fails R16: those before it pass. -/
theorem firstInconsistent_eq_some {ps : Vector Profile 8} {i : ProfileNo} {k : Nat}
    (before : ∀ j : ProfileNo, j < i → (ps[j]).Consistent) (fails : (ps[i]).failedCheck = some k) :
    firstInconsistent ps = some (i.val, k) := by
  have split : ∀ i : ProfileNo, ([0, 1, 2, 3, 4, 5, 6, 7] : List ProfileNo) =
      ([0, 1, 2, 3, 4, 5, 6, 7] : List ProfileNo).take i.val ++
        i :: ([0, 1, 2, 3, 4, 5, 6, 7] : List ProfileNo).drop (i.val + 1) := by
    decide
  have lower : ∀ i : ProfileNo, ∀ j ∈ ([0, 1, 2, 3, 4, 5, 6, 7] : List ProfileNo).take i.val, j < i := by decide
  refine List.findSome?_eq_some_iff.2 ⟨_, i, _, split i, by rw [fails]; rfl, fun j hj => ?_⟩
  rw [Option.map_eq_none_iff, Profile.failedCheck_eq_none]
  exact before j (lower i j hj)

section Request
variable {s : State} {f : BusFrame} (ht : s.Takes f (0x03 :: f.data)) (idle : s.store.commit = none)
include ht idle

theorem State.Takes.enterRun_again (run : s.tables.mode = .run) :
    exec (.enterRun f) s = .next (s.answered (0x03 :: f.data) [0, 0, 0, 0, 0, 0, 0]) := by
  refine congrArg _ (ht.answer (h := handleEnterRun) (r := ⟨.ok, []⟩) ?_)
  rw [handleEnterRun, State.gate_open (s := s.buffering (0x03 :: f.data)) (by simp) idle]
  have run : (s.buffering (0x03 :: f.data)).tables.mode = .run := run
  rw [run]
  rfl

theorem State.Takes.enterRun_inconsistent (setup : s.tables.mode = .setup) {i k : Nat}
    (fails : firstInconsistent s.tables.tables.profiles = some (i, k)) : exec (.enterRun f) s =
      .next (s.answered (0x03 :: f.data) [6, BitVec.ofNat 8 i, BitVec.ofNat 8 k, 0, 0, 0, 0]) := by
  refine congrArg _ (ht.answer (h := handleEnterRun) (r := ⟨.inconsistent, [BitVec.ofNat 8 i, BitVec.ofNat 8 k]⟩) ?_)
  rw [handleEnterRun, State.gate_open (s := s.buffering (0x03 :: f.data)) (by simp) idle]
  have setup : (s.buffering (0x03 :: f.data)).tables.mode = .setup := setup
  have fails : firstInconsistent (s.buffering (0x03 :: f.data)).tables.tables.profiles = some (i, k) := fails
  rw [setup, fails]
  rfl

/-- ENTER RUN past R16: the entry of R17 with its RESYNC, the composition, and the answer last. -/
theorem State.Takes.enterRun (setup : s.tables.mode = .setup) (passes : firstInconsistent s.tables.tables.profiles = none) :
    exec (.enterRun f) s = .next (((s.buffering (0x03 :: f.data)).entered.requestResync.transmit).recompose.updPort fun po =>
      { po with transmit := po.transmit ++ [s.responseTo (0x03 :: f.data) [0, 0, 0, 0, 0, 0, 0]] }) := by
  refine congrArg Host.Outcome.next (ht.reply (h := handleEnterRun) (r := .only .ok) ?_)
  rw [handleEnterRun, State.gate_open (s := s.buffering (0x03 :: f.data)) (by simp) idle]
  have setup : (s.buffering (0x03 :: f.data)).tables.mode = .setup := setup
  have passes : firstInconsistent (s.buffering (0x03 :: f.data)).tables.tables.profiles = none := passes
  rw [setup, passes, ← State.runEntry_eq]

end Request

/-- The telegram fields a SET takes are those over the state the request was taken in. -/
theorem State.buffering_set (s : State) (d : List Byte) : (∀ fs, (s.buffering d).delayOver fs = s.delayOver fs) ∧
    (∀ i, (s.buffering d).masks i = s.masks i) ∧ (s.buffering d).activeSet = s.activeSet :=
  ⟨State.delayOver_congr rfl rfl, State.masks_congr rfl rfl, State.activeSet_congr rfl⟩

/-- Settles O33: the gate, the mode and R16 are judged in this order; past them the entry's steps stand in the state before the
RESYNC, which changes the queue and the chain's SET alone. -/
theorem enterRunEffects : Obligations.EnterRunEffects := by
  unfold Obligations.EnterRunEffects
  intro s f ht
  refine ⟨fun running => congrArg _ (ht.busy gated_enterRun (by simp) running), fun idle run => ht.enterRun_again idle run,
    fun idle setup i k before fails => ht.enterRun_inconsistent idle setup
      (firstInconsistent_eq_some before (Profile.failedCheck_eq_some fails)), fun idle setup passes empty stand => ?_⟩
  have taken := ht.enterRun idle setup ((firstInconsistent_eq_none _).2 passes)
  generalize hu : (s.buffering (0x03 :: f.data)).entered.requestResync.transmit = u at taken
  obtain ⟨⟨frame⟩, waits, times, tracked, diverts⟩ := State.entered_sent (s := s.buffering (0x03 :: f.data)) empty hu
  obtain ⟨delay, masks, active⟩ := s.buffering_set (0x03 :: f.data)
  obtain ⟨now, tables, chain, queue, circuits, cache, checks, store, pending, records, inputs, request⟩ :=
    State.ComposedFrom.reply u fun list => list ++ [s.responseTo (0x03 :: f.data) [0, 0, 0, 0, 0, 0, 0]]
  obtain ⟨retired, untracked, faults, overflow, sequence, opSeconds, secondDue, stale⟩ := records
  have last : (u.recompose.updPort fun po =>
      { po with transmit := po.transmit ++ [s.responseTo (0x03 :: f.data) [0, 0, 0, 0, 0, 0, 0]] }).port.transmit.getLast? =
      some (s.responseTo (0x03 :: f.data) [0, 0, 0, 0, 0, 0, 0]) := List.getLast?_concat
  generalize (u.recompose.updPort fun _ => _) = t at *
  have uTables : u.tables = s.entered.tables := by rw [frame]; rfl
  have uCircuits : u.circuits = s.entered.circuits := by rw [frame]; rfl
  have uFaults : u.image.faults = s.entered.image.faults := by rw [frame]; rfl
  have uImage : u.image.overflow = s.image.overflow ∧ u.image.sequence = s.image.sequence := by
    rw [frame]
    exact ⟨rfl, rfl⟩
  have uChain : u.chain.positions = s.chain.positions ∧ u.chain.livenessPoll = false := by
    rw [frame]
    exact ⟨rfl, rfl⟩
  have uRest : u.now = s.now ∧ u.cache = s.cache ∧ u.checks = s.checks ∧ u.store = s.store ∧ u.pending = s.pending := by
    rw [frame]
    exact ⟨rfl, rfl, rfl, rfl, rfl⟩
  have uPort : u.port = (s.buffering (0x03 :: f.data)).port := by rw [frame]; rfl
  have uInputs : s.port.SameInputs t.port ∧ t.port.request = some (0x03 :: f.data) := by
    rw [request, uPort]
    rw [uPort] at inputs
    exact ⟨inputs, rfl⟩
  clear frame hu
  simp only [delay, masks, active] at tracked diverts
  obtain ⟨uNow, uCache, uChecks, uStore, uPending⟩ := uRest
  have tablesAt := tables.trans uTables
  refine ⟨t, taken, by rw [tablesAt]; rfl, by rw [tablesAt]; rfl, fun p c => ?_, fun i => ?_, fun p c => ?_, ?_,
    overflow.trans uImage.1, sequence.trans uImage.2, fun p => ?_, by rw [chain]; exact uChain.2, now.trans uNow,
    cache.trans uCache, checks.trans uChecks, store.trans uStore, pending.trans uPending, uInputs.1, uInputs.2, last,
    fun line => ?_, fun line => ⟨fun g => ?_, fun slot => ?_, fun slot => ?_⟩⟩
  · rw [tablesAt]
    exact replicate_replicate_get _ p c
  · rw [tablesAt]
    exact replicate_get _ i
  · rw [← State.entered_circAt]
    exact congrArg (fun v : Vector (Vector Circuit 12) 6 => v[p][c]) (circuits.trans uCircuits)
  · exact faults.trans (uFaults.trans (State.entered_faults stand))
  · exact congrArg (fun v : Vector Position 6 => v[p]) ((congrArg Chain.positions chain).trans uChain.1)
  · rw [retired, untracked, chain, queue]
    exact waits line
  · rw [chain, times line]
    exact State.imageSent_changeTimes (s.buffering (0x03 :: f.data)) _ g
  · rw [retired, untracked, chain, queue]
    exact tracked line slot
  · rw [retired, untracked, chain, queue]
    exact diverts line slot

end Sys2Proof.Machine
end

