-- ==== Sys2Proof/Proofs/ResetAndTime.lean ====
section
/-! PROOF. The step on an empty queue (O2) and the invariants at reset (O3). -/

namespace Sys2Proof.Machine

/-- Settles O2: the first due command is run as `step` is defined, and a millisecond is a tick. -/
theorem emptyQueueLetsTimePass : Obligations.EmptyQueueLetsTimePass := by
  unfold Obligations.EmptyQueueLetsTimePass
  intro s idle
  refine ⟨fun c rest due => by simp [step, idle, due], fun none => ?_⟩
  have begins : s.arrivals.headD false = true ↔ s.arrivals.head? = some true := by
    cases s.arrivals with
    | nil => simp
    | cons b rest => simp
  have ticks : step s = .next s.tick := by simp [step, idle, none]
  rw [ticks, State.tick, Line.hear_eq]
  simp only [begins]

/-! ### The reset state -/

theorem State.reset_empty : State.reset.Empty := fun p => by simp [State.posAt, State.reset]

/-- The image of the reset state is the composition over an empty chain (R143). -/
theorem State.reset_compose : State.reset.compose = Telltale.initial := by
  have functions : Vector.ofFn State.reset.fnState = Vector.replicate 10 .unverified := by
    refine Vector.ext fun i hi => ?_
    rw [Vector.getElem_ofFn, Vector.getElem_replicate, State.reset_empty.fnState rfl]
    rfl
  have positions : (Vector.ofFn fun p => (State.reset.posAt p).state) = Vector.replicate 6 .absent := by
    refine Vector.ext fun i hi => ?_
    rw [Vector.getElem_ofFn, Vector.getElem_replicate, State.reset_empty]
    rfl
  have degraded : (Vector.ofFn fun p => (State.reset.posAt p).linkDegraded) = Vector.replicate 6 false := by
    refine Vector.ext fun i hi => ?_
    rw [Vector.getElem_ofFn, Vector.getElem_replicate, State.reset_empty]
    rfl
  rw [State.compose, functions, positions, degraded, State.reset_empty.summary]
  rfl

theorem State.reset_countersInRange : State.reset.CountersInRange := by
  refine ⟨fun p => ?_, by decide, fun p => ?_, by decide⟩
  · rw [State.reset_empty]
    decide
  · rw [show State.reset.chain.snapshot.positions[p] = PosCounters.zero from replicate_get _ p]
    decide

theorem State.reset_checksBounded : State.reset.ChecksBounded := fun p => by
  rw [show State.reset.checks.times[p] = [] from replicate_get _ p]
  exact ⟨Nat.zero_le _, Nat.zero_le _⟩

/-- Settles O3: an empty chain and queue are sound, the default tables are, and the image is the one composed. -/
theorem soundAtReset : Obligations.SoundAtReset := by
  unfold Obligations.SoundAtReset
  have blank : State.reset.Coherent := .of_blank rfl rfl rfl (by decide) rfl rfl
  exact ⟨(State.chainSound_iff _).2 blank, State.reset_countersInRange, by decide, blank.parts.tags, fun _ => rfl,
    ⟨Tables.default_sound, Tables.default_sound, nofun⟩, by decide, by decide,
    ⟨State.reset_compose.symm, rfl⟩, State.reset_checksBounded, by decide⟩

end Sys2Proof.Machine
end

