-- ==== Sys2Proof/Proofs/CounterReads.lean ====
section
/-! PROOF. READ FAULT and READ SNAPSHOT (O27), and SNAPSHOT COUNTERS (O36). -/

namespace Sys2Proof.Machine

/-! ### READ FAULT -/

theorem State.Takes.readFault {s : State} {f : BusFrame} (ht : s.Takes f (0x22 :: f.data)) {e : FaultEntry}
    (he : s.image.faults[byteAt f.data 0]? = some e) {fields : List Byte}
    (hf : faultPart e (byteAt f.data 1) = some fields) :
    exec (.readFault f) s = .next (s.answered (0x22 :: f.data) ((0 :: fields ++ List.replicate 6 0).take 7)) := by
  refine congrArg _ (ht.answer (h := handleReadFault) (r := ⟨.ok, fields⟩) ?_)
  have held : (s.buffering (0x22 :: f.data)).image.faults[byteAt f.data 0]? = some e := he
  simp only [handleReadFault, byteAt_cons, held, hf]
  rfl

theorem State.Takes.readFault_badIndex {s : State} {f : BusFrame} (ht : s.Takes f (0x22 :: f.data))
    (h : ∀ e, s.image.faults[byteAt f.data 0]? = some e → faultPart e (byteAt f.data 1) = none) :
    exec (.readFault f) s = .next (s.answered (0x22 :: f.data) [3, 0, 0, 0, 0, 0, 0]) := by
  refine congrArg _ (ht.answer (h := handleReadFault) (r := ⟨.badIndex, []⟩) ?_)
  unfold handleReadFault
  simp only [byteAt_cons]
  split
  · next e he => rw [h e he]; rfl
  · rfl

/-- The fault byte of part 1: the kind, with bit 7 for a healed entry (R176). -/
theorem faultPart_one (e : FaultEntry) : faultPart e 1 = some (leBytes 2 e.sequence ++ [BitVec.ofNat 8 (e.key.pos.val + 1),
    (match e.key.circ with | none => 0 | some c => BitVec.ofNat 8 (c.val + 1)),
    BitVec.ofNat 8 ((match e.key.kind with
        | .openCircuit => 1 | .partialDraw => 2 | .overload => 3 | .short => 4 | .stuckOn => 5 | .feedLoss => 6
        | .linkDegraded => 7 | .identityClash => 8) + (if e.active = true then 0 else 128)),
    BitVec.ofNat 8 e.count]) := by
  have mark : flagBit (!e.active) 7 = if e.active = true then 0 else 128 := by cases e.active <;> rfl
  rw [faultPart, mark]
  cases e.key.circ <;> rfl

theorem faultPart_none (e : FaultEntry) {n : Nat} (h : n = 0 ∨ 2 < n) : faultPart e n = none := by
  unfold faultPart
  split
  · omega
  · omega
  · rfl

/-! ### READ SNAPSHOT -/

theorem State.Takes.readSnapshot {s : State} {f : BusFrame} (ht : s.Takes f (0x25 :: f.data)) {a b c : Nat}
    (h : snapshotGroup s.chain.snapshot (byteAt f.data 0) = some (a, b, c)) :
    exec (.readSnapshot f) s =
      .next (s.answered (0x25 :: f.data) ([(0 : Byte)] ++ leBytes 2 a ++ leBytes 2 b ++ leBytes 2 c)) := by
  refine congrArg _ (ht.answer (h := handleReadSnapshot) (r := ⟨.ok, leBytes 2 a ++ leBytes 2 b ++ leBytes 2 c⟩) ?_)
  have held : snapshotGroup (s.buffering (0x25 :: f.data)).chain.snapshot (byteAt f.data 0) = some (a, b, c) := h
  simp only [handleReadSnapshot, byteAt_cons, held]
  rfl

theorem State.Takes.readSnapshot_badIndex {s : State} {f : BusFrame} (ht : s.Takes f (0x25 :: f.data))
    (h : byteAt f.data 0 = 0 ∨ 8 < byteAt f.data 0) :
    exec (.readSnapshot f) s = .next (s.answered (0x25 :: f.data) [3, 0, 0, 0, 0, 0, 0]) := by
  refine congrArg _ (ht.answer (h := handleReadSnapshot) (r := ⟨.badIndex, []⟩) ?_)
  have none : ∀ sn, snapshotGroup sn (byteAt f.data 0) = none := fun sn => by
    rw [snapshotGroup, indexOf_none (by omega)]
    simp only [show byteAt f.data 0 ≠ 7 by omega, show byteAt f.data 0 ≠ 8 by omega, if_false]
  simp only [handleReadSnapshot, byteAt_cons, none]
  rfl

/-- Settles O27: the entry or group the index names is answered as its part lays it out, any other is BAD_INDEX. -/
theorem faultAndSnapshotRead : Obligations.FaultAndSnapshotRead := by
  unfold Obligations.FaultAndSnapshotRead
  refine ⟨fun s f ht => ⟨fun h => ?_, fun h => ht.readFault_badIndex fun e he => ?_⟩, fun s f ht => ?_⟩
  · have held := List.getElem?_eq_getElem h
    refine ⟨fun part => ?_, fun part => ?_, fun part => ht.readFault_badIndex fun e _ => faultPart_none e part⟩
    · rw [ht.readFault held ((congrArg _ part).trans (faultPart_one _))]
      rfl
    · rw [ht.readFault held (fields := leBytes 2 _ ++ leBytes 4 _) (congrArg _ part)]
      rfl
  · rw [List.getElem?_eq_none h] at he
    cases he
  · refine ⟨fun p hp => ht.readSnapshot ?_, fun h => ht.readSnapshot ?_, fun h => ht.readSnapshot ?_,
      ht.readSnapshot_badIndex⟩
    · rw [hp, snapshotGroup, indexOf_val]
    · rw [h]
      rfl
    · rw [h]
      rfl

/-! ### SNAPSHOT COUNTERS -/

/-- `u` is `s` with the counters of the places that meet `test` copied into the snapshot and zeroed (R52). -/
structure State.SnappedFrom (test : Pos → Prop) (s u : State) : Prop where
  frame : u = { s with chain := { s.chain with positions := u.chain.positions, snapshot := u.chain.snapshot } }
  group : u.chain.snapshot.chain = s.chain.snapshot.chain
  taken : ∀ p, test p → u.chain.snapshot.positions[p] = (s.posAt p).counters ∧
    u.posAt p = { s.posAt p with counters := PosCounters.zero }
  kept : ∀ p, ¬test p → u.chain.snapshot.positions[p] = s.chain.snapshot.positions[p] ∧ u.posAt p = s.posAt p

theorem State.SnappedFrom.snapPos (s : State) (p : Pos) : State.SnappedFrom (· = p) s (s.snapPos p) where
  frame := rfl
  group := rfl
  taken q hq := by
    subst hq
    exact ⟨upd_get_same _ _ _, State.updPos_posAt_same _ _ _⟩
  kept q hq := ⟨upd_get_ne _ _ _ _ hq, State.updPos_posAt_ne _ _ _ _ hq⟩

theorem State.SnappedFrom.foldl (l : List Pos) (nodup : l.Nodup) (s : State) :
    State.SnappedFrom (· ∈ l) s (l.foldl State.snapPos s) := by
  induction l generalizing s with
  | nil => exact ⟨rfl, rfl, nofun, fun _ _ => ⟨rfl, rfl⟩⟩
  | cons p l ih =>
    have fresh := (List.nodup_cons.1 nodup).1
    have head := State.SnappedFrom.snapPos s p
    have tail := ih (List.nodup_cons.1 nodup).2 (s.snapPos p)
    rw [List.foldl_cons]
    refine ⟨tail.frame, tail.group.trans head.group, fun q hq => ?_, fun q hq => ?_⟩
    · rcases List.mem_cons.1 hq with rfl | hq
      · rw [(tail.kept q fresh).1, (tail.kept q fresh).2]
        exact head.taken q rfl
      · have other : q ≠ p := fun e => fresh (e ▸ hq)
        rw [(tail.taken q hq).1, (tail.taken q hq).2, (head.kept q other).2]
        exact ⟨rfl, rfl⟩
    · obtain ⟨other, outside⟩ := not_or.1 (fun h => hq (List.mem_cons.2 h))
      rw [(tail.kept q outside).1, (tail.kept q outside).2]
      exact head.kept q other

/-- What SNAPSHOT COUNTERS leaves in the Chain Master, for a selector that names every counter or one position's. -/
theorem handleSnapshotCounters_chain (d : List Byte) (s : State) (h : byteAt d 1 ≤ 6) : ∃ u : State,
    handleSnapshotCounters d s = (u, some (.only .ok)) ∧
    u = { s with chain := { s.chain with
      positions := u.chain.positions, counters := u.chain.counters, snapshot := u.chain.snapshot } } ∧
    (∀ p : Pos,
      if byteAt d 1 = 0 ∨ byteAt d 1 = p.val + 1 then
        u.chain.snapshot.positions[p] = (s.posAt p).counters ∧ u.posAt p = { s.posAt p with counters := PosCounters.zero }
      else u.chain.snapshot.positions[p] = s.chain.snapshot.positions[p] ∧ u.posAt p = s.posAt p) ∧
    (if byteAt d 1 = 0 then u.chain.snapshot.chain = s.chain.counters ∧ u.chain.counters = ChainCounters.zero
      else u.chain.snapshot.chain = s.chain.snapshot.chain ∧ u.chain.counters = s.chain.counters) := by
  by_cases all : byteAt d 1 = 0
  · have snapped := State.SnappedFrom.foldl allPos (by decide) s
    refine ⟨(allPos.foldl State.snapPos s).snapChain, by rw [handleSnapshotCounters, if_pos all], ?_, fun p => ?_, ?_⟩
    · rw [State.snapChain, snapped.frame]
      rfl
    · rw [if_pos (.inl all)]
      exact snapped.taken p (mem_allPos p)
    · rw [if_pos all]
      have counters := congrArg (fun u : State => u.chain.counters) snapped.frame
      exact ⟨counters, rfl⟩
  · obtain ⟨p, hp⟩ : ∃ p : Pos, byteAt d 1 = p.val + 1 := ⟨⟨byteAt d 1 - 1, by omega⟩, by simp only; omega⟩
    have snapped := State.SnappedFrom.snapPos s p
    refine ⟨s.snapPos p, by rw [handleSnapshotCounters, if_neg all, hp, indexOf_val], rfl, fun q => ?_, ?_⟩
    · rw [hp]
      split
      · next h => exact snapped.taken q (Fin.ext (by omega))
      · next h => exact snapped.kept q fun e => h (.inr (e ▸ rfl))
    · rw [if_neg all]
      exact ⟨rfl, rfl⟩

/-- Settles O36: the copies are made place by place, over the state with the request in the buffer. -/
theorem snapshotCopiesCounters : Obligations.SnapshotCopiesCounters := by
  unfold Obligations.SnapshotCopiesCounters
  refine fun s f ht => ⟨fun h => ?_, fun h => ?_⟩
  · refine congrArg _ (ht.answer (h := handleSnapshotCounters) (r := ⟨.badIndex, []⟩) ?_)
    rw [handleSnapshotCounters, byteAt_cons, if_neg (by omega), indexOf_none (.inr h)]
    rfl
  · obtain ⟨u, hu, frame, places, group⟩ :=
      handleSnapshotCounters_chain (0x24 :: f.data) (s.buffering (0x24 :: f.data)) (by rwa [byteAt_cons])
    rw [byteAt_cons] at group
    refine ⟨{ s with chain := u.chain }, ?_, fun p => ?_, group, ?_⟩
    · refine (congrArg Host.Outcome.next (ht.reply (h := handleSnapshotCounters) hu)).trans ?_
      rw [frame]
      rfl
    · have place := places p
      rw [byteAt_cons] at place
      exact place
    · exact congrArg (fun c : Chain => { s with chain := c }) (congrArg State.chain frame)

end Sys2Proof.Machine
end

