-- ==== Sys2Proof/Proofs/SetContents.lean ====
section
/-! PROOF. The masks, the measurement delay and the deadlines of the telegrams (O59). -/

namespace Sys2Proof.Machine

/-! ### Fitted rows -/

theorem countReaches_iff (count : Option Nat) (c : Circ) :
    countReaches count c = true ↔ ∃ n ∈ count, c.val + 1 ≤ n := by
  cases count <;> simp [countReaches]

theorem MapRow.onIn_iff (r : MapRow) (i : BitVec 10) : r.onIn i = true ↔ ∃ f ∈ r.function, on i f = true := by
  unfold MapRow.onIn
  split <;> simp [*]

/-- The row maps a function of the set and is fitted (R3). -/
theorem State.fitted_onIn (s : State) (i : BitVec 10) (p : Pos) (c : Circ) :
    (s.fitted p c && (s.rowAt p c).onIn i) = true ↔
      (∃ f ∈ (s.rowAt p c).function, on i f = true) ∧ ∃ n ∈ (s.posAt p).circuitCount, c.val + 1 ≤ n := by
  rw [Bool.and_eq_true, State.fitted, Bool.and_eq_true, countReaches_iff, MapRow.onIn_iff]
  constructor
  · rintro ⟨⟨_, fits⟩, lit⟩
    exact ⟨lit, fits⟩
  · rintro ⟨⟨f, row, lit⟩, fits⟩
    exact ⟨⟨by rw [row]; rfl, fits⟩, f, row, lit⟩

/-! ### The masks (R43) -/

theorem getLsbD_bit (c k : Circ) : (1#12 <<< c.val).getLsbD k.val = decide (k = c) := by
  revert c k
  decide

theorem getLsbD_foldl_mask (test : Circ → Bool) (l : List Circ) (m : BitVec 12) (k : Circ) :
    (l.foldl (fun m c => if test c then m ||| (1#12 <<< c.val) else m) m).getLsbD k.val =
      (m.getLsbD k.val || (l.contains k && test k)) := by
  induction l generalizing m with
  | nil => simp
  | cons c l ih =>
    rw [List.foldl_cons, ih, List.contains_cons]
    split
    · next h =>
      rw [BitVec.getLsbD_or, getLsbD_bit]
      by_cases same : k = c
      · simp [same, h]
      · simp [same, beq_false_of_ne same]
    · next h =>
      by_cases same : k = c
      · simp [same, h]
      · simp [beq_false_of_ne same]

theorem State.masks_getLsbD (s : State) (i : Image) (p : Pos) (c : Circ) :
    ((s.masks i)[p]).getLsbD c.val = (s.fitted p c && (s.rowAt p c).onIn i) := by
  have mask : (s.masks i)[p] = s.maskOf i p := by simp [State.masks]
  rw [mask, State.maskOf, getLsbD_foldl_mask fun c => s.fitted p c && (s.rowAt p c).onIn i]
  simp [mem_allCirc]

/-! ### The measurement delay (R44) -/

/-- `r` is the largest of `d` and the numbers that meet `test`. -/
structure Largest (test : Nat → Prop) (d r : Nat) : Prop where
  start : d ≤ r
  above : ∀ n, test n → n ≤ r
  reached : r = d ∨ test r

/-- A fold whose steps each take the largest over a class takes the largest over all the classes. -/
theorem Largest.foldl {α : Type} {f : Nat → α → Nat} {test : α → Nat → Prop} (step : ∀ d x, Largest (test x) d (f d x))
    (l : List α) (d : Nat) : Largest (fun n => ∃ x ∈ l, test x n) d (l.foldl f d) := by
  induction l generalizing d with
  | nil => exact ⟨Nat.le_refl d, nofun, .inl rfl⟩
  | cons x l ih =>
    have head := step d x
    have tail := ih (f d x)
    refine ⟨head.start.trans tail.start, ?_, ?_⟩
    · rintro n ⟨y, hy, hn⟩
      rcases List.mem_cons.1 hy with rfl | hy
      · exact (head.above n hn).trans tail.start
      · exact tail.above n ⟨y, hy, hn⟩
    · rcases tail.reached with same | ⟨y, hy, hn⟩
      · rw [List.foldl_cons, same]
        exact head.reached.imp_right fun hn => ⟨x, List.mem_cons_self, hn⟩
      · exact .inr ⟨y, List.mem_cons_of_mem x hy, hn⟩

/-- The circuit counts for the delay over a set: it is fitted, at an ACTIVE position, its function in the set (R44). -/
def State.Delays (s : State) (fs : FnSet) (p : Pos) (c : Circ) : Prop :=
  s.isActive p = true ∧ (s.fitted p c && (s.rowAt p c).onIn fs) = true

theorem State.delays_iff (s : State) (fs : FnSet) (p : Pos) (c : Circ) : s.Delays fs p c ↔ (s.posAt p).state = .active ∧
    (∃ n ∈ (s.posAt p).circuitCount, c.val + 1 ≤ n) ∧ ∃ f ∈ (s.rowAt p c).function, on fs f = true := by
  rw [State.Delays, State.fitted_onIn, State.isActive, beq_iff_eq]
  exact and_congr_right fun _ => and_comm

/-- The delay is the largest settle interval of the circuits that count. -/
theorem State.delayOver_largest (s : State) (fs : FnSet) :
    Largest (fun n => ∃ p c, s.Delays fs p c ∧ (s.profileAt p c).settle = n) 0 (s.delayOver fs) := by
  have circuits (p : Pos) (active : s.isActive p = true) (d : Nat) := Largest.foldl
    (f := fun d c => if s.fitted p c && (s.rowAt p c).onIn fs then max d (s.profileAt p c).settle else d)
    (test := fun c n => s.Delays fs p c ∧ (s.profileAt p c).settle = n) (fun d c => by
      split
      · next counts =>
        refine ⟨le_max_left _ _, fun n hn => hn.2 ▸ le_max_right _ _, ?_⟩
        rcases max_choice d (s.profileAt p c).settle with h | h
        · exact .inl h
        · exact .inr ⟨⟨active, counts⟩, h.symm⟩
      · next out => exact ⟨Nat.le_refl d, fun n hn => absurd hn.1.2 out, .inl rfl⟩) allCirc d
  have all := Largest.foldl (f := fun d p => if s.isActive p then
      allCirc.foldl (fun d c => if s.fitted p c && (s.rowAt p c).onIn fs then max d (s.profileAt p c).settle else d) d
    else d) (test := fun p n => ∃ c ∈ allCirc, s.Delays fs p c ∧ (s.profileAt p c).settle = n) (fun d p => by
      split
      · next active => exact circuits p active d
      · next out => exact ⟨Nat.le_refl d, fun n ⟨_, _, hn, _⟩ => absurd hn.1 out, .inl rfl⟩) allPos 0
  refine ⟨all.start, fun n ⟨p, c, hn⟩ => all.above n ⟨p, mem_allPos p, c, mem_allCirc c, hn⟩, all.reached.imp_right ?_⟩
  rintro ⟨p, _, c, _, hn⟩
  exact ⟨p, c, hn⟩

/-- Settles O59: the mask's bits are the fold's tests, the delay the largest of the fold's settle intervals. -/
theorem setCarries : Obligations.SetCarries := by
  unfold Obligations.SetCarries
  refine ⟨fun s i p c => by rw [State.masks_getLsbD, State.fitted_onIn], fun s fs => ⟨fun p c hc => ?_, ?_⟩,
    fun e i => ⟨fun hk => by simp [Entry.delaySet, hk], fun hk => by simp [Entry.delaySet, hk]⟩,
    fun now e delay required => ⟨fun ht => ?_, fun t ht => ?_⟩⟩
  · exact (s.delayOver_largest fs).above _ ⟨p, c, (s.delays_iff fs p c).2 hc, rfl⟩
  · by_cases some : ∃ p c, s.Delays fs p c
    · obtain ⟨p, c, hc⟩ := some
      have largest := s.delayOver_largest fs
      rcases largest.reached with zero | ⟨q, k, hk, settle⟩
      · have below := largest.above _ ⟨p, c, hc, rfl⟩
        exact .inl ⟨p, c, (s.delays_iff fs p c).1 hc, by omega⟩
      · exact .inl ⟨q, k, (s.delays_iff fs q k).1 hk, settle⟩
    · refine .inr ⟨fun p c hc => some ⟨p, c, (s.delays_iff fs p c).2 hc⟩, ?_⟩
      exact (s.delayOver_largest fs).reached.resolve_right fun ⟨p, c, hc, _⟩ => some ⟨p, c, hc⟩
  · rw [deadlineFrom, ht, sizePos, List.countP_eq_length_filter]
    simp only [Nat.add_assoc]
    rfl
  · rw [deadlineFrom, ht]
    simp only [Nat.add_assoc]
    rfl

end Sys2Proof.Machine
end

