-- ==== Sys2Proof/Proofs/Counters.lean ====
section
/-! PROOF. Every operation keeps the counters, the interval counts and the snapshot in their range (O5). -/

namespace Sys2Proof.Machine

/-! ### Counts -/

theorem bump_le (n k : Nat) : bump n k ≤ Config.counterMax := Nat.min_le_left _ _

/-- The counts of a position record lie in their range (R23, R51). -/
def Position.Counted (r : Position) : Prop := r.counters.InRange ∧ r.linkErrors ≤ Config.counterMax

theorem PosCounters.zero_inRange : PosCounters.zero.InRange := by decide

theorem ChainCounters.zero_inRange : ChainCounters.zero.InRange := by decide

theorem Position.absent_counted {k : PosCounters} (h : k.InRange) : (Position.absent k).Counted := ⟨h, Nat.zero_le _⟩

/-- Every counter, the interval counts and the snapshot lie in their range, as a structure. -/
structure State.Counted (s : State) : Prop where
  places : ∀ p, (s.posAt p).Counted
  chain : s.chain.counters.InRange
  copies : ∀ p : Pos, (s.chain.snapshot.positions[p]).InRange
  group : s.chain.snapshot.chain.InRange

theorem State.counted_iff (s : State) : s.CountersInRange ↔ s.Counted :=
  ⟨fun ⟨places, chain, copies, group⟩ => ⟨places, chain, copies, group⟩,
    fun ⟨places, chain, copies, group⟩ => ⟨places, chain, copies, group⟩⟩

/-- States with the same counts are in range together. -/
theorem State.Counted.of_same {s u : State} (h : s.Counted)
    (pos : ∀ p, (u.posAt p).counters = (s.posAt p).counters ∧ (u.posAt p).linkErrors = (s.posAt p).linkErrors)
    (counters : u.chain.counters = s.chain.counters) (snapshot : u.chain.snapshot = s.chain.snapshot) :
    u.Counted := by
  obtain ⟨places, chain, copies, group⟩ := h
  refine ⟨fun p => ?_, by rw [counters]; exact chain, fun p => by rw [snapshot]; exact copies p, by rw [snapshot]; exact group⟩
  rw [Position.Counted, (pos p).1, (pos p).2]
  exact places p

theorem State.Counted.updPos {s : State} (h : s.Counted) (p : Pos) {f : Position → Position}
    (hf : (s.posAt p).Counted → (f (s.posAt p)).Counted) : (s.updPos p f).Counted := by
  obtain ⟨places, chain, copies, group⟩ := h
  refine ⟨fun q => ?_, chain, copies, group⟩
  by_cases hq : q = p
  · subst hq
    rw [State.updPos_posAt_same]
    exact hf (places q)
  · rw [State.updPos_posAt_ne _ _ _ _ hq]
    exact places q

theorem State.Counted.updCounters {s : State} (h : s.Counted) {f : ChainCounters → ChainCounters}
    (hf : s.chain.counters.InRange → (f s.chain.counters).InRange) : (s.updCounters f).Counted := by
  obtain ⟨places, chain, copies, group⟩ := h
  exact ⟨places, hf chain, copies, group⟩

/-- An update of the Chain Master that leaves the records, the counters and the snapshot. -/
theorem State.Counted.updChain {s : State} (h : s.Counted) {f : Chain → Chain}
    (hf : ∀ ch, (f ch).positions = ch.positions ∧ (f ch).counters = ch.counters ∧ (f ch).snapshot = ch.snapshot) :
    (s.updChain f).Counted := by
  obtain ⟨positions, counters, snapshot⟩ := hf s.chain
  exact h.of_same (fun p => by rw [State.updChain_posAt s f positions]; exact ⟨rfl, rfl⟩) counters snapshot

theorem State.Counted.of_chain {s u : State} (h : s.Counted) (chain : u.chain = s.chain) :
    u.Counted :=
  h.of_same (fun p => by simp only [State.posAt, chain, and_self]) (by rw [chain]) (by rw [chain])

/-! The other blocks hold no count. -/

theorem State.Counted.updQueue {s : State} (h : s.Counted) (f : Queue → Queue) : (s.updQueue f).Counted := h.of_chain rfl

theorem State.Counted.updImage {s : State} (h : s.Counted) (f : ImageBuilder → ImageBuilder) : (s.updImage f).Counted := h.of_chain rfl

theorem State.Counted.updPort {s : State} (h : s.Counted) (f : Port → Port) : (s.updPort f).Counted := h.of_chain rfl

theorem State.Counted.updTables {s : State} (h : s.Counted) (f : MapTables → MapTables) : (s.updTables f).Counted := h.of_chain rfl

theorem State.Counted.updChecks {s : State} (h : s.Counted) (f : Checks → Checks) : (s.updChecks f).Counted := h.of_chain rfl

theorem State.Counted.updStore {s : State} (h : s.Counted) (f : Store → Store) : (s.updStore f).Counted := h.of_chain rfl

theorem State.Counted.updCircs {s : State} (h : s.Counted) (p : Pos) (f : Circ → Circuit → Circuit) :
    (s.updCircs p f).Counted := h.of_chain rfl

theorem State.Counted.mapCircuits {s : State} (h : s.Counted) (f : Pos → Circ → Circuit → Circuit) :
    (s.mapCircuits f).Counted := h.of_chain rfl

theorem State.Counted.foldl {β : Type} (f : State → β → State)
    (hf : ∀ s b, s.Counted → (f s b).Counted) (l : List β) {s : State} (h : s.Counted) :
    (l.foldl f s).Counted := by
  induction l generalizing s with
  | nil => exact h
  | cons b l ih => exact ih (hf s b h)

/-- Judging, retirements and the transmitter's pick change no count. -/
theorem State.Counted.sent {s u : State} (h : s.Counted) (a : s.SentFrom u) : u.Counted :=
  h.of_same (fun p => by rw [a.pos p]; exact ⟨rfl, rfl⟩) (by rw [a.chain]) (by rw [a.chain])

theorem State.Counted.transmit {s : State} (h : s.Counted) : s.transmit.Counted :=
  h.sent (.transmit s)

theorem State.Counted.retire {s : State} (h : s.Counted) : s.retire.Counted := h.sent (.retire s)

theorem State.Counted.recompose {s : State} (h : s.Counted) : s.recompose.Counted :=
  h.of_same (fun p => by rw [State.recompose_posAt]; exact ⟨rfl, rfl⟩) (by rw [State.recompose_chain])
    (by rw [State.recompose_chain])

/-! ### Probing, leaving, absence -/

theorem State.Counted.ask {s : State} (h : s.Counted) (r : LinkRequest) : (s.ask r).Counted :=
  h.updChain fun _ => ⟨rfl, rfl, rfl⟩

theorem State.Counted.dropRequests {s : State} (h : s.Counted) (p : Pos) : (s.dropRequests p).Counted :=
  h.updChain fun _ => ⟨rfl, rfl, rfl⟩

theorem State.Counted.beginProbe {s : State} (h : s.Counted) (p : Pos) : (s.beginProbe p).Counted :=
  (h.updPos p id).updChain fun _ => ⟨rfl, rfl, rfl⟩

theorem State.Counted.probeNext {s : State} (h : s.Counted) (p : Pos) : (s.probeNext p).Counted := by
  unfold State.probeNext
  split
  · exact ite_cases _ (h.beginProbe _) h
  · exact h

theorem State.Counted.probeFirst {s : State} (h : s.Counted) : s.probeFirst.Counted :=
  ite_cases _ (h.beginProbe 0) h

theorem State.Counted.leaveActive {s : State} (h : s.Counted) (p : Pos) :
    (s.leaveActive p).Counted :=
  State.Counted.retire ((h.updCircs p _).updQueue _)

theorem State.Counted.makeAbsent {s : State} (h : s.Counted) (p : Pos) : (s.makeAbsent p).Counted := by
  have absent : (s.updPos p fun r => Position.absent r.counters).Counted :=
    h.updPos p fun hr => Position.absent_counted hr.1
  exact absent.dropRequests p

theorem State.Counted.writeBack {s : State} (h : s.Counted) (p : Pos) : (s.writeBack p).Counted := by
  obtain ⟨cache, hc⟩ := s.writeBack_frame p
  exact h.of_chain (by rw [hc])

theorem State.Counted.takeOff {s : State} (h : s.Counted) (p : Pos) : (s.takeOff p).Counted := by
  have removed : (((s.writeBack p).clearCircuits p).removeFaults p).Counted :=
    ((h.writeBack p).updCircs p _).updImage _
  exact removed.updPos p id

theorem State.Counted.reviewClashes {s : State} (h : s.Counted) (i : Option Identity) :
    (s.reviewClashes i).Counted := by
  cases i with
  | none => exact h
  | some i =>
    unfold State.reviewClashes
    refine .foldl _ (fun s p h => ?_) allPos h
    unfold State.reviewClash
    split
    · exact (h.updPos p (f := fun r => { r with identityClash := false }) id).updImage _
    · exact h

theorem State.Counted.goAbsent {s : State} (h : s.Counted) (p : Pos) : (s.goAbsent p).Counted := by
  unfold State.goAbsent
  split
  · exact h
  · exact h.makeAbsent p
  · exact h.makeAbsent p
  · exact (((h.leaveActive p).takeOff p).makeAbsent p).reviewClashes _
  · exact ((h.takeOff p).makeAbsent p).reviewClashes _

theorem State.Counted.cascade {s : State} (h : s.Counted) (p : Pos) : (s.cascade p).Counted :=
  .foldl State.goAbsent (fun _ q h => h.goAbsent q) _ h

theorem State.Counted.lossExpiry {s : State} (h : s.Counted) (p : Pos) : (s.lossExpiry p).Counted :=
  ite_cases _ ((h.leaveActive p).updPos p id) h

theorem State.Counted.absenceExpiry {s : State} (h : s.Counted) (p : Pos) :
    (s.absenceExpiry p).Counted := by
  refine ite_cases _ ?_ h
  unfold State.cascadeFrom
  split
  · exact (h.cascade p).probeNext _
  · exact h.cascade p

theorem State.Counted.enumExpiry {s : State} (h : s.Counted) (p : Pos) : (s.enumExpiry p).Counted :=
  ite_cases _ (ite_cases _ ((h.updPos p id).updChain fun _ => ⟨rfl, rfl, rfl⟩) (h.updPos p id)) h

theorem State.Counted.queryExpiry {s : State} (h : s.Counted) (p : Pos) : (s.queryExpiry p).Counted :=
  ite_cases _ (h.updPos p id) h

/-! ### Link errors and missed answers (R49, R50) -/

theorem State.Counted.raiseLinkDegraded {s : State} (h : s.Counted) (p : Pos) :
    (s.raiseLinkDegraded p).Counted :=
  ite_cases _ h ((h.updPos p (f := fun r => { r with linkDegraded := true }) id).updImage _)

theorem State.Counted.addLinkErrors {s : State} (h : s.Counted) (p : Pos) (n : Nat) :
    (s.addLinkErrors p n).Counted := by
  have counted := h.updPos p (f := fun r => { r with linkErrors := bump r.linkErrors n }) fun hr => ⟨hr.1, bump_le _ _⟩
  exact ite_cases _ (counted.raiseLinkDegraded p) counted

theorem State.Counted.addFarEnd {s : State} (h : s.Counted) (p : Pos) (n : Nat) :
    (s.addFarEnd p n).Counted :=
  (h.updPos p fun ⟨⟨_, missed, superseded⟩, errors⟩ => ⟨⟨bump_le _ _, missed, superseded⟩, errors⟩).addLinkErrors p n

theorem State.Counted.addMissed {s : State} (h : s.Counted) (p : Pos) : (s.addMissed p).Counted :=
  (h.updPos p fun ⟨⟨total, _, superseded⟩, errors⟩ => ⟨⟨total, bump_le _ _, superseded⟩, errors⟩).addLinkErrors p 1

theorem State.Counted.endLinkInterval {s : State} (h : s.Counted) (p : Pos) :
    (s.endLinkInterval p).Counted := by
  unfold State.endLinkInterval
  refine State.Counted.updPos ?_ p fun hr => ⟨hr.1, Nat.zero_le _⟩
  split
  · exact (h.updPos p (f := fun r => { r with linkDegraded := false }) id).updImage _
  · exact h

theorem State.Counted.linkIntervalExpiry {s : State} (h : s.Counted) : s.linkIntervalExpiry.Counted := by
  unfold State.linkIntervalExpiry
  split
  · exact State.Counted.updChain (.foldl _ (fun _ p h => h.endLinkInterval p) allPos h) fun _ => ⟨rfl, rfl, rfl⟩
  · exact h

theorem State.Counted.expire {s : State} (h : s.Counted) (e : Entry) : (s.expire e).Counted := by
  unfold State.expire
  exact State.Counted.retire (.foldl _ (fun s p h => ite_cases _ (h.addMissed p) h) allPos (h.updQueue _))

/-! ### Allocation -/

theorem State.Counted.divert {s : State} (h : s.Counted) (changed : FnSet) :
    (s.divert changed).Counted :=
  ((h.updQueue _).updImage _).updCounters fun ⟨bad, stale, _, rest⟩ => ⟨bad, stale, bump_le _ _, rest⟩

theorem State.Counted.requestChange {s : State} (h : s.Counted) (old : Image) :
    (s.requestChange old).Counted := ite_cases _ (h.updQueue _) (h.divert _)

theorem State.Counted.requestResync {s : State} (h : s.Counted) : s.requestResync.Counted :=
  ite_cases _ (h.updQueue _) (h.divert _)

theorem State.Counted.requestPoll {s : State} (h : s.Counted) : s.requestPoll.Counted :=
  ite_cases _ (h.updQueue _) (h.updCounters fun ⟨bad, stale, untracked, _, rest⟩ => ⟨bad, stale, untracked, bump_le _ _, rest⟩)

theorem State.Counted.pollExpiry {s : State} (h : s.Counted) : s.pollExpiry.Counted := by
  refine ite_cases _ ?_ h
  dsimp only
  have next : (s.updQueue fun q => { q with lastPoll := q.lastPoll + s.settings.pollPeriod }).Counted :=
    h.updQueue _
  split
  · exact State.Counted.transmit (next.requestPoll.transmit.of_chain (State.runChecks_chain _ _))
  · refine State.Counted.transmit ?_
    exact next.updChain fun _ => ⟨rfl, rfl, rfl⟩

/-! ### Upstream telegrams (R46, R47, R27) -/

theorem State.Counted.countStale {s : State} (h : s.Counted) : s.countStale.Counted :=
  h.updCounters fun ⟨bad, _, rest⟩ => ⟨bad, bump_le _ _, rest⟩

theorem State.Counted.countBad {s : State} (h : s.Counted) : s.countBad.Counted :=
  h.updCounters fun ⟨_, rest⟩ => ⟨bump_le _ _, rest⟩

theorem State.Counted.heard {s : State} (h : s.Counted) (p : Pos) (load : Bool) :
    (s.heard p load).Counted := by
  have heard := (h.updPos p (f := fun r => { r with lastHeard := some s.now }) id).updPos p
    (f := fun r => { r with downstreamLoad := load }) id
  unfold State.heard State.setLoad
  refine ite_cases _ (heard.probeNext p) ?_
  split
  · exact ite_cases _ (heard.cascade _) heard
  · exact heard

theorem State.Counted.askQuery {s : State} (h : s.Counted) (p : Pos) : (s.askQuery p).Counted :=
  ite_cases _ (h.updChain fun _ => ⟨rfl, rfl, rfl⟩) h

theorem State.Counted.takeReport {s : State} (h : s.Counted) (r : ReportFields) :
    (s.takeReport r).Counted := by
  have superseded (u : State) (hu : u.Counted) : (u.when r.superseded fun s => s.updPos r.pos fun k =>
      { k with counters := { k.counters with superseded := bump k.counters.superseded 1 } }).Counted :=
    ite_cases _ (hu.updPos r.pos fun ⟨⟨total, missed, _⟩, errors⟩ => ⟨⟨total, missed, bump_le _ _⟩, errors⟩) hu
  have heard : (s.reportHeard r).Counted :=
    (superseded _ ((h.heard r.pos r.load).addFarEnd r.pos r.farEnd)).askQuery r.pos
  refine ite_cases _ ?_ h.countStale
  unfold State.matchReport
  split
  · exact ite_cases _ (State.Counted.retire (heard.updQueue _)) heard.countStale
  · exact heard.countStale

theorem State.Counted.identified {s : State} (h : s.Counted) (i : IdentFields) :
    (s.identified i).Counted := by
  unfold State.identified
  dsimp only
  refine State.Counted.dropRequests (State.Counted.updPos ?_ i.pos id) i.pos
  have filled := h.updPos i.pos (f := identifyRecord s.now i (s.heldElsewhere i.pos i.identity)) id
  refine ite_cases _ filled ?_
  unfold State.lookup
  split
  · exact filled.of_chain rfl
  · exact filled

theorem State.Counted.acceptIdent {s : State} (h : s.Counted) (i : IdentFields) :
    (s.acceptIdent i).Counted := by
  rw [State.acceptIdent_eq]
  have probed := (((h.identified i).addFarEnd i.pos i.farEnd).requestResync).probeNext i.pos
  exact ite_cases _ (probed.updImage _) probed

theorem State.Counted.recount {s : State} (h : s.Counted) (p : Pos) (new : Nat) :
    (s.recount p new).Counted := by
  rw [State.recount_eq]
  refine State.Counted.updPos (.foldl _ (fun s c h => ?_) allCirc h) p id
  unfold State.unfit
  split
  · exact h.of_chain (by rw [State.healCondition_chain]; rfl)
  · exact h

theorem State.Counted.takeIdent {s : State} (h : s.Counted) (i : IdentFields) :
    (s.takeIdent i).Counted := by
  have farEnd := (h.heard i.pos i.load).addFarEnd i.pos i.farEnd
  have returned := ((farEnd.recount i.pos i.count).updPos i.pos
    (f := fun r => { r with state := .active, lostSince := none, queryUntil := none }) id).requestResync.probeNext i.pos
  have departed := ((h.heard i.pos i.load).takeOff i.pos).updPos i.pos
    (f := fun r => { r with linkErrors := 0, identity := none }) fun hr => ⟨hr.1, Nat.zero_le _⟩
  unfold State.takeIdent
  split
  · exact h.acceptIdent i
  · exact farEnd
  · exact ite_cases _ (ite_cases _ returned ((departed.reviewClashes _).acceptIdent i)) (farEnd.askQuery _)
  · exact h
  · exact h

theorem State.Counted.reportEnds {s : State} (h : s.Counted) (t : UpTelegram) :
    (s.reportEnds t).Counted := by
  unfold State.reportEnds
  split
  · exact h.takeReport _
  · exact h.countBad

theorem State.Counted.identEnds {s : State} (h : s.Counted) (t : UpTelegram) :
    (s.identEnds t).Counted := by
  unfold State.identEnds
  split
  · exact h.takeIdent _
  · exact h.countBad

theorem State.Counted.telegramEnds {s : State} (h : s.Counted) (bytes : List Byte) :
    (s.telegramEnds bytes).Counted := by
  unfold State.telegramEnds
  split
  · exact ite_cases _ (h.reportEnds _) (ite_cases _ (h.identEnds _) h.countBad)
  · exact h.countBad

theorem State.Counted.telegramDone {s : State} (h : s.Counted) (begins : Bool) :
    (s.telegramDone begins).Counted := by
  unfold State.telegramDone
  split
  · exact ite_cases _ (h.updChain fun _ => ⟨rfl, rfl, rfl⟩) (State.Counted.transmit (h.updChain fun _ => ⟨rfl, rfl, rfl⟩))
  · exact h

/-! ### Resets, modes and requests -/

/-- Nothing is counted after a hard or a soft restart. -/
theorem State.counted_of_blank {s : State}
    (positions : s.chain.positions = Vector.replicate 6 (Position.absent PosCounters.zero))
    (counters : s.chain.counters = ChainCounters.zero)
    (snapshot : s.chain.snapshot = ⟨Vector.replicate 6 PosCounters.zero, ChainCounters.zero⟩) : s.Counted := by
  refine ⟨fun p => ?_, by rw [counters]; exact ChainCounters.zero_inRange, fun p => ?_,
    by rw [snapshot]; exact ChainCounters.zero_inRange⟩
  · rw [State.posAt, positions, replicate_get]
    exact Position.absent_counted PosCounters.zero_inRange
  · rw [snapshot]
    exact (replicate_get PosCounters.zero p).symm ▸ PosCounters.zero_inRange

theorem State.Counted.probeAfterRestart {s : State} (h : s.Counted) :
    s.probeAfterRestart.Counted := ite_cases _ h.probeFirst h

theorem State.softRestart_counted (s : State) : s.softRestart.Counted := by
  rw [State.softRestart_eq]
  have blank : s.restarted.Counted := State.counted_of_blank rfl rfl rfl
  exact blank.probeAfterRestart.transmit.recompose

theorem State.Counted.chainRestart {s : State} (h : s.Counted) : s.chainRestart.Counted := by
  have flushed : s.flush.Counted := h.updQueue _
  have emptied : (s.flush.cascade 0).restartChecks.Counted := (flushed.cascade 0).updChecks _
  exact emptied.probeAfterRestart.transmit.recompose

theorem State.Counted.setupEntry {s : State} (h : s.Counted) : s.setupEntry.Counted := by
  have flushed : ((s.updTables fun t => { t with mode := .setup }).flush).Counted := (h.updTables _).updQueue _
  have diverted : ((s.updTables fun t => { t with mode := .setup }).flush).divertUnsent.Counted :=
    ite_cases _ (flushed.divert _) flushed
  unfold State.setupEntry
  exact (diverted.mapCircuits _).transmit.recompose

theorem State.Counted.runEntry {s : State} (h : s.Counted) : s.runEntry.Counted := by
  rw [State.runEntry_eq]
  have entered : s.entered.Counted := h.of_same (fun _ => ⟨rfl, rfl⟩) rfl rfl
  exact entered.requestResync.transmit.recompose

theorem State.Counted.handTelltale {s : State} (h : s.Counted) : s.handTelltale.Counted := h.of_chain rfl

theorem State.Counted.silenceExpiry {s : State} (h : s.Counted) : s.silenceExpiry.Counted :=
  ite_cases _ (h.updImage _) h

theorem State.Counted.expireAtWrite {s : State} (h : s.Counted) (i : Nat) :
    (s.expireAtWrite i).Counted := by
  unfold State.expireAtWrite
  split
  · exact h.pollExpiry
  · exact .foldl State.lossExpiry (fun _ p h => h.lossExpiry p) allPos h
  · exact .foldl State.absenceExpiry (fun _ p h => h.absenceExpiry p) allPos h
  · exact h.silenceExpiry
  · exact ite_cases _ h.handTelltale h
  · exact h

theorem State.Counted.snapPos {s : State} (h : s.Counted) (p : Pos) : (s.snapPos p).Counted := by
  have snapped := State.SnappedFrom.snapPos s p
  obtain ⟨places, chain, copies, group⟩ := h
  refine ⟨fun q => ?_, chain, fun q => ?_, group⟩
  · by_cases hq : q = p
    · rw [(snapped.taken q hq).2]
      exact ⟨PosCounters.zero_inRange, (places q).2⟩
    · rw [(snapped.kept q hq).2]
      exact places q
  · by_cases hq : q = p
    · rw [(snapped.taken q hq).1]
      exact (places q).1
    · rw [(snapped.kept q hq).1]
      exact copies q

theorem State.Counted.snapshotCounters {s : State} (h : s.Counted) (d : List Byte) :
    (handleSnapshotCounters d s).1.Counted := by
  unfold handleSnapshotCounters
  split
  · obtain ⟨places, chain, copies, _⟩ := State.Counted.foldl State.snapPos (fun _ p h => h.snapPos p) allPos h
    exact ⟨places, ChainCounters.zero_inRange, copies, chain⟩
  · split
    · exact h.snapPos _
    · exact h

theorem State.Counted.handled {s : State} (hs : s.Counted) {h : Handler}
    (hh : h ∈ readHandlers ++ effectHandlers) (d : List Byte) : (h d s).1.Counted := by
  rcases List.mem_append.1 hh with hh | hh
  · rw [readHandlers_fst hh]
    exact hs
  · simp only [effectHandlers, List.mem_cons, List.not_mem_nil, or_false] at hh
    rcases hh with rfl | rfl | rfl | rfl | rfl | rfl | rfl | rfl | rfl | rfl | rfl | rfl | rfl | rfl
    · -- ENTER SETUP
      refine State.gate_cases State.Counted hs ?_
      split
      · exact hs.setupEntry
      · exact hs
    · -- ENTER RUN
      refine State.gate_cases State.Counted hs ?_
      split
      · exact hs
      · split
        · exact hs
        · dsimp only
          exact hs.runEntry
    · refine State.gate_cases State.Counted hs ?_ -- COMMIT
      exact hs.of_chain rfl
    · exact State.gate_cases State.Counted hs s.softRestart_counted -- RESTART
    · unfold handleRestartChain -- RESTART CHAIN
      dsimp only
      exact hs.chainRestart
    · -- WRITE MAP ROW
      refine State.gate_cases State.Counted hs ?_
      split
      · split
        · exact (hs.updTables _).recompose
        · exact hs
      · exact hs
    · refine State.gate_cases State.Counted hs ?_ -- WRITE PROFILE A
      split
      · dsimp only
        exact hs.updTables _
      · exact hs
    · refine State.gate_cases State.Counted hs ?_ -- WRITE PROFILE B
      split
      · dsimp only
        exact hs.updTables _
      · exact hs
    · -- WRITE SETTING
      refine State.gate_cases State.Counted hs ?_
      dsimp only
      split
      · split
        · exact hs
        · exact ((hs.updTables _).expireAtWrite _).transmit.recompose
      · exact hs
    · exact (hs.updImage _).recompose -- CLEAR HEALED
    · exact hs.snapshotCounters d -- SNAPSHOT COUNTERS
    · refine State.gate_cases State.Counted hs ?_ -- FULL CHECK
      exact hs.mapCircuits _
    · unfold handleForgetBaselines -- FORGET BASELINES
      split
      · exact hs.mapCircuits _
      · split
        · exact hs.updCircs _ _
        · exact hs
    · exact hs.of_chain rfl -- FORGET HISTORY

theorem State.Counted.takeFrame {s : State} (hs : s.Counted) {h : Handler}
    (hh : h ∈ readHandlers ++ effectHandlers) (f : BusFrame) (d : List Byte) : (s.takeFrame f d h).Counted := by
  have command : (s.takeCommandFrame d).Counted := by
    unfold State.takeCommandFrame
    split
    · exact ite_cases _ ((hs.updPort _).updImage _).recompose
        ((((hs.updPort _).updImage _).updPort _).requestChange _).transmit.recompose
    · exact hs.updCounters fun ⟨bad, stale, untracked, skipped, dropped, _⟩ =>
        ⟨bad, stale, untracked, skipped, dropped, bump_le _ _⟩
  have drops : s.dropRequest.Counted :=
    hs.updCounters fun ⟨bad, stale, untracked, skipped, _, malformed⟩ =>
      ⟨bad, stale, untracked, skipped, bump_le _ _, malformed⟩
  refine ite_cases _ (ite_cases _ command (ite_cases _ ?_ hs)) hs
  refine State.takeRequest_cases _ (fun _ _ _ => ?_) drops
  have handled : (h d (s.updPort fun po => { po with request := some d })).1.Counted :=
    (hs.updPort _).handled hh d
  exact handled.updPort _

/-! ### The step -/

theorem exec_counted (c : Instr) {s : State} (h : s.Counted) :
    ∃ u, exec c s = .next u ∧ u.Counted := by
  have ended (b : Bool) : (s.answerEnds b).Counted := h.updChain fun _ => ⟨rfl, rfl, rfl⟩
  cases c with
  | hardReset => exact ⟨_, rfl, State.counted_of_blank rfl rfl rfl⟩
  | connectChange high => exact ⟨_, rfl, ite_cases _ h (h.updChain fun _ => ⟨rfl, rfl, rfl⟩)⟩
  | connectDebouncedRise =>
    have high : (s.updChain fun ch => { ch with connectDebounced := true }).Counted := h.updChain fun _ => ⟨rfl, rfl, rfl⟩
    have rise : s.connectRise.Counted := ite_cases _ high.probeFirst h
    exact ⟨_, rfl, ite_cases _ rise.transmit.recompose h⟩
  | connectDebouncedFall =>
    have low : (s.updChain fun ch => { ch with connectDebounced := false }).Counted := h.updChain fun _ => ⟨rfl, rfl, rfl⟩
    have fall : s.connectFall.Counted := ite_cases _ (low.cascade 0) h
    exact ⟨_, rfl, ite_cases _ fall.recompose h⟩
  | commitComplete =>
    refine ⟨_, rfl, ?_⟩
    unfold State.commitDone
    split
    · exact ite_cases _ ((h.updStore _).updPort _) h
    · exact h
  | frameCarried =>
    refine ⟨_, rfl, ?_⟩
    unfold State.frameCarried
    split
    · exact h
    · exact ite_cases _ ((h.updPort _).updPort _) (h.updPort _)
  | telltaleSpacingExpiry => exact ⟨_, rfl, ite_cases _ h.handTelltale h⟩
  | telltalePeriodExpiry => exact ⟨_, rfl, ite_cases _ h.handTelltale h⟩
  | commandSilenceExpiry => exact ⟨_, rfl, ite_cases _ h.silenceExpiry.recompose h⟩
  | operatingSecond => exact ⟨_, rfl, ite_cases _ (h.updImage _) h⟩
  | pollDue => exact ⟨_, rfl, ite_cases _ h.pollExpiry.recompose h⟩
  | checkBudgetReady => exact ⟨_, rfl, ite_cases _ h.transmit.recompose h⟩
  | downstreamTelegramDone b => exact ⟨_, rfl, (h.telegramDone b).recompose⟩
  | report t b => exact ⟨_, rfl, ((ended b).reportEnds t).transmit.recompose⟩
  | ident t b => exact ⟨_, rfl, ((ended b).identEnds t).transmit.recompose⟩
  | enumTimeout p => exact ⟨_, rfl, ite_cases _ (h.enumExpiry p).transmit.recompose h⟩
  | queryWindowEnd p => exact ⟨_, rfl, h.queryExpiry p⟩
  | lossIntervalExpiry p => exact ⟨_, rfl, ite_cases _ (h.lossExpiry p).recompose h⟩
  | absenceIntervalExpiry p => exact ⟨_, rfl, ite_cases _ (h.absenceExpiry p).transmit.recompose h⟩
  | deadline tag =>
    refine ⟨_, rfl, ?_⟩
    split
    · exact ite_cases _ (h.expire _).recompose h
    · exact h
  | linkErrorIntervalEnd => exact ⟨_, rfl, ite_cases _ h.linkIntervalExpiry.recompose h⟩
  | badUpstreamTelegram bytes b => exact ⟨_, rfl, ((ended b).telegramEnds bytes).transmit.recompose⟩
  | _ => exact exec_of_frame rfl fun k hk => h.takeFrame hk _ _

/-- Settles O5: every count that rises is bounded as it rises, and the rest copy or empty counts. -/
theorem countersStayInRange : Obligations.CountersStayInRange := by
  unfold Obligations.CountersStayInRange
  intro s t h ht
  rw [State.counted_iff] at h ⊢
  exact step_keeps State.Counted (fun c _ h => exec_counted c h) (fun _ _ h => h.of_chain rfl)
    (fun _ h => h.of_same (fun _ => ⟨rfl, rfl⟩) rfl rfl) h ht

end Sys2Proof.Machine
end

