-- ==== Sys2Proof/Proofs/Pick.lean ====
section
/-! SUPPORT. The transmitter's pick (R39) on a free line: which telegram goes, what its entry records, and what becomes of the
WAITING CHECKs that the search passes (R65, R120). -/

namespace Sys2Proof.Machine

/-! ### Entries at the head that retire -/

/-- `es'` is what retirements leave of the entries `es`: final ones at the head are gone (R69). -/
def Retires (es es' : List Entry) : Prop := ∃ gone : List Entry, es = gone ++ es' ∧ ∀ e ∈ gone, e.state.final = true

theorem Retires.refl (es : List Entry) : Retires es es := ⟨[], rfl, by simp⟩

theorem Retires.trans {a b c : List Entry} (h : Retires a b) (k : Retires b c) : Retires a c := by
  obtain ⟨g, rfl, hg⟩ := h
  obtain ⟨g', rfl, hg'⟩ := k
  refine ⟨g ++ g', (List.append_assoc _ _ _).symm, fun e he => ?_⟩
  exact (List.mem_append.1 he).elim (hg e) (hg' e)

theorem Retires.dropWhile (es : List Entry) : Retires es (es.dropWhile (·.state.final)) :=
  ⟨_, List.takeWhile_append_dropWhile.symm, fun _ he => List.mem_takeWhile_imp (p := fun e : Entry => e.state.final) he⟩

theorem Retires.append {a b : List Entry} (h : Retires a b) (c : List Entry) : Retires (a ++ c) (b ++ c) := by
  obtain ⟨g, rfl, hg⟩ := h
  exact ⟨g, List.append_assoc _ _ _, hg⟩

theorem State.retires (s : State) : Retires s.queue.entries s.retire.queue.entries :=
  s.retire_entries ▸ .dropWhile _

theorem Retires.map {a b : List Entry} (h : Retires a b) {f : Entry → Entry}
    (hf : ∀ e, e.state.final = true → (f e).state.final = true) : Retires (a.map f) (b.map f) := by
  obtain ⟨g, rfl, hg⟩ := h
  refine ⟨g.map f, List.map_append, fun e he => ?_⟩
  obtain ⟨x, hx, rfl⟩ := List.mem_map.1 he
  exact hf x (hg x hx)

theorem Retires.mem {a b : List Entry} (h : Retires a b) {e : Entry} (he : e ∈ b) : e ∈ a := by
  obtain ⟨g, rfl, -⟩ := h
  exact List.mem_append_right _ he

theorem Retires.live {a b : List Entry} (h : Retires a b) {e : Entry} (he : e ∈ a) (live : e.state.final = false) :
    e ∈ b := by
  obtain ⟨g, rfl, hg⟩ := h
  exact (List.mem_append.1 he).resolve_left fun hm => by simp [hg e hm] at live

/-- Retirements stop at an entry that is not final. -/
theorem Retires.append_cons {a b es : List Entry} {e : Entry} (h : Retires (a ++ e :: b) es) (live : e.state.final = false) :
    ∃ a', es = a' ++ e :: b ∧ Retires a a' := by
  obtain ⟨g, hg, hf⟩ := h
  rcases List.append_eq_append_iff.1 hg with ⟨x, hx, hes⟩ | ⟨x, hx, hes⟩
  · cases x with
    | nil => exact ⟨[], by simpa using hes.symm, g, by simpa using hx.symm, hf⟩
    | cons y x =>
      have hy : y = e := by simpa using (List.cons.inj hes).1.symm
      have := hf e (hx ▸ List.mem_append_right _ (by simp [hy]))
      simp [this] at live
  · exact ⟨x, hes, g, hx, hf⟩

/-- A live entry that is not final, or is COMPLETE, is kept by the retirements at the head. -/
theorem Queue.keeps_of_mem {q : Queue} {es : List Entry} {e : Entry} (h : Retires es q.entries)
    (nodup : (es.map (·.tag)).Nodup) (mem : e ∈ es) (state : e.state.final = true → e.state = .complete) : q.Keeps e := by
  by_cases he : e ∈ q.entries
  · exact .inl he
  · obtain ⟨g, rfl, hg⟩ := h
    have hw : e ∈ g := (List.mem_append.1 mem).resolve_right he
    refine .inr ⟨state (hg e hw), fun y hy ht => ?_⟩
    rw [List.map_append] at nodup
    exact (List.nodup_append.1 nodup).2.2 e.tag (List.mem_map_of_mem hw) y.tag (List.mem_map_of_mem hy) ht.symm

/-! ### An entry's transmission (R41, R42, R64) -/

/-- The record of an entry sent now is final only as COMPLETE. -/
theorem State.sentNow_final {s : State} {e : Entry} {b : List Entry} {i : Image} {d : Nat}
    {x : Vector (Option Time) 10} {r : PosSet} (h : (s.sentNow e b i d x r).state.final = true) :
    (s.sentNow e b i d x r).state = .complete := by
  unfold State.sentNow at h ⊢
  by_cases hr : r = 0
  · exact if_pos hr
  · exact absurd ((congrArg EntryState.final (if_neg hr)).symm.trans h) Bool.false_ne_true

theorem youngerSent_of_nodup {q : Queue} {a b : List Entry} {e : Entry} (he : q.entries = a ++ e :: b)
    (nodup : (q.entries.map (·.tag)).Nodup) : q.youngerSent e.tag = b.any (·.tx.isSome) := by
  unfold Queue.youngerSent
  have ha : ∀ y ∈ a, (y.tag != e.tag) = true := fun y hy => by
    rw [he, List.map_append, List.nodup_append] at nodup
    exact bne_iff_ne.2 (nodup.2.2 y.tag (List.mem_map_of_mem hy) e.tag (by simp))
  rw [he, List.dropWhile_append_of_pos ha, List.dropWhile_cons_of_neg (by simp)]
  rfl

/-- Rewriting the entry of one tag, where tags are distinct. -/
theorem map_tag_of_nodup {a b : List Entry} {e : Entry} (nodup : ((a ++ e :: b).map (·.tag)).Nodup) (f : Entry → Entry) :
    ((a ++ e :: b).map fun y => if y.tag == e.tag then f y else y) = a ++ f e :: b := by
  rw [List.map_append, List.nodup_append] at nodup
  obtain ⟨-, hb, ha⟩ := nodup
  rw [List.map_cons, List.nodup_cons] at hb
  rw [List.map_append, List.map_cons]
  congr 1
  · refine (List.map_congr_left fun y hy => ?_).trans (List.map_id a)
    rw [if_neg (by simpa using ha y.tag (List.mem_map_of_mem hy) e.tag (by simp))]
    rfl
  · rw [if_pos (by simp)]
    congr 1
    refine (List.map_congr_left fun y hy => ?_).trans (List.map_id b)
    have hne : y.tag ≠ e.tag := fun h => hb.1 (h ▸ List.mem_map_of_mem hy)
    rw [if_neg (by simpa using hne)]
    rfl

theorem State.transmitEntry_eq {s : State} {a b : List Entry} {e : Entry} (he : s.queue.entries = a ++ e :: b)
    (nodup : (s.queue.entries.map (·.tag)).Nodup) (i : Image) (d : Nat) (r : PosSet) :
    s.transmitEntry e i d r = { s with queue := { s.queue with
      entries := a ++ s.sentNow e b i d s.chain.changeTimes r :: b } } := by
  unfold State.transmitEntry State.updEntry State.updQueue
  dsimp only
  rw [he] at nodup
  rw [he, map_tag_of_nodup nodup]
  rw [youngerSent_of_nodup he (he ▸ nodup)]
  rfl

theorem State.sentNow_congr {s u : State} (now : u.now = s.now) (generation : u.queue.generation = s.queue.generation)
    (e : Entry) (b : List Entry) (i : Image) (d : Nat) (x : Vector (Option Time) 10) (r : PosSet) :
    u.sentNow e b i d x r = s.sentNow e b i d x r := by
  unfold State.sentNow
  rw [now, generation]

theorem State.transmitEntry_retires {s : State} {a b : List Entry} {e : Entry} (he : s.queue.entries = a ++ e :: b)
    (nodup : (s.queue.entries.map (·.tag)).Nodup) (i : Image) (d : Nat) (r : PosSet) :
    Retires (a ++ s.sentNow e b i d s.chain.changeTimes r :: b) (s.transmitEntry e i d r).retire.queue.entries := by
  have h : (s.transmitEntry e i d r).queue.entries = a ++ s.sentNow e b i d s.chain.changeTimes r :: b := by
    rw [State.transmitEntry_eq he nodup]
  exact h ▸ State.retires _

/-- An entry sent stands, or was COMPLETE at once and has retired. -/
theorem State.transmitEntry_keeps {s : State} {a b : List Entry} {e : Entry} (he : s.queue.entries = a ++ e :: b)
    (nodup : (s.queue.entries.map (·.tag)).Nodup) (i : Image) (d : Nat) (r : PosSet) :
    (s.transmitEntry e i d r).retire.queue.Keeps (s.sentNow e b i d s.chain.changeTimes r) := by
  refine Queue.keeps_of_mem (State.transmitEntry_retires he nodup i d r) ?_ (by simp) State.sentNow_final
  rw [he] at nodup
  simpa [State.sentNow] using nodup

end Sys2Proof.Machine
end

