-- ==== Sys2Proof/Proofs/PickSends.lean ====
section
/-! SUPPORT. The transmitter's pick (R39) on a free line, telegram by telegram. -/

namespace Sys2Proof.Machine

/-! ### SETs (R41, R62) -/

theorem State.RetiredFrom.transmitEntry (s : State) (e : Entry) (i : Image) (d : Nat) (r : PosSet) :
    s.RetiredFrom (s.transmitEntry e i d r).retire := .trans _ _ _ (.updEntry s e.tag _) (.retire _)

/-- The state in which an entry's SET has begun, its entry not yet rewritten. -/
def State.setBegun (s : State) (e : Entry) (i : Image) : State :=
  (s.imageSent i).beginTelegram (.set e.tag (s.delayOver (e.delaySet i)) (s.masks i))

theorem State.sendSet_eq {s : State} {e : Entry} {i : Image} (image : e.image = some i) :
    s.sendSet e = ((s.setBegun e i).transmitEntry e i (s.delayOver (e.delaySet i)) s.activeSet).retire := by
  have hd : ∀ fs, (s.imageSent i).delayOver fs = s.delayOver fs := State.delayOver_congr rfl rfl
  have hm : (s.imageSent i).masks i = s.masks i := State.masks_congr rfl rfl i
  have ha : (s.imageSent i).activeSet = s.activeSet := State.activeSet_congr rfl
  unfold State.sendSet State.setBegun
  simp only [image, Option.getD_some, hd, hm, ha]

theorem State.sendSet_retired {s : State} {e : Entry} {i : Image} (image : e.image = some i) :
    (s.setBegun e i).RetiredFrom (s.sendSet e) := State.sendSet_eq image ▸ .transmitEntry _ e i _ _

theorem State.sendSet_keeps {s : State} {a b : List Entry} {e : Entry} {i : Image} (he : s.queue.entries = a ++ e :: b)
    (nodup : (s.queue.entries.map (·.tag)).Nodup) (image : e.image = some i) :
    (s.sendSet e).queue.Keeps (s.sentNow e b i (s.delayOver (e.delaySet i)) (s.imageSent i).chain.changeTimes s.activeSet) :=
  State.sendSet_eq image ▸ State.transmitEntry_keeps (s := s.setBegun e i) he nodup i _ _

/-! ### POLLs and CHECKs (R42, R122) -/

theorem State.sendPoll_retired (s : State) (e : Entry) : (s.beginTelegram (.poll e.tag)).RetiredFrom (s.sendPoll e) :=
  .transmitEntry _ e _ _ _

theorem State.sendPoll_keeps {s : State} {a b : List Entry} {e : Entry} (he : s.queue.entries = a ++ e :: b)
    (nodup : (s.queue.entries.map (·.tag)).Nodup) :
    (s.sendPoll e).queue.Keeps (s.sentNow e b s.chain.transmitted 0 s.chain.changeTimes s.activeSet) :=
  State.transmitEntry_keeps (s := s.beginTelegram (.poll e.tag)) he nodup _ _ _

/-- The positions a CHECK requires (R64). -/
def State.checkRequired (s : State) (p : Pos) : PosSet := if (s.posAt p).state = .active then posBit p else 0

/-- The state in which a CHECK has begun and been counted, its entry not yet rewritten. -/
def State.checkBegun (s : State) (e : Entry) (g : CheckTarget) : State :=
  (s.beginTelegram (.check e.tag g.pos g.circ g.pulse)).checkSent g

theorem State.sendCheck_eq (s : State) (e : Entry) (g : CheckTarget) : s.sendCheck e g =
    ((s.checkBegun e g).transmitEntry e s.chain.transmitted 0 (s.checkRequired g.pos)).retire := by
  have hr : (if s.isActive g.pos = true then posBit g.pos else 0) = s.checkRequired g.pos := by
    unfold State.checkRequired State.isActive
    simp only [beq_iff_eq]
  unfold State.sendCheck
  rw [hr]
  rfl

theorem State.sendCheck_retired (s : State) (e : Entry) (g : CheckTarget) :
    (s.checkBegun e g).RetiredFrom (s.sendCheck e g) := State.sendCheck_eq s e g ▸ .transmitEntry _ e _ _ _

theorem State.sendCheck_keeps {s : State} {a b : List Entry} {e : Entry} (he : s.queue.entries = a ++ e :: b)
    (nodup : (s.queue.entries.map (·.tag)).Nodup) (g : CheckTarget) :
    (s.sendCheck e g).queue.Keeps (s.sentNow e b s.chain.transmitted 0 s.chain.changeTimes (s.checkRequired g.pos)) :=
  State.sendCheck_eq s e g ▸ State.transmitEntry_keeps (s := s.checkBegun e g) he nodup _ _ _

theorem State.sendCheck_circuit (s : State) (e : Entry) (g : CheckTarget) :
    ((s.sendCheck e g).circAt g.pos g.circ).lastCheck = some s.now ∧ ((s.sendCheck e g).circAt g.pos g.circ).due = false := by
  rw [(s.sendCheck_retired e g).circ]
  unfold State.checkBegun State.checkSent
  simp only [State.updCirc_circAt, and_self, if_true]
  exact ⟨rfl, trivial⟩

/-! ### The order of the pick (R39) -/

theorem find_first {p : Entry → Bool} {a b : List Entry} {e : Entry} (he : p e = true) (ha : ∀ y ∈ a, ¬p y = true) :
    (a ++ e :: b).find? p = some e := by
  rw [List.find?_append, List.find?_eq_none.2 ha, List.find?_cons_of_pos he]
  rfl

/-- The oldest WAITING CHANGE or RESYNC goes first. -/
theorem State.transmit_set {s : State} {a b : List Entry} {e : Entry} (line : s.chain.line = .free)
    (he : s.queue.entries = a ++ e :: b) (waiting : e.state = .waiting) (set : e.isSet = true)
    (first : ∀ y ∈ a, ¬(y.state = .waiting ∧ y.isSet = true)) : s.transmit = s.sendSet e := by
  have hf : s.queue.entries.find? (fun e => e.state == .waiting && e.isSet) = some e :=
    he ▸ find_first (by simp [waiting, set]) fun y hy h => first y hy (by simpa using h)
  unfold State.transmit
  rw [if_neg (by simp [line]), hf]

section
variable {s : State} (line : s.chain.line = .free) (sets : s.queue.firstSet = none)
include line sets

/-- Else the untracked slot's SET goes. -/
theorem State.transmit_slot {i : Image} (slot : s.queue.slot = some i) : s.transmit = s.sendSlot i := by
  unfold Queue.firstSet at sets
  unfold State.transmit
  rw [if_neg (by simp [line]), sets, slot]

/-- Else the ENUM or QUERY pending first. -/
theorem State.transmit_request (slot : s.queue.slot = none) {r : LinkRequest} {rest : List LinkRequest}
    (requests : s.chain.linkRequests = r :: rest) : s.transmit = s.sendLink r rest := by
  unfold Queue.firstSet at sets
  unfold State.transmit
  rw [if_neg (by simp [line]), sets, slot, requests]

/-- Else CHECKs, then POLLs. -/
theorem State.transmit_check (slot : s.queue.slot = none) (requests : s.chain.linkRequests = []) :
    s.transmit = State.pickCheck s.queue.waitingChecks s := by
  unfold Queue.firstSet at sets
  unfold State.transmit
  rw [if_neg (by simp [line]), sets, slot, requests]

end

/-! ### CHECKs that the search passes (R65, R120) -/

theorem State.budgetAllows_iff (s : State) (p : Pos) : s.budgetAllows p = true ↔ s.BudgetOpen p := by
  unfold State.budgetAllows State.BudgetOpen past Config.checkBudget
  simp only [Bool.and_eq_true, decide_eq_true_eq, ← decide_not, Nat.not_le]

/-- Whether the search finds an entry's target circuit lit. -/
def State.litTarget (s : State) (e : Entry) : Bool :=
  match e.target with
  | some g => s.targetLit g
  | none => false

/-- An entry after a search has gone past it: a WAITING CHECK found lit is COMPLETE. -/
def State.searched (s : State) (e : Entry) : Entry :=
  if e.state = .waiting ∧ e.kind = .check ∧ s.litTarget e = true then { e with state := .complete } else e

/-- An entry after a search over the CHECKs of these tags. -/
def State.searchedIn (s : State) (tags : List Nat) (e : Entry) : Entry :=
  if e.tag ∈ tags ∧ s.litTarget e = true then { e with state := .complete } else e

theorem State.searchedIn_final (s : State) (tags : List Nat) (e : Entry) (h : e.state.final = true) :
    (s.searchedIn tags e).state.final = true := by
  unfold State.searchedIn
  split
  · rfl
  · exact h

@[simp] theorem State.searched_tag (s : State) (e : Entry) : (s.searched e).tag = e.tag := by
  unfold State.searched
  split <;> rfl

@[simp] theorem State.searchedIn_tag (s : State) (tags : List Nat) (e : Entry) : (s.searchedIn tags e).tag = e.tag := by
  unfold State.searchedIn
  split <;> rfl

theorem State.RetiredFrom.transmitted {s u : State} (h : s.RetiredFrom u) : u.chain.transmitted = s.chain.transmitted := by
  rw [h.chain]

theorem State.RetiredFrom.litTarget {s u : State} (h : s.RetiredFrom u) : u.litTarget = s.litTarget := by
  funext e
  unfold State.litTarget State.targetLit State.rowAt
  rw [h.tables, h.chain]

theorem State.RetiredFrom.searchedIn {s u : State} (h : s.RetiredFrom u) : u.searchedIn = s.searchedIn := by
  funext tags e
  unfold State.searchedIn
  rw [h.litTarget]

theorem State.RetiredFrom.budgetOpen {s u : State} (h : s.RetiredFrom u) (p : Pos) : u.BudgetOpen p ↔ s.BudgetOpen p := by
  unfold State.BudgetOpen State.settings
  rw [h.checks, h.tables, h.now]

theorem State.RetiredFrom.searchPasses {s u : State} (h : s.RetiredFrom u) (e : Entry) :
    u.SearchPasses e ↔ s.SearchPasses e := by
  unfold State.SearchPasses State.rowAt
  simp only [h.budgetOpen, h.tables, h.transmitted]

theorem State.searchedIn_skip {s : State} {tag : Nat} {y : Entry} (h : y.tag = tag → s.litTarget y = false) (tags : List Nat) :
    s.searchedIn (tag :: tags) y = s.searchedIn tags y := by
  unfold State.searchedIn
  by_cases ht : y.tag = tag
  · simp [h ht]
  · simp [ht]

theorem State.searchedIn_searchedIn (s : State) (tag : Nat) (tags : List Nat) (y : Entry) :
    s.searchedIn tags (s.searchedIn [tag] y) = s.searchedIn (tag :: tags) y := by
  unfold State.searchedIn
  by_cases ht : y.tag = tag
  · by_cases hl : s.litTarget y = true
    · simp [ht, hl]
    · simp [hl]
  · simp [ht]

theorem State.searchPasses_searchedIn (s : State) (tags : List Nat) (y : Entry) :
    s.SearchPasses (s.searchedIn tags y) ↔ s.SearchPasses y := by
  unfold State.searchedIn
  split <;> rfl

theorem Queue.find_of_nodup {q : Queue} (nodup : (q.entries.map (·.tag)).Nodup) {e : Entry} (he : e ∈ q.entries) :
    q.find e.tag = some e := by
  unfold Queue.find
  cases h : q.entries.find? (·.tag == e.tag) with
  | none => exact absurd (by simp) (List.find?_eq_none.1 h e he)
  | some x =>
    rw [List.inj_on_of_nodup_map nodup (List.mem_of_find?_eq_some h) he (by simpa using List.find?_some h)]

theorem Retires.tags_sublist {a b : List Entry} (h : Retires a b) : (b.map (·.tag)).Sublist (a.map (·.tag)) := by
  obtain ⟨g, rfl, -⟩ := h
  exact (List.sublist_append_right g b).map _

/-! One step of the search. -/

theorem State.pickCheck_skip {s : State} {tag : Nat} (h : ∀ e, s.queue.find tag = some e → s.litTarget e = false ∧ s.SearchPasses e)
    (tags : List Nat) : State.pickCheck (tag :: tags) s = State.pickCheck tags s := by
  rw [State.pickCheck]
  split
  · rename_i e he
    obtain ⟨dark, passes⟩ := h e he
    split
    · rename_i g hg
      rw [State.litTarget, hg] at dark
      have held : ¬s.BudgetOpen g.pos := (passes g hg).resolve_left (by simpa [State.targetLit] using dark)
      rw [if_neg (by simp [dark]), if_neg (mt (s.budgetAllows_iff g.pos).1 held)]
    · rfl
  · rfl

theorem State.pickCheck_lit {s : State} {tag : Nat} {e : Entry} (he : s.queue.find tag = some e)
    (lit : s.litTarget e = true) (tags : List Nat) :
    State.pickCheck (tag :: tags) s = State.pickCheck tags (s.completeEmpty tag) := by
  unfold State.litTarget at lit
  rw [State.pickCheck, he]
  cases hg : e.target with
  | none => simp [hg] at lit
  | some g => simpa only [hg] using if_pos (by simpa only [hg] using lit)

theorem State.pickCheck_send {s : State} {tag : Nat} {e : Entry} {g : CheckTarget} (he : s.queue.find tag = some e)
    (hg : e.target = some g) (dark : s.targetLit g = false) (opened : s.BudgetOpen g.pos) (tags : List Nat) :
    State.pickCheck (tag :: tags) s = s.sendCheck e g := by
  rw [State.pickCheck, he]
  dsimp only
  rw [hg]
  dsimp only
  rw [if_neg (by simp [dark]), if_pos ((s.budgetAllows_iff g.pos).2 opened)]

theorem State.completeEmpty_retires {s : State} {tag : Nat} (lit : ∀ y ∈ s.queue.entries, y.tag = tag → s.litTarget y = true) :
    Retires (s.queue.entries.map (s.searchedIn [tag])) (s.completeEmpty tag).queue.entries := by
  have h : s.queue.entries.map (s.searchedIn [tag]) =
      (s.updEntry tag fun e => { e with state := .complete }).queue.entries :=
    List.map_congr_left fun y hy => by
      unfold State.searchedIn
      by_cases ht : y.tag = tag
      · simp [ht, lit y hy ht]
      · simp [ht]
  exact h ▸ (s.updEntry tag _).retires

/-- A search that passes the CHECKs of the tags `pre` goes on behind them, those found lit COMPLETE. -/
theorem State.pickCheck_passes (pre post : List Nat) {s : State} (nodup : (s.queue.entries.map (·.tag)).Nodup)
    (passes : ∀ y ∈ s.queue.entries, y.tag ∈ pre → s.SearchPasses y) : ∃ u, s.RetiredFrom u ∧
      Retires (s.queue.entries.map (s.searchedIn pre)) u.queue.entries ∧
      State.pickCheck (pre ++ post) s = State.pickCheck post u := by
  induction pre generalizing s with
  | nil =>
    have h : s.searchedIn [] = id := by
      funext e
      simp [State.searchedIn]
    exact ⟨s, .refl s, by simpa [h] using Retires.refl _, rfl⟩
  | cons tag pre ih =>
    rw [List.cons_append]
    by_cases h : ∃ e ∈ s.queue.entries, e.tag = tag ∧ s.litTarget e = true
    · obtain ⟨e, he, ht, lit⟩ := h
      have hf : s.queue.find tag = some e := ht ▸ s.queue.find_of_nodup nodup he
      have hr := State.RetiredFrom.completeEmpty s tag
      have hes := s.completeEmpty_retires (tag := tag) fun y hy h =>
        List.inj_on_of_nodup_map nodup hy he (h.trans ht.symm) ▸ lit
      have back : ∀ y ∈ (s.completeEmpty tag).queue.entries, ∃ x ∈ s.queue.entries, y = s.searchedIn [tag] x := fun y hy => by
        obtain ⟨x, hx, rfl⟩ := List.mem_map.1 (hes.mem hy)
        exact ⟨x, hx, rfl⟩
      obtain ⟨u, hu, hes', heq⟩ := ih (s := s.completeEmpty tag) (hes.tags_sublist.nodup (by simpa [Function.comp_def] using nodup))
        fun y hy hm => by
          obtain ⟨x, hx, rfl⟩ := back y hy
          rw [hr.searchPasses, s.searchPasses_searchedIn]
          exact passes x hx (List.mem_cons_of_mem _ (by simpa using hm))
      refine ⟨u, .trans _ _ _ hr hu, .trans ?_ hes', (State.pickCheck_lit hf lit _).trans heq⟩
      have hm := hes.map (s.searchedIn_final pre)
      rw [List.map_map] at hm
      rw [hr.searchedIn]
      simpa only [Function.comp_def, s.searchedIn_searchedIn] using hm
    · have dark : ∀ y ∈ s.queue.entries, y.tag = tag → s.litTarget y = false := fun y hy ht =>
        Bool.eq_false_iff.2 fun hl => h ⟨y, hy, ht, hl⟩
      rw [State.pickCheck_skip fun e he => ?_]
      · rw [List.map_congr_left fun y hy => s.searchedIn_skip (dark y hy) pre]
        exact ih nodup fun y hy ht => passes y hy (List.mem_cons_of_mem _ ht)
      · have hm := List.mem_of_find?_eq_some he
        have ht : e.tag = tag := by simpa using List.find?_some he
        exact ⟨dark e hm ht, passes e hm (by simp [ht])⟩

/-! ### The pick among CHECKs and POLLs (R39, steps 3 and 4) -/

/-- The tags of the WAITING CHECKs among these entries. -/
def checkTags (es : List Entry) : List Nat := (es.filter fun e => e.state == .waiting && e.kind == .check).map (·.tag)

theorem mem_checkTags {es : List Entry} {y : Entry} (nodup : (es.map (·.tag)).Nodup) (hy : y ∈ es) :
    y.tag ∈ checkTags es ↔ y.state = .waiting ∧ y.kind = .check := by
  unfold checkTags
  constructor
  · intro h
    obtain ⟨x, hx, ht⟩ := List.mem_map.1 h
    obtain ⟨hm, hc⟩ := List.mem_filter.1 hx
    rw [← List.inj_on_of_nodup_map nodup hm hy ht]
    simpa using hc
  · exact fun h => List.mem_map_of_mem (List.mem_filter.2 ⟨hy, by simpa using h⟩)

theorem State.searchedIn_checkTags (s : State) {es : List Entry} {y : Entry} (nodup : (es.map (·.tag)).Nodup) (hy : y ∈ es) :
    s.searchedIn (checkTags es) y = s.searched y := by
  unfold State.searchedIn State.searched
  simp only [mem_checkTags nodup hy, and_assoc]

theorem State.searchedIn_other (s : State) {tags : List Nat} {y : Entry} (h : y.tag ∉ tags) : s.searchedIn tags y = y :=
  if_neg fun k => h k.1

/-- The oldest WAITING CHECK that is dark and whose budget is open goes, past those before it. -/
theorem State.pickCheck_sends {s : State} {a b : List Entry} {e : Entry} {g : CheckTarget}
    (nodup : (s.queue.entries.map (·.tag)).Nodup) (he : s.queue.entries = a ++ e :: b) (waiting : e.state = .waiting)
    (check : e.kind = .check) (target : e.target = some g) (dark : s.targetLit g = false) (opened : s.BudgetOpen g.pos)
    (passes : ∀ y ∈ a, y.state = .waiting → y.kind = .check → s.SearchPasses y) : ∃ (u : State) (a' : List Entry),
      s.RetiredFrom u ∧ u.queue.entries = a' ++ e :: b ∧ Retires (a.map s.searched) a' ∧
      State.pickCheck s.queue.waitingChecks s = u.sendCheck e g := by
  have nodup' := he ▸ nodup
  rw [List.map_append, List.nodup_append] at nodup'
  obtain ⟨hna, hneb, hdis⟩ := nodup'
  have apart : ∀ y ∈ e :: b, y.tag ∉ checkTags a := fun y hy h => by
    obtain ⟨x, hx, ht⟩ := List.mem_map.1 h
    exact hdis x.tag (List.mem_map_of_mem (List.mem_of_mem_filter hx)) y.tag (List.mem_map_of_mem hy) ht
  have tags : s.queue.waitingChecks = checkTags a ++ e.tag :: checkTags b := by
    simp [Queue.waitingChecks, checkTags, he, waiting, check]
  obtain ⟨u, hu, hes, heq⟩ := State.pickCheck_passes (checkTags a) (e.tag :: checkTags b) nodup fun y hy ht => by
    rcases List.mem_append.1 (he ▸ hy) with hy | hy
    · obtain ⟨hw, hc⟩ := (mem_checkTags hna hy).1 ht
      exact passes y hy hw hc
    · exact absurd ht (apart y hy)
  have hmap : s.queue.entries.map (s.searchedIn (checkTags a)) = a.map s.searched ++ e :: b := by
    rw [he, List.map_append, List.map_congr_left fun y hy => s.searchedIn_checkTags hna hy,
      List.map_congr_left (l := e :: b) fun y hy => s.searchedIn_other (apart y hy), List.map_id']
  rw [hmap] at hes
  obtain ⟨a', hes', ha'⟩ := hes.append_cons (by simp [waiting, EntryState.final])
  have hun : (u.queue.entries.map (·.tag)).Nodup := hes.tags_sublist.nodup (by
    rw [he] at nodup
    simpa [Function.comp_def] using nodup)
  refine ⟨u, a', hu, hes', ha', ?_⟩
  rw [tags, heq]
  refine State.pickCheck_send (u.queue.find_of_nodup hun (hes' ▸ by simp)) target ?_ ((hu.budgetOpen g.pos).2 opened) _
  unfold State.targetLit State.rowAt at dark ⊢
  rw [hu.tables, hu.transmitted, dark]

/-- Where the search passes every WAITING CHECK, the pick goes on to the POLLs. -/
theorem State.pickCheck_polls {s : State} (nodup : (s.queue.entries.map (·.tag)).Nodup)
    (passes : ∀ y ∈ s.queue.entries, y.state = .waiting → y.kind = .check → s.SearchPasses y) : ∃ u : State,
      s.RetiredFrom u ∧ Retires (s.queue.entries.map s.searched) u.queue.entries ∧
      State.pickCheck s.queue.waitingChecks s = u.pickPoll := by
  have tags : s.queue.waitingChecks = checkTags s.queue.entries ++ [] := (List.append_nil _).symm
  obtain ⟨u, hu, hes, heq⟩ := State.pickCheck_passes (checkTags s.queue.entries) [] nodup fun y hy ht => by
    obtain ⟨hw, hc⟩ := (mem_checkTags nodup hy).1 ht
    exact passes y hy hw hc
  rw [List.map_congr_left fun y hy => s.searchedIn_checkTags nodup hy] at hes
  exact ⟨u, hu, hes, tags ▸ heq⟩

/-- What a search leaves of the CHECKs it goes past: one found lit is COMPLETE as long as it is live, another stands. -/
theorem Retires.searched {s : State} {a rest es : List Entry} (h : Retires (a.map s.searched ++ rest) es)
    (nodup : ((a ++ rest).map (·.tag)).Nodup) {y : Entry} (hy : y ∈ a) (waiting : y.state = .waiting) (check : y.kind = .check)
    {g : CheckTarget} (hg : g ∈ y.target) :
    ((s.rowAt g.pos g.circ).onIn s.chain.transmitted = true → ∀ z ∈ es, z.tag = y.tag → z.state = .complete) ∧
    ((s.rowAt g.pos g.circ).onIn s.chain.transmitted = false → y ∈ es) := by
  have hl : s.litTarget y = (s.rowAt g.pos g.circ).onIn s.chain.transmitted := by
    rw [State.litTarget, Option.mem_def.1 hg]
    rfl
  have hm : s.searched y ∈ a.map s.searched ++ rest := List.mem_append_left _ (List.mem_map_of_mem hy)
  constructor
  · intro lit z hz ht
    have hn : ((a.map s.searched ++ rest).map (·.tag)).Nodup := by simpa [Function.comp_def] using nodup
    rw [List.inj_on_of_nodup_map hn (h.mem hz) hm (by simpa using ht), State.searched,
      if_pos ⟨waiting, check, hl.trans lit⟩]
  · intro dark
    have hs : s.searched y = y := if_neg fun k => by simp [hl, dark] at k
    rw [hs] at hm
    exact h.live hm (by simp [waiting, EntryState.final])

/-- The oldest WAITING POLL goes. -/
theorem State.pickPoll_sends {s : State} {a b : List Entry} {e : Entry} (he : s.queue.entries = a ++ e :: b)
    (waiting : e.state = .waiting) (poll : e.kind = .poll) (first : ∀ y ∈ a, ¬(y.state = .waiting ∧ y.kind = .poll)) :
    s.pickPoll = s.sendPoll e := by
  have hf : s.queue.entries.find? (fun e => e.state == .waiting && e.kind == .poll) = some e :=
    he ▸ find_first (by simp [waiting, poll]) fun y hy h => first y hy (by simpa using h)
  unfold State.pickPoll
  rw [hf]

/-- With no POLL waiting, a liveness POLL that is pending goes in SETUP, else nothing. -/
theorem State.pickPoll_none {s : State} (polls : s.queue.firstOf .poll = none) : s.pickPoll =
    if s.tables.mode = .setup ∧ s.chain.livenessPoll = true then s.sendLiveness else s := by
  unfold Queue.firstOf at polls
  unfold State.pickPoll
  rw [polls]
  simp only [Bool.and_eq_true, beq_iff_eq]

end Sys2Proof.Machine
end

