-- ==== Sys2Proof/Proofs/PickEnds.lean ====
section
/-! SUPPORT. What the pick leaves where a CHECK goes, and where the search over the CHECKs ends without one (R39, R65, R120). -/

namespace Sys2Proof.Machine

/-- What the search leaves of the WAITING CHECKs `ys` that it goes past (R65, R120). -/
def State.SearchLeaves (s : State) (ys es : List Entry) : Prop :=
  ∀ y ∈ ys, y.state = .waiting → y.kind = .check → ∀ h ∈ y.target,
    ((s.rowAt h.pos h.circ).onIn s.chain.transmitted = true → ∀ z ∈ es, z.tag = y.tag → z.state = .complete) ∧
    ((s.rowAt h.pos h.circ).onIn s.chain.transmitted = false → y ∈ es)

/-- `t` is `s` with the CHECK of `e` begun (R42, R122), the search past the entries `a` before it. -/
structure State.CheckGoes (s t : State) (a b : List Entry) (e : Entry) (g : CheckTarget) : Prop where
  chain : t.chain = { s.chain with
    line := .sending (.check e.tag g.pos g.circ g.pulse), positions := t.chain.positions }
  queue : t.queue = { s.queue with entries := t.queue.entries }
  checks : t.checks = { s.checks with
    times := upd s.checks.times g.pos fun ts => (ts ++ [s.now]).drop (ts.length + 1 - 4) }
  circuit : (t.circAt g.pos g.circ).lastCheck = some s.now ∧ (t.circAt g.pos g.circ).due = false
  keeps : t.queue.Keeps (s.sentNow e b s.chain.transmitted 0 s.chain.changeTimes
    (if (s.posAt g.pos).state = .active then posBit g.pos else 0))
  searched : s.SearchLeaves a t.queue.entries

theorem State.RetiredFrom.stateAt {s u : State} (h : s.RetiredFrom u) (p : Pos) : (u.posAt p).state = (s.posAt p).state := by
  rw [h.pos p]

theorem State.RetiredFrom.activeSet {s u : State} (h : s.RetiredFrom u) : u.activeSet = s.activeSet := by
  unfold State.activeSet State.isActive
  simp only [h.stateAt]

theorem State.RetiredFrom.checkRequired {s u : State} (h : s.RetiredFrom u) (p : Pos) :
    u.checkRequired p = s.checkRequired p := by
  unfold State.checkRequired
  rw [h.stateAt]

theorem State.RetiredFrom.sentNow {s u : State} (h : s.RetiredFrom u) (e : Entry) (b : List Entry) (i : Image) (d : Nat)
    (x : Vector (Option Time) 10) (r : PosSet) : u.sentNow e b i d x r = s.sentNow e b i d x r :=
  State.sentNow_congr h.now (by rw [h.queue]) e b i d x r

theorem State.RetiredFrom.changeTimes {s u : State} (h : s.RetiredFrom u) : u.chain.changeTimes = s.chain.changeTimes := by
  rw [h.chain]

/-- The tags of the entries sent and searched are those of the queue. -/
theorem searched_tags (s : State) (a : List Entry) : (a.map s.searched).map (·.tag) = a.map (·.tag) := by
  simp [Function.comp_def]

section
variable {s : State} (nodup : (s.queue.entries.map (·.tag)).Nodup)
include nodup

theorem State.checkGoes {a b : List Entry} {e : Entry} {g : CheckTarget} (he : s.queue.entries = a ++ e :: b)
    (waiting : e.state = .waiting) (check : e.kind = .check) (target : e.target = some g) (dark : s.targetLit g = false)
    (opened : s.BudgetOpen g.pos) (passes : ∀ y ∈ a, y.state = .waiting → y.kind = .check → s.SearchPasses y) :
    s.CheckGoes (State.pickCheck s.queue.waitingChecks s) a b e g := by
  obtain ⟨u, a', hu, hue, ha', heq⟩ := State.pickCheck_sends nodup he waiting check target dark opened passes
  rw [heq]
  have nodup' := he ▸ nodup
  have hun : (u.queue.entries.map (·.tag)).Nodup := by
    refine List.Sublist.nodup ?_ nodup'
    rw [hue, List.map_append, List.map_append, ← searched_tags s a]
    exact ha'.tags_sublist.append (.refl _)
  have hr := u.sendCheck_retired e g
  refine ⟨?_, ?_, ?_, ?_, ?_, ?_⟩
  · rw [hr.chain]
    show ({ u.chain with line := _, positions := _ } : Chain) = _
    rw [hu.chain]
    rfl
  · rw [hr.queue]
    show ({ u.queue with entries := _ } : Queue) = _
    rw [hu.queue]
  · rw [hr.checks]
    show ({ u.checks with times := upd u.checks.times g.pos (pushCheckTime u.now) } : Checks) = _
    rw [hu.checks, hu.now]
    rfl
  · rw [(u.sendCheck_circuit e g).1, hu.now]
    exact ⟨rfl, (u.sendCheck_circuit e g).2⟩
  · have hk := State.sendCheck_keeps hue hun g
    rwa [hu.transmitted, hu.changeTimes, hu.checkRequired, hu.sentNow] at hk
  · intro y hy hw hc h hh
    have hes : Retires (a' ++ u.sentNow e b u.chain.transmitted 0 u.chain.changeTimes (u.checkRequired g.pos) :: b)
        (u.sendCheck e g).queue.entries :=
      State.sendCheck_eq u e g ▸ State.transmitEntry_retires (s := u.checkBegun e g) hue hun _ _ _
    refine ((ha'.append _).trans hes).searched ?_ hy hw hc hh
    simpa [State.sentNow] using nodup'

end

/-- `t` is `s` after a search that sends no CHECK: the oldest WAITING POLL goes, or in SETUP a pending liveness POLL. -/
structure State.SearchEnds (s t : State) : Prop where
  frame : ∃ x live, (s.updChain fun ch => { ch with line := x, livenessPoll := live }).RetiredFrom t
  searched : s.SearchLeaves s.queue.entries t.queue.entries
  polls : ∀ (a b : List Entry) (e : Entry), s.queue.entries = a ++ e :: b → e.state = .waiting → e.kind = .poll →
    (∀ y ∈ a, ¬(y.state = .waiting ∧ y.kind = .poll)) → t.chain.line = .sending (.poll e.tag) ∧
    t.queue.Keeps (s.sentNow e b s.chain.transmitted 0 s.chain.changeTimes s.activeSet)
  quiet : s.queue.firstOf .poll = none → t.chain.line =
    (if s.tables.mode = .setup ∧ s.chain.livenessPoll = true then .sending (.poll 255) else s.chain.line)

theorem State.RetiredFrom.setLine {s u : State} (h : s.RetiredFrom u) (x : Line) (live : Bool) :
    (s.updChain fun ch => { ch with line := x, livenessPoll := live }).RetiredFrom
      (u.updChain fun ch => { ch with line := x, livenessPoll := live }) where
  now := h.now
  tables := h.tables
  queue := h.queue
  cache := h.cache
  checks := h.checks
  port := h.port
  store := h.store
  arrivals := h.arrivals
  pending := h.pending
  chain := by
    show ({ u.chain with line := x, livenessPoll := live } : Chain) = _
    rw [h.chain]
    rfl
  image := h.image
  pos := h.pos
  circ := h.circ

theorem State.pickPoll_frame (s : State) :
    ∃ x live, (s.updChain fun ch => { ch with line := x, livenessPoll := live }).RetiredFrom s.pickPoll := by
  unfold State.pickPoll
  split
  · rename_i e _
    exact ⟨_, s.chain.livenessPoll, s.sendPoll_retired e⟩
  · split
    · exact ⟨.sending (.poll Config.untrackedTag), false, .refl _⟩
    · exact ⟨s.chain.line, s.chain.livenessPoll, .refl s⟩

@[simp] theorem State.searched_kind (s : State) (e : Entry) : (s.searched e).kind = e.kind := by
  unfold State.searched
  split <;> rfl

theorem State.searched_of_poll {s : State} {e : Entry} (poll : e.kind = .poll) : s.searched e = e :=
  if_neg fun h => by simp [poll] at h

/-- A search makes no entry a WAITING one. -/
theorem State.searched_waiting {s : State} {e : Entry} (h : (s.searched e).state = .waiting) : s.searched e = e := by
  by_cases hc : e.state = .waiting ∧ e.kind = .check ∧ s.litTarget e = true
  · rw [State.searched, if_pos hc] at h
    simp at h
  · exact if_neg hc

theorem State.searched_younger (s : State) (b : List Entry) :
    (b.map s.searched).any (·.tx.isSome) = b.any (·.tx.isSome) := by
  rw [List.any_map]
  congr 1
  funext e
  unfold State.searched
  dsimp only [Function.comp_apply]
  split <;> rfl

/-- No entry is a WAITING POLL that was none before the search. -/
theorem State.no_poll_searched {s : State} {a : List Entry} (first : ∀ y ∈ a, ¬(y.state = .waiting ∧ y.kind = .poll)) :
    ∀ y ∈ a.map s.searched, ¬(y.state = .waiting ∧ y.kind = .poll) := fun y hy h => by
  obtain ⟨x, hx, rfl⟩ := List.mem_map.1 hy
  rw [State.searched_waiting h.1] at h
  exact first x hx h

/-- The pick of a POLL behind a search leaves what the search left of the CHECKs. -/
theorem State.SearchLeaves.pickPoll {s u : State} {ys : List Entry} (h : s.SearchLeaves ys u.queue.entries)
    (nodup : (u.queue.entries.map (·.tag)).Nodup) : s.SearchLeaves ys u.pickPoll.queue.entries := by
  unfold State.pickPoll
  split
  · rename_i e he
    obtain ⟨hc, a, b, hab, -⟩ := List.find?_eq_some_iff_append.1 he
    simp only [Bool.and_eq_true, beq_iff_eq] at hc
    obtain ⟨hw, hk⟩ := hc
    have hes : Retires _ (u.sendPoll e).queue.entries :=
      State.transmitEntry_retires (s := u.beginTelegram (.poll e.tag)) hab nodup _ _ _
    intro y hy waiting check g hg
    obtain ⟨lit, dark⟩ := h y hy waiting check g hg
    constructor
    · intro hl z hz ht
      rcases List.mem_append.1 (hes.mem hz) with hz | hz
      · exact lit hl z (hab ▸ List.mem_append_left _ hz) ht
      · rcases List.mem_cons.1 hz with rfl | hz
        · exact absurd (hw.symm.trans (lit hl e (hab ▸ by simp) ht)) (by decide)
        · exact lit hl z (hab ▸ by simp [hz]) ht
    · intro hd
      have hy' := hab ▸ dark hd
      refine hes.live ?_ (by simp [waiting, EntryState.final])
      rcases List.mem_append.1 hy' with hy' | hy'
      · exact List.mem_append_left _ hy'
      · rcases List.mem_cons.1 hy' with rfl | hy'
        · exact absurd (hk.symm.trans check) (by decide)
        · simp [hy']
  · split
    · exact h
    · exact h

theorem State.searchEnds {s : State} (nodup : (s.queue.entries.map (·.tag)).Nodup)
    (passes : ∀ y ∈ s.queue.entries, y.state = .waiting → y.kind = .check → s.SearchPasses y) :
    s.SearchEnds (State.pickCheck s.queue.waitingChecks s) := by
  obtain ⟨u, hu, hes, heq⟩ := State.pickCheck_polls nodup passes
  rw [heq]
  have hun : (u.queue.entries.map (·.tag)).Nodup := hes.tags_sublist.nodup (searched_tags s s.queue.entries ▸ nodup)
  refine ⟨?_, ?_, ?_, ?_⟩
  · obtain ⟨x, live, h⟩ := u.pickPoll_frame
    exact ⟨x, live, .trans _ _ _ (hu.setLine x live) h⟩
  · refine State.SearchLeaves.pickPoll (fun y hy hw hc g hg => ?_) hun
    exact Retires.searched (rest := []) (by simpa using hes) (by simpa using nodup) hy hw hc hg
  · intro a b e he waiting poll first
    rw [he, List.map_append, List.map_cons, State.searched_of_poll poll] at hes
    obtain ⟨a', hue, ha'⟩ := hes.append_cons (by simp [waiting, EntryState.final])
    rw [State.pickPoll_sends hue waiting poll fun y hy => State.no_poll_searched first y (ha'.mem hy)]
    have hk := State.sendPoll_keeps hue hun
    rw [hu.transmitted, hu.changeTimes, hu.activeSet, hu.sentNow] at hk
    refine ⟨by rw [(u.sendPoll_retired e).chain]; rfl, ?_⟩
    unfold State.sentNow at hk ⊢
    rwa [s.searched_younger] at hk
  · intro quiet
    have polls : u.queue.firstOf .poll = none := by
      unfold Queue.firstOf at quiet ⊢
      rw [List.find?_eq_none] at quiet ⊢
      intro y hy h
      exact State.no_poll_searched (fun y hy h => quiet y hy (by simpa using h)) y (hes.mem hy) (by simpa using h)
    rw [State.pickPoll_none polls, hu.tables, show u.chain.livenessPoll = s.chain.livenessPoll by rw [hu.chain]]
    split
    · rfl
    · rw [hu.chain]

end Sys2Proof.Machine
end

