-- ==== Sys2Proof/Proofs/BudgetReady.lean ====
section
/-! PROOF. CHECK_BUDGET_READY: the pick of a free transmitter to which a CHECK has become sendable (O42). -/

namespace Sys2Proof.Machine

theorem exec_checkBudgetReady (s : State) :
    exec .checkBudgetReady s = .next (if s.checkReady then s.transmit.recompose else s) := rfl

/-- A WAITING CHECK is lit, or its position's budget is open. -/
theorem State.checkReady_iff (s : State) : s.checkReady = true ↔ s.chain.line = .free ∧
    ∃ e ∈ s.queue.entries, e.state = .waiting ∧ e.kind = .check ∧ ∃ g ∈ e.target,
      (s.rowAt g.pos g.circ).onIn s.chain.transmitted = true ∨ s.BudgetOpen g.pos := by
  unfold State.checkReady State.targetLit
  simp only [Bool.and_eq_true, beq_iff_eq, List.any_eq_true]
  refine and_congr_right fun _ => exists_congr fun e => and_congr_right fun _ => ?_
  rw [and_assoc]
  refine and_congr_right fun _ => and_congr_right fun _ => ?_
  cases e.target with
  | none => simp
  | some g => simp only [Bool.or_eq_true, State.budgetAllows_iff, Option.mem_some_iff, exists_eq_left']

/-- What the pick and the composition after it leave. -/
theorem State.transmit_frame (s : State) : s.PortFrom s.transmit.recompose ∧ s.transmit.recompose.cache = s.cache :=
  ⟨.trans (State.ChainFrom.transmit s).portFrom (.recompose _),
    (s.transmit.recompose_cache).trans (State.SentFrom.transmit s).cache⟩

/-- Settles O42: the pick of a free line is the search over the CHECKs, and it is ready exactly when the search would act. -/
theorem checkBudgetReadySends : Obligations.CheckBudgetReadySends := by
  refine ⟨fun s tags line sets slot requests => ?_, fun s h => ?_⟩
  · have ready (e) (he : e ∈ s.queue.entries) (hw : e.state = .waiting) (hc : e.kind = .check) {g : CheckTarget}
        (hg : g ∈ e.target) (h : (s.rowAt g.pos g.circ).onIn s.chain.transmitted = true ∨ s.BudgetOpen g.pos) :
        exec .checkBudgetReady s = .next s.transmit.recompose := by
      rw [exec_checkBudgetReady, if_pos (s.checkReady_iff.2 ⟨line, e, he, hw, hc, g, hg, h⟩)]
    obtain ⟨frame, cache⟩ := s.transmit_frame
    have pick := State.transmit_check line sets slot requests
    refine ⟨fun a b e p c pulse he hw hc ht dark opened passes => ?_, fun passes lit => ?_⟩
    · have goes := State.checkGoes tags.nodup he hw hc ht dark opened passes
      rw [← pick] at goes
      refine ⟨_, ready e (he ▸ by simp) hw hc ht (.inr opened), ?_⟩
      simp only [State.recompose_chain, State.recompose_checks, State.recompose_circAt, State.recompose_queue]
      exact ⟨goes.chain, goes.checks, goes.circuit.1, goes.circuit.2, goes.keeps, goes.searched, frame.tables, cache,
        frame.store, frame.now, frame.pending, frame.inputs⟩
    · obtain ⟨y, hy, hw, hc, g, hg, hl⟩ := lit
      have ends := State.searchEnds tags.nodup passes
      rw [← pick] at ends
      refine ⟨_, ready y hy hw hc hg (.inl hl), ?_⟩
      obtain ⟨x, live, kept⟩ := ends.frame
      simp only [State.recompose_chain, State.recompose_checks, State.recompose_queue]
      exact ⟨kept.checks, ends.searched, frame.tables, cache, frame.store, frame.now, frame.pending, frame.inputs,
        ends.polls, fun quiet => line ▸ ends.quiet quiet⟩
  · rw [exec_checkBudgetReady, if_neg]
    intro hr
    obtain ⟨line, y, hy, hw, hc, g, hg, hready⟩ := s.checkReady_iff.1 hr
    rcases h with h | h
    · exact h line
    · obtain ⟨dark, held⟩ := h y hy hw hc g hg
      exact hready.elim (fun lit => by simp [dark] at lit) held

end Sys2Proof.Machine
end

