-- ==== Sys2Proof/Proofs/PlacedFrame.lean ====
section
/-! SUPPORT. What the operations on positions leave of the Chain Master, the queue and the Check Scheduler: the line, the image on
the chain, the counters, the slot and the check state stand. -/

namespace Sys2Proof.Machine

/-- `u` is `s` after operations on positions: of the Chain Master the records and the pending requests may differ, of the queue
the entries. -/
structure State.PlacedFrom (s u : State) : Prop where
  chain : u.chain = { s.chain with positions := u.chain.positions, linkRequests := u.chain.linkRequests }
  queue : u.queue = { s.queue with entries := u.queue.entries }
  checks : u.checks = s.checks

namespace State.PlacedFrom

theorem refl (s : State) : s.PlacedFrom s := ⟨rfl, rfl, rfl⟩

theorem trans {s t u : State} (a : s.PlacedFrom t) (b : t.PlacedFrom u) : s.PlacedFrom u where
  chain := by rw [b.chain, a.chain]
  queue := by rw [b.queue, a.queue]
  checks := b.checks.trans a.checks

theorem foldl {β : Type} (f : State → β → State) (h : ∀ (s : State) b, s.PlacedFrom (f s b)) (l : List β) (s : State) :
    s.PlacedFrom (l.foldl f s) := foldl_keeps State.PlacedFrom refl (fun _ _ _ => trans) f h l s

theorem ite {s u v : State} {b : Prop} [Decidable b] (hu : s.PlacedFrom u) (hv : s.PlacedFrom v) :
    s.PlacedFrom (if b then u else v) := ite_cases _ hu hv

theorem of_retired {s u : State} (h : s.RetiredFrom u) : s.PlacedFrom u where
  chain := by rw [h.chain]
  queue := h.queue
  checks := h.checks

theorem retire (s : State) : s.PlacedFrom s.retire := of_retired (.retire s)

theorem updPos (s : State) (p : Pos) (f : Position → Position) : s.PlacedFrom (s.updPos p f) := ⟨rfl, rfl, rfl⟩

theorem updCircs (s : State) (p : Pos) (f : Circ → Circuit → Circuit) : s.PlacedFrom (s.updCircs p f) := ⟨rfl, rfl, rfl⟩

theorem updImage (s : State) (f : ImageBuilder → ImageBuilder) : s.PlacedFrom (s.updImage f) := ⟨rfl, rfl, rfl⟩

theorem updEntries (s : State) (f : List Entry → List Entry) :
    s.PlacedFrom (s.updQueue fun q => { q with entries := f q.entries }) := ⟨rfl, rfl, rfl⟩

theorem ask (s : State) (r : LinkRequest) : s.PlacedFrom (s.ask r) := ⟨rfl, rfl, rfl⟩

theorem dropRequests (s : State) (p : Pos) : s.PlacedFrom (s.dropRequests p) := ⟨rfl, rfl, rfl⟩

/-! ### Leaving ACTIVE, absence, probing -/

theorem leaveActive (s : State) (p : Pos) : s.PlacedFrom (s.leaveActive p) :=
  ((updCircs s p _).trans (updEntries _ _)).trans (retire _)

theorem makeAbsent (s : State) (p : Pos) : s.PlacedFrom (s.makeAbsent p) :=
  (updPos s p _).trans (dropRequests _ p)

theorem writeBack (s : State) (p : Pos) : s.PlacedFrom (s.writeBack p) := by
  obtain ⟨cache, h⟩ := s.writeBack_frame p
  rw [h]
  exact ⟨rfl, rfl, rfl⟩

theorem takeOff (s : State) (p : Pos) : s.PlacedFrom (s.takeOff p) :=
  have cleared := (writeBack s p).trans (updCircs _ p fun _ _ => Circuit.clear)
  (cleared.trans (updImage _ (faultRemove p))).trans (updPos _ p _)

theorem reviewClashes (s : State) (i : Option Identity) : s.PlacedFrom (s.reviewClashes i) := by
  cases i with
  | none => exact refl s
  | some i =>
    unfold State.reviewClashes
    refine foldl _ (fun s p => ?_) allPos s
    unfold State.reviewClash
    split
    · exact (updPos s p _).trans (updImage _ _)
    · exact refl s

theorem goAbsent (s : State) (p : Pos) : s.PlacedFrom (s.goAbsent p) := by
  unfold State.goAbsent
  split
  · exact refl s
  · exact makeAbsent s p
  · exact makeAbsent s p
  · exact (((leaveActive s p).trans (takeOff _ p)).trans (makeAbsent _ p)).trans (reviewClashes _ _)
  · exact ((takeOff s p).trans (makeAbsent _ p)).trans (reviewClashes _ _)

theorem cascade (s : State) (p : Pos) : s.PlacedFrom (s.cascade p) := foldl _ goAbsent _ s

theorem beginProbe (s : State) (p : Pos) : s.PlacedFrom (s.beginProbe p) :=
  (updPos s p _).trans (ask _ (.enum p))

theorem probeNext (s : State) (p : Pos) : s.PlacedFrom (s.probeNext p) := by
  unfold State.probeNext
  split
  · exact ite (beginProbe s _) (refl s)
  · exact refl s

theorem probeFirst (s : State) : s.PlacedFrom s.probeFirst := ite (beginProbe s 0) (refl s)

theorem cascadeFrom (s : State) (p : Pos) : s.PlacedFrom (s.cascadeFrom p) := by
  unfold State.cascadeFrom
  split
  · exact (cascade s p).trans (probeNext _ _)
  · exact cascade s p

theorem lossExpiry (s : State) (p : Pos) : s.PlacedFrom (s.lossExpiry p) :=
  ite ((leaveActive s p).trans (updPos _ p _)) (refl s)

theorem absenceExpiry (s : State) (p : Pos) : s.PlacedFrom (s.absenceExpiry p) := ite (cascadeFrom s p) (refl s)

theorem enumExpiry (s : State) (p : Pos) : s.PlacedFrom (s.enumExpiry p) :=
  ite (ite ((updPos s p _).trans (ask _ (.enum p))) (updPos s p _)) (refl s)

theorem queryExpiry (s : State) (p : Pos) : s.PlacedFrom (s.queryExpiry p) := ite (updPos s p _) (refl s)

/-! ### Link errors -/

theorem addLinkErrors (s : State) (p : Pos) (n : Nat) : s.PlacedFrom (s.addLinkErrors p n) := by
  have counted := updPos s p fun r => { r with linkErrors := bump r.linkErrors n }
  exact ite (counted.trans (ite (refl _) ((updPos _ p _).trans (updImage _ _)))) counted

theorem addFarEnd (s : State) (p : Pos) (n : Nat) : s.PlacedFrom (s.addFarEnd p n) :=
  (updPos s p _).trans (addLinkErrors _ p n)

theorem addMissed (s : State) (p : Pos) : s.PlacedFrom (s.addMissed p) := (updPos s p _).trans (addLinkErrors _ p 1)

theorem endLinkInterval (s : State) (p : Pos) : s.PlacedFrom (s.endLinkInterval p) :=
  .trans (ite ((updPos s p _).trans (updImage _ _)) (refl s)) (updPos _ p _)

theorem expire (s : State) (e : Entry) : s.PlacedFrom (s.expire e) :=
  ((updEntries s _).trans (foldl _ (fun s p => ite (addMissed s p) (refl s)) allPos _)).trans (retire _)

/-! ### Upstream telegrams -/

theorem heard (s : State) (p : Pos) (load : Bool) : s.PlacedFrom (s.heard p load) := by
  refine ((updPos s p _).trans (updPos _ p _)).trans (ite (probeNext _ p) ?_)
  split
  · exact ite (cascade _ _) (refl _)
  · exact refl _

theorem askQuery (s : State) (p : Pos) : s.PlacedFrom (s.askQuery p) := ite (ask s (.query p)) (refl s)

theorem reportHeard (s : State) (r : ReportFields) : s.PlacedFrom (s.reportHeard r) :=
  (((heard s r.pos r.load).trans (addFarEnd _ r.pos r.farEnd)).trans (ite (updPos _ r.pos _) (refl _))).trans
    (askQuery _ r.pos)

theorem lookup (s : State) (p : Pos) (i : Identity) : s.PlacedFrom (s.lookup p i) := by
  obtain ⟨chain, queue, -, -⟩ := s.lookup_frame p i
  refine ⟨by rw [chain], by rw [queue], ?_⟩
  unfold State.lookup
  split <;> rfl

theorem identified (s : State) (i : IdentFields) : s.PlacedFrom (s.identified i) := by
  have filled := updPos s i.pos (identifyRecord s.now i (s.heldElsewhere i.pos i.identity))
  exact ((ite filled (filled.trans (lookup _ _ _))).trans (updPos _ i.pos _)).trans (dropRequests _ i.pos)

theorem unfit (p : Pos) (old : Option Nat) (new : Nat) (s : State) (c : Circ) : s.PlacedFrom (State.unfit p old new s c) := by
  unfold State.unfit
  split
  · refine .trans ?_ (of_retired (State.JudgedFrom.healCondition _ _ _ _).retired)
    exact ⟨rfl, rfl, rfl⟩
  · exact refl s

theorem recount (s : State) (p : Pos) (new : Nat) : s.PlacedFrom (s.recount p new) := by
  rw [State.recount_eq]
  exact (foldl _ (unfit p _ new) allCirc s).trans (updPos _ p _)

end State.PlacedFrom

/-! ### What follows for one block -/

section
variable {s u : State} (h : s.PlacedFrom u)
include h

theorem State.PlacedFrom.line : u.chain.line = s.chain.line := by rw [h.chain]

theorem State.PlacedFrom.counters : u.chain.counters = s.chain.counters := by rw [h.chain]

theorem State.PlacedFrom.transmitted : u.chain.transmitted = s.chain.transmitted := by rw [h.chain]

theorem State.PlacedFrom.changeTimes : u.chain.changeTimes = s.chain.changeTimes := by rw [h.chain]

theorem State.PlacedFrom.livenessPoll : u.chain.livenessPoll = s.chain.livenessPoll := by rw [h.chain]

theorem State.PlacedFrom.slot : u.queue.slot = s.queue.slot := by rw [h.queue]

end

end Sys2Proof.Machine
end

