-- ==== Sys2Proof/Proofs/LineHeld.lean ====
section
/-! SUPPORT. A line that sends or receives stands through every command but the end of its telegram and a hard reset (R18). -/

namespace Sys2Proof.Machine

/-- The line is as `x` says. -/
structure State.OnLine (x : Line) (s : State) : Prop where
  line : s.chain.line = x

namespace State.OnLine
variable {x : Line} {s : State}

theorem refl (s : State) : s.OnLine s.chain.line := ⟨rfl⟩

theorem of_line {u : State} (h : s.OnLine x) (line : u.chain.line = s.chain.line) : u.OnLine x := ⟨line.trans h.line⟩

theorem placed {u : State} (h : s.OnLine x) (a : s.PlacedFrom u) : u.OnLine x := h.of_line a.line

theorem requestResync (h : s.OnLine x) : s.requestResync.OnLine x := ite_cases _ (h.of_line rfl) (h.of_line rfl)

/-! ### Upstream telegrams, which send nothing of their own -/

theorem takeReport (h : s.OnLine x) (r : ReportFields) : (s.takeReport r).OnLine x := by
  have heard := h.placed (.reportHeard s r)
  refine ite_cases _ ?_ (h.of_line rfl)
  unfold State.matchReport
  split
  · refine ite_cases _ (State.OnLine.placed ?_ (.retire _)) (heard.of_line rfl)
    exact heard.of_line rfl
  · exact heard.of_line rfl

theorem acceptIdent (h : s.OnLine x) (i : IdentFields) : (s.acceptIdent i).OnLine x := by
  rw [State.acceptIdent_eq]
  have probed := (((h.placed (.identified s i)).placed (.addFarEnd _ i.pos i.farEnd)).requestResync).placed
    (.probeNext _ i.pos)
  exact ite_cases _ (probed.of_line rfl) probed

theorem takeIdent (h : s.OnLine x) (i : IdentFields) : (s.takeIdent i).OnLine x := by
  have heard := h.placed (.heard s i.pos i.load)
  have farEnd := heard.placed (.addFarEnd _ i.pos i.farEnd)
  unfold State.takeIdent
  split
  · exact h.acceptIdent i
  · exact farEnd
  · refine ite_cases _ (ite_cases _ ?_ ?_) (farEnd.placed (.askQuery _ _))
    · have back := (farEnd.placed (.recount _ i.pos i.count)).placed
        (.updPos _ i.pos fun r => { r with state := .active, lostSince := none, queryUntil := none })
      exact back.requestResync.placed (.probeNext _ _)
    · have left := (heard.placed (.takeOff _ i.pos)).placed
        (.updPos _ i.pos fun r => { r with linkErrors := 0, identity := none })
      exact (left.placed (.reviewClashes _ _)).acceptIdent i
  · exact h
  · exact h

end State.OnLine

/-- The line sends or receives, as `x` says. -/
structure State.Holds (x : Line) (s : State) : Prop where
  line : s.chain.line = x
  busy : x ≠ .free

namespace State.Holds
variable {x : Line} {s : State}

theorem of_line {u : State} (h : s.Holds x) (line : u.chain.line = s.chain.line) : u.Holds x := ⟨line.trans h.line, h.busy⟩

theorem placed {u : State} (h : s.Holds x) (a : s.PlacedFrom u) : u.Holds x := h.of_line a.line

theorem transmit (h : s.Holds x) : s.transmit.Holds x := by
  rw [s.transmit_busy (h.line ▸ h.busy)]
  exact h

theorem recompose (h : s.Holds x) : s.recompose.Holds x := h.of_line (by rw [State.recompose_chain])

theorem foldl {β : Type} {f : State → β → State} (hf : ∀ s b, s.Holds x → (f s b).Holds x) (l : List β) (h : s.Holds x) :
    (l.foldl f s).Holds x := by
  induction l generalizing s with
  | nil => exact h
  | cons b l ih => exact ih (hf s b h)

/-! ### Requests for entries -/

theorem divert (h : s.Holds x) (changed : FnSet) : (s.divert changed).Holds x := h.of_line rfl

theorem requestChange (h : s.Holds x) (old : Image) : (s.requestChange old).Holds x :=
  ite_cases _ (h.of_line rfl) (h.divert _)

theorem requestResync (h : s.Holds x) : s.requestResync.Holds x := ite_cases _ (h.of_line rfl) (h.divert _)

theorem requestPoll (h : s.Holds x) : s.requestPoll.Holds x := ite_cases _ (h.of_line rfl) (h.of_line rfl)

theorem pollExpiry (h : s.Holds x) : s.pollExpiry.Holds x := by
  refine ite_cases _ ?_ h
  have next : (s.updQueue fun q => { q with lastPoll := q.lastPoll + s.settings.pollPeriod }).Holds x := h.of_line rfl
  dsimp only
  split
  · exact (next.requestPoll.transmit.of_line (by rw [State.checkRun, State.runChecks_chain])).transmit
  · have pending : ((s.updQueue fun q => { q with lastPoll := q.lastPoll + s.settings.pollPeriod }).updChain fun ch =>
        { ch with livenessPoll := true }).Holds x := next.of_line rfl
    exact pending.transmit

/-! ### Upstream telegrams -/

theorem takeReport (h : s.Holds x) (r : ReportFields) : (s.takeReport r).Holds x :=
  h.of_line (State.OnLine.takeReport (.refl s) r).line

theorem takeIdent (h : s.Holds x) (i : IdentFields) : (s.takeIdent i).Holds x :=
  h.of_line (State.OnLine.takeIdent (.refl s) i).line

theorem reportEnds (h : s.Holds x) (t : UpTelegram) : (s.reportEnds t).Holds x := by
  unfold State.reportEnds
  split
  · exact h.takeReport _
  · exact h.of_line rfl

theorem identEnds (h : s.Holds x) (t : UpTelegram) : (s.identEnds t).Holds x := by
  unfold State.identEnds
  split
  · exact h.takeIdent _
  · exact h.of_line rfl

theorem telegramEnds (h : s.Holds x) (bytes : List Byte) : (s.telegramEnds bytes).Holds x := by
  unfold State.telegramEnds
  split
  · exact ite_cases _ (h.reportEnds _) (ite_cases _ (h.identEnds _) (h.of_line rfl))
  · exact h.of_line rfl

/-! ### Restarts, modes and requests -/

theorem probeAfterRestart (h : s.Holds x) : s.probeAfterRestart.Holds x := ite_cases _ (h.placed (.probeFirst s)) h

theorem softRestart (h : s.Holds x) : s.softRestart.Holds x := by
  rw [State.softRestart_eq]
  have restarted : s.restarted.Holds x := h.of_line rfl
  exact restarted.probeAfterRestart.transmit.recompose

theorem chainRestart (h : s.Holds x) : s.chainRestart.Holds x := by
  have flushed : s.flush.Holds x := h.of_line rfl
  have emptied : (s.flush.cascade 0).restartChecks.Holds x := (flushed.placed (.cascade _ 0)).of_line rfl
  exact emptied.probeAfterRestart.transmit.recompose

theorem setupEntry (h : s.Holds x) : s.setupEntry.Holds x := by
  have flushed : (s.updTables fun t => { t with mode := .setup }).flush.Holds x := h.of_line rfl
  have diverted : (s.updTables fun t => { t with mode := .setup }).flush.divertUnsent.Holds x :=
    ite_cases _ (flushed.divert _) flushed
  have cleared : (s.updTables fun t => { t with mode := .setup }).flush.divertUnsent.clearCandidates.Holds x :=
    diverted.of_line rfl
  exact cleared.transmit.recompose

theorem runEntry (h : s.Holds x) : s.runEntry.Holds x := by
  rw [State.runEntry_eq]
  have entered : s.entered.Holds x := h.of_line rfl
  exact entered.requestResync.transmit.recompose

theorem expireAtWrite (h : s.Holds x) (i : Nat) : (s.expireAtWrite i).Holds x := by
  unfold State.expireAtWrite
  split
  · exact h.pollExpiry
  · exact foldl (fun s p h => h.placed (.lossExpiry s p)) allPos h
  · exact foldl (fun s p h => h.placed (.absenceExpiry s p)) allPos h
  · exact ite_cases _ (h.of_line rfl) h
  · exact ite_cases _ (h.of_line rfl) h
  · exact h

theorem snapPos (h : s.Holds x) (p : Pos) : (s.snapPos p).Holds x := h.of_line rfl

theorem snapChain (h : s.Holds x) : s.snapChain.Holds x := h.of_line rfl

theorem snapshotCounters (h : s.Holds x) (d : List Byte) : (handleSnapshotCounters d s).1.Holds x := by
  unfold handleSnapshotCounters
  split
  · exact (foldl (fun _ p h => h.snapPos p) allPos h).snapChain
  · split
    · exact h.snapPos _
    · exact h

theorem handled (hs : s.Holds x) {h : Handler} (hh : h ∈ readHandlers ++ effectHandlers) (d : List Byte) :
    (h d s).1.Holds x := by
  rcases List.mem_append.1 hh with hh | hh
  · rw [readHandlers_fst hh]
    exact hs
  · simp only [effectHandlers, List.mem_cons, List.not_mem_nil, or_false] at hh
    rcases hh with rfl | rfl | rfl | rfl | rfl | rfl | rfl | rfl | rfl | rfl | rfl | rfl | rfl | rfl
    · -- ENTER SETUP
      refine State.gate_cases (State.Holds x) hs ?_
      split
      · exact hs.setupEntry
      · exact hs
    · -- ENTER RUN
      refine State.gate_cases (State.Holds x) hs ?_
      split
      · exact hs
      · split
        · exact hs
        · dsimp only
          exact hs.runEntry
    · refine State.gate_cases (State.Holds x) hs ?_ -- COMMIT
      exact hs.of_line rfl
    · exact State.gate_cases (State.Holds x) hs hs.softRestart -- RESTART
    · unfold handleRestartChain -- RESTART CHAIN
      dsimp only
      exact hs.chainRestart
    · -- WRITE MAP ROW
      refine State.gate_cases (State.Holds x) hs ?_
      split
      · split
        · refine State.Holds.recompose ?_
          exact hs.of_line rfl
        · exact hs
      · exact hs
    · refine State.gate_cases (State.Holds x) hs ?_ -- WRITE PROFILE A
      split
      · dsimp only
        exact hs.of_line rfl
      · exact hs
    · refine State.gate_cases (State.Holds x) hs ?_ -- WRITE PROFILE B
      split
      · dsimp only
        exact hs.of_line rfl
      · exact hs
    · -- WRITE SETTING
      refine State.gate_cases (State.Holds x) hs ?_
      dsimp only
      split
      · split
        · exact hs
        · have written (n v : Nat) : (s.setSetting n v).Holds x := hs.of_line rfl
          exact ((written _ _).expireAtWrite _).transmit.recompose
      · exact hs
    · -- CLEAR HEALED
      refine State.Holds.recompose ?_
      exact hs.of_line rfl
    · exact hs.snapshotCounters d -- SNAPSHOT COUNTERS
    · refine State.gate_cases (State.Holds x) hs ?_ -- FULL CHECK
      exact hs.of_line rfl
    · unfold handleForgetBaselines -- FORGET BASELINES
      split
      · exact hs.of_line rfl
      · split
        · exact hs.of_line rfl
        · exact hs
    · exact hs.of_line rfl -- FORGET HISTORY

theorem takeFrame (hs : s.Holds x) {h : Handler} (hh : h ∈ readHandlers ++ effectHandlers) (f : BusFrame) (d : List Byte) :
    (s.takeFrame f d h).Holds x := by
  have command : (s.takeCommandFrame d).Holds x := by
    unfold State.takeCommandFrame
    split
    · refine ite_cases _ (State.Holds.recompose ?_) (State.Holds.recompose (State.Holds.transmit (State.Holds.requestChange ?_ _)))
      · exact hs.of_line rfl
      · exact hs.of_line rfl
    · exact hs.of_line rfl
  refine ite_cases _ (ite_cases _ command (ite_cases _ ?_ hs)) hs
  refine State.takeRequest_cases _ (fun _ _ _ => ?_) (hs.of_line rfl)
  have buffered : (s.updPort fun po => { po with request := some d }).Holds x := hs.of_line rfl
  exact (buffered.handled hh d).of_line rfl

theorem setInterval (h : s.Holds x) :
    (s.updChain fun ch => { ch with linkIntervalEnd := ch.linkIntervalEnd + Config.linkIntervalMs }).Holds x := h.of_line rfl

theorem linkIntervalExpiry (h : s.Holds x) : s.linkIntervalExpiry.Holds x := by
  unfold State.linkIntervalExpiry
  split
  · exact (h.placed (.foldl _ .endLinkInterval allPos s)).setInterval
  · exact h

end State.Holds

/-- The commands at which a line that sends or receives may change: the ends of telegrams and a hard reset. -/
def Instr.movesLine : Instr → Bool
  | .hardReset => true
  | .downstreamTelegramDone _ => true
  | .report _ _ => true
  | .ident _ _ => true
  | .badUpstreamTelegram _ _ => true
  | _ => false

theorem exec_holds {x : Line} {c : Instr} (hc : Instr.movesLine c = false) {s : State} (h : s.Holds x) :
    ∃ u, exec c s = .next u ∧ u.Holds x := by
  cases c with
  | hardReset => simp [Instr.movesLine] at hc
  | downstreamTelegramDone _ => simp [Instr.movesLine] at hc
  | report _ _ => simp [Instr.movesLine] at hc
  | ident _ _ => simp [Instr.movesLine] at hc
  | badUpstreamTelegram _ _ => simp [Instr.movesLine] at hc
  | connectChange high => exact ⟨_, rfl, ite_cases _ h (h.of_line rfl)⟩
  | connectDebouncedRise =>
    have high : (s.updChain fun ch => { ch with connectDebounced := true }).Holds x := h.of_line rfl
    have rise : s.connectRise.Holds x := ite_cases _ (high.placed (.probeFirst _)) h
    exact ⟨_, rfl, ite_cases _ rise.transmit.recompose h⟩
  | connectDebouncedFall =>
    have low : (s.updChain fun ch => { ch with connectDebounced := false }).Holds x := h.of_line rfl
    have fall : s.connectFall.Holds x := ite_cases _ (low.placed (.cascade _ 0)) h
    exact ⟨_, rfl, ite_cases _ fall.recompose h⟩
  | commitComplete =>
    refine ⟨_, rfl, ?_⟩
    unfold State.commitDone
    split
    · exact ite_cases _ (h.of_line rfl) h
    · exact h
  | frameCarried =>
    refine ⟨_, rfl, ?_⟩
    unfold State.frameCarried
    split
    · exact h
    · exact ite_cases _ (h.of_line rfl) (h.of_line rfl)
  | telltaleSpacingExpiry => exact ⟨_, rfl, ite_cases _ (h.of_line rfl) h⟩
  | telltalePeriodExpiry => exact ⟨_, rfl, ite_cases _ (h.of_line rfl) h⟩
  | commandSilenceExpiry =>
    have stale : s.silenceExpiry.Holds x := ite_cases _ (h.of_line rfl) h
    exact ⟨_, rfl, ite_cases _ stale.recompose h⟩
  | operatingSecond => exact ⟨_, rfl, ite_cases _ (h.of_line rfl) h⟩
  | pollDue => exact ⟨_, rfl, ite_cases _ h.pollExpiry.recompose h⟩
  | checkBudgetReady => exact ⟨_, rfl, ite_cases _ h.transmit.recompose h⟩
  | enumTimeout p => exact ⟨_, rfl, ite_cases _ (h.placed (.enumExpiry s p)).transmit.recompose h⟩
  | queryWindowEnd p => exact ⟨_, rfl, h.placed (.queryExpiry s p)⟩
  | lossIntervalExpiry p => exact ⟨_, rfl, ite_cases _ (h.placed (.lossExpiry s p)).recompose h⟩
  | absenceIntervalExpiry p => exact ⟨_, rfl, ite_cases _ (h.placed (.absenceExpiry s p)).transmit.recompose h⟩
  | deadline tag =>
    refine ⟨_, rfl, ?_⟩
    split
    · exact ite_cases _ (h.placed (.expire s _)).recompose h
    · exact h
  | linkErrorIntervalEnd =>
    exact ⟨_, rfl, ite_cases _ h.linkIntervalExpiry.recompose h⟩
  | _ => exact exec_of_frame rfl fun k hk => h.takeFrame hk _ _

/-- An upstream telegram that ends while the port sends leaves the line as it is. -/
theorem State.Holds.answerEnds {s : State} {y : Downstream} (h : s.chain.line = .sending y) (ab : Bool) :
    (s.answerEnds ab).Holds (.sending y) := by
  refine ⟨?_, Line.noConfusion⟩
  unfold State.answerEnds
  rw [State.updChain_chain, h]

theorem line_stands {c : Instr} {s t : State} (he : exec c s = .next t) (busy : s.chain.line ≠ .free) :
    t.chain.line = s.chain.line ∨ c = .hardReset ∨ (∃ ab : Bool, c = .downstreamTelegramDone ab) ∨
    (s.chain.line = .receiving ∧ ∃ ab : Bool, (∃ x : UpTelegram, c = .report x ab) ∨ (∃ x : UpTelegram, c = .ident x ab) ∨
      ∃ x : List Byte, c = .badUpstreamTelegram x ab) := by
  have upstream (u : Bool → State → State) (hu : ∀ ab y, s.chain.line = .sending y → (u ab s).Holds (.sending y)) (ab : Bool)
      (hx : exec c s = .next (u ab s).transmit.recompose) : t.chain.line = s.chain.line ∨ s.chain.line = .receiving := by
    cases hl : s.chain.line with
    | free => exact absurd hl busy
    | receiving => exact .inr rfl
    | sending y =>
      have held := (hu ab y hl).transmit.recompose
      rw [hx] at he
      cases he
      exact .inl held.line
  cases hc : Instr.movesLine c with
  | false =>
    obtain ⟨u, hu, held⟩ := exec_holds hc ⟨rfl, busy⟩
    rw [hu] at he
    cases he
    exact .inl held.line
  | true =>
    cases c with
    | hardReset => exact .inr (.inl rfl)
    | downstreamTelegramDone ab => exact .inr (.inr (.inl ⟨ab, rfl⟩))
    | report x ab =>
      exact (upstream (fun ab s => (s.answerEnds ab).reportEnds x) (fun ab _ h => (State.Holds.answerEnds h ab).reportEnds x) ab
        rfl).imp_right fun h => .inr (.inr ⟨h, ab, .inl ⟨x, rfl⟩⟩)
    | ident x ab =>
      exact (upstream (fun ab s => (s.answerEnds ab).identEnds x) (fun ab _ h => (State.Holds.answerEnds h ab).identEnds x) ab
        rfl).imp_right fun h => .inr (.inr ⟨h, ab, .inr (.inl ⟨x, rfl⟩)⟩)
    | badUpstreamTelegram x ab =>
      exact (upstream (fun ab s => (s.answerEnds ab).telegramEnds x) (fun ab _ h => (State.Holds.answerEnds h ab).telegramEnds x)
        ab rfl).imp_right fun h => .inr (.inr ⟨h, ab, .inr (.inr ⟨x, rfl⟩)⟩)
    | _ => simp [Instr.movesLine] at hc

end Sys2Proof.Machine
end

