-- ==== Sys2Proof/Proofs/TelegramDone.lean ====
section
/-! PROOF. What a SET sent leaves, and the pick at a telegram's end (O41). -/

namespace Sys2Proof.Machine

/-- `t` is `s` with the SET of entry `e` begun, carrying image `i` (R41); `b` are the entries behind it. -/
structure State.SetGoes (s t : State) (b : List Entry) (e : Entry) (i : Image) : Prop where
  chain : t.chain = { s.chain with
    positions := t.chain.positions, transmitted := i, changeTimes := t.chain.changeTimes
    line := .sending (.set e.tag (s.delayOver (e.delaySet i)) (s.masks i)) }
  times : ∀ g : Fn, t.chain.changeTimes[g] =
    if on i g = on s.chain.transmitted g then s.chain.changeTimes[g] else some s.now
  queue : t.queue = { s.queue with entries := t.queue.entries }
  checks : t.checks = s.checks
  keeps : (s.queue.entries.map (·.tag)).Nodup →
    t.queue.Keeps (s.sentNow e b i (s.delayOver (e.delaySet i)) t.chain.changeTimes s.activeSet)

theorem State.setGoes {s : State} {a b : List Entry} {e : Entry} {i : Image} (he : s.queue.entries = a ++ e :: b)
    (image : e.image = some i) : s.SetGoes (s.sendSet e) b e i := by
  have hr := State.sendSet_retired (s := s) image
  have times : (s.sendSet e).chain.changeTimes = (s.imageSent i).chain.changeTimes := hr.changeTimes
  refine ⟨?_, fun g => ?_, ?_, ?_, fun nodup => ?_⟩
  · rw [hr.chain]
    rfl
  · rw [times, State.imageSent_changeTimes]
  · rw [hr.queue]
    rfl
  · rw [hr.checks]
    rfl
  · rw [times]
    exact State.sendSet_keeps he nodup image

theorem exec_telegramDone (s : State) (ab : Bool) :
    exec (.downstreamTelegramDone ab) s = .next (s.telegramDone ab).recompose := rfl

theorem State.telegramDone_idle {s : State} (h : s.chain.line = .free ∨ s.chain.line = .receiving) (ab : Bool) :
    s.telegramDone ab = s := by
  unfold State.telegramDone
  rcases h with h | h <;> rw [h]

theorem State.telegramDone_true {s : State} {x : Downstream} (h : s.chain.line = .sending x) :
    s.telegramDone true = s.updChain fun ch => { ch with line := .receiving } := by
  unfold State.telegramDone
  rw [h]
  rfl

theorem State.telegramDone_false {s : State} {x : Downstream} (h : s.chain.line = .sending x) :
    s.telegramDone false = s.onFreeLine.transmit := by
  unfold State.telegramDone
  rw [h]
  rfl

theorem State.mem_activeSet (s : State) (p : Pos) : hasPos s.activeSet p = true ↔ (s.posAt p).state = .active := by
  unfold State.activeSet State.isActive
  rw [hasPos_posSetOf, beq_iff_eq]

theorem State.recompose_records (s : State) : s.image.SameRecords s.recompose.image := by
  rw [State.recompose_frame]
  exact ⟨rfl, rfl, rfl, rfl, rfl, rfl, rfl, rfl⟩

/-- What the pick among CHECKs and POLLs leaves: of the Chain Master the positions, the line and the liveness POLL may differ,
of the queue the entries. -/
theorem State.pickCheck_leaves (tags : List Nat) (s : State) :
    (State.pickCheck tags s).chain = { s.chain with
      positions := (State.pickCheck tags s).chain.positions, line := (State.pickCheck tags s).chain.line
      livenessPoll := (State.pickCheck tags s).chain.livenessPoll } ∧
    (State.pickCheck tags s).queue = { s.queue with entries := (State.pickCheck tags s).queue.entries } := by
  induction tags generalizing s with
  | nil =>
    obtain ⟨x, live, h⟩ := s.pickPoll_frame
    rw [State.pickCheck]
    exact ⟨by rw [h.chain]; rfl, h.queue⟩
  | cons tag tags ih =>
    unfold State.pickCheck
    split
    · split
      · split
        · have h := State.RetiredFrom.completeEmpty s tag
          obtain ⟨chain, queue⟩ := ih (s.completeEmpty tag)
          exact ⟨by rw [chain, h.chain], by rw [queue, h.queue]⟩
        · split
          · have h := s.sendCheck_retired
            exact ⟨by rw [(h _ _).chain]; rfl, (h _ _).queue⟩
          · exact ih s
      · exact ih s
    · exact ih s

/-- With no CHECK and no POLL waiting, a liveness POLL that is pending goes in SETUP, else nothing. -/
theorem State.pickCheck_none {s : State} (checks : s.queue.firstOf .check = none) (polls : s.queue.firstOf .poll = none) :
    State.pickCheck s.queue.waitingChecks s =
      if s.tables.mode = .setup ∧ s.chain.livenessPoll = true then s.sendLiveness else s := by
  unfold Queue.firstOf at checks
  have none : s.queue.waitingChecks = [] := by
    unfold Queue.waitingChecks
    rw [List.filter_eq_nil_iff.2 (List.find?_eq_none.1 checks), List.map_nil]
  rw [none, State.pickCheck, State.pickPoll_none polls]

/-- Settles O41: the line stands through every other command, and each step of R39 is one lemma of the pick. -/
theorem telegramDonePicks : Obligations.TelegramDonePicks := by
  refine ⟨fun c s t he busy => line_stands he busy, fun s ab h => ?_, State.mem_activeSet, fun s x sending => ⟨?_, ?_⟩⟩
  · refine ⟨_, rfl, ?_⟩
    rw [State.telegramDone_idle h]
    simp only [State.recompose_chain, State.recompose_queue, State.recompose_circuits, State.recompose_checks,
      State.recompose_cache, State.recompose_tables, State.recompose_store, State.recompose_now, State.recompose_pending,
      State.recompose_request, true_and, and_true]
    exact ⟨s.recompose_records, s.recompose_sameInputs⟩
  · refine ⟨_, rfl, ?_⟩
    rw [State.telegramDone_true sending]
    simp only [State.recompose_chain, State.recompose_queue, State.recompose_circuits, State.recompose_checks,
      State.recompose_cache, State.recompose_tables, State.recompose_store, State.recompose_now, State.recompose_pending]
    exact ⟨rfl, rfl, rfl, rfl, rfl, rfl, rfl, rfl, rfl, State.recompose_records _, State.recompose_sameInputs _⟩
  · refine ⟨s.onFreeLine.transmit.recompose, by rw [exec_telegramDone, State.telegramDone_false sending], ?_⟩
    obtain ⟨frame, cache⟩ := s.onFreeLine.transmit_frame
    have sent := State.SentFrom.transmit s.onFreeLine
    refine ⟨cache, frame.tables, frame.store, frame.now, frame.pending, frame.inputs, frame.request, ?_, ?_, ?_, ?_, ?_⟩
    · rw [State.recompose_chain, sent.chain]
      rfl
    · intro a b e he waiting set first i image
      have goes := State.setGoes (s := s.onFreeLine) he image
      rw [← State.transmit_set (s := s.onFreeLine) rfl he waiting set first] at goes
      simp only [State.recompose_chain, State.recompose_checks, State.recompose_queue]
      refine ⟨by rw [goes.chain]; rfl, by rw [goes.chain], goes.times, goes.checks, by rw [goes.queue]; rfl,
        by rw [goes.queue]; rfl, fun tags => goes.keeps tags.nodup⟩
    · intro sets i slot
      rw [State.transmit_slot (s := s.onFreeLine) rfl sets slot, State.sendSlot_eq]
      simp only [State.recompose_chain, State.recompose_queue]
      exact ⟨rfl, trivial, s.onFreeLine.imageSent_changeTimes i, rfl⟩
    · intro sets slot r rest requests
      rw [State.transmit_request (s := s.onFreeLine) rfl sets slot requests]
      simp only [State.recompose_chain, State.recompose_queue, State.recompose_circuits, State.recompose_posAt]
      refine ⟨by cases r <;> rfl, by cases r <;> rfl, by cases r <;> rfl, ?_, ?_⟩
      · rintro p rfl
        exact ⟨rfl, (State.sendLink_enum_posAt s.onFreeLine p p rest).trans (if_pos rfl)⟩
      · rintro p rfl
        exact ⟨rfl, State.updPos_posAt_same s.onFreeLine p _⟩
    · intro sets slot requests
      have pick := State.transmit_check (s := s.onFreeLine) rfl sets slot requests
      simp only [State.recompose_chain, State.recompose_queue, State.recompose_circuits, State.recompose_checks,
        State.recompose_circAt]
      refine ⟨?_, ?_, ?_, ?_, ?_, ?_, ?_⟩
      · rw [pick, (State.pickCheck_leaves _ s.onFreeLine).1]
        rfl
      · rw [pick, (State.pickCheck_leaves _ s.onFreeLine).1]
        rfl
      · rw [pick, (State.pickCheck_leaves _ s.onFreeLine).2]
        rfl
      · rw [pick, (State.pickCheck_leaves _ s.onFreeLine).2]
        exact slot
      · intro tags a b e he waiting check g target dark opened passes
        have goes := State.checkGoes (s := s.onFreeLine) tags.nodup he waiting check target dark opened passes
        rw [← pick] at goes
        exact ⟨by rw [goes.chain], goes.checks, goes.circuit.1, goes.circuit.2, goes.keeps, goes.searched⟩
      · intro tags passes
        have ends := State.searchEnds (s := s.onFreeLine) tags.nodup passes
        rw [← pick] at ends
        obtain ⟨y, live, kept⟩ := ends.frame
        exact ⟨kept.checks, ends.polls, ends.quiet, ends.searched⟩
      · intro checks polls
        rw [pick, State.pickCheck_none (s := s.onFreeLine) checks polls]
        have h : (s.onFreeLine.tables.mode = .setup ∧ s.onFreeLine.chain.livenessPoll = true) =
          (s.tables.mode = .setup ∧ s.chain.livenessPoll = true) := rfl
        simp only [h]
        split
        · exact ⟨rfl, rfl, rfl, rfl⟩
        · exact ⟨rfl, rfl, rfl, rfl⟩

end Sys2Proof.Machine
end

