-- ==== Sys2Proof/Proofs/BadTelegrams.lean ====
section
/-! SUPPORT and PROOF. The line at the end of an upstream telegram, the pick that follows it, and the telegrams that are bad
(O47). -/

namespace Sys2Proof.Machine

/-! ### The line at the end of an upstream telegram (R18) -/

theorem State.answerEnds_held {s : State} {ab : Bool} (h : s.lineHeld ab = true) :
    ∃ l : Line, l ≠ .free ∧ s.answerEnds ab = s.updChain fun ch => { ch with line := l } := by
  unfold State.answerEnds
  cases hl : s.chain.line with
  | sending y => exact ⟨.sending y, Line.noConfusion, by simp only [State.updChain, hl]⟩
  | free =>
    have : ab = true := by simpa [State.lineHeld, hl] using h
    exact ⟨.receiving, Line.noConfusion, by simp [State.updChain, hl, this]⟩
  | receiving =>
    have : ab = true := by simpa [State.lineHeld, hl] using h
    exact ⟨.receiving, Line.noConfusion, by simp [State.updChain, hl, this]⟩

theorem State.answerEnds_free {s : State} {ab : Bool} (h : s.lineHeld ab = false) : s.answerEnds ab = s.onFreeLine := by
  unfold State.answerEnds State.onFreeLine
  cases hl : s.chain.line with
  | sending y => simp [State.lineHeld, hl] at h
  | free =>
    have : ab = false := by simpa [State.lineHeld, hl] using h
    simp [State.updChain, hl, this]
  | receiving =>
    have : ab = false := by simpa [State.lineHeld, hl] using h
    simp [State.updChain, hl, this]

/-- The end of a telegram over a state whose line was free before it: the pick of that state. -/
theorem exec_telegramDone_begun {v : State} (h : v.chain.line = .free) (x : Downstream) :
    exec (.downstreamTelegramDone false) (v.beginTelegram x) = .next v.transmit.recompose := by
  have hv : (v.beginTelegram x).onFreeLine = v := by
    unfold State.onFreeLine State.beginTelegram State.updChain
    dsimp only
    rw [← h]
  rw [exec_telegramDone, State.telegramDone_false (x := x) rfl, hv]

/-! ### Bad telegrams (R19, R178) -/

/-- A bad telegram's command counts it, and the pick follows. -/
theorem bad_counted {s : State} {ab : Bool} {c : Instr}
    (h : exec c s = .next (s.answerEnds ab).countBad.transmit.recompose) :
    let risen : ChainCounters := { s.chain.counters with badTelegrams := min 65535 (s.chain.counters.badTelegrams + 1) }
    ∃ u : State, exec c s = .next u ∧
      (s.lineHeld ab = true →
        u.chain = { s.chain with line := u.chain.line, counters := risen } ∧
        u.chain.line ≠ .free ∧ u.queue = s.queue ∧ u.circuits = s.circuits ∧ u.cache = s.cache ∧ u.checks = s.checks ∧
        u.tables = s.tables ∧ u.store = s.store ∧ u.now = s.now ∧ u.pending = s.pending ∧
        s.image.SameRecords u.image ∧ s.port.SameInputs u.port ∧ u.port.request = s.port.request) ∧
      (s.lineHeld ab = false → ∀ x : Downstream,
        exec (.downstreamTelegramDone false) { s with chain := { s.chain with line := .sending x, counters := risen } } =
          .next u) := by
  refine ⟨_, h, fun held => ?_, fun free x => ?_⟩
  · obtain ⟨l, busy, hl⟩ := State.answerEnds_held held
    rw [hl, State.transmit_busy _ busy]
    simp only [State.recompose_chain, State.recompose_queue, State.recompose_circuits, State.recompose_checks,
      State.recompose_cache, State.recompose_tables, State.recompose_store, State.recompose_now, State.recompose_pending,
      State.recompose_request]
    exact ⟨rfl, busy, rfl, rfl, rfl, rfl, rfl, rfl, rfl, rfl, State.recompose_records _, State.recompose_sameInputs _, rfl⟩
  · rw [State.answerEnds_free free]
    exact exec_telegramDone_begun (v := s.onFreeLine.countBad) rfl x

theorem telegramSound_iff (kind : Byte) (t : UpTelegram) : telegramSound kind t = true ↔
    t.rest.length = t.length.toNat + 2 ∧ t.rest.drop t.length.toNat =
      crcBytes (crc16 ([kind, t.address, t.tag, t.length] ++ t.rest.take t.length.toNat)) := by
  unfold telegramSound telegramPayload
  simp

theorem indexOf_pos_some {n : Nat} {p : Pos} (h : indexOf 6 n = some p) : 1 ≤ n ∧ n ≤ 6 := by
  unfold indexOf at h
  split at h
  · rename_i hn
    exact hn
  · cases h

theorem byteAt_take {d : List Byte} {n i : Nat} (h : i < n) : byteAt (d.take n) i = byteAt d i := by
  unfold byteAt
  simp [h]

/-- What a telegram that is a REPORT meets (R178). -/
theorem parseReport_meets {t : UpTelegram} {r : ReportFields} (h : parseReport t = some r) :
    telegramSound 0x21 t = true ∧ (1 ≤ t.address.toNat ∧ t.address.toNat ≤ 6) ∧
    3 ≤ t.length.toNat ∧ t.length.toNat % 3 = 0 ∧ t.length.toNat ≤ 39 ∧
    byteAt t.rest 1 + 256 * byteAt t.rest 2 ≤ 400 := by
  unfold parseReport at h
  split at h
  · rename_i sound
    split at h
    · rename_i p hp
      dsimp only at h
      split at h
      · rename_i hlen
        obtain ⟨low, three, high, supply⟩ := hlen
        refine ⟨sound, indexOf_pos_some hp, low, three, high, ?_⟩
        have hs : numberAt (telegramPayload t) 1 2 = byteAt t.rest 1 + 256 * byteAt t.rest 2 := by
          unfold telegramPayload
          rw [numberAt, numberAt, numberAt, byteAt_take (by omega), byteAt_take (by omega)]
          rfl
        exact hs ▸ supply
      · cases h
    · cases h
  · cases h

/-- What a telegram that is an IDENT meets (R178). -/
theorem parseIdent_meets {t : UpTelegram} {i : IdentFields} (h : parseIdent t = some i) :
    telegramSound 0x22 t = true ∧ (1 ≤ t.address.toNat ∧ t.address.toNat ≤ 6) ∧
    t.length.toNat = 6 ∧ 1 ≤ byteAt t.rest 4 ∧ byteAt t.rest 4 ≤ 12 := by
  unfold parseIdent at h
  split at h
  · rename_i sound
    split at h
    · rename_i p hp
      dsimp only at h
      split at h
      · rename_i hlen
        obtain ⟨six, low, high⟩ := hlen
        have hc : byteAt (telegramPayload t) 4 = byteAt t.rest 4 := byteAt_take (by omega)
        exact ⟨sound, indexOf_pos_some hp, six, hc ▸ low, hc ▸ high⟩
      · cases h
    · cases h
  · cases h

theorem State.reportEnds_bad {t : UpTelegram} (h : parseReport t = none) (s : State) : s.reportEnds t = s.countBad := by
  unfold State.reportEnds
  rw [h]

theorem State.identEnds_bad {t : UpTelegram} (h : parseIdent t = none) (s : State) : s.identEnds t = s.countBad := by
  unfold State.identEnds
  rw [h]

/-- Bytes that are not a whole REPORT or IDENT telegram end as a bad telegram. -/
theorem State.telegramEnds_bad {bytes : List Byte} (h : wfBadTelegram bytes = true) (s : State) :
    s.telegramEnds bytes = s.countBad := by
  unfold State.telegramEnds
  split
  · rename_i kind t ht
    have short (kind : Byte) (sound : telegramSound kind t = true) : ¬t.rest.length < t.length.toNat + 2 := by
      have := ((telegramSound_iff kind t).1 sound).1
      omega
    have cut : t.rest.length < t.length.toNat + 2 ∨ (kind ≠ 0x21 ∧ kind ≠ 0x22) := by
      unfold splitHeader at ht
      split at ht
      · cases ht
        simp only [wfBadTelegram, Bool.or_eq_true, Bool.and_eq_true, decide_eq_true_eq, bne_iff_ne] at h
        exact h.imp_right fun h => ⟨h.1.2, h.2⟩
      · cases ht
    by_cases report : kind = 0x21
    · have none : parseReport t = none := Option.eq_none_iff_forall_ne_some.2 fun r hr =>
        cut.elim (short _ (parseReport_meets hr).1) fun k => k.1 report
      rw [if_pos report, s.reportEnds_bad none]
    · rw [if_neg report]
      by_cases ident : kind = 0x22
      · have none : parseIdent t = none := Option.eq_none_iff_forall_ne_some.2 fun i hi =>
          cut.elim (short _ (parseIdent_meets hi).1) fun k => k.2 ident
        rw [if_pos ident, s.identEnds_bad none]
      · rw [if_neg ident]
  · rfl

/-- Settles O47: each form of bad telegram fails a test of R178, and is counted before the pick. -/
theorem badTelegramsCounted : Obligations.BadTelegramsCounted := by
  refine fun s ab => ⟨fun bytes h => ?_, fun t h => ?_, fun t h => ?_⟩
  · exact bad_counted (by rw [← State.telegramEnds_bad h]; rfl)
  · have none : parseReport t = none := Option.eq_none_iff_forall_ne_some.2 fun r hr => by
      obtain ⟨sound, address, low, three, high, supply⟩ := parseReport_meets hr
      obtain ⟨whole, crc⟩ := (telegramSound_iff _ _).1 sound
      rcases h with h | h | h | h | h | h | h | h
      · omega
      · exact h crc
      all_goals omega
    exact bad_counted (by rw [← State.reportEnds_bad none]; rfl)
  · have none : parseIdent t = none := Option.eq_none_iff_forall_ne_some.2 fun i hi => by
      obtain ⟨sound, address, six, low, high⟩ := parseIdent_meets hi
      obtain ⟨whole, crc⟩ := (telegramSound_iff _ _).1 sound
      rcases h with h | h | h | h | h | h | h
      · omega
      · exact h crc
      all_goals omega
    exact bad_counted (by rw [← State.identEnds_bad none]; rfl)

end Sys2Proof.Machine
end

