-- ==== Sys2Proof/Proofs/ChainTimers.lean ====
section
/-! SUPPORT and PROOF. The timers of the Chain Master: enumeration, QUERY window and link error interval (O48). -/

namespace Sys2Proof.Machine

/-! ### A transmitter that finds nothing -/

theorem Queue.find_waiting {q : Queue} (h : ∀ e ∈ q.entries, e.state ≠ .waiting) (p : Entry → Bool) :
    q.entries.find? (fun e => e.state == .waiting && p e) = none :=
  List.find?_eq_none.2 fun e he hp => h e he (beq_iff_eq.1 (Bool.and_eq_true _ _ ▸ hp).1)

theorem State.transmit_quiet {s : State} (idle : ∀ e ∈ s.queue.entries, e.state ≠ .waiting) (slot : s.queue.slot = none)
    (requests : s.chain.linkRequests = []) (liveness : ¬(s.tables.mode = .setup ∧ s.chain.livenessPoll = true)) :
    s.transmit = s := by
  by_cases line : s.chain.line = .free
  · rw [State.transmit_check line (Queue.find_waiting idle _) slot requests,
      State.pickCheck_none (Queue.find_waiting idle _) (Queue.find_waiting idle _), if_neg liveness]
  · exact s.transmit_busy line

/-! ### ENUM_TIMEOUT (R26) -/

theorem State.enumOver_iff {s : State} {p : Pos} {x : Time} (probing : (s.posAt p).state = .probing)
    (timeout : (s.posAt p).enumTimeout = some x) : s.enumOver p = true ↔ x ≤ s.now := by
  unfold State.enumOver
  simp [probing, timeout]

/-- The attempt of a position is over, and a new ENUM waits. -/
def State.askedAgain (s : State) (p : Pos) : State := (s.updPos p fun r => { r with enumTimeout := none }).ask (.enum p)

/-- A position that answered no ENUM. -/
def State.gaveUp (s : State) (p : Pos) : State := s.updPos p fun r => { r with enumTimeout := none, state := .passive }

theorem State.enumExpiry_again {s : State} {p : Pos} (ended : s.enumOver p = true) (left : (s.posAt p).probeAttempts < 3) :
    s.enumExpiry p = s.askedAgain p :=
  (if_pos ended).trans (if_pos left)

theorem State.enumExpiry_last {s : State} {p : Pos} (ended : s.enumOver p = true) (last : 3 ≤ (s.posAt p).probeAttempts) :
    s.enumExpiry p = s.gaveUp p :=
  (if_pos ended).trans (if_neg (Nat.not_lt.2 last))

theorem exec_enumTimeout {s : State} {p : Pos} (ended : s.enumOver p = true) :
    exec (.enumTimeout p) s = .next (s.enumExpiry p).transmit.recompose := congrArg _ (if_pos ended)

theorem enumTimeout_effects {s : State} {p : Pos} {x : Time} (probing : (s.posAt p).state = .probing)
    (timeout : (s.posAt p).enumTimeout = some x) :
    (s.now < x → exec (.enumTimeout p) s = .next s) ∧
    (x ≤ s.now → s.chain.line ≠ .free → ∃ t : State, exec (.enumTimeout p) s = .next t ∧
      t.queue = s.queue ∧ t.circuits = s.circuits ∧ t.tables = s.tables ∧ t.now = s.now ∧
      (∀ q : Pos, q ≠ p → t.posAt q = s.posAt q) ∧
      ((s.posAt p).probeAttempts < 3 → t.chain.linkRequests = s.chain.linkRequests ++ [.enum p] ∧
        t.posAt p = { s.posAt p with enumTimeout := none }) ∧
      (3 ≤ (s.posAt p).probeAttempts → t.chain.linkRequests = s.chain.linkRequests ∧
        t.posAt p = { s.posAt p with enumTimeout := none, state := .passive })) := by
  refine ⟨fun early => congrArg _ (if_neg (mt (State.enumOver_iff probing timeout).1 (Nat.not_le.2 early))), fun late busy => ?_⟩
  have ended := (State.enumOver_iff probing timeout).2 late
  refine ⟨_, exec_enumTimeout ended, ?_⟩
  rw [State.transmit_busy _ ((State.PlacedFrom.enumExpiry s p).line ▸ busy)]
  by_cases left : (s.posAt p).probeAttempts < 3
  · rw [State.enumExpiry_again ended left]
    simp only [State.recompose_chain, State.recompose_queue, State.recompose_circuits, State.recompose_tables,
      State.recompose_now, State.recompose_posAt]
    exact ⟨rfl, rfl, rfl, rfl, fun q hq => State.updPos_posAt_ne s p q _ hq, fun _ => ⟨rfl, State.updPos_posAt_same s p _⟩,
      fun last => absurd left (Nat.not_lt.2 last)⟩
  · rw [State.enumExpiry_last ended (Nat.not_lt.1 left)]
    simp only [State.recompose_chain, State.recompose_queue, State.recompose_circuits, State.recompose_tables,
      State.recompose_now, State.recompose_posAt]
    exact ⟨rfl, rfl, rfl, rfl, fun q hq => State.updPos_posAt_ne s p q _ hq, fun l => absurd l left,
      fun _ => ⟨rfl, State.updPos_posAt_same s p _⟩⟩

/-- The ENUM that waits again goes at once on a free line when no SET and no request goes before it. -/
theorem enumTimeout_sends {s : State} {p : Pos} {x : Time} (probing : (s.posAt p).state = .probing)
    (timeout : (s.posAt p).enumTimeout = some x) (late : x ≤ s.now) (line : s.chain.line = .free)
    (sets : s.queue.firstSet = none) (slot : s.queue.slot = none) (left : (s.posAt p).probeAttempts < 3) :
    ∃ t : State, exec (.enumTimeout p) s = .next t ∧
      t.queue = s.queue ∧ t.circuits = s.circuits ∧ t.tables = s.tables ∧ t.now = s.now ∧ t.cache = s.cache ∧
      t.checks = s.checks ∧ t.store = s.store ∧ t.pending = s.pending ∧
      (s.chain.linkRequests = [] →
        t.chain.linkRequests = [] ∧ t.chain.line = .sending (.enum p) ∧
        (∀ q : Pos, q ≠ p → t.posAt q = s.posAt q) ∧
        t.posAt p = { s.posAt p with
          probeAttempts := (s.posAt p).probeAttempts + 1, enumTimeout := some (s.now + 20) }) ∧
      (∀ (r : LinkRequest) (rest : List LinkRequest), s.chain.linkRequests = r :: rest →
        t.chain.linkRequests = rest ++ [.enum p] ∧
        t.chain.line = .sending (match r with | .enum q => .enum q | .query q => .query q)) := by
  have ended := (State.enumOver_iff probing timeout).2 late
  refine ⟨_, exec_enumTimeout ended, ?_⟩
  rw [State.enumExpiry_again ended left]
  have pick (r rest) (h : s.chain.linkRequests ++ [.enum p] = r :: rest) :
      (s.askedAgain p).transmit = (s.askedAgain p).sendLink r rest :=
    State.transmit_request (s := s.askedAgain p) line sets slot h
  simp only [State.recompose_chain, State.recompose_queue, State.recompose_circuits, State.recompose_tables,
    State.recompose_now, State.recompose_cache, State.recompose_checks, State.recompose_store, State.recompose_pending,
    State.recompose_posAt]
  cases requests : s.chain.linkRequests with
  | nil =>
    rw [pick (.enum p) [] (by rw [requests]; rfl)]
    refine ⟨rfl, rfl, rfl, rfl, rfl, rfl, rfl, rfl, fun _ => ⟨rfl, rfl, fun q hq => ?_, ?_⟩, fun _ _ h => nomatch h⟩
    · rw [State.sendLink_enum_posAt, if_neg hq]
      exact State.updPos_posAt_ne s p q _ hq
    · have here : (s.askedAgain p).posAt p = { s.posAt p with enumTimeout := none } := State.updPos_posAt_same s p _
      rw [State.sendLink_enum_posAt, if_pos rfl, here]
      rfl
  | cons r rest =>
    rw [pick r (rest ++ [.enum p]) (by rw [requests]; rfl)]
    cases r with
    | enum q =>
      refine ⟨rfl, rfl, rfl, rfl, rfl, rfl, rfl, rfl, fun h => (nomatch h), fun r' rest' h => ?_⟩
      cases h
      exact ⟨rfl, rfl⟩
    | query q =>
      refine ⟨rfl, rfl, rfl, rfl, rfl, rfl, rfl, rfl, fun h => (nomatch h), fun r' rest' h => ?_⟩
      cases h
      exact ⟨rfl, rfl⟩

/-- After the third attempt, with nothing to send, the position is PASSIVE and nothing else changes. -/
theorem enumTimeout_passive {s : State} {p : Pos} {x : Time} (probing : (s.posAt p).state = .probing)
    (timeout : (s.posAt p).enumTimeout = some x) (late : x ≤ s.now) (idle : ∀ e ∈ s.queue.entries, e.state ≠ .waiting)
    (slot : s.queue.slot = none) (requests : s.chain.linkRequests = [])
    (liveness : ¬(s.tables.mode = .setup ∧ s.chain.livenessPoll = true)) (last : 3 ≤ (s.posAt p).probeAttempts) :
    ∃ t : State, exec (.enumTimeout p) s = .next t ∧
      t.chain = { s.chain with
        positions := upd s.chain.positions p fun r => { r with enumTimeout := none, state := .passive } } ∧
      t.queue = s.queue ∧ t.circuits = s.circuits ∧ t.tables = s.tables ∧ t.now = s.now ∧ t.cache = s.cache ∧
      t.checks = s.checks ∧ t.store = s.store ∧ t.pending = s.pending := by
  have ended := (State.enumOver_iff probing timeout).2 late
  refine ⟨_, exec_enumTimeout ended, ?_⟩
  rw [State.enumExpiry_last ended last, State.transmit_quiet (s := s.gaveUp p) idle slot requests liveness]
  simp only [State.recompose_chain, State.recompose_queue, State.recompose_circuits, State.recompose_tables,
    State.recompose_now, State.recompose_cache, State.recompose_checks, State.recompose_store, State.recompose_pending]
  exact ⟨rfl, rfl, rfl, rfl, rfl, rfl, rfl, rfl, rfl⟩

/-! ### QUERY_WINDOW_END (R32) -/

theorem queryWindowEnd_effects {s : State} {p : Pos} {x : Time} (window : (s.posAt p).queryUntil = some x) :
    (s.now < x → exec (.queryWindowEnd p) s = .next s) ∧
    (x ≤ s.now → exec (.queryWindowEnd p) s = .next { s with chain := { s.chain with
      positions := upd s.chain.positions p fun r => { r with queryUntil := none } } }) := by
  have ended : s.queryOver p = true ↔ x ≤ s.now := by
    unfold State.queryOver
    simp [window]
  exact ⟨fun early => congrArg _ (if_neg (mt ended.1 (Nat.not_le.2 early))), fun late => congrArg _ (if_pos (ended.2 late))⟩

/-! ### LINK_ERROR_INTERVAL_END (R49) -/

/-- A position's LINK_DEGRADED clears at an interval's end: it is set, over a count of at most half the threshold. -/
def State.recovers (s : State) (p : Pos) : Bool :=
  (s.posAt p).linkDegraded && decide ((s.posAt p).linkErrors ≤ s.settings.linkThreshold / 2)

/-- A position's record after an interval's end. -/
def State.intervalRecord (s : State) (p : Pos) : Position :=
  { s.posAt p with linkErrors := 0, linkDegraded := (s.posAt p).linkDegraded && !s.recovers p }

/-- A listed fault after the interval's end at the positions `ps`. -/
def State.intervalFault (s : State) (ps : List Pos) (e : FaultEntry) : FaultEntry :=
  if e.key.pos ∈ ps ∧ e.key = posFault e.key.pos .linkDegraded ∧ s.recovers e.key.pos = true then { e with active := false }
  else e

theorem State.endLinkInterval_eq (s : State) (p : Pos) : s.endLinkInterval p =
    (if s.recovers p = true then s.clearLinkDegraded p else s).updPos p fun r => { r with linkErrors := 0 } := rfl

theorem State.endLinkInterval_posAt (s : State) (p q : Pos) :
    (s.endLinkInterval p).posAt q = if q = p then s.intervalRecord q else s.posAt q := by
  unfold State.intervalRecord
  rw [State.endLinkInterval_eq, State.updPos_posAt]
  by_cases hq : q = p
  · subst hq
    by_cases h : s.recovers q = true
    · have here : (s.clearLinkDegraded q).posAt q = { s.posAt q with linkDegraded := false } := State.updPos_posAt_same s q _
      rw [if_pos rfl, if_pos rfl, if_pos h, here, h, Bool.not_true, Bool.and_false]
    · rw [if_pos rfl, if_pos rfl, if_neg h, Bool.eq_false_iff.2 h, Bool.not_false, Bool.and_true]
  · rw [if_neg hq, if_neg hq]
    split
    · exact State.updPos_posAt_ne s p q _ hq
    · rfl

theorem FaultKey.eq_posFault (k : FaultKey) (p : Pos) (kind : FaultKind) :
    k = posFault p kind ↔ k.pos = p ∧ k.circ = none ∧ k.kind = kind := by
  cases k
  simp [posFault]

theorem State.intervalFault_of_ne {s : State} {ps : List Pos} {e : FaultEntry} (h : e.key.pos ∉ ps) : s.intervalFault ps e = e :=
  if_neg fun k => h k.1

theorem State.endLinkInterval_faults (s : State) (p : Pos) :
    (s.endLinkInterval p).image.faults = s.image.faults.map (s.intervalFault [p]) := by
  have key (e : FaultEntry) : (e.key.pos ∈ [p] ∧ e.key = posFault e.key.pos .linkDegraded ∧ s.recovers e.key.pos = true) ↔
      e.key = posFault p .linkDegraded ∧ s.recovers p = true := by
    rw [List.mem_singleton]
    constructor
    · rintro ⟨rfl, k, r⟩
      exact ⟨k, r⟩
    · rintro ⟨k, r⟩
      have hp : e.key.pos = p := congrArg FaultKey.pos k
      exact ⟨hp, hp ▸ k, hp ▸ r⟩
  unfold State.intervalFault
  rw [State.endLinkInterval_eq]
  simp only [key]
  by_cases h : s.recovers p = true
  · simp only [h, and_true, if_true]
    refine List.map_congr_left fun e _ => ?_
    simp only [beq_iff_eq]
  · simp only [h, Bool.false_eq_true, and_false, if_false, List.map_id']
    rfl

/-- `u` is `s` but for the position records and the fault list's entries. -/
structure State.IntervalFrom (s u : State) : Prop where
  eq : u = { s with
    chain := { s.chain with positions := u.chain.positions }, image := { s.image with faults := u.image.faults } }

theorem State.IntervalFrom.trans (s t u : State) (a : s.IntervalFrom t) (b : t.IntervalFrom u) : s.IntervalFrom u :=
  ⟨by rw [b.eq, a.eq]⟩

theorem State.IntervalFrom.endLinkInterval (s : State) (p : Pos) : s.IntervalFrom (s.endLinkInterval p) := by
  unfold State.endLinkInterval
  dsimp only
  split <;> exact ⟨rfl⟩

theorem State.endLinkIntervals (l : List Pos) (nodup : l.Nodup) (s : State) :
    (∀ q, (l.foldl State.endLinkInterval s).posAt q = if q ∈ l then s.intervalRecord q else s.posAt q) ∧
    (l.foldl State.endLinkInterval s).image.faults = s.image.faults.map (s.intervalFault l) := by
  induction l generalizing s with
  | nil =>
    have none : s.intervalFault [] = id := funext fun e => State.intervalFault_of_ne List.not_mem_nil
    exact ⟨fun _ => rfl, by rw [none, List.map_id]; rfl⟩
  | cons p l ih =>
    obtain ⟨hp, hl⟩ := List.nodup_cons.1 nodup
    obtain ⟨pos, faults⟩ := ih hl (s.endLinkInterval p)
    have settings : (s.endLinkInterval p).settings = s.settings := by
      unfold State.settings
      rw [(State.IntervalFrom.endLinkInterval s p).eq]
    have record : ∀ q, q ≠ p → (s.endLinkInterval p).posAt q = s.posAt q := fun q hq => by
      rw [State.endLinkInterval_posAt, if_neg hq]
    have recovers : ∀ q, q ≠ p → (s.endLinkInterval p).recovers q = s.recovers q := fun q hq => by
      unfold State.recovers
      rw [record q hq, settings]
    rw [List.foldl_cons]
    refine ⟨fun q => ?_, ?_⟩
    · rw [pos q]
      by_cases hq : q = p
      · rw [hq, if_neg hp, if_pos (List.mem_cons_self), State.endLinkInterval_posAt, if_pos rfl]
      · unfold State.intervalRecord
        rw [recovers q hq, record q hq]
        simp only [List.mem_cons, hq, false_or]
    · rw [faults, State.endLinkInterval_faults, List.map_map]
      refine List.map_congr_left fun e _ => ?_
      rw [Function.comp_apply]
      by_cases he : e.key.pos = p
      · have kept : (s.intervalFault [p] e).key = e.key := by
          unfold State.intervalFault
          split <;> rfl
        rw [State.intervalFault_of_ne (by rwa [kept, he])]
        unfold State.intervalFault
        simp only [he, List.mem_cons, true_or]
      · rw [State.intervalFault_of_ne (ps := [p]) (by simpa using he)]
        unfold State.intervalFault
        rw [recovers _ he]
        simp only [List.mem_cons, he, false_or]

theorem exec_linkErrorIntervalEnd (s : State) : exec .linkErrorIntervalEnd s =
    .next (if s.linkIntervalOver = true then s.linkIntervalExpiry.recompose else s) := rfl

theorem linkErrorIntervalEnd_effects (s : State) :
    (s.now < s.chain.linkIntervalEnd → exec .linkErrorIntervalEnd s = .next s) ∧
    (s.chain.linkIntervalEnd ≤ s.now → ∃ t : State, exec .linkErrorIntervalEnd s = .next t ∧
      t.chain.linkIntervalEnd = s.chain.linkIntervalEnd + 10000 ∧
      (∀ p : Pos, t.posAt p = { s.posAt p with
        linkErrors := 0
        linkDegraded := (s.posAt p).linkDegraded && decide (s.settings.linkThreshold / 2 < (s.posAt p).linkErrors) }) ∧
      t.image.faults = s.image.faults.map (fun e =>
        if e.key.circ = none ∧ e.key.kind = .linkDegraded ∧ (s.posAt e.key.pos).linkDegraded = true ∧
            (s.posAt e.key.pos).linkErrors ≤ s.settings.linkThreshold / 2 then { e with active := false } else e) ∧
      t.chain.line = s.chain.line ∧ t.chain.counters = s.chain.counters ∧ t.queue = s.queue ∧
      t.circuits = s.circuits ∧ t.checks = s.checks ∧ t.cache = s.cache ∧ t.tables = s.tables ∧ t.store = s.store ∧
      t.now = s.now) := by
  have ended : s.linkIntervalOver = true ↔ s.chain.linkIntervalEnd ≤ s.now := decide_eq_true_iff
  refine ⟨fun early => congrArg _ (if_neg (mt ended.1 (Nat.not_le.2 early))), fun late => ?_⟩
  have expired : s.linkIntervalExpiry = (allPos.foldl State.endLinkInterval s).updChain fun ch =>
      { ch with linkIntervalEnd := ch.linkIntervalEnd + Config.linkIntervalMs } := if_pos (ended.2 late)
  obtain ⟨pos, faults⟩ := State.endLinkIntervals allPos (by decide) s
  have frame : s.IntervalFrom (allPos.foldl State.endLinkInterval s) :=
    foldl_keeps State.IntervalFrom (fun _ => ⟨rfl⟩) .trans _ .endLinkInterval allPos s
  refine ⟨_, (exec_linkErrorIntervalEnd s).trans (by rw [if_pos (ended.2 late), expired]), ?_⟩
  simp only [State.recompose_chain, State.recompose_posAt, State.recompose_faults, State.recompose_queue,
    State.recompose_circuits, State.recompose_checks, State.recompose_cache, State.recompose_tables,
    State.recompose_store, State.recompose_now]
  generalize allPos.foldl State.endLinkInterval s = u at pos faults frame
  refine ⟨?_, fun p => ?_, faults.trans ?_, ?_, ?_, ?_, ?_, ?_, ?_, ?_, ?_, ?_⟩
  · show u.chain.linkIntervalEnd + 10000 = _
    rw [frame.eq]
  · refine ((pos p).trans (if_pos (mem_allPos p))).trans ?_
    unfold State.intervalRecord State.recovers
    cases (s.posAt p).linkDegraded with
    | false => rfl
    | true => simp [← decide_not]
  · refine List.map_congr_left fun e _ => ?_
    unfold State.intervalFault State.recovers
    simp only [mem_allPos, true_and, FaultKey.eq_posFault, Bool.and_eq_true, decide_eq_true_eq, and_assoc]
  all_goals
    simp only [State.updChain_chain, State.updChain_queue, State.updChain_circuits, State.updChain_checks,
      State.updChain_cache, State.updChain_tables, State.updChain_store, State.updChain_now]
    rw [frame.eq]

/-- Settles O48: each timer's expiry is one equation of its operation, and the pick of a free line sends the request that is
pending first. -/
theorem chainTimers : Obligations.ChainTimers := by
  refine ⟨fun s p x probing timeout => ?_, fun s x p rest sending sets slot requests => ⟨?_, ?_⟩,
    fun s p x window => queryWindowEnd_effects window, linkErrorIntervalEnd_effects⟩
  · obtain ⟨early, busy⟩ := enumTimeout_effects probing timeout
    exact ⟨early, busy, fun late line sets slot left => enumTimeout_sends probing timeout late line sets slot left,
      fun late _ idle slot requests liveness last =>
        enumTimeout_passive probing timeout late idle slot requests liveness last⟩
  · refine ⟨_, exec_telegramDone s true, ?_⟩
    rw [State.recompose_chain, State.telegramDone_true sending]
    rfl
  · refine ⟨_, exec_telegramDone s false, ?_⟩
    rw [State.telegramDone_false sending, State.transmit_request (s := s.onFreeLine) rfl sets slot requests]
    simp only [State.recompose_chain, State.recompose_queue, State.recompose_circuits, State.recompose_posAt]
    refine ⟨rfl, rfl, rfl, rfl, fun q hq => ?_, ?_⟩
    · exact (State.sendLink_enum_posAt s.onFreeLine p q rest).trans (if_neg hq)
    · exact (State.sendLink_enum_posAt s.onFreeLine p p rest).trans (if_pos rfl)

end Sys2Proof.Machine
end

