-- ==== Sys2Proof/Proofs/LinkErrors.lean ====
section
/-! SUPPORT. Link errors at a position as one equation (R49, R50, R138), and what the judging of answers depends on. -/

namespace Sys2Proof.Machine

/-! ### One record rewritten -/

theorem State.updPos_congr {s : State} {p : Pos} {f g : Position → Position} (h : f (s.posAt p) = g (s.posAt p)) :
    s.updPos p f = s.updPos p g := by
  have hu : upd s.chain.positions p f = upd s.chain.positions p g := congrArg (s.chain.positions.set p) h
  unfold State.updPos
  rw [hu]

theorem State.updPos_updPos (s : State) (p : Pos) (f g : Position → Position) :
    (s.updPos p f).updPos p g = s.updPos p fun r => g (f r) := by
  have hu : upd (upd s.chain.positions p f) p g = upd s.chain.positions p fun r => g (f r) := by
    simp [upd]
  unfold State.updPos
  dsimp only
  rw [hu]

/-! ### Link errors -/

/-- A record after `n` more link errors, `degraded` its LINK_DEGRADED then. -/
def Position.withErrors (r : Position) (n : Nat) (degraded : Bool) : Position :=
  { r with linkErrors := min 65535 (r.linkErrors + n), linkDegraded := degraded }

theorem State.addLinkErrors_eq (s : State) (p : Pos) (n : Nat) : s.addLinkErrors p n =
    { s.updPos p fun r => r.withErrors n (decide (s.DegradedBy p n)) with image := s.imageAfterErrors p n } := by
  have counted : ((s.updPos p fun r => { r with linkErrors := bump r.linkErrors n }).posAt p) =
      { s.posAt p with linkErrors := min 65535 ((s.posAt p).linkErrors + n) } := State.updPos_posAt_same s p _
  unfold State.addLinkErrors State.imageAfterErrors State.raiseLinkDegraded
  dsimp only
  rw [counted]
  dsimp only
  by_cases held : (s.posAt p).linkDegraded = true
  · have degraded : s.DegradedBy p n := .inl held
    rw [if_pos held, ite_self, if_neg (by simp [held]), decide_eq_true degraded]
    refine State.updPos_congr ?_
    unfold Position.withErrors
    rw [← held]
    rfl
  · have clear : (s.posAt p).linkDegraded = false := Bool.eq_false_iff.2 held
    by_cases exceeds : n ≠ 0 ∧ s.settings.linkThreshold < min 65535 ((s.posAt p).linkErrors + n)
    · have degraded : s.DegradedBy p n := .inr exceeds
      rw [if_pos exceeds, if_neg held, if_pos ⟨clear, degraded⟩, decide_eq_true degraded, State.updPos_updPos]
      rfl
    · have stands : ¬s.DegradedBy p n := fun h => h.elim held exceeds
      rw [if_neg exceeds, if_neg (fun h => stands h.2), decide_eq_false stands]
      refine State.updPos_congr ?_
      unfold Position.withErrors
      rw [← clear]
      rfl

/-- A position's counters do not bear on its LINK_DEGRADED. -/
theorem State.degradedBy_counters (s : State) (p : Pos) (f : PosCounters → PosCounters) (n : Nat) :
    ((s.updPos p fun r => { r with counters := f r.counters }).DegradedBy p n) = s.DegradedBy p n := by
  unfold State.DegradedBy
  rw [State.updPos_posAt_same]
  rfl

theorem State.imageAfterErrors_counters (s : State) (p : Pos) (f : PosCounters → PosCounters) (n : Nat) :
    (s.updPos p fun r => { r with counters := f r.counters }).imageAfterErrors p n = s.imageAfterErrors p n := by
  unfold State.imageAfterErrors
  simp only [State.degradedBy_counters, State.updPos_posAt_same]
  rfl

/-- Link errors after a rewrite of the position's counters. -/
theorem State.addLinkErrors_counters (s : State) (p : Pos) (f : PosCounters → PosCounters) (n : Nat) :
    (s.updPos p fun r => { r with counters := f r.counters }).addLinkErrors p n =
      { s.updPos p (fun _ => { (s.posAt p).withErrors n (decide (s.DegradedBy p n)) with
          counters := f (s.posAt p).counters }) with image := s.imageAfterErrors p n } := by
  rw [State.addLinkErrors_eq, State.updPos_updPos, State.imageAfterErrors_counters]
  simp only [State.degradedBy_counters]
  exact congrArg (fun u : State => ({ u with image := s.imageAfterErrors p n } : State)) (State.updPos_congr rfl)

/-- The record of a position that missed an answer (R50). -/
def State.missedRecord (s : State) (p : Pos) : Position :=
  { (s.posAt p).withErrors 1 (decide (s.DegradedBy p 1)) with
    counters := { (s.posAt p).counters with missedAnswers := min 65535 ((s.posAt p).counters.missedAnswers + 1) } }

theorem State.addMissed_eq (s : State) (p : Pos) : s.addMissed p =
    { s.updPos p fun _ => s.missedRecord p with image := s.imageAfterErrors p 1 } :=
  s.addLinkErrors_counters p (fun k => { k with missedAnswers := bump k.missedAnswers 1 }) 1

/-- The record of a position whose far-end errors are added (R49). -/
def State.farEndRecord (s : State) (p : Pos) (n : Nat) : Position :=
  { (s.posAt p).withErrors n (decide (s.DegradedBy p n)) with
    counters := { (s.posAt p).counters with
      linkErrorsTotal := min 65535 ((s.posAt p).counters.linkErrorsTotal + n) } }

theorem State.addFarEnd_eq (s : State) (p : Pos) (n : Nat) : s.addFarEnd p n =
    { s.updPos p fun _ => s.farEndRecord p n with image := s.imageAfterErrors p n } :=
  s.addLinkErrors_counters p (fun k => { k with linkErrorsTotal := bump k.linkErrorsTotal n }) n

/-- What link errors leave of the Image Builder beside the fault list. -/
theorem State.imageAfterErrors_frame (s : State) (p : Pos) (n : Nat) : s.imageAfterErrors p n = { s.image with
    faults := (s.imageAfterErrors p n).faults, overflow := (s.imageAfterErrors p n).overflow
    sequence := (s.imageAfterErrors p n).sequence } := by
  unfold State.imageAfterErrors
  split
  · exact faultAdd_frame _ _
  · rfl

/-! ### Missed answers at a deadline (R50, R67) -/

/-- The fault list after the missed answers of the positions `ps`, in their order. -/
def State.imageAfterMissed (s : State) (ps : List Pos) (ib : ImageBuilder) : ImageBuilder :=
  ps.foldl (fun ib p =>
    if (s.posAt p).linkDegraded = false ∧ s.DegradedBy p 1 then faultAdd ⟨p, none, .linkDegraded⟩ ib else ib) ib

theorem State.imageAfterMissed_frame (s : State) (ps : List Pos) (ib : ImageBuilder) :
    s.imageAfterMissed ps ib = { ib with
      faults := (s.imageAfterMissed ps ib).faults, overflow := (s.imageAfterMissed ps ib).overflow
      sequence := (s.imageAfterMissed ps ib).sequence } := by
  refine foldl_keeps (fun a b : ImageBuilder => b = { a with
    faults := b.faults, overflow := b.overflow, sequence := b.sequence }) (fun _ => rfl)
    (fun a b c hab hbc => by rw [hbc, hab]) _ (fun ib p => ?_) ps ib
  split
  · exact faultAdd_frame _ _
  · rfl

/-- The missed answers of distinct positions. -/
theorem State.foldl_addMissed (test : Pos → Bool) (l : List Pos) (nodup : l.Nodup) (s : State) : ∃ positions,
    l.foldl (fun s p => if test p then s.addMissed p else s) s =
      { s with chain := { s.chain with positions := positions }, image := s.imageAfterMissed (l.filter test) s.image } ∧
    ∀ q : Pos, positions[q] = if q ∈ l.filter test then s.missedRecord q else s.posAt q := by
  induction l generalizing s with
  | nil => exact ⟨s.chain.positions, rfl, fun _ => rfl⟩
  | cons p l ih =>
    obtain ⟨hp, hl⟩ := List.nodup_cons.1 nodup
    rw [List.foldl_cons]
    by_cases missing : test p = true
    · rw [if_pos missing, List.filter_cons_of_pos missing]
      obtain ⟨positions, eq, record⟩ := ih hl (s.addMissed p)
      have other : ∀ q, q ≠ p → (s.addMissed p).posAt q = s.posAt q := (State.CountedFrom.addMissed p s).others
      have degraded : ∀ q, q ≠ p → (s.addMissed p).DegradedBy q 1 = s.DegradedBy q 1 := fun q hq => by
        unfold State.DegradedBy State.settings
        rw [other q hq, (State.ChainFrom.addMissed s p).tables]
      have apart : ∀ q ∈ l.filter test, q ≠ p := fun q hq h => hp (h ▸ List.mem_of_mem_filter hq)
      have image : (s.addMissed p).imageAfterMissed (l.filter test) (s.addMissed p).image =
          s.imageAfterMissed (p :: l.filter test) s.image := by
        have first : (s.addMissed p).image = s.imageAfterErrors p 1 := by rw [State.addMissed_eq]
        rw [first]
        refine List.foldl_ext _ _ _ fun ib q hq => ?_
        simp only [other q (apart q hq), degraded q (apart q hq)]
      refine ⟨positions, ?_, fun q => ?_⟩
      · rw [eq, image, State.addMissed_eq]
        rfl
      · rw [record q]
        by_cases hq : q = p
        · rw [if_neg (fun h => apart q h hq), hq, if_pos List.mem_cons_self, State.addMissed_eq]
          exact State.updPos_posAt_same s p _
        · unfold State.missedRecord
          simp only [List.mem_cons, hq, false_or, other q hq, degraded q hq]
    · rw [if_neg missing, List.filter_cons_of_neg missing]
      exact ih hl s

/-! ### What the judging of answers depends on (R80 to R98) -/

/-- Two states in which answers are judged alike: equal tables, circuits and circuit counts. -/
structure State.JudgesAlike (s u : State) : Prop where
  tables : u.tables = s.tables
  circuits : u.circuits = s.circuits
  counts : ∀ p, (u.posAt p).circuitCount = (s.posAt p).circuitCount

theorem State.healCondition_circuits (s : State) (p : Pos) (c : Circ) (k : Condition) :
    (s.healCondition p c k).circuits = s.circuits := by
  unfold State.healCondition
  split <;> rfl

theorem State.addCondition_circuits (s : State) (p : Pos) (c : Circ) (k : Condition) :
    (s.addCondition p c k).circuits = s.circuits := by
  unfold State.addCondition
  split <;> rfl

theorem State.confirm_circuits (s : State) (p : Pos) (c : Circ) (v : Verdict) : (s.confirm p c v).circuits =
    if moveCondition v (s.circAt p c).condition = (s.circAt p c).condition then s.circuits
    else upd s.circuits p fun cs => upd cs c fun k => { k with
      condition := moveCondition v (s.circAt p c).condition
      baseline := if repaired (s.circAt p c).condition (moveCondition v (s.circAt p c).condition) then .none else k.baseline } := by
  unfold State.confirm
  dsimp only
  split
  · rfl
  · rw [State.addCondition_circuits, State.healCondition_circuits]
    rfl

theorem State.feedTest_circuits (s : State) (p : Pos) (js : List Judged) : (s.feedTest p js).circuits = s.circuits := by
  unfold State.feedTest State.raiseFeedLost State.clearFeedLost
  split
  · split <;> rfl
  · split
    · split <;> rfl
    · rfl

section
variable {s u : State} (h : s.JudgesAlike u)
include h

theorem State.JudgesAlike.judged {s' u' : State} (a : s.JudgedFrom s') (b : u.JudgedFrom u')
    (circuits : u'.circuits = s'.circuits) : s'.JudgesAlike u' :=
  ⟨by rw [a.tables, b.tables, h.tables], circuits, fun p => by rw [a.count, b.count, h.counts]⟩

theorem State.JudgesAlike.rowAt (p : Pos) (c : Circ) : u.rowAt p c = s.rowAt p c := by
  unfold State.rowAt
  rw [h.tables]

theorem State.JudgesAlike.profileAt (p : Pos) (c : Circ) : u.profileAt p c = s.profileAt p c := by
  unfold State.profileAt
  simp only [h.rowAt, h.tables]

theorem State.JudgesAlike.circAt (p : Pos) (c : Circ) : u.circAt p c = s.circAt p c := by
  unfold State.circAt
  rw [h.circuits]

theorem State.JudgesAlike.usedReadings (e : Entry) (x : Transmission) (a : Answer) :
    u.usedReadings e x a = s.usedReadings e x a := by
  unfold State.usedReadings State.usedReading State.judge State.reference State.fitted
  simp only [h.rowAt, h.profileAt, h.circAt, h.counts]

theorem State.JudgesAlike.setSupplyLow (p : Pos) (b : Bool) : (s.setSupplyLow p b).JudgesAlike (u.setSupplyLow p b) :=
  h.judged (.setSupplyLow s p b) (.setSupplyLow u p b) h.circuits

theorem State.JudgesAlike.feedTest (p : Pos) (js : List Judged) : (s.feedTest p js).JudgesAlike (u.feedTest p js) :=
  h.judged (.feedTest s p js) (.feedTest u p js) (by rw [State.feedTest_circuits, State.feedTest_circuits, h.circuits])

theorem State.JudgesAlike.updCirc (p : Pos) (c : Circ) (f : Circuit → Circuit) :
    (s.updCirc p c f).JudgesAlike (u.updCirc p c f) :=
  ⟨h.tables, by simp only [State.updCirc_circuits, h.circuits], h.counts⟩

theorem State.JudgesAlike.confirm (p : Pos) (c : Circ) (v : Verdict) : (s.confirm p c v).JudgesAlike (u.confirm p c v) := by
  refine h.judged (.confirm s p c v) (.confirm u p c v) ?_
  rw [State.confirm_circuits, State.confirm_circuits, h.circAt, h.circuits]

theorem State.JudgesAlike.takeReading (p : Pos) (kind : EntryKind) (loss : Bool) (j : Judged) :
    (State.takeReading p kind loss s j).JudgesAlike (State.takeReading p kind loss u j) := by
  have recorded : (s.record p kind loss j).JudgesAlike (u.record p kind loss j) := h.updCirc p j.circ _
  have handed : ((s.record p kind loss j).handBaseline p loss j).JudgesAlike
      ((u.record p kind loss j).handBaseline p loss j) := by
    unfold State.handBaseline
    rw [recorded.profileAt]
    split
    · exact recorded.updCirc p j.circ _
    · exact recorded
  unfold State.takeReading State.toConfirmation
  split
  · exact handed
  · have agreed := handed.updCirc p j.circ (agree ((((s.record p kind loss j).handBaseline p loss j).profileAt p j.circ).confirmCount)
      j.verdict)
    rw [handed.profileAt]
    dsimp only
    rw [agreed.circAt]
    split
    · exact agreed.confirm p j.circ j.verdict
    · exact agreed

end

theorem State.JudgesAlike.takeReadings (p : Pos) (kind : EntryKind) (loss : Bool) (js : List Judged) {s u : State}
    (h : s.JudgesAlike u) : (js.foldl (State.takeReading p kind loss) s).JudgesAlike (js.foldl (State.takeReading p kind loss) u) := by
  induction js generalizing s u with
  | nil => exact h
  | cons j js ih => exact ih (h.takeReading p kind loss j)

theorem State.JudgesAlike.reconcile {s u : State} (h : s.JudgesAlike u) (e : Entry) (x : Transmission) (a : Answer) :
    (s.reconcile e x a).JudgesAlike (u.reconcile e x a) := by
  have settings : u.settings = s.settings := congrArg (fun t : MapTables => t.tables.settings) h.tables
  unfold State.reconcile
  rw [settings]
  split
  · exact h
  · split
    · exact h.setSupplyLow _ _
    · dsimp only
      rw [(h.setSupplyLow a.pos false).usedReadings]
      exact .takeReadings _ _ _ _ ((h.setSupplyLow a.pos false).feedTest _ _)

/-- The circuits after an entry's answers are handed depend on the tables, the circuits and the circuit counts alone. -/
theorem State.JudgesAlike.handAnswers {s u : State} (h : s.JudgesAlike u) (e : Entry) :
    (s.handAnswers e).JudgesAlike (u.handAnswers e) := by
  unfold State.handAnswers
  split
  · rename_i x _
    generalize allPos = l
    induction l generalizing s u with
    | nil => exact h
    | cons p l ih =>
      rw [List.foldl_cons, List.foldl_cons]
      refine ih ?_
      split
      · exact h.reconcile e x _
      · exact h
  · exact h

theorem State.handAnswers_none {s : State} {e : Entry} (none : e.answers = []) : s.handAnswers e = s := by
  unfold State.handAnswers
  split
  · rw [none]
    exact List.foldl_fixed allPos
  · rfl

end Sys2Proof.Machine
end

