-- ==== Sys2Proof/Proofs/Deadlines.lean ====
section
/-! PROOF. DEADLINE: the missing positions counted, the entry EXPIRED, and its retirement as the head (O50). -/

namespace Sys2Proof.Machine

/-! ### Retirement at the head (R69 to R72) -/

/-- No entry retires behind a head that is not final. -/
theorem State.retire_of_head {s : State} (h : ∀ e ∈ s.queue.entries.head?, e.state.final = false) : s.retire = s := by
  unfold State.retire
  cases he : s.queue.entries with
  | nil => rfl
  | cons e rest =>
    have live : e.state.final = false := h e (by rw [he]; rfl)
    rw [State.retireFrom, if_neg (by simp [live])]

/-- A final head retires alone when the entry behind it is not final. -/
theorem State.retire_one {s : State} {e : Entry} {rest : List Entry} (he : s.queue.entries = e :: rest)
    (done : e.state.final = true) (next : ∀ y ∈ rest.head?, y.state.final = false) : s.retire = s.retireOne e rest := by
  unfold State.retire
  rw [he, State.retireFrom, if_pos done]
  exact (s.retireOne e rest).retire_of_head next

/-- The image an entry's retirement leaves as the retired one (R71). -/
theorem State.retireOne_retired (s : State) (e : Entry) (rest : List Entry) : (s.retireOne e rest).image.retired =
    match e.image with
    | none => s.image.retired
    | some i => if e.overtaken = true then s.image.retired else i := by
  have hr : (s.handAnswers e).image.retired = s.image.retired := by rw [(State.JudgedFrom.handAnswers s e).image]
  have hc (u : State) : (u.clearUntracked e).image.retired = u.image.retired := by
    unfold State.clearUntracked
    split
    · split <;> rfl
    · rfl
  unfold State.retireOne
  rw [State.updQueue_image, hc]
  unfold State.setRetired
  cases e.image with
  | none => exact hr
  | some i =>
    dsimp only
    split
    · exact hr
    · rfl

/-- The last steps of a retirement leave the circuits and the fault list. -/
theorem State.retireOne_judged (s : State) (e : Entry) (rest : List Entry) :
    (s.retireOne e rest).circuits = (s.handAnswers e).circuits ∧
    (s.retireOne e rest).image.faults = (s.handAnswers e).image.faults := by
  have hc (u : State) : (u.clearUntracked e).circuits = u.circuits ∧ (u.clearUntracked e).image.faults = u.image.faults := by
    unfold State.clearUntracked
    split
    · split <;> exact ⟨rfl, rfl⟩
    · exact ⟨rfl, rfl⟩
  have hs (u : State) : (u.setRetired e).circuits = u.circuits ∧ (u.setRetired e).image.faults = u.image.faults := by
    unfold State.setRetired
    split
    · split <;> exact ⟨rfl, rfl⟩
    · exact ⟨rfl, rfl⟩
  exact ⟨(hc _).1.trans (hs _).1, (hc _).2.trans (hs _).2⟩

theorem State.retireOne_queue (s : State) (e : Entry) (rest : List Entry) :
    (s.retireOne e rest).queue = { s.queue with entries := rest } := by
  rw [(State.RetiredFrom.retireOne s e rest).queue]
  rfl

/-! ### The expiry -/

theorem exec_deadline (s : State) (tag : Nat) : exec (.deadline tag) s = .next (match s.queue.find tag with
    | some e => if e.overdue s.now then (s.expire e).recompose else s
    | none => s) := rfl

theorem Entry.overdue_iff {e : Entry} {x : Transmission} (sent : e.tx = some x) (now : Time) :
    e.overdue now = true ↔ e.state = .pending ∧ e.answered ≠ e.required ∧ x.deadline ≤ now := by
  unfold Entry.overdue
  rw [sent]
  simp [and_assoc]

/-- The positions whose answers an entry misses, in ascending order. -/
def Entry.missing (e : Entry) : List Pos := allPos.filter fun p => hasPos e.required p && !hasPos e.answered p

/-- The state in which an entry's missing positions are counted and it is EXPIRED, before the retirements. -/
structure State.MissedFrom (s u : State) (e : Entry) : Prop where
  eq : u = { s with
    chain := { s.chain with positions := u.chain.positions }
    queue := { s.queue with entries := s.queue.entries.map fun y => if y.tag = e.tag then { e with state := .expired } else y }
    image := s.imageAfterMissed e.missing s.image }
  record : ∀ q, u.posAt q = if q ∈ e.missing then s.missedRecord q else s.posAt q

theorem State.expire_eq {s : State} {e : Entry} (tags : s.TagsInOrder) (he : e ∈ s.queue.entries) :
    ∃ u, s.expire e = u.retire ∧ s.MissedFrom u e := by
  obtain ⟨positions, eq, record⟩ := State.foldl_addMissed (fun p => hasPos e.required p && !hasPos e.answered p) allPos
    (by decide) (s.updEntry e.tag fun e => { e with state := .expired })
  have entries : (s.updEntry e.tag fun e => { e with state := .expired }).queue.entries =
      s.queue.entries.map fun y => if y.tag = e.tag then { e with state := .expired } else y :=
    List.map_congr_left fun y hy => by
      by_cases ht : y.tag = e.tag
      · simp [tags.entry_unique he hy ht]
      · simp [ht]
  refine ⟨_, congrArg State.retire eq, ?_, record⟩
  rw [← entries]
  rfl

theorem State.MissedFrom.image {s u : State} {e : Entry} (h : s.MissedFrom u e) :
    u.image = s.imageAfterMissed e.missing s.image := by rw [h.eq]

theorem State.MissedFrom.retired {s u : State} {e : Entry} (h : s.MissedFrom u e) (p : Pos) :
    (u.retire.posAt p).counters = (u.posAt p).counters ∧ (u.retire.posAt p).linkErrors = (u.posAt p).linkErrors ∧
    (u.retire.posAt p).linkDegraded = (u.posAt p).linkDegraded ∧ (u.retire.posAt p).state = (s.posAt p).state ∧
    (u.retire.posAt p).lastHeard = (s.posAt p).lastHeard := by
  rw [(State.RetiredFrom.retire u).pos p]
  refine ⟨rfl, rfl, rfl, ?_, ?_⟩
  · show (u.posAt p).state = _
    rw [h.record]
    split <;> rfl
  · show (u.posAt p).lastHeard = _
    rw [h.record]
    split <;> rfl

theorem State.MissedFrom.judgesAlike {s u : State} {e : Entry} (h : s.MissedFrom u e) : s.JudgesAlike u := by
  refine ⟨by rw [h.eq], by rw [h.eq], fun p => ?_⟩
  rw [h.record]
  split <;> rfl

theorem State.MissedFrom.entries_head {s u : State} {e : Entry} (h : s.MissedFrom u e) (tags : s.TagsInOrder)
    {rest : List Entry} (he : s.queue.entries = e :: rest) : u.queue.entries = { e with state := .expired } :: rest := by
  have nodup := tags.nodup
  rw [he, List.map_cons, List.nodup_cons] at nodup
  have hu : u.queue.entries =
      s.queue.entries.map fun y => if y.tag = e.tag then { e with state := .expired } else y := by rw [h.eq]
  rw [hu, he, List.map_cons, if_pos rfl]
  congr 1
  refine (List.map_congr_left fun y hy => ?_).trans (List.map_id rest)
  have other : y.tag ≠ e.tag := fun ht => nodup.1 (ht ▸ List.mem_map_of_mem hy)
  exact if_neg other

/-- Settles O50: the missed answers are one fold over the missing positions, and the retirement that follows goes by the
state of the head. -/
theorem deadlineExpires : Obligations.DeadlineExpires := by
  refine ⟨fun s e x tags he sent => ⟨fun h => ?_, fun pending unanswered late => ?_⟩, fun s tag gone => ?_⟩
  · have stands : ¬e.overdue s.now = true := fun ho => by
      obtain ⟨pending, -, late⟩ := (Entry.overdue_iff sent s.now).1 ho
      exact h.elim (· pending) fun early => Nat.not_le.2 early late
    rw [exec_deadline, s.queue.find_of_nodup tags.nodup he]
    exact congrArg _ (if_neg stands)
  · obtain ⟨u, hu, missed⟩ := State.expire_eq tags he
    have run : exec (.deadline e.tag) s = .next u.retire.recompose := by
      rw [exec_deadline, s.queue.find_of_nodup tags.nodup he, ← hu]
      exact congrArg _ (if_pos ((Entry.overdue_iff sent s.now).2 ⟨pending, unanswered, late⟩))
    have placed := State.PlacedFrom.of_retired (.retire u)
    have frame := State.ChainFrom.retire u
    refine ⟨_, run, ?_⟩
    simp only [State.recompose_chain, State.recompose_posAt, State.recompose_queue, State.recompose_circuits,
      State.recompose_cache, State.recompose_checks, State.recompose_tables, State.recompose_store, State.recompose_now,
      State.recompose_retired, State.recompose_faults]
    refine ⟨⟨fun p => ?_, fun h rest hs live ht => ?_, fun rest hs => ⟨?_, fun next => ?_⟩⟩,
      fun p => ⟨(missed.retired p).2.2.2.1, (missed.retired p).2.2.2.2⟩, ?_, ?_, ?_, ?_, ?_, ?_, ?_, ?_⟩
    · obtain ⟨counters, errors, degraded, -, -⟩ := missed.retired p
      rw [counters, errors, degraded, missed.record]
      by_cases hp : p ∈ e.missing
      · rw [if_pos hp]
        exact (if_pos hp).mpr ⟨rfl, rfl, decide_eq_true_iff⟩
      · rw [if_neg hp]
        exact (if_neg hp).mpr ⟨rfl, rfl, rfl⟩
    · have still : u.retire = u := State.retire_of_head fun y hy => by
        rw [missed.eq] at hy
        simp only [hs, List.map_cons, if_neg ht, List.head?_cons, Option.mem_some_iff] at hy
        exact hy ▸ live
      rw [still]
      refine ⟨by rw [missed.eq], by rw [missed.eq], ?_⟩
      have records := u.recompose_records
      rwa [missed.image] at records
    · intro y hy
      have left := State.retire_entries u
      rw [missed.entries_head tags hs, List.dropWhile_cons_of_pos rfl] at left
      have nodup := tags.nodup
      rw [hs, List.map_cons, List.nodup_cons] at nodup
      exact fun ht => nodup.1 (ht ▸ List.mem_map_of_mem ((List.dropWhile_sublist _).mem (left ▸ hy)))
    · have retired : u.image.retired = s.image.retired := by
        rw [missed.image, State.imageAfterMissed_frame]
      rw [State.retire_one (missed.entries_head tags hs) rfl next, State.retireOne_queue, State.retireOne_retired,
        (State.retireOne_judged u _ rest).1, (State.retireOne_judged u _ rest).2, retired]
      refine ⟨by rw [missed.eq], ?_, (missed.judgesAlike.handAnswers e).circuits, fun none => ?_⟩
      · have overtaken : ({ e with state := .expired } : Entry).overtaken = x.overtaken := by
          rw [Entry.overtaken, sent]
        rw [overtaken] <;> rfl
      · have kept : u.handAnswers { e with state := .expired } = u := State.handAnswers_none none
        rw [kept, missed.image] <;> rfl
    · rw [placed.line, missed.eq]
    · rw [placed.counters, missed.eq]
    · rw [placed.slot, missed.eq]
    · rw [(State.RetiredFrom.retire u).cache, missed.eq]
    · rw [placed.checks, missed.eq]
    · rw [frame.tables, missed.eq]
    · rw [frame.store, missed.eq]
    · rw [frame.now, missed.eq]
  · have absent : s.queue.find tag = none := List.find?_eq_none.2 fun e he ht => gone e he (beq_iff_eq.1 ht)
    rw [exec_deadline, absent]

end Sys2Proof.Machine
end

