-- ==== Sys2Proof/Proofs/Departures.lean ====
section
/-! SUPPORT. The records after a position goes ABSENT and after a cascade: its counters stand, and every other record keeps all
but three of its flags (R35, R36). -/

namespace Sys2Proof.Machine

/-! ### Records that differ in flags -/

/-- `r'` is `r` but for the three flags that a departure elsewhere may change. -/
def Position.FlagsApart (r r' : Position) : Prop :=
  r' = { r with supplyLow := r'.supplyLow, feedLost := r'.feedLost, identityClash := r'.identityClash }

theorem Position.FlagsApart.refl (r : Position) : r.FlagsApart r := rfl

theorem Position.FlagsApart.trans {a b c : Position} (h : a.FlagsApart b) (k : b.FlagsApart c) : a.FlagsApart c := by
  unfold Position.FlagsApart at h k ⊢
  rw [k, h]

theorem Position.FlagsApart.of_clash {r r' : Position} (h : ∃ clash, r' = { r with identityClash := clash }) :
    r.FlagsApart r' := by
  obtain ⟨clash, rfl⟩ := h
  rfl

theorem State.RetiredFrom.flagsApart {s u : State} (h : s.RetiredFrom u) (q : Pos) : (s.posAt q).FlagsApart (u.posAt q) := by
  unfold Position.FlagsApart
  rw [h.pos q]

/-! ### Reviews of the IDENTITY_CLASH marks (R28) -/

theorem State.reviewClash_unmarked {s : State} {q : Pos} (unmarked : (s.posAt q).identityClash = false) (i : Identity) (p : Pos) :
    (State.reviewClash i s p).posAt q = s.posAt q := by
  unfold State.reviewClash
  split
  · next marked =>
    have hq : q ≠ p := fun e => by simp [← e, unmarked] at marked
    exact State.updPos_posAt_ne s p q _ hq
  · rfl

theorem State.reviewClashes_unmarked {s : State} {q : Pos} (unmarked : (s.posAt q).identityClash = false)
    (i : Option Identity) : (s.reviewClashes i).posAt q = s.posAt q := by
  cases i with
  | none => rfl
  | some i =>
    change (allPos.foldl (State.reviewClash i) s).posAt q = s.posAt q
    generalize allPos = l
    induction l generalizing s with
    | nil => rfl
    | cons p l ih =>
      have same := State.reviewClash_unmarked unmarked i p
      rw [List.foldl_cons, ih (same ▸ unmarked), same]

/-! ### One position gone (R35) -/

theorem State.leaveActive_flagsApart (s : State) (p q : Pos) : (s.posAt q).FlagsApart ((s.leaveActive p).posAt q) :=
  (State.RetiredFrom.retire _).flagsApart q

theorem State.takeOff_counters (s : State) (p q : Pos) : ((s.takeOff p).posAt q).counters = (s.posAt q).counters := by
  rw [(s.takeOff_frame p).2.2]
  split <;> rfl

/-- A position that goes ABSENT keeps its counters and nothing else. -/
theorem State.goAbsent_record {s : State} {p : Pos} (present : (s.posAt p).state ≠ .absent) :
    (s.goAbsent p).posAt p = Position.absent (s.posAt p).counters := by
  have reviewed : ∀ (u : State) (i : Option Identity), (u.posAt p).counters = (s.posAt p).counters →
      ((u.makeAbsent p).reviewClashes i).posAt p = Position.absent (s.posAt p).counters := fun u i hu => by
    rw [State.reviewClashes_unmarked (by rw [State.makeAbsent_posAt_same]; rfl), State.makeAbsent_posAt_same, hu]
  unfold State.goAbsent
  split
  · next absent => exact absurd absent present
  · exact State.makeAbsent_posAt_same s p
  · exact State.makeAbsent_posAt_same s p
  · refine reviewed _ _ ?_
    rw [State.takeOff_counters, s.leaveActive_flagsApart p p]
  · exact reviewed _ _ (State.takeOff_counters s p p)

theorem State.goAbsent_others (s : State) {p q : Pos} (h : q ≠ p) : (s.posAt q).FlagsApart ((s.goAbsent p).posAt q) := by
  have reviewed : ∀ (u : State) (i : Option Identity), (s.posAt q).FlagsApart (u.posAt q) →
      (s.posAt q).FlagsApart ((((u.takeOff p).makeAbsent p).reviewClashes i).posAt q) := fun u i hu => by
    refine hu.trans ?_
    have off : ((u.takeOff p).makeAbsent p).posAt q = u.posAt q := by
      rw [State.makeAbsent_posAt_ne _ h, (u.takeOff_frame p).2.2, if_neg h]
    exact off ▸ .of_clash ((State.reviewClashes_frame _ i).2.2 q)
  unfold State.goAbsent
  split
  · exact .refl _
  · exact State.makeAbsent_posAt_ne s h ▸ .refl _
  · exact State.makeAbsent_posAt_ne s h ▸ .refl _
  · exact reviewed _ _ (s.leaveActive_flagsApart p q)
  · exact reviewed _ _ (.refl _)

theorem State.goAbsent_counters (s : State) (p q : Pos) : ((s.goAbsent p).posAt q).counters = (s.posAt q).counters := by
  by_cases hq : q = p
  · subst hq
    by_cases absent : (s.posAt q).state = .absent
    · rw [State.goAbsent_of_absent absent]
    · rw [State.goAbsent_record absent]
      rfl
  · rw [s.goAbsent_others hq]

/-! ### The cascade (R36) -/

theorem State.foldl_goAbsent_counters (l : List Pos) (s : State) (q : Pos) :
    ((l.foldl State.goAbsent s).posAt q).counters = (s.posAt q).counters :=
  foldl_keeps (fun s u : State => (u.posAt q).counters = (s.posAt q).counters) (fun _ => rfl)
    (fun _ _ _ h k => k.trans h) State.goAbsent (fun s p => s.goAbsent_counters p q) l s

theorem State.foldl_goAbsent_others (l : List Pos) (s : State) {q : Pos} (h : q ∉ l) :
    (s.posAt q).FlagsApart ((l.foldl State.goAbsent s).posAt q) := by
  induction l generalizing s with
  | nil => exact .refl _
  | cons p l ih =>
    obtain ⟨hp, hl⟩ := not_or.1 (fun hm => h (List.mem_cons.2 hm))
    exact (s.goAbsent_others hp).trans (ih (s.goAbsent p) hl)

/-- The record of an ABSENT position of a sound chain. -/
theorem State.Coherent.absent_record {s : State} (h : s.Coherent) {p : Pos} (absent : (s.posAt p).state = .absent) :
    s.posAt p = Position.absent (s.posAt p).counters := (h.parts.places p).record.2.2.2.2.2.2.1 absent

/-- What a chain holds whose positions from `p` on are ABSENT. -/
theorem State.Coherent.gone {s : State} (h : s.Coherent) {p : Pos} (absent : (s.posAt p).state = .absent) :
    (∀ c, s.circAt p c = Circuit.clear) ∧ (∀ e ∈ s.image.faults, e.key.pos ≠ p) ∧
    .enum p ∉ s.chain.linkRequests ∧ .query p ∉ s.chain.linkRequests := by
  have off : (s.posAt p).state.onChain = false := by rw [absent]; rfl
  exact ⟨((h.parts.places p).empty off).1, ((h.parts.places p).empty off).2,
    (h.parts.places p).no_enum (by rw [absent]; decide), (h.parts.places p).no_query (by rw [absent]; decide)⟩

end Sys2Proof.Machine
end

