-- ==== Sys2Proof/Proofs/Connect.lean ====
section
/-! PROOF. CONNECT's changes, its debounced rise and its debounced fall (O40). -/

namespace Sys2Proof.Machine

theorem State.debounced_iff (s : State) (high : Bool) : s.debounced high = true ↔
    s.chain.connectRaw = high ∧ s.chain.connectDebounced ≠ high ∧ s.chain.connectSince + 100 ≤ s.now := by
  unfold State.debounced past
  simp only [Bool.and_eq_true, beq_iff_eq, bne_iff_ne, decide_eq_true_iff, and_assoc]
  rfl

/-- The state of a debounced level. -/
def State.debouncedTo (s : State) (high : Bool) : State := s.updChain fun ch => { ch with connectDebounced := high }

theorem exec_connectRise {s : State} (due : s.debounced true = true) (absent : (s.posAt 0).state = .absent) :
    exec .connectDebouncedRise s = .next ((s.debouncedTo true).beginProbe 0).transmit.recompose := by
  have probes : s.connectRise = (s.debouncedTo true).beginProbe 0 := by
    refine (if_pos due).trans (if_pos ?_)
    change ((s.posAt 0).state == .absent) = true
    rw [absent]
    rfl
  rw [← probes]
  exact congrArg _ (if_pos due)

theorem exec_connectFall {s : State} (due : s.debounced false = true) :
    exec .connectDebouncedFall s = .next ((s.debouncedTo false).cascade 0).recompose := by
  have falls : s.connectFall = (s.debouncedTo false).cascade 0 := if_pos due
  rw [← falls]
  exact congrArg _ (if_pos due)

/-- The rise of an ABSENT P1, on a busy line and on a free one with nothing else to send. -/
theorem connectRise_effects {s : State} (due : s.debounced true = true) (absent : (s.posAt 0).state = .absent) :
    ∃ t : State, exec .connectDebouncedRise s = .next t ∧
      t.chain.connectDebounced = true ∧ (t.posAt 0).state = .probing ∧
      t.tables = s.tables ∧ t.cache = s.cache ∧ t.store = s.store ∧ t.now = s.now ∧ t.pending = s.pending ∧
      s.port.SameInputs t.port ∧ t.port.request = s.port.request ∧
      (s.chain.line ≠ .free →
        t.chain = { s.chain with
          connectDebounced := true
          positions := upd s.chain.positions 0 fun r => { r with state := .probing, probeAttempts := 0 }
          linkRequests := s.chain.linkRequests ++ [.enum 0] } ∧
        t.queue = s.queue ∧ t.circuits = s.circuits ∧ t.checks = s.checks ∧ s.image.SameRecords t.image) ∧
      (s.chain.line = .free → s.queue.firstSet = none → s.queue.slot = none → s.chain.linkRequests = [] →
        t.chain.line = .sending (.enum 0) ∧ t.chain.linkRequests = [] ∧ (t.posAt 0).probeAttempts = 1 ∧
        (t.posAt 0).enumTimeout = some (s.now + 20)) := by
  have probed (q : Pos) := (s.debouncedTo true).beginProbe_posAt 0 q
  have began : s.ChainFrom ((s.debouncedTo true).beginProbe 0) := (State.ChainFrom.updChain s _).trans (.beginProbe _ 0)
  generalize hu : (s.debouncedTo true).beginProbe 0 = u at probed began
  have sent := State.SentFrom.transmit u
  have port := (began.trans (.transmit u)).portFrom.trans (.recompose _)
  refine ⟨_, hu ▸ exec_connectRise due absent, ?_, ?_, port.tables, ?_, port.store, port.now, port.pending, port.inputs,
    port.request, fun busy => ?_, fun line sets slot idle => ?_⟩
  · rw [State.recompose_chain, sent.chain, ← hu]
    rfl
  · rw [State.recompose_posAt, sent.state, probed, if_pos rfl]
  · rw [State.recompose_cache, sent.cache, ← hu]
    rfl
  · have held : u.transmit = u := u.transmit_busy (by rw [← hu]; exact busy)
    have records := u.recompose_records
    rw [held]
    simp only [State.recompose_chain, State.recompose_queue, State.recompose_circuits, State.recompose_checks]
    rw [← hu] at records ⊢
    exact ⟨rfl, rfl, rfl, rfl, records⟩
  · have sends : u.transmit = u.sendLink (.enum 0) [] := by
      refine State.transmit_request ?_ ?_ ?_ ?_
      all_goals rw [← hu]
      · exact line
      · exact sets
      · exact slot
      · exact congrArg (· ++ [LinkRequest.enum 0]) idle
    simp only [State.recompose_chain, State.recompose_posAt]
    rw [sends, State.sendLink_enum_posAt, if_pos rfl, probed, if_pos rfl, ← hu]
    exact ⟨rfl, rfl, rfl, rfl⟩

/-- The fall empties the chain. -/
theorem connectFall_effects {s : State} (due : s.debounced false = true) (sound : s.ChainSound) :
    ∃ t : State, exec .connectDebouncedFall s = .next t ∧
      t.chain.connectDebounced = false ∧ (∀ p : Pos, t.posAt p = Position.absent (s.posAt p).counters) ∧
      t.chain.linkRequests = [] ∧ t.image.faults = [] ∧
      (∀ (p : Pos) (c : Circ), (t.circAt p c).condition = .unknown ∧ (t.circAt p c).baseline = .none) ∧
      t.chain.counters = s.chain.counters ∧ t.chain.line = s.chain.line ∧
      t.chain.transmitted = s.chain.transmitted ∧ t.queue.tagCounter = s.queue.tagCounter ∧
      t.queue.slot = s.queue.slot ∧ t.queue.generation = s.queue.generation ∧
      t.tables = s.tables ∧ t.checks = s.checks ∧ t.store = s.store ∧ t.now = s.now ∧ t.pending = s.pending ∧
      s.port.SameInputs t.port ∧ t.port.request = s.port.request := by
  have coherent : (s.debouncedTo false).Coherent := ((State.chainSound_iff s).1 sound).updChain rfl rfl
  have after := coherent.cascade 0
  have state := (coherent.parts.cascade 0).2
  have counters (p : Pos) : (((s.debouncedTo false).cascade 0).posAt p).counters = (s.posAt p).counters :=
    State.foldl_goAbsent_counters _ _ p
  have placed := State.PlacedFrom.cascade (s.debouncedTo false) 0
  have frame := (State.ChainFrom.updChain s _).trans (State.ChainFrom.cascade (s.debouncedTo false) 0)
  generalize hu : (s.debouncedTo false).cascade 0 = u at after state counters placed frame
  have absent (p : Pos) : (u.posAt p).state = .absent := by rw [state, if_pos (Fin.zero_le p)]
  have port := frame.portFrom.trans (.recompose _)
  have none (p : Pos) := after.gone (absent p)
  refine ⟨_, hu ▸ exec_connectFall due, ?_, fun p => ?_, ?_, ?_, fun p c => ?_, ?_, ?_, ?_, ?_, ?_, ?_, port.tables, ?_,
    port.store, port.now, port.pending, port.inputs, port.request⟩
  · rw [State.recompose_chain, placed.chain]
    rfl
  · rw [State.recompose_posAt, after.absent_record (absent p), counters]
  · rw [State.recompose_chain, List.eq_nil_iff_forall_not_mem]
    rintro (p | p) hr
    · exact (none p).2.2.1 hr
    · exact (none p).2.2.2 hr
  · rw [State.recompose_faults, List.eq_nil_iff_forall_not_mem]
    exact fun e he => (none e.key.pos).2.1 e he rfl
  · rw [State.recompose_circAt, (none p).1]
    exact ⟨rfl, rfl⟩
  · rw [State.recompose_chain, placed.counters]
    rfl
  · rw [State.recompose_chain, placed.line]
    rfl
  · rw [State.recompose_chain, placed.transmitted]
    rfl
  · rw [State.recompose_queue, placed.queue]
    rfl
  · rw [State.recompose_queue, placed.slot]
    rfl
  · rw [State.recompose_queue, placed.queue]
    rfl
  · rw [State.recompose_checks, placed.checks]
    rfl

/-- Settles O40: a level counts once it has stood its 100 ms; the rise probes P1 and the fall is the cascade from it. -/
theorem connectMoves : Obligations.ConnectMoves := by
  unfold Obligations.ConnectMoves
  refine ⟨fun s high => rfl, fun s raw low since absent => ?_, fun s raw high since sound => ?_, fun s h => ?_, fun s h => ?_⟩
  · exact connectRise_effects ((s.debounced_iff true).2 ⟨raw, by simp [low], since⟩) absent
  · exact connectFall_effects ((s.debounced_iff false).2 ⟨raw, by simp [high], since⟩) sound
  · refine congrArg _ (if_neg (mt (s.debounced_iff true).1 ?_))
    rintro ⟨raw, low, since⟩
    rcases h with h | h | h
    · rw [raw] at h
      cases h
    · exact low h
    · exact absurd since (Nat.not_le.2 h)
  · refine congrArg _ (if_neg (mt (s.debounced_iff false).1 ?_))
    rintro ⟨raw, high, since⟩
    rcases h with h | h | h
    · rw [raw] at h
      cases h
    · exact high h
    · exact absurd since (Nat.not_le.2 h)

end Sys2Proof.Machine
end

