-- ==== Sys2Proof/Proofs/LampFrame.lean ====
section
/-! SUPPORT and PROOF. What can be tracked and what is diverted (R57, R58), and the lamp command frame (O21). -/

namespace Sys2Proof.Machine

/-! ### Tracking and diverting -/

theorem State.canTrack_iff (s : State) : (s.tables.mode == .run && s.queue.canTrack) = true ↔
    s.tables.mode = .run ∧ s.queue.entries.length < 16 ∧ s.queue.slot = none := by
  unfold Queue.canTrack Queue.hasRoom
  simp only [Bool.and_eq_true, beq_iff_eq, decide_eq_true_iff, Option.isNone_iff_eq_none]
  rfl

theorem State.not_canTrack {s : State} (h : s.tables.mode = .setup ∨ 16 ≤ s.queue.entries.length ∨ s.queue.slot ≠ none) :
    ¬(s.tables.mode == .run && s.queue.canTrack) = true := by
  rw [State.canTrack_iff]
  rintro ⟨run, room, slot⟩
  rcases h with h | h | h
  · rw [run] at h
    cases h
  · exact absurd room (Nat.not_lt.2 h)
  · exact h slot

/-- A diversion written out (R58, R59). -/
theorem State.divert_eq (s : State) (changed : FnSet) : s.divert changed = { s with
    chain := { s.chain with counters := s.chain.diverted }
    queue := { s.queue with slot := some s.port.commanded }
    image := { s.image with untracked := s.image.untracked ||| changed } } := rfl

/-! ### The command taken -/

/-- A command of image `i` taken: it is the commanded image, and the command silence begins again (R149, R160). -/
def State.commandTaken (s : State) (i : Image) : State :=
  { s with
    port := { s.port with commanded := i, lastCommand := s.now }
    image := { s.image with commandStale := false } }

/-- The CHANGE entry of a command of image `i` (R57). -/
def State.changeEntry (s : State) (i : Image) : Entry :=
  ⟨s.queue.tagCounter, .change, .waiting, some i, i ^^^ s.port.commanded, none, none, 0, 0, []⟩

/-- The state with the change tracked. -/
def State.changeTracked (s : State) (i : Image) : State :=
  { s.commandTaken i with queue := { s.queue with
      entries := s.queue.entries ++ [s.changeEntry i]
      tagCounter := (s.queue.tagCounter + 1) % 255 } }

/-- The state with the change diverted. -/
def State.changeDiverted (s : State) (i : Image) : State := (s.commandTaken i).divert (i ^^^ s.port.commanded)

theorem lampImage_eq {d : List Byte} : lampImage d = BitVec.ofNat 10 (byteAt d 0 + 256 * byteAt d 1) := rfl

section
variable {s : State} {f : BusFrame} {i : Image} (format : f.format = .standardData) (ident : f.ident = s.port.commandId)
  (length : f.data.length = 2) (image : i = BitVec.ofNat 10 (byteAt f.data 0 + 256 * byteAt f.data 1))
include format ident length image

theorem exec_lampFrame : exec (.lampCommandFrame f) s = .next (if i = s.port.commanded then (s.commandTaken i).recompose
    else ((s.commandTaken i).requestChange s.port.commanded).transmit.recompose) := by
  have taken : exec (.lampCommandFrame f) s = .next (s.takeCommandFrame f.data) :=
    congrArg _ ((if_pos format).trans (if_pos ident))
  rw [taken, State.takeCommandFrame, if_pos length]
  have lamp : lampImage f.data = i := image ▸ lampImage_eq
  dsimp only
  rw [lamp]
  by_cases same : i = s.port.commanded
  · rw [if_pos same, if_pos same, same]
    rfl
  · rw [if_neg same, if_neg same]
    rfl

theorem exec_lampFrame_tracked (new : i ≠ s.port.commanded) (track : (s.tables.mode == .run && s.queue.canTrack) = true) :
    exec (.lampCommandFrame f) s = .next (s.changeTracked i).transmit.recompose := by
  have tracks : (s.commandTaken i).requestChange s.port.commanded = s.changeTracked i := by
    refine (if_pos track).trans ?_
    rw [differing, BitVec.xor_comm]
    rfl
  rw [exec_lampFrame format ident length image, if_neg new, tracks]

theorem exec_lampFrame_diverted (new : i ≠ s.port.commanded) (full : ¬(s.tables.mode == .run && s.queue.canTrack) = true) :
    exec (.lampCommandFrame f) s = .next (s.changeDiverted i).transmit.recompose := by
  have diverts : (s.commandTaken i).requestChange s.port.commanded = s.changeDiverted i := by
    refine (if_neg full).trans ?_
    rw [differing, BitVec.xor_comm]
    rfl
  rw [exec_lampFrame format ident length image, if_neg new, diverts]

end

/-- What every command taken leaves, after the pick and the composition. -/
structure State.CommandLeaves (s t : State) (i : Image) : Prop where
  port : (s.commandTaken i).PortFrom t
  stale : t.image.commandStale = false
  cache : t.cache = s.cache

theorem State.commandLeaves {s u : State} {i : Image} (h : (s.commandTaken i).ChainFrom u) (cache : u.cache = s.cache) :
    s.CommandLeaves u.transmit.recompose i where
  port := (h.trans (.transmit u)).portFrom.trans (.recompose _)
  stale := by
    rw [u.transmit.recompose_records.2.2.2.2.2.2.2, (h.trans (.transmit u)).image]
    rfl
  cache := by rw [State.recompose_cache, (State.SentFrom.transmit u).cache, cache]

/-- A CHANGE allocated: it waits on a busy line and is sent at once on a free one with no older SET waiting. -/
theorem State.changeTracked_goes {s : State} (i : Image) (t : State) (ht : t = (s.changeTracked i).transmit.recompose) :
    (s.chain.line ≠ .free → t.circuits = s.circuits ∧ t.checks = s.checks ∧ t.chain = s.chain ∧
      t.image.untracked = s.image.untracked ∧ t.queue = { s.queue with
        entries := s.queue.entries ++ [s.changeEntry i]
        tagCounter := (s.queue.tagCounter + 1) % 255 }) ∧
    (s.chain.line = .free → s.queue.firstSet = none → (s.changeTracked i).SetGoes t [] (s.changeEntry i) i) := by
  subst ht
  refine ⟨fun busy => ?_, fun line sets => ?_⟩
  · have records := (s.changeTracked i).recompose_records
    simp only [(s.changeTracked i).transmit_busy busy, State.recompose_circuits, State.recompose_checks,
      State.recompose_chain, State.recompose_queue]
    exact ⟨rfl, rfl, rfl, records.2.1, rfl⟩
  · have first : ∀ y ∈ s.queue.entries, ¬(y.state = .waiting ∧ y.isSet = true) := fun y hy h =>
      List.find?_eq_none.1 sets y hy (by simp [h.1, h.2])
    rw [State.transmit_set (s := s.changeTracked i) (a := s.queue.entries) (e := s.changeEntry i) (b := []) line rfl rfl rfl
      first]
    have goes := State.setGoes (s := s.changeTracked i) (a := s.queue.entries) (e := s.changeEntry i) (b := []) (i := i) rfl rfl
    exact ⟨by rw [State.recompose_chain]; exact goes.chain, fun g => by rw [State.recompose_chain]; exact goes.times g,
      by rw [State.recompose_queue]; exact goes.queue, by rw [State.recompose_checks]; exact goes.checks,
      fun nodup => by rw [State.recompose_queue, State.recompose_chain]; exact goes.keeps nodup⟩

/-- A change diverted: the slot waits on a busy line and goes at once on a free one with no older SET waiting. -/
theorem State.changeDiverted_goes {s : State} (i : Image) (t : State) (ht : t = (s.changeDiverted i).transmit.recompose) :
    (s.chain.line ≠ .free → t.circuits = s.circuits ∧ t.checks = s.checks ∧
      t.image.untracked = s.image.untracked ||| (i ^^^ s.port.commanded) ∧
      t.queue = { s.queue with slot := some i } ∧ t.chain = { s.chain with counters := s.chain.diverted }) ∧
    (s.chain.line = .free → s.queue.firstSet = none → t.circuits = s.circuits ∧ t.checks = s.checks ∧
      t.image.untracked = s.image.untracked ||| (i ^^^ s.port.commanded) ∧
      t.queue = { s.queue with slot := none, generation := (s.queue.generation + 1) % 65536 } ∧
      t.chain = { s.chain with
        counters := s.chain.diverted, transmitted := i, changeTimes := t.chain.changeTimes
        line := .sending (.set 255 (s.delayOver (i ^^^ s.chain.transmitted)) (s.masks i)) } ∧
      ∀ g : Fn, t.chain.changeTimes[g] =
        if on i g = on s.chain.transmitted g then s.chain.changeTimes[g] else some s.now) := by
  subst ht
  refine ⟨fun busy => ?_, fun line sets => ?_⟩
  · have records := (s.changeDiverted i).recompose_records
    simp only [(s.changeDiverted i).transmit_busy busy, State.recompose_circuits, State.recompose_checks,
      State.recompose_chain, State.recompose_queue]
    exact ⟨rfl, rfl, records.2.1, rfl, rfl⟩
  · have times := fun g => (s.changeDiverted i).imageSent_changeTimes i g
    have records := ((s.changeDiverted i).sendSlot i).recompose_records
    have eq := (s.changeDiverted i).sendSlot_eq i
    rw [State.transmit_slot (s := s.changeDiverted i) (i := i) line sets rfl]
    simp only [State.recompose_circuits, State.recompose_checks, State.recompose_chain, State.recompose_queue]
    rw [eq] at records ⊢
    exact ⟨rfl, rfl, records.2.1, rfl, rfl, times⟩

/-- Settles O21: an equal image refreshes alone, and a differing one is tracked or diverted before the pick. -/
theorem lampFrameTaken : Obligations.LampFrameTaken := by
  unfold Obligations.LampFrameTaken
  intro s f i format ident length image
  have leaves : ∀ {u : State}, (s.commandTaken i).ChainFrom u → u.cache = s.cache → s.CommandLeaves u.transmit.recompose i :=
    State.commandLeaves
  by_cases same : i = s.port.commanded
  · have run := exec_lampFrame format ident length image
    rw [if_pos same] at run
    have port := State.PortFrom.recompose (s.commandTaken i)
    have records := (s.commandTaken i).recompose_records
    refine ⟨_, run, port.inputs.1, port.inputs.2.1, records.2.2.2.2.2.2.2, port.request, port.inputs.2.2.1,
      port.inputs.2.2.2, port.now, port.tables, ?_, port.store, port.pending, fun _ => ?_,
      fun new => absurd same new, fun new => absurd same new⟩
    · rw [State.recompose_cache]
      rfl
    · simp only [State.recompose_chain, State.recompose_queue, State.recompose_circuits, State.recompose_checks]
      exact ⟨rfl, rfl, rfl, rfl⟩
  · by_cases track : (s.tables.mode == .run && s.queue.canTrack) = true
    · obtain ⟨run, room, slot⟩ := s.canTrack_iff.1 track
      obtain ⟨port, stale, cache⟩ := leaves (u := s.changeTracked i) ⟨rfl, rfl, rfl, rfl, rfl, rfl, rfl⟩ rfl
      have executed := exec_lampFrame_tracked format ident length image same track
      generalize ht : (s.changeTracked i).transmit.recompose = t at port stale cache executed
      obtain ⟨waits, goes⟩ := s.changeTracked_goes i t ht.symm
      refine ⟨t, executed, port.inputs.1, port.inputs.2.1, stale, port.request, port.inputs.2.2.1,
        port.inputs.2.2.2, port.now, port.tables, cache, port.store, port.pending, fun h => absurd h same,
        fun _ busy => ?_, fun _ line sets => ?_⟩
      · obtain ⟨circuits, checks, chain, untracked, queue⟩ := waits busy
        exact ⟨circuits, checks, fun _ _ _ => ⟨chain, untracked, queue⟩, fun h => absurd track (State.not_canTrack h)⟩
      · obtain ⟨chain, times, queue, checks, keeps⟩ := goes line sets
        refine ⟨?_, checks, times, fun _ _ _ => ⟨?_, ?_, ?_, ?_, ?_, fun tags => keeps ?_⟩,
          fun h => absurd track (State.not_canTrack h)⟩
        · rw [chain]
        · rw [chain]
          rfl
        · rw [chain]
          rfl
        · rw [queue]
          rfl
        · rw [queue]
          exact slot
        · rw [queue]
          rfl
        · exact (tags.allocate (decide_eq_true room) .change (some i) (i ^^^ s.port.commanded) none).nodup
    · obtain ⟨port, stale, cache⟩ := leaves (u := s.changeDiverted i) ⟨rfl, rfl, rfl, rfl, rfl, rfl, rfl⟩ rfl
      have executed := exec_lampFrame_diverted format ident length image same track
      generalize ht : (s.changeDiverted i).transmit.recompose = t at port stale cache executed
      obtain ⟨waits, goes⟩ := s.changeDiverted_goes i t ht.symm
      refine ⟨t, executed, port.inputs.1, port.inputs.2.1, stale, port.request, port.inputs.2.2.1,
        port.inputs.2.2.2, port.now, port.tables, cache, port.store, port.pending, fun h => absurd h same,
        fun _ busy => ?_, fun _ line sets => ?_⟩
      · obtain ⟨circuits, checks, untracked, queue, chain⟩ := waits busy
        exact ⟨circuits, checks, fun run room slot => absurd (s.canTrack_iff.2 ⟨run, room, slot⟩) track,
          fun _ => ⟨queue, untracked, chain⟩⟩
      · obtain ⟨circuits, checks, untracked, queue, chain, times⟩ := goes line sets
        refine ⟨by rw [chain], checks, times, fun run room slot => absurd (s.canTrack_iff.2 ⟨run, room, slot⟩) track,
          fun _ => ⟨circuits, fun p => ?_, queue, untracked, ?_, ?_⟩⟩
        · rw [State.posAt, chain]
          rfl
        · rw [chain]
        · rw [chain]
          rfl

end Sys2Proof.Machine
end

