-- ==== Sys2Proof/Proofs/EnterSetup.lean ====
section
/-! SUPPORT and PROOF. The pick over an empty queue, and ENTER SETUP (O32). -/

namespace Sys2Proof.Machine

/-! ### The pick with no entries -/

/-- What `transmit` does over an empty queue with no slot and no request. -/
theorem State.transmit_noEntry {s : State} (line : s.chain.line = .free) (empty : s.queue.entries = [])
    (slot : s.queue.slot = none) (requests : s.chain.linkRequests = []) :
    s.transmit = if s.tables.mode = .setup ∧ s.chain.livenessPoll = true then s.sendLiveness else s := by
  have none : ∀ p : Entry → Bool, s.queue.entries.find? p = none := fun p => by rw [empty]; rfl
  rw [State.transmit_check line (none _) slot requests, State.pickCheck_none (none _) (none _)]

/-- Over an empty queue the pick changes the Chain Master and the slot alone. -/
theorem State.transmit_empty {s : State} (empty : s.queue.entries = []) : ∃ c q,
    s.transmit = { s with chain := c, queue := q } ∧ q.entries = [] ∧ q.tagCounter = s.queue.tagCounter ∧
      q.lastPoll = s.queue.lastPoll := by
  have stands : ∃ c q, s = { s with chain := c, queue := q } ∧ q.entries = [] ∧ q.tagCounter = s.queue.tagCounter ∧
      q.lastPoll = s.queue.lastPoll := ⟨s.chain, s.queue, rfl, empty, rfl, rfl⟩
  by_cases line : s.chain.line = .free
  · have sets : s.queue.firstSet = none := by rw [Queue.firstSet, empty]; rfl
    cases slot : s.queue.slot with
    | some i =>
      rw [State.transmit_slot line sets slot, State.sendSlot_eq]
      exact ⟨_, _, rfl, empty, rfl, rfl⟩
    | none =>
      cases requests : s.chain.linkRequests with
      | cons r rest =>
        rw [State.transmit_request line sets slot requests]
        cases r <;> exact ⟨_, s.queue, rfl, empty, rfl, rfl⟩
      | nil =>
        rw [State.transmit_noEntry line empty slot requests]
        split
        · exact ⟨_, s.queue, rfl, empty, rfl, rfl⟩
        · exact stands
  · rwa [s.transmit_busy line]

/-! ### SETUP entry (R75, R166) -/

theorem gated_enterSetup : Gated handleEnterSetup none := ⟨_, fun _ _ => rfl⟩

/-- SETUP entry but for the diversion of R75: the mode, the flush and the candidates. -/
def State.inSetup (s : State) : State :=
  { s with
    tables := { s.tables with mode := .setup }
    queue := { s.queue with entries := [] }
    circuits := mapIdx s.circuits fun _ cs => mapIdx cs fun _ k => k.clearCandidate }

/-- The commanded image waits for the slot of R75. -/
abbrev State.Unsent (s : State) : Prop := s.queue.slot = none ∧ s.port.commanded ≠ s.chain.transmitted

/-- The state the pick of SETUP entry is made in. -/
def State.setupState (s : State) : State :=
  if s.Unsent then s.inSetup.divert (s.port.commanded ^^^ s.chain.transmitted) else s.inSetup

theorem State.divertUnsent_eq (s : State) : s.divertUnsent =
    if s.Unsent then s.divert (s.port.commanded ^^^ s.chain.transmitted) else s := by
  have test : (s.queue.slot.isNone && s.port.commanded != s.chain.transmitted) = true ↔ s.Unsent := by
    rw [Bool.and_eq_true, Option.isNone_iff_eq_none, bne_iff_ne]
  unfold State.divertUnsent
  by_cases unsent : s.Unsent
  · rw [if_pos unsent, if_pos (test.2 unsent)]
    rfl
  · rw [if_neg unsent, if_neg (mt test.1 unsent)]

theorem State.setupEntry_eq (s : State) : s.setupEntry = s.setupState.transmit.recompose := by
  have cleared : (((s.updTables fun t => { t with mode := .setup }).flush).divertUnsent).clearCandidates = s.setupState := by
    rw [State.divertUnsent_eq]
    unfold State.setupState
    by_cases unsent : s.Unsent
    · rw [if_pos unsent]
      exact congrArg State.clearCandidates (if_pos unsent)
    · rw [if_neg unsent]
      exact congrArg State.clearCandidates (if_neg unsent)
  rw [← cleared]
  rfl

section
variable {s : State} {f : BusFrame} (ht : s.Takes f (0x02 :: f.data)) (idle : s.store.commit = none)
include ht idle

theorem State.Takes.enterSetup_again (setup : s.tables.mode = .setup) :
    exec (.enterSetup f) s = .next (s.answered (0x02 :: f.data) [0, 0, 0, 0, 0, 0, 0]) := by
  refine congrArg Host.Outcome.next (ht.answer (h := handleEnterSetup) (r := ⟨.ok, []⟩) ?_)
  rw [handleEnterSetup, State.gate_open (s := s.buffering (0x02 :: f.data)) (by simp) idle]
  have setup : (s.buffering (0x02 :: f.data)).tables.mode = .setup := setup
  rw [setup]
  rfl

theorem State.Takes.enterSetup (run : s.tables.mode = .run) :
    exec (.enterSetup f) s = .next ((s.buffering (0x02 :: f.data)).setupState.transmit.recompose.updPort fun po =>
      { po with transmit := po.transmit ++ [s.responseTo (0x02 :: f.data) [0, 0, 0, 0, 0, 0, 0]] }) := by
  refine congrArg Host.Outcome.next (ht.reply (h := handleEnterSetup) (r := .only .ok) ?_)
  rw [handleEnterSetup, State.gate_open (s := s.buffering (0x02 :: f.data)) (by simp) idle]
  have run : (s.buffering (0x02 :: f.data)).tables.mode = .run := run
  rw [run, State.setupEntry_eq]

end

theorem State.setupState_unsent {s : State} (unsent : s.Unsent) :
    s.setupState = s.inSetup.divert (s.port.commanded ^^^ s.chain.transmitted) := if_pos unsent

theorem State.setupState_sent {s : State} (sent : s.queue.slot ≠ none ∨ s.port.commanded = s.chain.transmitted) :
    s.setupState = s.inSetup := if_neg fun unsent => sent.elim (fun h => h unsent.1) unsent.2

/-- What SETUP entry leaves but for the pick. -/
structure State.SetupKept (s u : State) : Prop where
  frame : u = { s with
    tables := { s.tables with mode := .setup }, chain := u.chain, queue := u.queue, circuits := u.circuits
    image := { s.image with untracked := u.image.untracked } }
  circuits : ∀ p c, u.circAt p c = { s.circAt p c with candidate := none, agreement := 0 }
  entries : u.queue.entries = [] ∧ u.queue.tagCounter = s.queue.tagCounter

theorem State.setupState_kept (s : State) : s.SetupKept s.setupState.transmit := by
  have circ (p : Pos) (c : Circ) : s.inSetup.circAt p c = { s.circAt p c with candidate := none, agreement := 0 } :=
    s.mapCircuits_circAt p c _
  by_cases unsent : s.Unsent
  · rw [State.setupState_unsent unsent]
    obtain ⟨c, q, eq, entries, tags, -⟩ := State.transmit_empty
      (s := s.inSetup.divert (s.port.commanded ^^^ s.chain.transmitted)) rfl
    rw [eq]
    exact ⟨rfl, circ, entries, tags⟩
  · rw [State.setupState, if_neg unsent]
    obtain ⟨c, q, eq, entries, tags, -⟩ := State.transmit_empty (s := s.inSetup) rfl
    rw [eq]
    exact ⟨rfl, circ, entries, tags⟩

/-- On a busy line the slot stays as R75 leaves it. -/
theorem State.setupState_waits {s : State} (busy : s.chain.line ≠ .free) {u : State} (hu : s.setupState.transmit = u) :
    (s.queue.slot = none → s.port.commanded ≠ s.chain.transmitted →
      u.queue = { s.queue with entries := [], slot := some s.port.commanded } ∧
      u.image.untracked = s.image.untracked ||| (s.port.commanded ^^^ s.chain.transmitted) ∧
      u.chain = { s.chain with counters := s.chain.diverted }) ∧
    (s.queue.slot ≠ none ∨ s.port.commanded = s.chain.transmitted →
      u.queue = { s.queue with entries := [] } ∧ u.image.untracked = s.image.untracked ∧ u.chain = s.chain) := by
  subst hu
  refine ⟨fun slot differs => ?_, fun sent => ?_⟩
  · rw [State.setupState_unsent ⟨slot, differs⟩, State.transmit_busy (s.inSetup.divert _) busy]
    exact ⟨rfl, rfl, rfl⟩
  · rw [State.setupState_sent sent, State.transmit_busy s.inSetup busy]
    exact ⟨rfl, rfl, rfl⟩

/-- On a free line the slot's SET goes, held before or diverted now. -/
theorem State.setupState_slot {s : State} (line : s.chain.line = .free) {u : State} (hu : s.setupState.transmit = u) (i : Image)
    (h : s.queue.slot = some i ∨
      (s.queue.slot = none ∧ s.port.commanded ≠ s.chain.transmitted ∧ i = s.port.commanded)) :
    u.chain = { s.chain with
      transmitted := i, changeTimes := u.chain.changeTimes
      line := .sending (.set 255 (s.delayOver (i ^^^ s.chain.transmitted)) (s.masks i))
      counters := if s.queue.slot = none then s.chain.diverted else s.chain.counters } ∧
    (∀ g : Fn, u.chain.changeTimes[g] =
      if on i g = on s.chain.transmitted g then s.chain.changeTimes[g] else some s.now) ∧
    u.queue = { s.queue with entries := [], slot := none, generation := (s.queue.generation + 1) % 65536 } ∧
    u.image.untracked = (if s.queue.slot = none
      then s.image.untracked ||| (s.port.commanded ^^^ s.chain.transmitted) else s.image.untracked) := by
  subst hu
  rcases h with slot | ⟨slot, differs, rfl⟩
  · have held : s.queue.slot ≠ none := by rw [slot]; nofun
    have times := fun g => s.inSetup.imageSent_changeTimes i g
    rw [State.setupState_sent (.inl held), State.transmit_slot (s := s.inSetup) line rfl slot, State.sendSlot_eq]
    simp only [if_neg held]
    exact ⟨rfl, times, rfl, rfl⟩
  · have times := fun g =>
      (s.inSetup.divert (s.port.commanded ^^^ s.chain.transmitted)).imageSent_changeTimes s.port.commanded g
    rw [State.setupState_unsent ⟨slot, differs⟩, State.transmit_slot (s := s.inSetup.divert _) (i := s.port.commanded) line rfl rfl,
      State.sendSlot_eq]
    simp only [if_pos slot]
    exact ⟨rfl, times, rfl, rfl⟩

/-- On a free line with nothing to divert the ENUM or QUERY pending first goes, or a liveness POLL, or nothing. -/
theorem State.setupState_link {s : State} (line : s.chain.line = .free) {u : State} (hu : s.setupState.transmit = u)
    (slot : s.queue.slot = none) (sent : s.port.commanded = s.chain.transmitted) :
    u.queue = { s.queue with entries := [] } ∧ u.image.untracked = s.image.untracked ∧
    u.chain.transmitted = s.chain.transmitted ∧ u.chain.counters = s.chain.counters ∧
    (s.chain.linkRequests = [] → s.chain.livenessPoll = false → u.chain = s.chain) ∧
    ∀ (r : LinkRequest) (rest : List LinkRequest), s.chain.linkRequests = r :: rest →
      u.chain.linkRequests = rest ∧
      u.chain.line = .sending (match r with | .enum q => .enum q | .query q => .query q) ∧
      ∀ p : Pos, r ≠ .enum p → r ≠ .query p → u.posAt p = s.posAt p := by
  subst hu
  rw [State.setupState_sent (.inr sent)]
  cases requests : s.chain.linkRequests with
  | nil =>
    rw [State.transmit_noEntry (s := s.inSetup) line rfl slot requests]
    by_cases live : s.chain.livenessPoll = true
    · rw [if_pos ⟨rfl, live⟩]
      exact ⟨rfl, rfl, rfl, rfl, fun _ off => absurd live (by simp [off]), fun _ _ h => (nomatch h)⟩
    · rw [if_neg fun h => live h.2]
      exact ⟨rfl, rfl, rfl, rfl, fun _ _ => rfl, fun _ _ h => (nomatch h)⟩
  | cons r rest =>
    rw [State.transmit_request (s := s.inSetup) line rfl slot requests]
    refine ⟨?_, ?_, ?_, ?_, fun h => (nomatch h), fun r' rest' h => ?_⟩
    · cases r <;> rfl
    · cases r <;> rfl
    · cases r <;> rfl
    · cases r <;> rfl
    · cases h
      cases r with
      | enum q => exact ⟨rfl, rfl, fun p hp _ => State.updPos_posAt_ne s q p _ fun e => hp (e ▸ rfl)⟩
      | query q => exact ⟨rfl, rfl, fun p _ hp => State.updPos_posAt_ne s q p _ fun e => hp (e ▸ rfl)⟩

/-- Settles O32: the gate and the mode first; past them the entry's steps stand before the pick, which over the flushed queue
sends the slot or what is pending. -/
theorem enterSetupEffects : Obligations.EnterSetupEffects := by
  unfold Obligations.EnterSetupEffects
  intro s f ht
  refine ⟨fun running => congrArg _ (ht.busy gated_enterSetup (by simp) running), fun idle setup => ht.enterSetup_again idle setup,
    fun idle run => ?_⟩
  have taken := ht.enterSetup idle run
  obtain ⟨delay, masks, -⟩ := s.buffering_set (0x02 :: f.data)
  generalize hv : s.buffering (0x02 :: f.data) = v at taken delay masks
  have kept := v.setupState_kept
  generalize hu : v.setupState.transmit = u at taken kept
  obtain ⟨now, tables, chain, queue, circuits, cache, checks, store, pending, records, inputs, request⟩ :=
    State.ComposedFrom.reply u fun list => list ++ [s.responseTo (0x02 :: f.data) [0, 0, 0, 0, 0, 0, 0]]
  obtain ⟨retired, untracked, faults, overflow, sequence, opSeconds, secondDue, stale⟩ := records
  have last : (u.recompose.updPort fun po =>
      { po with transmit := po.transmit ++ [s.responseTo (0x02 :: f.data) [0, 0, 0, 0, 0, 0, 0]] }).port.transmit.getLast? =
      some (s.responseTo (0x02 :: f.data) [0, 0, 0, 0, 0, 0, 0]) := List.getLast?_concat
  have telltale : (u.recompose.updPort fun po =>
      { po with transmit := po.transmit ++ [s.responseTo (0x02 :: f.data) [0, 0, 0, 0, 0, 0, 0]] }).image.telltale = u.compose :=
    u.recompose_telltale
  generalize (u.recompose.updPort fun _ => _) = t at *
  obtain ⟨frame, circ, entries, tags⟩ := kept
  have waits (busy : v.chain.line ≠ .free) := State.setupState_waits busy hu
  have slots (line : v.chain.line = .free) := State.setupState_slot line hu
  have links (line : v.chain.line = .free) := State.setupState_link line hu
  have uPort : u.port = v.port := by rw [frame]
  have uNow : u.now = v.now := by rw [frame]
  have uTables : u.tables = { v.tables with mode := .setup } := by rw [frame]
  have uImage : u.image.retired = v.image.retired ∧ u.image.faults = v.image.faults ∧ u.image.sequence = v.image.sequence := by
    rw [frame]
    exact ⟨rfl, rfl, rfl⟩
  have uRest : u.cache = v.cache ∧ u.checks = v.checks ∧ u.store = v.store ∧ u.pending = v.pending := by
    rw [frame]
    exact ⟨rfl, rfl, rfl, rfl⟩
  have posAt (p : Pos) : t.posAt p = u.posAt p := congrArg (fun c : Chain => c.positions[p]) chain
  clear frame hu
  simp only [delay, masks] at slots
  subst hv
  refine ⟨t, taken, tables.trans uTables, by rw [queue]; exact entries, by rw [queue]; exact tags, fun p c => ?_, fun g => ?_,
    retired.trans uImage.1, faults.trans uImage.2.1, sequence.trans uImage.2.2, now.trans uNow, cache.trans uRest.1,
    checks.trans uRest.2.1, store.trans uRest.2.2.1, pending.trans uRest.2.2.2, by rw [uPort] at inputs; exact inputs, ?_, last,
    fun busy => ?_, fun line => ⟨fun i h => ?_, fun slot sent => ?_⟩⟩
  · exact (congrArg (fun v : Vector (Vector Circuit 12) 6 => v[p][c]) circuits).trans (circ p c)
  · have unverified : u.fnState g = .unverified := if_pos (by rw [uTables]; rfl)
    have held : u.compose.functions[g] = u.fnState g := by simp [State.compose]
    rw [telltale, held, unverified]
  · rw [request, uPort]
    rfl
  · rw [queue, untracked, chain]
    exact waits busy
  · rw [queue, untracked, chain]
    exact slots line i h
  · simp only [posAt]
    rw [queue, untracked, chain]
    exact links line slot sent

end Sys2Proof.Machine
end

