-- ==== Sys2Proof/Proofs/RestartChain.lean ====
section
/-! SUPPORT and PROOF. Departures over an empty queue, and RESTART CHAIN (O35). -/

namespace Sys2Proof.Machine

/-! ### Departures over an empty queue -/

/-- `u` is `s` after departures that complete no entry: the queue stands, and of the Image Builder the listed faults and the
overflow flag alone may differ, the flag clear over a list that empties. -/
structure State.QuietFrom (s u : State) : Prop where
  queue : u.queue = s.queue
  image : u.image = { s.image with faults := u.image.faults, overflow := u.image.overflow }
  overflow : (s.image.overflow = true → s.image.faults ≠ []) → u.image.overflow = true → u.image.faults ≠ []

namespace State.QuietFrom

theorem refl (s : State) : s.QuietFrom s := ⟨rfl, rfl, id⟩

theorem trans {s t u : State} (a : s.QuietFrom t) (b : t.QuietFrom u) : s.QuietFrom u where
  queue := b.queue.trans a.queue
  image := by rw [b.image, a.image]
  overflow h := b.overflow (a.overflow h)

theorem updPos (s : State) (p : Pos) (f : Position → Position) : s.QuietFrom (s.updPos p f) := ⟨rfl, rfl, id⟩

theorem updCircs (s : State) (p : Pos) (f : Circ → Circuit → Circuit) : s.QuietFrom (s.updCircs p f) := ⟨rfl, rfl, id⟩

theorem makeAbsent (s : State) (p : Pos) : s.QuietFrom (s.makeAbsent p) := ⟨rfl, rfl, id⟩

theorem writeBack (s : State) (p : Pos) : s.QuietFrom (s.writeBack p) := by
  obtain ⟨cache, h⟩ := s.writeBack_frame p
  rw [h]
  exact ⟨rfl, rfl, id⟩

theorem removeFaults (s : State) (p : Pos) : s.QuietFrom (s.removeFaults p) := by
  refine ⟨rfl, rfl, fun _ flag => ?_⟩
  have flag : (s.image.overflow && !(s.image.faults.filter (·.key.pos != p)).isEmpty) = true := flag
  simp only [Bool.and_eq_true, Bool.not_eq_true', List.isEmpty_eq_false_iff] at flag
  exact flag.2

theorem heal (s : State) (k : FaultKey) : s.QuietFrom (s.heal k) :=
  ⟨rfl, rfl, fun h flag => List.map_eq_nil_iff.not.2 (h flag)⟩

theorem takeOff (s : State) (p : Pos) : s.QuietFrom (s.takeOff p) :=
  (((writeBack s p).trans (updCircs _ p _)).trans (removeFaults _ p)).trans (updPos _ p _)

theorem reviewClashes (s : State) (i : Option Identity) : s.QuietFrom (s.reviewClashes i) := by
  cases i with
  | none => exact refl s
  | some i =>
    refine foldl_keeps State.QuietFrom refl (fun _ _ _ => trans) (State.reviewClash i) (fun s p => ?_) allPos s
    unfold State.reviewClash
    split
    · exact (updPos s p _).trans (heal _ _)
    · exact refl s

end State.QuietFrom

/-- A position that leaves ACTIVE with no entry live. -/
theorem State.leaveActive_empty {s : State} (empty : s.queue.entries = []) (p : Pos) :
    s.leaveActive p = s.updCircs p fun _ k => { k with due := false } := by
  have same : (s.updCircs p fun _ k => { k with due := false }).updQueue (fun q =>
      { q with entries := q.entries.map (·.without p) }) = s.updCircs p fun _ k => { k with due := false } := by
    have entries : s.queue.entries.map (·.without p) = s.queue.entries := by rw [empty]; rfl
    unfold State.updQueue State.updCircs
    dsimp only
    rw [entries]
  unfold State.leaveActive
  rw [same]
  exact State.retire_of_head fun e he => by
    have he : e ∈ s.queue.entries.head? := he
    rw [empty] at he
    cases he

theorem State.QuietFrom.goAbsent {s : State} (empty : s.queue.entries = []) (p : Pos) : s.QuietFrom (s.goAbsent p) := by
  unfold State.goAbsent
  split
  · exact .refl s
  · exact .makeAbsent s p
  · exact .makeAbsent s p
  · rw [State.leaveActive_empty empty]
    exact (((State.QuietFrom.updCircs s p _).trans (.takeOff _ p)).trans (.makeAbsent _ p)).trans (.reviewClashes _ _)
  · exact ((State.QuietFrom.takeOff s p).trans (.makeAbsent _ p)).trans (.reviewClashes _ _)

theorem State.QuietFrom.foldl_goAbsent (l : List Pos) {s : State} (empty : s.queue.entries = []) :
    s.QuietFrom (l.foldl State.goAbsent s) := by
  induction l generalizing s with
  | nil => exact .refl s
  | cons p l ih =>
    have head := State.QuietFrom.goAbsent empty p
    exact head.trans (ih (head.queue ▸ empty))

/-! ### A SET over a chain that holds no count (R43, R44) -/

theorem State.masks_none {s : State} (count : ∀ p, (s.posAt p).circuitCount = none) (i : Image) :
    s.masks i = Vector.replicate 6 0 := by
  refine Vector.ext fun p hp => BitVec.eq_of_getLsbD_eq fun c hc => ?_
  rw [Vector.getElem_replicate]
  refine (s.masks_getLsbD i ⟨p, hp⟩ ⟨c, hc⟩).trans ?_
  have bare : s.fitted ⟨p, hp⟩ ⟨c, hc⟩ = false := by
    rw [State.fitted, count]
    exact Bool.and_false _
  rw [bare]
  simp

theorem State.delayOver_none {s : State} (count : ∀ p, (s.posAt p).circuitCount = none) (fs : FnSet) :
    s.delayOver fs = 0 := by
  rcases (s.delayOver_largest fs).reached with zero | ⟨p, c, delays, -⟩
  · exact zero
  · obtain ⟨-, ⟨n, hn, -⟩, -⟩ := (s.delays_iff fs p c).1 delays
    rw [count] at hn
    cases hn

/-! ### The chain emptied and begun again (R37, R173) -/

/-- The record of P1 probed again. -/
def State.firstRecord (s : State) : Position := { Position.absent (s.posAt 0).counters with state := .probing }

/-- The requests pending after a chain restart. -/
def State.restartAsks (s : State) : List LinkRequest := if s.chain.connectDebounced = true then [.enum 0] else []

/-- `w` is `s` at a chain restart, before the pick. -/
structure State.ChainRestarted (s w : State) : Prop where
  chain : w.chain = { s.chain with positions := w.chain.positions, linkRequests := s.restartAsks }
  queue : w.queue = { s.queue with entries := [] }
  checks : w.checks = ⟨Vector.replicate 6 [], none, s.now⟩
  frame : s.ChainFrom w
  image : w.image = { s.image with faults := [], overflow := w.image.overflow }
  overflow : (s.image.overflow = true → s.image.faults ≠ []) → w.image.overflow = false
  circ : ∀ p c, w.circAt p c = Circuit.clear
  absent : ∀ p : Pos, p ≠ 0 ∨ s.chain.connectDebounced = false → w.posAt p = Position.absent (s.posAt p).counters
  first : s.chain.connectDebounced = true → w.posAt 0 = s.firstRecord

/-- The cascade of a chain restart, over the flushed queue. -/
theorem State.Coherent.emptied {s : State} (h : s.Coherent) :
    let u := s.flush.cascade 0
    u.chain = { s.chain with positions := u.chain.positions, linkRequests := [] } ∧
    u.queue = { s.queue with entries := [] } ∧ s.ChainFrom u ∧
    u.image = { s.image with faults := [], overflow := u.image.overflow } ∧
    ((s.image.overflow = true → s.image.faults ≠ []) → u.image.overflow = false) ∧
    (∀ p c, u.circAt p c = Circuit.clear) ∧ ∀ p : Pos, u.posAt p = Position.absent (s.posAt p).counters := by
  have after := h.flush.cascade 0
  have state := (h.flush.parts.cascade 0).2
  have counters (p : Pos) : ((s.flush.cascade 0).posAt p).counters = (s.posAt p).counters :=
    State.foldl_goAbsent_counters _ _ p
  have placed := State.PlacedFrom.cascade s.flush 0
  have frame := (State.ChainFrom.updQueue s _).trans (State.ChainFrom.cascade s.flush 0)
  have quiet : s.flush.QuietFrom (s.flush.cascade 0) := .foldl_goAbsent _ rfl
  dsimp only
  generalize s.flush.cascade 0 = u at after state counters placed frame quiet
  have absent (p : Pos) : (u.posAt p).state = .absent := by rw [state, if_pos (Fin.zero_le p)]
  have gone (p : Pos) := after.gone (absent p)
  have requests : u.chain.linkRequests = [] := by
    rw [List.eq_nil_iff_forall_not_mem]
    rintro (p | p) hr
    · exact (gone p).2.2.1 hr
    · exact (gone p).2.2.2 hr
  have faults : u.image.faults = [] := by
    rw [List.eq_nil_iff_forall_not_mem]
    exact fun e he => (gone e.key.pos).2.1 e he rfl
  refine ⟨?_, quiet.queue, frame, ?_, fun listed => ?_, fun p => (gone p).1, fun p => ?_⟩
  · rw [← requests]
    exact placed.chain
  · rw [← faults]
    exact quiet.image
  · exact Bool.eq_false_iff.2 fun flag => quiet.overflow listed flag faults
  · rw [after.absent_record (absent p), counters]

theorem State.Coherent.chainRestarted {s : State} (h : s.Coherent) :
    s.ChainRestarted (s.flush.cascade 0).restartChecks.probeAfterRestart := by
  obtain ⟨chain, queue, frame, image, overflow, circ, absent⟩ := h.emptied
  generalize s.flush.cascade 0 = u at chain queue frame image overflow circ absent
  have checks : (⟨Vector.replicate 6 [], none, u.now⟩ : Checks) = ⟨Vector.replicate 6 [], none, s.now⟩ := by rw [frame.now]
  have level : u.chain.connectDebounced = s.chain.connectDebounced := by rw [chain]
  by_cases high : s.chain.connectDebounced = true
  · have probes : u.restartChecks.probeAfterRestart = u.restartChecks.beginProbe 0 := by
      refine (if_pos (level.trans high)).trans (if_pos ?_)
      change ((u.posAt 0).state == .absent) = true
      rw [absent]
      rfl
    rw [probes]
    have asks : s.restartAsks = [.enum 0] := if_pos high
    have place (p : Pos) := u.restartChecks.beginProbe_posAt 0 p
    refine ⟨?_, queue, checks, frame.trans ⟨rfl, rfl, rfl, rfl, rfl, rfl, rfl⟩, image, overflow, circ, fun p hp => ?_,
      fun _ => ?_⟩
    · have requests : u.chain.linkRequests ++ [.enum 0] = s.restartAsks := by
        rw [asks, chain]
        rfl
      have kept (ps : Vector Position 6) (ls : List LinkRequest) :
          ({ u.chain with positions := ps, linkRequests := ls } : Chain) =
            { s.chain with positions := ps, linkRequests := ls } := by
        rw [chain]
      rw [← requests]
      exact kept _ _
    · have other : p ≠ 0 := hp.resolve_right (by simp [high])
      rw [place, if_neg other]
      exact absent p
    · rw [place, if_pos rfl]
      change ({ u.posAt 0 with state := .probing, probeAttempts := 0 } : Position) = _
      rw [absent]
      rfl
  · have stays : u.restartChecks.probeAfterRestart = u.restartChecks := if_neg (by rw [← level] at high; exact high)
    rw [stays]
    have asks : s.restartAsks = [] := if_neg high
    exact ⟨by rw [asks]; exact chain, queue, checks, frame.trans ⟨rfl, rfl, rfl, rfl, rfl, rfl, rfl⟩, image, overflow, circ,
      fun p _ => absent p, fun h => absurd h high⟩

/-! ### The pick of a chain restart -/

/-- What the pick of a chain restart leaves: `u` is `w` with it made. -/
structure State.RestartGoes (s u : State) : Prop where
  frame : u.chain = { s.chain with
    positions := u.chain.positions, transmitted := u.chain.transmitted, changeTimes := u.chain.changeTimes
    linkRequests := u.chain.linkRequests, livenessPoll := u.chain.livenessPoll, line := u.chain.line }
  queue : u.queue.entries = [] ∧ u.queue.tagCounter = s.queue.tagCounter ∧ u.queue.lastPoll = s.queue.lastPoll
  absent : ∀ p : Pos, p ≠ 0 ∨ s.chain.connectDebounced = false → u.posAt p = Position.absent (s.posAt p).counters
  first : s.chain.connectDebounced = true → (u.posAt 0).state = .probing ∧ (u.posAt 0).counters = (s.posAt 0).counters
  waits : s.chain.line ≠ .free → u.chain.line = s.chain.line ∧ u.chain.linkRequests = s.restartAsks ∧
    u.chain.livenessPoll = s.chain.livenessPoll ∧ (s.chain.connectDebounced = true → u.posAt 0 = s.firstRecord)
  kept : s.chain.line ≠ .free → u.queue = { s.queue with entries := [] } ∧ u.chain.transmitted = s.chain.transmitted ∧
    u.chain.changeTimes = s.chain.changeTimes
  slot : s.chain.line = .free → ∀ i : Image, s.queue.slot = some i →
    u.chain.line = .sending (.set 255 0 (Vector.replicate 6 0)) ∧ u.chain.transmitted = i ∧
    (∀ g : Fn, u.chain.changeTimes[g] =
      if on i g = on s.chain.transmitted g then s.chain.changeTimes[g] else some s.now) ∧
    u.queue = { s.queue with entries := [], slot := none, generation := (s.queue.generation + 1) % 65536 } ∧
    u.chain.linkRequests = s.restartAsks ∧ u.chain.livenessPoll = s.chain.livenessPoll ∧
    (s.chain.connectDebounced = true → u.posAt 0 = s.firstRecord)
  free : s.chain.line = .free → s.queue.slot = none →
    u.queue = { s.queue with entries := [] } ∧ u.chain.transmitted = s.chain.transmitted ∧
    u.chain.changeTimes = s.chain.changeTimes ∧ u.chain.linkRequests = [] ∧
    (s.chain.connectDebounced = true → u.chain.line = .sending (.enum 0) ∧
      u.chain.livenessPoll = s.chain.livenessPoll ∧
      u.posAt 0 = { s.firstRecord with probeAttempts := 1, enumTimeout := some (s.now + 20) }) ∧
    (s.chain.connectDebounced = false →
      if s.tables.mode = .setup ∧ s.chain.livenessPoll = true then
        u.chain.line = .sending (.poll 255) ∧ u.chain.livenessPoll = false
      else u.chain.line = .free ∧ u.chain.livenessPoll = s.chain.livenessPoll)

/-- With no telegram begun the places, the requests and the slot wait as they stand. -/
theorem State.ChainRestarted.busy {s w : State} (h : s.ChainRestarted w) (busy : s.chain.line ≠ .free) :
    s.RestartGoes w.transmit := by
  have held : w.transmit = w := w.transmit_busy (by rw [h.chain]; exact busy)
  rw [held]
  refine ⟨by rw [h.chain], by rw [h.queue]; exact ⟨rfl, rfl, rfl⟩, h.absent, fun high => by rw [h.first high]; exact ⟨rfl, rfl⟩,
    fun _ => ⟨by rw [h.chain], by rw [h.chain], by rw [h.chain], h.first⟩,
    fun _ => ⟨h.queue, by rw [h.chain], by rw [h.chain]⟩, fun line => absurd line busy, fun line => absurd line busy⟩

theorem State.ChainRestarted.count {s w : State} (h : s.ChainRestarted w) (p : Pos) : (w.posAt p).circuitCount = none := by
  by_cases hp : p ≠ 0 ∨ s.chain.connectDebounced = false
  · rw [h.absent p hp]
    rfl
  · obtain ⟨rfl, high⟩ : p = 0 ∧ s.chain.connectDebounced = true := by simpa [not_or] using hp
    rw [h.first high]
    rfl

/-- On a free line the slot's SET goes first. -/
theorem State.ChainRestarted.sendsSlot {s w : State} (h : s.ChainRestarted w) (line : s.chain.line = .free) {i : Image}
    (slot : s.queue.slot = some i) : s.RestartGoes w.transmit := by
  have sends : w.transmit = w.sendSlot i := by
    refine State.transmit_slot (by rw [h.chain]; exact line) ?_ (by rw [h.queue]; exact slot)
    rw [Queue.firstSet, h.queue]
    rfl
  have times := fun g => w.imageSent_changeTimes i g
  rw [sends, State.sendSlot_eq, State.masks_none h.count, State.delayOver_none h.count]
  rw [h.chain, h.frame.now] at times
  refine ⟨?_, ?_, h.absent, fun high => ?_, fun busy => absurd line busy, fun busy => absurd line busy, fun _ j hj => ?_,
    fun _ none => ?_⟩
  · rw [h.chain]
  · rw [h.queue]
    exact ⟨rfl, rfl, rfl⟩
  · have first : (w.posAt 0).state = .probing ∧ (w.posAt 0).counters = (s.posAt 0).counters := by
      rw [h.first high]
      exact ⟨rfl, rfl⟩
    exact first
  · cases slot.symm.trans hj
    refine ⟨rfl, rfl, times, ?_, ?_, ?_, h.first⟩
    · rw [h.queue]
    · rw [h.chain]
    · rw [h.chain]
  · rw [slot] at none
    cases none

/-- On a free line with no slot P1's ENUM goes, else a liveness POLL in SETUP. -/
theorem State.ChainRestarted.sendsLink {s w : State} (h : s.ChainRestarted w) (line : s.chain.line = .free)
    (slot : s.queue.slot = none) : s.RestartGoes w.transmit := by
  have wLine : w.chain.line = .free := by rw [h.chain]; exact line
  have wSlot : w.queue.slot = none := by rw [h.queue]; exact slot
  have wEmpty : w.queue.entries = [] := by rw [h.queue]
  have taken (i : Image) (h : s.queue.slot = some i) : False := by
    rw [slot] at h
    cases h
  by_cases high : s.chain.connectDebounced = true
  · have asks : w.chain.linkRequests = [.enum 0] := by
      rw [h.chain]
      exact if_pos high
    have record : w.posAt 0 = s.firstRecord := h.first high
    rw [State.transmit_request wLine (by rw [Queue.firstSet, wEmpty]; rfl) wSlot asks]
    have kept (ps : Vector Position 6) (ls : List LinkRequest) (l : Line) :
        ({ w.chain with positions := ps, linkRequests := ls, line := l } : Chain) =
          { s.chain with positions := ps, linkRequests := ls, line := l } := by
      rw [h.chain]
    have chain : (w.sendLink (.enum 0) []).chain = { s.chain with
        positions := (w.sendLink (.enum 0) []).chain.positions, linkRequests := [], line := .sending (.enum 0) } :=
      kept _ _ _
    have queue : (w.sendLink (.enum 0) []).queue = { s.queue with entries := [] } := h.queue
    have others (p : Pos) (hp : p ≠ 0) : (w.sendLink (.enum 0) []).posAt p = w.posAt p := by
      rw [State.sendLink_enum_posAt, if_neg hp]
    have here : (w.sendLink (.enum 0) []).posAt 0 =
        { s.firstRecord with probeAttempts := 1, enumTimeout := some (s.now + 20) } := by
      rw [State.sendLink_enum_posAt, if_pos rfl, record, h.frame.now]
      rfl
    generalize w.sendLink (.enum 0) [] = u at *
    refine ⟨by rw [chain], by rw [queue]; exact ⟨rfl, rfl, rfl⟩, fun p hp => ?_, fun _ => by rw [here]; exact ⟨rfl, rfl⟩,
      fun busy => absurd line busy, fun busy => absurd line busy, fun _ i hi => (taken i hi).elim, fun _ _ => ?_⟩
    · have hp : p ≠ 0 := hp.resolve_right (by simp [high])
      rw [others p hp]
      exact h.absent p (.inl hp)
    · exact ⟨queue, by rw [chain], by rw [chain], by rw [chain], fun _ => ⟨by rw [chain], by rw [chain], here⟩,
        fun low => absurd high (by simp [low])⟩
  · have low : s.chain.connectDebounced = false := Bool.eq_false_iff.2 high
    have asks : w.chain.linkRequests = [] := by
      rw [h.chain]
      exact if_neg high
    have live : (w.tables.mode = .setup ∧ w.chain.livenessPoll = true) ↔
        (s.tables.mode = .setup ∧ s.chain.livenessPoll = true) := by rw [h.frame.tables, h.chain]
    have pick := State.transmit_noEntry wLine wEmpty wSlot asks
    by_cases polls : s.tables.mode = .setup ∧ s.chain.livenessPoll = true
    · rw [pick, if_pos (live.2 polls)]
      have chain : w.sendLiveness.chain = { s.chain with
          positions := w.chain.positions, linkRequests := s.restartAsks, livenessPoll := false, line := .sending (.poll 255) } :=
        congrArg (fun c : Chain => ({ c with livenessPoll := false, line := .sending (.poll 255) } : Chain)) h.chain
      refine ⟨by rw [chain], ?_, h.absent, fun h => absurd h high, fun busy => absurd line busy, fun busy => absurd line busy,
        fun _ i hi => (taken i hi).elim, fun _ _ => ⟨h.queue, by rw [chain], by rw [chain], by rw [chain]; exact if_neg high,
          fun h => absurd h high, fun _ => ?_⟩⟩
      · have queue : w.sendLiveness.queue = { s.queue with entries := [] } := h.queue
        rw [queue]
        exact ⟨rfl, rfl, rfl⟩
      · rw [if_pos polls, chain]
        exact ⟨rfl, rfl⟩
    · rw [pick, if_neg (mt live.1 polls)]
      refine ⟨by rw [h.chain], by rw [h.queue]; exact ⟨rfl, rfl, rfl⟩, h.absent, fun h => absurd h high,
        fun busy => absurd line busy, fun busy => absurd line busy, fun _ i hi => (taken i hi).elim,
        fun _ _ => ⟨h.queue, by rw [h.chain], by rw [h.chain], asks, fun h => absurd h high, fun _ => ?_⟩⟩
      rw [if_neg polls]
      exact ⟨wLine, by rw [h.chain]⟩

theorem State.ChainRestarted.goes {s w : State} (h : s.ChainRestarted w) : s.RestartGoes w.transmit := by
  by_cases line : s.chain.line = .free
  · cases slot : s.queue.slot with
    | some i => exact h.sendsSlot line slot
    | none => exact h.sendsLink line slot
  · exact h.busy line

/-! ### RESTART CHAIN -/

theorem State.Takes.restartChain {s : State} {f : BusFrame} (ht : s.Takes f (0x06 :: f.data)) :
    exec (.restartChain f) s = .next (((((s.buffering (0x06 :: f.data)).flush.cascade 0).restartChecks.probeAfterRestart.transmit
      ).recompose).updPort fun po =>
      { po with transmit := po.transmit ++ [s.responseTo (0x06 :: f.data) [0, 0, 0, 0, 0, 0, 0]] }) :=
  congrArg Host.Outcome.next (ht.reply (h := handleRestartChain) (r := .only .ok) rfl)

/-- Settles O35: the cascade over the flushed queue empties the chain, and the pick after it has the slot, P1's ENUM or a
liveness POLL to send. -/
theorem restartChainEffects : Obligations.RestartChainEffects := by
  unfold Obligations.RestartChainEffects
  intro s f ht sound
  have taken := ht.restartChain
  have restarted := State.Coherent.chainRestarted (s := s.buffering (0x06 :: f.data))
    (State.Coherent.updPort ((State.chainSound_iff s).1 sound) _)
  generalize hv : s.buffering (0x06 :: f.data) = v at taken restarted
  generalize (v.flush.cascade 0).restartChecks.probeAfterRestart = w at taken restarted
  have goes := restarted.goes
  obtain ⟨c, q, sent, -⟩ := State.transmit_empty (s := w) (by rw [restarted.queue])
  generalize w.transmit = u at taken goes sent
  obtain ⟨now, tables, chain, queue, circuits, cache, checks, store, pending, records, inputs, request⟩ :=
    State.ComposedFrom.reply u fun list => list ++ [s.responseTo (0x06 :: f.data) [0, 0, 0, 0, 0, 0, 0]]
  obtain ⟨retired, untracked, faults, overflow, sequence, opSeconds, secondDue, stale⟩ := records
  have last : (u.recompose.updPort fun po =>
      { po with transmit := po.transmit ++ [s.responseTo (0x06 :: f.data) [0, 0, 0, 0, 0, 0, 0]] }).port.transmit.getLast? =
      some (s.responseTo (0x06 :: f.data) [0, 0, 0, 0, 0, 0, 0]) := List.getLast?_concat
  generalize (u.recompose.updPort fun _ => _) = t at *
  have posAt (p : Pos) : t.posAt p = u.posAt p := congrArg (fun c : Chain => c.positions[p]) chain
  have uImage : u.image = { v.image with faults := [], overflow := w.image.overflow } := by
    rw [← restarted.image, sent]
  have uPort : u.port = v.port := by rw [sent]; exact restarted.frame.port
  have uCirc (p : Pos) (c : Circ) : u.circAt p c = Circuit.clear := by rw [sent]; exact restarted.circ p c
  have uChecks : u.checks = ⟨Vector.replicate 6 [], none, v.now⟩ := by rw [sent]; exact restarted.checks
  have uFrame : u.tables = v.tables ∧ u.store = v.store ∧ u.now = v.now ∧ u.pending = v.pending := by
    rw [sent]
    exact ⟨restarted.frame.tables, restarted.frame.store, restarted.frame.now, restarted.frame.pending⟩
  have flag := restarted.overflow
  have circ (p : Pos) (c : Circ) : t.circAt p c = Circuit.clear :=
    (congrArg (fun v : Vector (Vector Circuit 12) 6 => v[p][c]) circuits).trans (uCirc p c)
  have tInputs : s.port.SameInputs t.port := by
    rw [uPort, ← hv] at inputs
    exact inputs
  clear sent restarted
  obtain ⟨frame, ⟨entries, tags, polled⟩, absent, first, waits, kept, slots, free⟩ := goes
  refine ⟨t, taken, ?_⟩
  simp only [posAt]
  rw [queue, chain, retired, untracked, faults, overflow, sequence, opSeconds, stale, checks, tables, store, now, pending,
    request, uImage, uPort, uChecks, uFrame.1, uFrame.2.1, uFrame.2.2.1, uFrame.2.2.2]
  subst hv
  refine ⟨absent, first, ⟨waits, slots, free⟩, entries, tags, polled, kept, circ, rfl, fun listed => flag listed.2.2.2.2,
    rfl, rfl, rfl, rfl, rfl, rfl, ?_, ?_, ?_, ?_, rfl, rfl, rfl, rfl, tInputs, rfl, last⟩
  all_goals
    rw [frame]
    rfl

end Sys2Proof.Machine
end

