-- ==== Sys2Proof/Proofs/CheckRun.lean ====
section
/-! SUPPORT. The Check Scheduler's run (R116 to R118): the circuit it chooses at a position, and the positions it serves. -/

namespace Sys2Proof.Machine

/-! ### Eligibility (R115, R116) -/

theorem State.eligible_iff (s : State) (p : Pos) (c : Circ) : s.eligible p c = true ↔ s.MayCheck p c := by
  have live : (!s.queue.entries.any (·.checksAt p (some c))) = true ↔
      ∀ e ∈ s.queue.entries, e.kind = .check → ∀ g ∈ e.target, ¬(g.pos = p ∧ g.circ = c) := by
    rw [Bool.not_eq_true', List.any_eq_false]
    refine forall₂_congr fun e _ => ?_
    unfold Entry.checksAt
    cases e.target <;> simp
  have due : s.checkDue p c = true ↔
      (s.circAt p c).due = true ∨ ∀ t ∈ (s.circAt p c).lastCheck, t + s.settings.checkInterval * 1000 ≤ s.now := by
    unfold State.checkDue past
    cases (s.circAt p c).lastCheck <;> simp
  have tests : s.checkable p c = true ↔ s.MeetsCheckTests p c := by
    have dark : s.darkLongEnough p c = true ↔ ∃ f ∈ (s.rowAt p c).function, on s.chain.transmitted f = false ∧
        ∀ t ∈ s.chain.changeTimes[f], t + s.settings.darkDwell ≤ s.now := by
      unfold State.darkLongEnough past
      cases (s.rowAt p c).function with
      | none => simp
      | some f =>
        simp only [Option.mem_def, Option.some.injEq, exists_eq_left']
        generalize s.chain.changeTimes[f] = since
        cases since <;> simp
    have mapped : s.darkLongEnough p c = true → (s.rowAt p c).function.isSome = true := fun h => by
      obtain ⟨f, row, -⟩ := dark.1 h
      rw [Option.mem_def.1 row]
      rfl
    unfold State.checkable State.MeetsCheckTests State.isActive State.fitted
    simp only [Bool.and_eq_true, beq_iff_eq, bne_iff_ne, decide_eq_true_iff, countReaches_iff]
    constructor
    · rintro ⟨⟨⟨⟨⟨⟨active, -, fits⟩, enabled⟩, pulse⟩, off⟩, notStuck⟩, notShorted⟩
      exact ⟨active, fits, dark.1 off, enabled, pulse, notStuck, notShorted⟩
    · rintro ⟨active, fits, off, enabled, pulse, notStuck, notShorted⟩
      exact ⟨⟨⟨⟨⟨⟨active, mapped (dark.2 off), fits⟩, enabled⟩, pulse⟩, dark.2 off⟩, notStuck⟩, notShorted⟩
  unfold State.eligible State.MayCheck
  rw [Bool.and_eq_true, Bool.and_eq_true, live, due, tests, and_assoc]

/-! ### The choice within a position (R118) -/

/-- The best of the circuits `seen`: none is eligible, or it is and goes before every other that is. -/
def State.Best (s : State) (p : Pos) (seen : List Circ) : Option Circ → Prop
  | none => ∀ k ∈ seen, s.eligible p k = false
  | some c => s.eligible p c = true ∧ c ∈ seen ∧
      ∀ k ∈ seen, k ≠ c → s.eligible p k = true → checkGoesFirst (s.circAt p c).lastCheck c (s.circAt p k).lastCheck k

/-- One circuit's turn in the choice. -/
def State.better (s : State) (p : Pos) (best : Option Circ) (c : Circ) : Option Circ :=
  if s.eligible p c then
    match best with
    | none => some c
    | some b => if checkedBefore (s.circAt p c).lastCheck (s.circAt p b).lastCheck then some c else best
  else best

theorem State.chooseCheck_eq (s : State) (p : Pos) : s.chooseCheck p = allCirc.foldl (s.better p) none := rfl

/-- A circuit checked before another goes before it, and before all that the other goes before. -/
theorem checkGoesFirst_of_before {a b d : Option Time} {c k j : Circ} (h : checkedBefore a b = true)
    (other : k = j ∧ b = d ∨ checkGoesFirst b k d j) : checkGoesFirst a c d j := by
  cases a <;> cases b <;> simp only [checkedBefore, decide_eq_true_eq, Bool.false_eq_true] at h
  · rcases other with ⟨-, rfl⟩ | other
    · trivial
    · cases d <;> simp_all [checkGoesFirst]
  · rcases other with ⟨-, rfl⟩ | other
    · exact .inl h
    · cases d with
      | none => cases other
      | some u =>
        exact .inl (other.elim (Nat.lt_trans h) fun e => e.1 ▸ h)

/-- A circuit not checked before one of a lower number is not before it. -/
theorem checkGoesFirst_of_not_before {a b : Option Time} {c k : Circ} (h : checkedBefore a b = false) (lower : k < c) :
    checkGoesFirst b k a c := by
  cases a <;> cases b <;> simp_all [checkedBefore, checkGoesFirst]
  exact Nat.lt_or_eq_of_le h

theorem State.Best.better {s : State} {p : Pos} {seen : List Circ} {best : Option Circ} (h : s.Best p seen best) {c : Circ}
    (above : ∀ k ∈ seen, k < c) : s.Best p (seen ++ [c]) (s.better p best c) := by
  have mem (k : Circ) : k ∈ seen ++ [c] ↔ k ∈ seen ∨ k = c := by simp
  unfold State.better
  by_cases eligible : s.eligible p c = true
  · rw [if_pos eligible]
    cases best with
    | none =>
      refine ⟨eligible, (mem c).2 (.inr rfl), fun k hk hne may => ?_⟩
      have hk := ((mem k).1 hk).resolve_right hne
      rw [h k hk] at may
      cases may
    | some b =>
      obtain ⟨may, hb, first⟩ := h
      dsimp only
      split
      · next before =>
        refine ⟨eligible, (mem c).2 (.inr rfl), fun k hk hne mayK => checkGoesFirst_of_before (k := b) before ?_⟩
        have hk := ((mem k).1 hk).resolve_right hne
        by_cases same : k = b
        · exact .inl ⟨same.symm, by rw [same]⟩
        · exact .inr (first k hk same mayK)
      · next after =>
        refine ⟨may, (mem b).2 (.inl hb), fun k hk hne mayK => ?_⟩
        rcases (mem k).1 hk with hk | rfl
        · exact first k hk hne mayK
        · exact checkGoesFirst_of_not_before (Bool.eq_false_iff.2 after) (above b hb)
  · rw [if_neg eligible]
    cases best with
    | none =>
      intro k hk
      rcases (mem k).1 hk with hk | rfl
      · exact h k hk
      · exact Bool.eq_false_iff.2 eligible
    | some b =>
      obtain ⟨may, hb, first⟩ := h
      refine ⟨may, (mem b).2 (.inl hb), fun k hk hne mayK => ?_⟩
      rcases (mem k).1 hk with hk | rfl
      · exact first k hk hne mayK
      · exact absurd mayK eligible

theorem State.Best.foldl {s : State} {p : Pos} (l : List Circ) {seen : List Circ} {best : Option Circ}
    (h : s.Best p seen best) (sorted : (seen ++ l).Pairwise (· < ·)) : s.Best p (seen ++ l) (l.foldl (s.better p) best) := by
  induction l generalizing seen best with
  | nil => simpa using h
  | cons c l ih =>
    have above : ∀ k ∈ seen, k < c := fun k hk => (List.pairwise_append.1 sorted).2.2 k hk c (by simp)
    have next := ih (h.better above) (by simpa using sorted)
    simpa using next

theorem State.chooseCheck_best (s : State) (p : Pos) : s.Best p allCirc (s.chooseCheck p) := by
  have start : s.Best p [] none := by simp [State.Best]
  have all := start.foldl allCirc (by decide)
  rwa [List.nil_append] at all

theorem State.chooseCheck_none {s : State} {p : Pos} : s.chooseCheck p = none ↔ ¬∃ c, s.MayCheck p c := by
  have best := s.chooseCheck_best p
  constructor
  · intro h
    rw [h] at best
    rintro ⟨c, may⟩
    rw [← State.eligible_iff, best c (mem_allCirc c)] at may
    cases may
  · intro h
    cases hc : s.chooseCheck p with
    | none => rfl
    | some c =>
      rw [hc] at best
      exact absurd ⟨c, (s.eligible_iff p c).1 best.1⟩ h

theorem State.chooseCheck_chosen {s : State} {p : Pos} {c : Circ} (h : s.chooseCheck p = some c) : s.ChosenForCheck p c := by
  have best := s.chooseCheck_best p
  rw [h] at best
  obtain ⟨may, -, first⟩ := best
  exact ⟨(s.eligible_iff p c).1 may, fun k hne mayK => first k (mem_allCirc k) hne ((s.eligible_iff p k).2 mayK)⟩

/-! ### The positions served (R117) -/

/-- A position's turn brings a CHECK while the queue has room. -/
def State.wantsCheck (s : State) (p : Pos) : Bool :=
  s.isActive p && decide (s.queue.entries.countP (·.checksAt p none) < 2) && (s.chooseCheck p).isSome

/-- How many POLLs and CHECKs the queue takes. -/
def Queue.checkRoom (q : Queue) : Nat := min (16 - q.entries.length) (12 - q.entries.countP Entry.isPollCheck)

theorem Queue.hasPollCheckRoom_iff (q : Queue) : q.hasPollCheckRoom = true ↔
    q.entries.length < 16 ∧ q.entries.countP Entry.isPollCheck < 12 := by
  unfold Queue.hasPollCheckRoom Queue.hasRoom
  rw [Bool.and_eq_true, decide_eq_true_iff, decide_eq_true_iff]
  rfl

/-- The entries of the CHECKs asked at these positions and circuits, tags from `tag` on. -/
def State.checkEntries (s : State) (tag : Nat) (served : List (Pos × Circ)) : List Entry :=
  served.zipIdx.map fun x => ⟨(tag + x.2) % 255, .check, .waiting, none, 0,
    some ⟨x.1.1, x.1.2, (s.profileAt x.1.1 x.1.2).checkPulse⟩, none, 0, 0, []⟩

/-- The state after a run that serves these positions. -/
def State.served (s : State) (served : List (Pos × Circ)) : State :=
  { s with
    queue := { s.queue with
      entries := s.queue.entries ++ s.checkEntries s.queue.tagCounter served
      tagCounter := (s.queue.tagCounter + served.length) % 255 }
    checks := { s.checks with
      lastServed := match served.getLast? with | some x => some x.1 | none => s.checks.lastServed } }

theorem State.checkEntries_cons (s : State) (tag : Nat) (x : Pos × Circ) (l : List (Pos × Circ)) :
    s.checkEntries tag (x :: l) = s.checkEntries tag [x] ++ s.checkEntries ((tag + 1) % 255) l := by
  unfold State.checkEntries
  rw [List.zipIdx_cons, List.zipIdx_succ]
  simp only [List.map_cons, List.map_map, List.zipIdx_nil, List.map_nil, List.zipIdx_cons, List.singleton_append]
  congr 1
  refine List.map_congr_left fun y _ => ?_
  have tags : (tag + (y.2 + 1)) % 255 = ((tag + 1) % 255 + y.2) % 255 := by omega
  simp only [Function.comp_apply, tags]

theorem State.served_nil {s : State} (tags : s.queue.tagCounter < 255) : s.served [] = s := by
  have counter : (s.queue.tagCounter + 0) % 255 = s.queue.tagCounter := Nat.mod_eq_of_lt tags
  have entries : s.queue.entries ++ s.checkEntries s.queue.tagCounter [] = s.queue.entries := List.append_nil _
  unfold State.served
  rw [entries, List.length_nil, counter]
  rfl

theorem State.served_cons (s : State) (x : Pos × Circ) (l : List (Pos × Circ)) :
    (s.served [x]).served l = s.served (x :: l) := by
  have entries : (s.served [x]).queue.entries ++ (s.served [x]).checkEntries (s.served [x]).queue.tagCounter l =
      s.queue.entries ++ s.checkEntries s.queue.tagCounter (x :: l) := by
    rw [State.checkEntries_cons, ← List.append_assoc]
    rfl
  have counter : ((s.served [x]).queue.tagCounter + l.length) % 255 = (s.queue.tagCounter + (x :: l).length) % 255 := by
    have one : (s.served [x]).queue.tagCounter = (s.queue.tagCounter + 1) % 255 := rfl
    rw [one, List.length_cons]
    omega
  have last : (match l.getLast? with | some y => some y.1 | none => (s.served [x]).checks.lastServed) =
      match (x :: l).getLast? with | some y => some y.1 | none => s.checks.lastServed := by
    rw [List.getLast?_cons]
    cases l.getLast? <;> rfl
  rw [State.served, entries, counter, last]
  rfl

/-- One position served: the CHECK entry, and the last position served. -/
theorem State.served_one {s : State} (tags : s.queue.tagCounter < 255) (p : Pos) (c : Circ) :
    ((s.updQueue fun q => q.allocate .check none 0 (some ⟨p, c, (s.profileAt p c).checkPulse⟩)).updChecks fun k =>
      { k with lastServed := some p }) = s.served [(p, c)] := by
  have tag : (s.queue.tagCounter + 0) % 255 = s.queue.tagCounter := Nat.mod_eq_of_lt tags
  have one : s.checkEntries s.queue.tagCounter [(p, c)] = [⟨s.queue.tagCounter, .check, .waiting, none, 0,
      some ⟨p, c, (s.profileAt p c).checkPulse⟩, none, 0, 0, []⟩] := by
    simp only [State.checkEntries, List.zipIdx_cons, List.zipIdx_nil, List.map_cons, List.map_nil, tag]
  unfold State.served
  rw [one]
  rfl

section
variable {s : State} {p q : Pos} {c : Circ} (h : q ≠ p)
include h

/-- A CHECK asked at one position does not bear on the choice at another. -/
theorem State.served_eligible (k : Circ) : (s.served [(p, c)]).eligible q k = s.eligible q k := by
  have other : (s.queue.entries ++ s.checkEntries s.queue.tagCounter [(p, c)]).any (·.checksAt q (some k)) =
      s.queue.entries.any (·.checksAt q (some k)) := by
    rw [List.any_append]
    simp [State.checkEntries, Entry.checksAt, Ne.symm h]
  unfold State.eligible
  rw [← other]
  rfl

theorem State.served_chooseCheck : (s.served [(p, c)]).chooseCheck q = s.chooseCheck q := by
  have turn : (s.served [(p, c)]).better q = s.better q := by
    funext best k
    unfold State.better
    rw [State.served_eligible h k]
    rfl
  rw [State.chooseCheck_eq, State.chooseCheck_eq, turn]

theorem State.served_wantsCheck : (s.served [(p, c)]).wantsCheck q = s.wantsCheck q := by
  have count : (s.queue.entries ++ s.checkEntries s.queue.tagCounter [(p, c)]).countP (·.checksAt q none) =
      s.queue.entries.countP (·.checksAt q none) := by
    rw [List.countP_append]
    simp [State.checkEntries, Entry.checksAt, Ne.symm h]
  unfold State.wantsCheck
  rw [State.served_chooseCheck h, ← count]
  rfl

end

theorem State.served_checkRoom (s : State) (p : Pos) (c : Circ) :
    (s.served [(p, c)]).queue.checkRoom = s.queue.checkRoom - 1 := by
  have length : (s.queue.entries ++ s.checkEntries s.queue.tagCounter [(p, c)]).length = s.queue.entries.length + 1 := by
    simp [State.checkEntries]
  have count : (s.queue.entries ++ s.checkEntries s.queue.tagCounter [(p, c)]).countP Entry.isPollCheck =
      s.queue.entries.countP Entry.isPollCheck + 1 := by
    rw [List.countP_append]
    simp [State.checkEntries, Entry.isPollCheck]
  unfold Queue.checkRoom
  change min (16 - (s.queue.entries ++ _).length) (12 - (s.queue.entries ++ _).countP _) = _
  rw [length, count]
  omega

/-! One position's turn. -/

theorem State.wantsCheck_iff (s : State) (p : Pos) : s.wantsCheck p = true ↔
    (s.isActive p && decide (s.queue.entries.countP (·.checksAt p none) < Config.liveChecksPerPos)) = true ∧
      ∃ c, s.chooseCheck p = some c := by
  rw [State.wantsCheck, Bool.and_eq_true, Option.isSome_iff_exists]
  rfl

theorem State.runChecks_skips {s : State} {p : Pos} (quiet : ¬s.wantsCheck p = true) (ps : List Pos) :
    State.runChecks (p :: ps) s = State.runChecks ps s := by
  rw [State.runChecks]
  split
  · next may =>
    split
    · next c hc => exact absurd ((s.wantsCheck_iff p).2 ⟨may, c, hc⟩) quiet
    · rfl
  · rfl

theorem State.runChecks_serves {s : State} {p : Pos} {c : Circ} (wants : s.wantsCheck p = true) (hc : s.chooseCheck p = some c)
    (room : s.queue.hasPollCheckRoom = true) (tags : s.queue.tagCounter < 255) (ps : List Pos) :
    State.runChecks (p :: ps) s = State.runChecks ps (s.served [(p, c)]) := by
  rw [State.runChecks, if_pos ((s.wantsCheck_iff p).1 wants).1, hc]
  dsimp only
  rw [if_pos room, State.served_one tags]

theorem State.runChecks_ends {s : State} {p : Pos} (wants : s.wantsCheck p = true) (full : ¬s.queue.hasPollCheckRoom = true)
    (ps : List Pos) : State.runChecks (p :: ps) s = s := by
  obtain ⟨may, c, hc⟩ := (s.wantsCheck_iff p).1 wants
  rw [State.runChecks, if_pos may, hc]
  exact if_neg full

/-- A run serves, in its order, the positions whose turn brings a CHECK, as far as the queue has room. -/
theorem State.runChecks_eq (ps : List Pos) (nodup : ps.Nodup) {s : State} (tags : s.queue.tagCounter < 255) :
    ∃ l : List (Pos × Circ), l.map (·.1) = (ps.filter s.wantsCheck).take s.queue.checkRoom ∧
      (∀ x ∈ l, s.chooseCheck x.1 = some x.2) ∧ State.runChecks ps s = s.served l := by
  induction ps generalizing s with
  | nil => exact ⟨[], by simp, nofun, (State.served_nil tags).symm⟩
  | cons p ps ih =>
    obtain ⟨fresh, nodup⟩ := List.nodup_cons.1 nodup
    by_cases wants : s.wantsCheck p = true
    · rw [List.filter_cons_of_pos wants]
      obtain ⟨-, c, hc⟩ := (s.wantsCheck_iff p).1 wants
      by_cases room : s.queue.hasPollCheckRoom = true
      · rw [State.runChecks_serves wants hc room tags]
        obtain ⟨short, few⟩ := s.queue.hasPollCheckRoom_iff.1 room
        have left : s.queue.checkRoom = (s.queue.checkRoom - 1) + 1 := by
          unfold Queue.checkRoom
          omega
        obtain ⟨l, positions, choices, eq⟩ := ih nodup (s := s.served [(p, c)]) (Nat.mod_lt _ (by decide))
        have apart : ∀ q ∈ ps, q ≠ p := fun q hq e => fresh (e ▸ hq)
        rw [State.served_checkRoom, List.filter_congr fun q hq => State.served_wantsCheck (apart q hq)] at positions
        have places : ∀ x ∈ l, x.1 ∈ ps := fun x hx => by
          have hm := List.mem_map_of_mem (f := (·.1)) hx
          rw [positions] at hm
          exact List.mem_of_mem_filter (List.mem_of_mem_take hm)
        refine ⟨(p, c) :: l, ?_, fun x hx => ?_, eq.trans (State.served_cons s (p, c) l)⟩
        · rw [left, List.take_succ_cons, List.map_cons, positions]
        · rcases List.mem_cons.1 hx with rfl | hx
          · exact hc
          · rw [← State.served_chooseCheck (apart x.1 (places x hx))]
            exact choices x hx
      · have full : s.queue.checkRoom = 0 := by
          have := mt s.queue.hasPollCheckRoom_iff.2 room
          unfold Queue.checkRoom
          omega
        refine ⟨[], by rw [full]; rfl, nofun, ?_⟩
        rw [State.runChecks_ends wants room, State.served_nil tags]
    · rw [List.filter_cons_of_neg wants, State.runChecks_skips wants]
      exact ih nodup tags

/-- Without room a run serves none. -/
theorem State.runChecks_full (ps : List Pos) {s : State} (full : ¬s.queue.hasPollCheckRoom = true) :
    State.runChecks ps s = s := by
  induction ps with
  | nil => rfl
  | cons p ps ih =>
    by_cases wants : s.wantsCheck p = true
    · exact State.runChecks_ends wants full ps
    · rw [State.runChecks_skips wants, ih]

/-- The order of a run, written out. -/
theorem roundFrom_eq (o : Option Pos) : roundFrom o = match o with
    | none => allPos
    | some q => allPos.filter (fun p => q < p) ++ allPos.filter (fun p => p ≤ q) := by
  cases o with
  | none => rfl
  | some q =>
    revert q
    decide

theorem roundFrom_nodup (o : Option Pos) : (roundFrom o).Nodup := by
  cases o with
  | none => decide
  | some q =>
    revert q
    decide

end Sys2Proof.Machine
end

