-- ==== Sys2Proof/Proofs/PollDue.lean ====
section
/-! SUPPORT and PROOF. POLL_DUE: the POLL asked, sent or skipped, the Check Scheduler's run behind it, and the liveness POLL of
SETUP (O43). -/

namespace Sys2Proof.Machine

/-! ### The states of a due POLL -/

/-- The due time after the one taken (R60). -/
def State.pollNext (s : State) : Time := s.queue.lastPoll + s.settings.pollPeriod

/-- The POLL entry that a due time brings. -/
def State.pollEntry (s : State) : Entry := ⟨s.queue.tagCounter, .poll, .waiting, none, 0, none, none, 0, 0, []⟩

/-- The state with the due POLL live as `poll`, the line at `x`. -/
def State.polled (s : State) (x : Line) (poll : Entry) : State :=
  { s with
    chain := { s.chain with line := x }
    queue := { s.queue with
      entries := s.queue.entries ++ [poll], tagCounter := (s.queue.tagCounter + 1) % 255, lastPoll := s.pollNext } }

/-- The state with the due POLL skipped and counted. -/
def State.pollSkipped (s : State) : State :=
  { s with
    chain := { s.chain with counters := { s.chain.counters with
      skippedPolls := min 65535 (s.chain.counters.skippedPolls + 1) } }
    queue := { s.queue with lastPoll := s.pollNext } }

/-- The state with a liveness POLL pending. -/
def State.livenessDue (s : State) : State :=
  { s with chain := { s.chain with livenessPoll := true }, queue := { s.queue with lastPoll := s.pollNext } }

theorem State.pollOver_iff (s : State) : s.pollOver = true ↔ s.pollNext ≤ s.now := decide_eq_true_iff

theorem exec_pollDue {s : State} (due : s.pollNext ≤ s.now) : exec .pollDue s = .next s.pollExpiry.recompose :=
  congrArg _ (if_pos (s.pollOver_iff.2 due))

section
variable {s : State} (due : s.pollNext ≤ s.now)
include due

theorem State.pollExpiry_asks (run : s.tables.mode = .run) (room : s.queue.hasPollCheckRoom = true) :
    s.pollExpiry = ((s.polled s.chain.line s.pollEntry).transmit.checkRun).transmit := by
  have asks : (s.updQueue fun q => { q with lastPoll := q.lastPoll + s.settings.pollPeriod }).requestPoll =
      s.polled s.chain.line s.pollEntry := if_pos room
  unfold State.pollExpiry
  rw [if_pos (s.pollOver_iff.2 due), ← asks]
  dsimp only [State.updQueue_tables]
  rw [run]

theorem State.pollExpiry_skips (run : s.tables.mode = .run) (full : ¬s.queue.hasPollCheckRoom = true) :
    s.pollExpiry = (s.pollSkipped.transmit.checkRun).transmit := by
  have skips : (s.updQueue fun q => { q with lastPoll := q.lastPoll + s.settings.pollPeriod }).requestPoll =
      s.pollSkipped := if_neg full
  unfold State.pollExpiry
  rw [if_pos (s.pollOver_iff.2 due), ← skips]
  dsimp only [State.updQueue_tables]
  rw [run]

theorem State.pollExpiry_liveness (setup : s.tables.mode = .setup) : s.pollExpiry = s.livenessDue.transmit := by
  unfold State.pollExpiry
  rw [if_pos (s.pollOver_iff.2 due)]
  dsimp only [State.updQueue_tables]
  rw [setup]
  rfl

end

/-! ### The run behind the POLL -/

section
variable {s : State} {x : Line} {poll : Entry} (kind : poll.kind = .poll)
include kind

theorem State.polled_mayCheck (p : Pos) (c : Circ) : (s.polled x poll).MayCheck p c ↔ s.MayCheck p c := by
  have live : (∀ e ∈ s.queue.entries ++ [poll], e.kind = .check → ∀ g ∈ e.target, ¬(g.pos = p ∧ g.circ = c)) ↔
      ∀ e ∈ s.queue.entries, e.kind = .check → ∀ g ∈ e.target, ¬(g.pos = p ∧ g.circ = c) := by
    simp [or_imp, forall_and, kind]
  exact and_congr_right fun _ => and_congr_right fun _ => live

theorem State.polled_chosen (p : Pos) (c : Circ) : (s.polled x poll).ChosenForCheck p c ↔ s.ChosenForCheck p c := by
  unfold State.ChosenForCheck
  simp only [State.polled_mayCheck kind]
  rfl

theorem State.polled_wantsCheck (p : Pos) : (s.polled x poll).wantsCheck p =
    decide ((∃ c : Circ, s.MayCheck p c) ∧ s.queue.entries.countP (·.checksAt p none) < 2) := by
  have count : (s.queue.entries ++ [poll]).countP (·.checksAt p none) = s.queue.entries.countP (·.checksAt p none) := by
    rw [List.countP_append]
    simp [Entry.checksAt, kind]
  have chosen : ((s.polled x poll).chooseCheck p).isSome = true ↔ ∃ c, s.MayCheck p c := by
    rw [Option.isSome_iff_ne_none, Ne, State.chooseCheck_none, not_not]
    simp only [State.polled_mayCheck kind]
  have active : (∃ c, s.MayCheck p c) → (s.polled x poll).isActive p = true := fun ⟨_, may⟩ => beq_iff_eq.2 may.1.1
  rw [Bool.eq_iff_iff, decide_eq_true_iff, State.wantsCheck, Bool.and_eq_true, Bool.and_eq_true, chosen, decide_eq_true_iff]
  change ((_ ∧ (s.queue.entries ++ [poll]).countP _ < 2) ∧ _) ↔ _
  rw [count]
  exact ⟨fun h => ⟨h.2, h.1.2⟩, fun h => ⟨⟨active h.1, h.2⟩, h.1⟩⟩

theorem State.polled_checkRoom : (s.polled x poll).queue.checkRoom =
    min (15 - s.queue.entries.length) (11 - s.queue.entries.countP Entry.isPollCheck) := by
  have count : (s.queue.entries ++ [poll]).countP Entry.isPollCheck = s.queue.entries.countP Entry.isPollCheck + 1 := by
    rw [List.countP_append]
    simp [Entry.isPollCheck, kind]
  unfold Queue.checkRoom
  change min (16 - (s.queue.entries ++ [poll]).length) (12 - (s.queue.entries ++ [poll]).countP _) = _
  rw [List.length_append, List.length_singleton, count]
  omega

end

/-- The queue and the scheduler after the run behind the due POLL, live as `poll` (R117, R118). -/
def State.PollRuns (s t : State) (poll : Entry) : Prop := ∃ served : List (Pos × Circ),
  served.map (·.1) = ((roundFrom s.checks.lastServed).filter fun p => decide ((∃ c : Circ, s.MayCheck p c) ∧
      s.queue.entries.countP (·.checksAt p none) < 2)).take
    (min (15 - s.queue.entries.length) (11 - s.queue.entries.countP Entry.isPollCheck)) ∧
  (∀ x ∈ served, s.ChosenForCheck x.1 x.2) ∧
  t.queue = { s.queue with
    entries := s.queue.entries ++ poll :: served.zipIdx.map fun x =>
      ⟨(s.queue.tagCounter + 1 + x.2) % 255, .check, .waiting, none, 0,
        some ⟨x.1.1, x.1.2, (s.profileAt x.1.1 x.1.2).checkPulse⟩, none, 0, 0, []⟩
    tagCounter := (s.queue.tagCounter + 1 + served.length) % 255
    lastPoll := s.pollNext } ∧
  t.checks = { s.checks with
    lastServed := match served.getLast? with | some x => some x.1 | none => s.checks.lastServed }

theorem State.served_polled_queue (s : State) (x : Line) (poll : Entry) (served : List (Pos × Circ)) :
    ((s.polled x poll).served served).queue = { s.queue with
      entries := s.queue.entries ++ poll :: served.zipIdx.map fun x =>
        ⟨(s.queue.tagCounter + 1 + x.2) % 255, .check, .waiting, none, 0,
          some ⟨x.1.1, x.1.2, (s.profileAt x.1.1 x.1.2).checkPulse⟩, none, 0, 0, []⟩
      tagCounter := (s.queue.tagCounter + 1 + served.length) % 255
      lastPoll := s.pollNext } := by
  have tag (k : Nat) : ((s.queue.tagCounter + 1) % 255 + k) % 255 = (s.queue.tagCounter + 1 + k) % 255 := by omega
  unfold State.served State.checkEntries State.polled
  simp only [List.append_assoc, List.singleton_append, tag]
  rfl

/-- The run leaves the line and the image; it goes over the entries as they stand with the POLL. -/
theorem State.polled_checkRun (s : State) (x : Line) {poll : Entry} (kind : poll.kind = .poll) : ∃ served,
    (s.polled x poll).checkRun = (s.polled x poll).served served ∧ s.PollRuns ((s.polled x poll).served served) poll := by
  obtain ⟨l, positions, choices, eq⟩ := State.runChecks_eq (roundFrom s.checks.lastServed) (roundFrom_nodup _)
    (s := s.polled x poll) (Nat.mod_lt _ (by decide))
  rw [State.polled_checkRoom kind, List.filter_congr fun p _ => State.polled_wantsCheck kind p] at positions
  exact ⟨l, eq, l, positions, fun y hy => (State.polled_chosen kind y.1 y.2).1 (State.chooseCheck_chosen (choices y hy)),
    s.served_polled_queue x poll l, rfl⟩

/-- What a run leaves: the entries it allocates, the tag counter and the last position served. -/
theorem State.runChecks_frame (ps : List Pos) (s : State) : ∃ es n last, State.runChecks ps s = { s with
    queue := { s.queue with entries := es, tagCounter := n }, checks := { s.checks with lastServed := last } } := by
  induction ps generalizing s with
  | nil => exact ⟨_, _, _, rfl⟩
  | cons p ps ih =>
    unfold State.runChecks
    split
    · split
      · split
        · obtain ⟨es, n, last, eq⟩ := ih ((s.updQueue fun q => q.allocate .check none 0
            (some ⟨p, _, (s.profileAt p _).checkPulse⟩)).updChecks fun k => { k with lastServed := some p })
          exact ⟨es, n, last, eq⟩
        · exact ⟨_, _, _, rfl⟩
      · exact ih s
    · exact ih s

/-- What POLL_DUE leaves of the cache, and the due time it sets. -/
theorem State.transmitted_run (s : State) : s.transmit.checkRun.transmit.cache = s.cache ∧
    s.transmit.checkRun.transmit.queue.lastPoll = s.queue.lastPoll := by
  obtain ⟨es, n, last, eq⟩ := State.runChecks_frame (roundFrom s.transmit.checks.lastServed) s.transmit
  have run : s.transmit.checkRun = _ := eq
  rw [(State.SentFrom.transmit _).cache, State.transmit_lastPoll, run]
  exact ⟨(State.SentFrom.transmit s).cache, s.transmit_lastPoll⟩

theorem State.pollExpiry_rest {s : State} (due : s.pollNext ≤ s.now) :
    s.pollExpiry.cache = s.cache ∧ s.pollExpiry.queue.lastPoll = s.pollNext := by
  cases mode : s.tables.mode with
  | run =>
    by_cases room : s.queue.hasPollCheckRoom = true
    · rw [State.pollExpiry_asks due mode room]
      exact State.transmitted_run (s.polled s.chain.line s.pollEntry)
    · rw [State.pollExpiry_skips due mode room]
      exact s.pollSkipped.transmitted_run
  | setup =>
    rw [State.pollExpiry_liveness due mode, (State.SentFrom.transmit _).cache, State.transmit_lastPoll]
    exact ⟨rfl, rfl⟩

/-! ### The POLL waits, is sent, or is COMPLETE at once -/

/-- On a busy line the POLL waits, and the run's CHECKs behind it. -/
theorem State.pollExpiry_busy {s : State} (due : s.pollNext ≤ s.now) (run : s.tables.mode = .run)
    (room : s.queue.hasPollCheckRoom = true) (busy : s.chain.line ≠ .free) :
    s.pollExpiry.chain = s.chain ∧ s.pollExpiry.circuits = s.circuits ∧ s.pollExpiry.image = s.image ∧
      s.PollRuns s.pollExpiry s.pollEntry := by
  obtain ⟨served, eq, runs⟩ := s.polled_checkRun s.chain.line (poll := s.pollEntry) rfl
  rw [State.pollExpiry_asks due run room, State.transmit_busy (s.polled s.chain.line s.pollEntry) busy, eq,
    State.transmit_busy ((s.polled s.chain.line s.pollEntry).served served) busy]
  exact ⟨rfl, rfl, rfl, runs⟩

section
variable {s : State} (tags : s.TagsInOrder)
include tags

/-- A search that finds every CHECK held back goes on to the POLLs, everything as it stands. -/
theorem State.pickCheck_held
    (held : ∀ y ∈ s.queue.entries, y.state = .waiting → y.kind = .check → s.HeldBack y) :
    State.pickCheck s.queue.waitingChecks s = s.pickPoll := by
  have skips : ∀ l : List Nat, (∀ x ∈ l, x ∈ checkTags s.queue.entries) → State.pickCheck l s = s.pickPoll := by
    intro l
    induction l with
    | nil => exact fun _ => rfl
    | cons tag l ih =>
      intro hl
      rw [State.pickCheck_skip fun e he => ?_]
      · exact ih fun x hx => hl x (List.mem_cons_of_mem _ hx)
      · have hm := List.mem_of_find?_eq_some he
        have ht : e.tag = tag := by simpa using List.find?_some he
        obtain ⟨waiting, check⟩ := (mem_checkTags tags.nodup hm).1 (ht ▸ hl tag (by simp))
        have dark := held e hm waiting check
        refine ⟨?_, fun g hg => .inr (dark g hg).2⟩
        unfold State.litTarget
        cases hg : e.target with
        | none => rfl
        | some g => exact (dark g hg).1
  exact skips _ fun _ h => h

/-- The tags of a queue in order lie apart from those still to come. -/
theorem State.TagsInOrder.fresh {y : Entry} (hy : y ∈ s.queue.entries) {k : Nat} (hk : k ≤ 16) :
    y.tag ≠ (s.queue.tagCounter + k) % 255 := by
  obtain ⟨counter, length, eq⟩ := tags
  have hm := List.mem_map_of_mem (f := (·.tag)) hy
  rw [eq] at hm
  obtain ⟨i, hi, ht⟩ := List.mem_map.1 hm
  have hi := List.mem_range.1 hi
  have length : s.queue.entries.length ≤ 16 := length
  rw [← ht]
  omega

end

theorem State.mem_checkEntries {s : State} {tag : Nat} {l : List (Pos × Circ)} {z : Entry} (hz : z ∈ s.checkEntries tag l) :
    ∃ k < l.length, z.tag = (tag + k) % 255 := by
  obtain ⟨x, hx, rfl⟩ := List.mem_map.1 hz
  exact ⟨x.2, List.snd_lt_of_mem_zipIdx hx, rfl⟩

/-- The premises of a pick that comes to the CHECKs and the new POLL. -/
structure State.PollReady (s : State) : Prop where
  tags : s.TagsInOrder
  line : s.chain.line = .free
  sets : s.queue.firstSet = none
  polls : s.queue.firstOf .poll = none
  slot : s.queue.slot = none
  requests : s.chain.linkRequests = []

section
variable {s : State} (h : s.PollReady)
include h

/-- The pick with the POLL allocated is the search over the CHECKs. -/
theorem State.PollReady.searches : (s.polled s.chain.line s.pollEntry).transmit =
    State.pickCheck (s.polled s.chain.line s.pollEntry).queue.waitingChecks (s.polled s.chain.line s.pollEntry) := by
  have sets : (s.polled s.chain.line s.pollEntry).queue.firstSet = none := by
    have none := h.sets
    unfold Queue.firstSet at none ⊢
    exact (List.find?_append ..).trans (by rw [none]; rfl)
  exact State.transmit_check (s := s.polled s.chain.line s.pollEntry) h.line sets h.slot h.requests

theorem State.PollReady.first : ∀ y ∈ s.queue.entries, ¬(y.state = .waiting ∧ y.kind = .poll) := fun y hy k =>
  List.find?_eq_none.1 h.polls y hy (by simp [k.1, k.2])

theorem State.PollReady.allocated (room : s.queue.entries.length < 16) :
    (s.polled s.chain.line s.pollEntry).TagsInOrder :=
  h.tags.allocate (decide_eq_true room) .poll none 0 none

/-- Where the search passes every CHECK the POLL goes, and the run's CHECKs wait behind it. -/
theorem State.PollReady.passes (due : s.pollNext ≤ s.now) (run : s.tables.mode = .run)
    (room : s.queue.hasPollCheckRoom = true)
    (passes : ∀ y ∈ s.queue.entries, y.state = .waiting → y.kind = .check → s.SearchPasses y) :
    s.pollExpiry.chain.line = .sending (.poll s.queue.tagCounter) ∧
    s.pollExpiry.queue.Keeps (s.sentNow s.pollEntry [] s.chain.transmitted 0 s.chain.changeTimes s.activeSet) ∧
    s.SearchLeaves s.queue.entries s.pollExpiry.queue.entries := by
  obtain ⟨short, few⟩ := s.queue.hasPollCheckRoom_iff.1 room
  have ends := State.searchEnds (s := s.polled s.chain.line s.pollEntry) (h.allocated short).nodup fun y hy hw hc => by
    rcases List.mem_append.1 hy with hy | hy
    · exact passes y hy hw hc
    · rw [List.mem_singleton.1 hy] at hc
      cases hc
  obtain ⟨line, keeps⟩ := ends.polls s.queue.entries [] s.pollEntry rfl rfl rfl h.first
  obtain ⟨x, live, frame⟩ := ends.frame
  have searched := ends.searched
  have eq := State.pollExpiry_asks due run room
  rw [h.searches] at eq
  generalize State.pickCheck (s.polled s.chain.line s.pollEntry).queue.waitingChecks (s.polled s.chain.line s.pollEntry) = u at *
  have counter : u.queue.tagCounter = (s.queue.tagCounter + 1) % 255 := by
    rw [frame.queue]
    rfl
  obtain ⟨l, positions, -, ran⟩ := State.runChecks_eq (roundFrom u.checks.lastServed) (roundFrom_nodup _) (s := u)
    (counter ▸ Nat.mod_lt _ (by decide))
  have ran : u.checkRun = u.served l := ran
  have busy : (u.served l).transmit = u.served l := (u.served l).transmit_busy fun free => by
    have free : u.chain.line = .free := free
    rw [line] at free
    cases free
  rw [ran, busy] at eq
  have few : l.length ≤ 16 := by
    have length := congrArg List.length positions
    rw [List.length_map, List.length_take] at length
    unfold Queue.checkRoom at length
    omega
  have entries : s.pollExpiry.queue.entries = u.queue.entries ++ u.checkEntries u.queue.tagCounter l := by
    rw [eq]
    rfl
  have asked : ∀ z ∈ u.checkEntries u.queue.tagCounter l, ∃ k, k ≤ 16 ∧ 1 ≤ k ∧ z.tag = (s.queue.tagCounter + k) % 255 :=
    fun z hz => by
      obtain ⟨k, hk, ht⟩ := State.mem_checkEntries hz
      rw [counter] at ht
      exact ⟨k + 1, by omega, by omega, by omega⟩
  refine ⟨?_, ?_, fun y hy hw hc g hg => ?_⟩
  · rw [eq]
    exact line
  · rw [Queue.Keeps, entries]
    refine keeps.imp (fun hm => List.mem_append_left _ hm) fun gone => ⟨gone.1, fun y hy => ?_⟩
    rcases List.mem_append.1 hy with hy | hy
    · exact gone.2 y hy
    · obtain ⟨k, hk, one, ht⟩ := asked y hy
      have counter := h.tags.1
      change y.tag ≠ s.queue.tagCounter
      omega
  · obtain ⟨lit, dark⟩ := searched y (List.mem_append_left _ hy) hw hc g hg
    rw [entries]
    refine ⟨fun hl z hz ht => ?_, fun hd => List.mem_append_left _ (dark hd)⟩
    rcases List.mem_append.1 hz with hz | hz
    · exact lit hl z hz ht
    · obtain ⟨k, hk, -, tag⟩ := asked z hz
      exact absurd (ht.symm.trans tag) (h.tags.fresh hy hk)

/-- The POLL sent past CHECKs that are held back: it is the last entry, with what it was sent with. -/
theorem State.PollReady.sends (short : s.queue.entries.length < 16)
    (held : ∀ y ∈ s.queue.entries, y.state = .waiting → y.kind = .check → s.HeldBack y) :
    (s.polled s.chain.line s.pollEntry).transmit = (s.polled (.sending (.poll s.queue.tagCounter))
      (s.sentNow s.pollEntry [] s.chain.transmitted 0 s.chain.changeTimes s.activeSet)).retire := by
  have order := h.allocated short
  rw [h.searches, State.pickCheck_held order fun y hy hw hc => ?_]
  · rw [State.pickPoll_sends (s := s.polled s.chain.line s.pollEntry) (a := s.queue.entries) (b := []) (e := s.pollEntry)
      rfl rfl rfl h.first, State.sendPoll]
    rw [State.transmitEntry_eq (s := (s.polled s.chain.line s.pollEntry).beginTelegram (.poll s.pollEntry.tag))
      (a := s.queue.entries) (b := []) rfl order.nodup]
    rfl
  · rcases List.mem_append.1 hy with hy | hy
    · exact held y hy hw hc
    · rw [List.mem_singleton.1 hy] at hc
      cases hc

end

theorem State.activeSet_zero {s : State} : s.activeSet = 0 ↔ ∀ p, (s.posAt p).state ≠ .active := by
  constructor
  · intro zero p active
    have held := (s.mem_activeSet p).2 active
    rw [zero] at held
    exact absurd held (Bool.eq_false_iff.1 (hasPos_zero p))
  · intro idle
    refine BitVec.eq_of_getLsbD_eq fun i hi => ?_
    have off : hasPos s.activeSet ⟨i, hi⟩ = false :=
      Bool.eq_false_iff.2 fun held => idle _ ((s.mem_activeSet ⟨i, hi⟩).1 held)
    exact off.trans BitVec.getLsbD_zero.symm

section
variable {s : State} (h : s.PollReady) (due : s.pollNext ≤ s.now) (run : s.tables.mode = .run)
  (room : s.queue.hasPollCheckRoom = true)
  (held : ∀ y ∈ s.queue.entries, y.state = .waiting → y.kind = .check → s.HeldBack y)
include h due run room held

/-- The POLL sent past CHECKs held back stays live behind a head that is not final, or while an answer is awaited. -/
theorem State.PollReady.live (head : ∀ e ∈ s.queue.entries.head?, e.state.final = false)
    (live : s.queue.entries ≠ [] ∨ ∃ p : Pos, (s.posAt p).state = .active) :
    let sent := s.sentNow s.pollEntry [] s.chain.transmitted 0 s.chain.changeTimes s.activeSet
    s.pollExpiry.chain = { s.chain with line := .sending (.poll s.queue.tagCounter) } ∧
    s.pollExpiry.circuits = s.circuits ∧ s.pollExpiry.image = s.image ∧ s.PollRuns s.pollExpiry sent := by
  intro sent
  have stays : (s.polled (.sending (.poll s.queue.tagCounter)) sent).retire =
      s.polled (.sending (.poll s.queue.tagCounter)) sent := State.retire_of_head fun e he => by
    have he : e ∈ (s.queue.entries ++ [sent]).head? := he
    cases entries : s.queue.entries with
    | cons y ys =>
      rw [entries] at he head
      exact head e he
    | nil =>
      rw [entries] at he
      obtain rfl : sent = e := Option.some.inj he
      have awaited : s.activeSet ≠ 0 := fun zero =>
        live.elim (fun ne => ne entries) fun ⟨p, active⟩ => State.activeSet_zero.1 zero p active
      exact congrArg EntryState.final (if_neg awaited)
  obtain ⟨served, eq, runs⟩ := s.polled_checkRun (.sending (.poll s.queue.tagCounter)) (poll := sent) rfl
  rw [State.pollExpiry_asks due run room, h.sends (s.queue.hasPollCheckRoom_iff.1 room).1 held, stays, eq,
    State.transmit_busy ((s.polled (.sending (.poll s.queue.tagCounter)) sent).served served) (by nofun)]
  exact ⟨rfl, rfl, rfl, runs⟩

/-- With no position ACTIVE the only entry is COMPLETE at once and retires; the run finds no circuit to check. -/
theorem State.PollReady.retires (empty : s.queue.entries = []) (idle : ∀ p : Pos, (s.posAt p).state ≠ .active) :
    s.pollExpiry = { s with
      chain := { s.chain with line := .sending (.poll s.queue.tagCounter) }
      queue := { s.queue with tagCounter := (s.queue.tagCounter + 1) % 255, lastPoll := s.pollNext }
      image := { s.image with retired := s.chain.transmitted, untracked := 0 } } := by
  generalize ht : ({ s with
      chain := { s.chain with line := .sending (.poll s.queue.tagCounter) }
      queue := { s.queue with tagCounter := (s.queue.tagCounter + 1) % 255, lastPoll := s.pollNext }
      image := { s.image with retired := s.chain.transmitted, untracked := 0 } } : State) = t
  have only : (s.polled (.sending (.poll s.queue.tagCounter))
      (s.sentNow s.pollEntry [] s.chain.transmitted 0 s.chain.changeTimes s.activeSet)).queue.entries =
      [s.sentNow s.pollEntry [] s.chain.transmitted 0 s.chain.changeTimes s.activeSet] :=
    congrArg (· ++ [_]) empty
  have done : (s.sentNow s.pollEntry [] s.chain.transmitted 0 s.chain.changeTimes s.activeSet).state.final = true :=
    congrArg EntryState.final (if_pos (State.activeSet_zero.2 idle))
  have retires := State.retire_unanswered only done rfl rfl rfl rfl rfl h.slot
  have run' : t.checkRun = t := by
    have quiet : ∀ l : List Pos, State.runChecks l t = t := fun l => by
      induction l with
      | nil => rfl
      | cons p l ih =>
        rw [State.runChecks_skips fun wants => ?_, ih]
        have active : t.isActive p = true := by
          rw [State.wantsCheck_iff, Bool.and_eq_true] at wants
          exact wants.1.1
        rw [← ht] at active
        exact idle p (beq_iff_eq.1 active)
    exact quiet _
  have busy : t.transmit = t := t.transmit_busy (by rw [← ht]; nofun)
  rw [State.pollExpiry_asks due run room, h.sends (s.queue.hasPollCheckRoom_iff.1 room).1 held, retires]
  have same : ({ s.polled (.sending (.poll s.queue.tagCounter))
      (s.sentNow s.pollEntry [] s.chain.transmitted 0 s.chain.changeTimes s.activeSet) with
      queue := { (s.polled (.sending (.poll s.queue.tagCounter))
        (s.sentNow s.pollEntry [] s.chain.transmitted 0 s.chain.changeTimes s.activeSet)).queue with entries := [] }
      image := { (s.polled (.sending (.poll s.queue.tagCounter))
        (s.sentNow s.pollEntry [] s.chain.transmitted 0 s.chain.changeTimes s.activeSet)).image with
        retired := s.chain.transmitted, untracked := 0 } } : State) = t := by
    rw [← ht, ← empty]
    rfl
  rw [same, run', busy]

end

/-! ### Without room, and in SETUP -/

/-- A POLL skipped, with nothing to send. -/
theorem State.pollExpiry_skipped {s : State} (due : s.pollNext ≤ s.now) (run : s.tables.mode = .run)
    (full : ¬s.queue.hasPollCheckRoom = true) (quiet : s.pollSkipped.transmit = s.pollSkipped) :
    s.pollExpiry = s.pollSkipped := by
  have ran : s.pollSkipped.checkRun = s.pollSkipped := State.runChecks_full _ full
  rw [State.pollExpiry_skips due run full, quiet, ran, quiet]

theorem State.pollSkipped_quiet {s : State} (run : s.tables.mode = .run) (h : s.chain.line ≠ .free ∨
    ((∀ e ∈ s.queue.entries, e.state ≠ .waiting) ∧ s.queue.slot = none ∧ s.chain.linkRequests = []) ∨
    (s.TagsInOrder ∧ s.queue.firstSet = none ∧ s.queue.firstOf .poll = none ∧
      (∀ y ∈ s.queue.entries, y.state = .waiting → y.kind = .check → s.HeldBack y) ∧ s.queue.slot = none ∧
      s.chain.linkRequests = [])) : s.pollSkipped.transmit = s.pollSkipped := by
  have mode : ¬(s.pollSkipped.tables.mode = .setup ∧ s.pollSkipped.chain.livenessPoll = true) := fun h => by
    have setup : s.tables.mode = .setup := h.1
    rw [run] at setup
    cases setup
  by_cases line : s.chain.line = .free
  · rcases h with busy | ⟨idle, slot, requests⟩ | ⟨tags, sets, polls, held, slot, requests⟩
    · exact absurd line busy
    · exact State.transmit_quiet (s := s.pollSkipped) idle slot requests mode
    · rw [State.transmit_check (s := s.pollSkipped) line sets slot requests,
        State.pickCheck_held (s := s.pollSkipped) tags held, State.pickPoll_none (s := s.pollSkipped) polls, if_neg mode]
  · exact s.pollSkipped.transmit_busy line

/-- Settles O43: the POLL asked goes before the run, which serves the positions it wants as far as the queue has room. -/
theorem pollDueEffects : Obligations.PollDueEffects := by
  unfold Obligations.PollDueEffects
  refine ⟨fun s early => congrArg _ (if_neg (mt s.pollOver_iff.1 (Nat.not_le.2 early))), fun s due => ?_⟩
  have due : s.pollNext ≤ s.now := due
  obtain ⟨cache, lastPoll⟩ := State.pollExpiry_rest due
  have port := (State.ChainFrom.pollExpiry s).portFrom.trans (.recompose _)
  have records := s.pollExpiry.recompose_records
  refine ⟨_, exec_pollDue due, ?_⟩
  intro next order wanted room runs poll
  have runs_iff : ∀ e : Entry, s.PollRuns s.pollExpiry e → runs e := fun e ⟨served, positions, chosen, queue, checks⟩ => by
    rw [roundFrom_eq] at positions
    exact ⟨served, positions, chosen, (State.recompose_queue _).trans queue, (State.recompose_checks _).trans checks⟩
  simp only [State.recompose_queue, State.recompose_chain, State.recompose_circuits, State.recompose_checks,
    State.recompose_cache]
  refine ⟨lastPoll, port.tables, cache, port.store, port.now, port.pending, port.inputs, port.request,
    fun run short few => ?_, fun run quiet full => ?_, fun setup => ⟨fun busy => ?_, fun line empty slot requests => ?_⟩⟩
  · have room := s.queue.hasPollCheckRoom_iff.2 ⟨short, few⟩
    refine ⟨fun busy => ?_, fun line tags sets polls slot requests => ?_⟩
    · obtain ⟨chain, circuits, image, ran⟩ := State.pollExpiry_busy due run room busy
      rw [image] at records
      exact ⟨chain, circuits, records, runs_iff _ ran⟩
    · have ready : s.PollReady := ⟨tags, line, sets, polls, slot, requests⟩
      refine ⟨fun passes => ready.passes due run room passes, fun held head => ?_⟩
      by_cases live : s.queue.entries ≠ [] ∨ ∃ p : Pos, (s.posAt p).state = .active
      · obtain ⟨chain, circuits, image, ran⟩ := ready.live due run room held head live
        rw [image] at records
        exact ⟨chain, circuits, fun _ => ⟨records, runs_iff _ ran⟩, fun empty idle =>
          (live.elim (fun ne => ne empty) fun ⟨p, active⟩ => idle p active).elim⟩
      · obtain ⟨empty, idle⟩ := not_or.1 live
        have eq := ready.retires due run room held (not_not.1 empty) (not_exists.1 idle)
        obtain ⟨retired, untracked, faults, -⟩ := records
        rw [eq] at retired untracked faults ⊢
        exact ⟨rfl, rfl, fun h => absurd h live, fun _ _ => ⟨rfl, rfl, retired, untracked, faults⟩⟩
  · have noRoom : ¬s.queue.hasPollCheckRoom = true := fun h => by
      obtain ⟨short, few⟩ := s.queue.hasPollCheckRoom_iff.1 h
      exact full.elim (Nat.not_le.2 short) (Nat.not_le.2 few)
    have eq := State.pollExpiry_skipped due run noRoom (State.pollSkipped_quiet run quiet)
    rw [eq] at records ⊢
    exact ⟨rfl, rfl, rfl, records, rfl⟩
  · rw [State.pollExpiry_liveness due setup, s.livenessDue.transmit_busy busy]
    exact ⟨rfl, rfl, rfl, rfl⟩
  · rw [State.pollExpiry_liveness due setup, State.transmit_noEntry (s := s.livenessDue) line empty slot requests,
      if_pos ⟨setup, rfl⟩]
    exact ⟨rfl, rfl, rfl, rfl⟩

end Sys2Proof.Machine
end

