-- ==== Sys2Proof/Proofs/CacheMoves.lean ====
section
/-! SUPPORT. The History Cache's write-back and lookup, and what the cache depends on through departures (R107 to R112). -/

namespace Sys2Proof.Machine

/-! ### Write-back (R110, R111) -/

theorem State.slotOf_learned {s : State} {p : Pos} {c : Circ} {b vb : Nat} (h : (s.circAt p c).baseline = .learned b vb) :
    s.slotOf p c = some ⟨(s.rowAt p c).profile, b, vb⟩ := by
  rw [State.slotOf, h]

theorem State.slotOf_none {s : State} {p : Pos} {c : Circ} (h : ∀ b vb, (s.circAt p c).baseline ≠ .learned b vb) :
    s.slotOf p c = none := by
  unfold State.slotOf
  cases hb : (s.circAt p c).baseline with
  | none => rfl
  | learning n sm sv => rfl
  | learned b vb => exact absurd hb (h b vb)

theorem State.writeBack_marked {s : State} {p : Pos} (h : (s.posAt p).identityClash = true) : s.writeBack p = s := if_pos h

theorem State.writeBack_eq {s : State} {p : Pos} {i : Identity} (clear : (s.posAt p).identityClash = false)
    (held : (s.posAt p).identity = some i) :
    s.writeBack p = { s with cache := placeSlots i (Vector.ofFn (s.slotOf p)) s.cache } := by
  unfold State.writeBack
  rw [clear, held]
  rfl

theorem any_identity {i : Identity} {cache : List CacheEntry} :
    (cache.any (·.identity == i)) = true ↔ ∃ e ∈ cache, e.identity = i := by
  simp only [List.any_eq_true, beq_iff_eq]

/-- The entry of an identity out of a cache that holds it once. -/
theorem cacheWithout_split {i : Identity} {a b : List CacheEntry} {e : CacheEntry} (he : e.identity = i)
    (nodup : ((a ++ e :: b).map (·.identity)).Nodup) : cacheWithout i (a ++ e :: b) = a ++ b := by
  rw [List.map_append, List.map_cons, List.nodup_append, List.nodup_cons] at nodup
  obtain ⟨-, ⟨below, -⟩, apart⟩ := nodup
  have above : a.filter (·.identity != i) = a := List.filter_eq_self.2 fun x hx => bne_iff_ne.2 fun h =>
    apart x.identity (List.mem_map_of_mem hx) e.identity (by simp) (h.trans he.symm)
  have below : b.filter (·.identity != i) = b := List.filter_eq_self.2 fun x hx => bne_iff_ne.2 fun h =>
    below (he ▸ h ▸ List.mem_map_of_mem hx)
  rw [cacheWithout, List.filter_append, List.filter_cons_of_neg (by simp [he]), above, below]

theorem placeSlots_replaces {i : Identity} {a b : List CacheEntry} {e : CacheEntry} (he : e.identity = i)
    (nodup : ((a ++ e :: b).map (·.identity)).Nodup) (slots : Vector (Option Slot) 12) :
    placeSlots i slots (a ++ e :: b) = ⟨i, slots⟩ :: (a ++ b) := by
  rw [placeSlots, if_pos (any_identity.2 ⟨e, by simp, he⟩), cacheWithout_split he nodup]

theorem placeSlots_makes {i : Identity} {cache : List CacheEntry} (fresh : ∀ e ∈ cache, e.identity ≠ i)
    {slots : Vector (Option Slot) 12} {c : Circ} (filled : slots[c] ≠ none) :
    placeSlots i slots cache = ⟨i, slots⟩ :: cache.take 7 := by
  rw [placeSlots, if_neg (fun h => by obtain ⟨e, he, hi⟩ := any_identity.1 h; exact fresh e he hi), if_pos]
  · rfl
  · exact List.any_eq_true.2 ⟨c, mem_allCirc c, Option.isSome_iff_ne_none.2 filled⟩

theorem placeSlots_none {i : Identity} {cache : List CacheEntry} (fresh : ∀ e ∈ cache, e.identity ≠ i)
    {slots : Vector (Option Slot) 12} (empty : ∀ c : Circ, slots[c] = none) : placeSlots i slots cache = cache := by
  rw [placeSlots, if_neg (fun h => by obtain ⟨e, he, hi⟩ := any_identity.1 h; exact fresh e he hi), if_neg]
  rw [List.any_eq_true]
  rintro ⟨c, -, filled⟩
  rw [empty c] at filled
  cases filled

theorem ofFn_get {α : Type} {n : Nat} (f : Fin n → α) (i : Fin n) : (Vector.ofFn f)[i] = f i := by simp

section
variable {s : State} {p : Pos} {i : Identity} (sound : s.CacheSound)
include sound

/-- The write-back in its four cases. -/
theorem State.writeBack_cases (clear : (s.posAt p).identityClash = false) (held : (s.posAt p).identity = some i) :
    (∀ (a b : List CacheEntry) (e : CacheEntry), s.cache = a ++ e :: b → e.identity = i →
      s.writeBack p = { s with cache := ⟨i, Vector.ofFn (s.slotOf p)⟩ :: (a ++ b) }) ∧
    ((∀ e ∈ s.cache, e.identity ≠ i) → (∃ c : Circ, s.slotOf p c ≠ none) → s.cache.length < 8 →
      s.writeBack p = { s with cache := ⟨i, Vector.ofFn (s.slotOf p)⟩ :: s.cache }) ∧
    ((∀ e ∈ s.cache, e.identity ≠ i) → (∃ c : Circ, s.slotOf p c ≠ none) → s.cache.length = 8 →
      s.writeBack p = { s with cache := ⟨i, Vector.ofFn (s.slotOf p)⟩ :: s.cache.dropLast }) ∧
    ((∀ e ∈ s.cache, e.identity ≠ i) → (∀ c : Circ, s.slotOf p c = none) → s.writeBack p = s) := by
  have slot (c : Circ) : (Vector.ofFn (s.slotOf p))[c] = s.slotOf p c := ofFn_get _ c
  rw [State.writeBack_eq clear held]
  refine ⟨fun a b e split he => ?_, fun fresh ⟨c, filled⟩ short => ?_, fun fresh ⟨c, filled⟩ full => ?_, fun fresh empty => ?_⟩
  · rw [split, placeSlots_replaces he (split ▸ sound.2)]
  · rw [placeSlots_makes fresh (c := c) (by rwa [slot]), List.take_of_length_le (by omega)]
  · rw [placeSlots_makes fresh (c := c) (by rwa [slot]), List.dropLast_eq_take, full]
  · rw [placeSlots_none fresh fun c => (slot c).trans (empty c)]

/-! ### Lookup (R108) -/

theorem State.lookup_hits {a b : List CacheEntry} {e : CacheEntry} (split : s.cache = a ++ e :: b) (he : e.identity = i) :
    s.lookup p i = { s.updCircs p (s.restoreSlot p e.slots) with cache := e :: (a ++ b) } := by
  have nodup := split ▸ sound.2
  have found : s.cache.find? (·.identity == i) = some e := by
    have above : a.find? (·.identity == i) = none := List.find?_eq_none.2 fun y hy h => by
      rw [List.map_append, List.map_cons, List.nodup_append] at nodup
      exact nodup.2.2 y.identity (List.mem_map_of_mem hy) e.identity (by simp) ((beq_iff_eq.1 h).trans he.symm)
    rw [split, List.find?_append, above, List.find?_cons_of_pos (p := fun x : CacheEntry => x.identity == i) (beq_iff_eq.2 he)]
    rfl
  unfold State.lookup
  rw [found, split, cacheWithout_split he nodup]

end

theorem State.lookup_misses {s : State} {i : Identity} (fresh : ∀ e ∈ s.cache, e.identity ≠ i) (p : Pos) : s.lookup p i = s := by
  have none : s.cache.find? (·.identity == i) = none := List.find?_eq_none.2 fun e he h => fresh e he (beq_iff_eq.1 h)
  rw [State.lookup, none]

theorem State.restoreSlot_baseline (s : State) (p : Pos) (slots : Vector (Option Slot) 12) (c : Circ) (k : Circuit) :
    s.restoreSlot p slots c k = { k with baseline := (s.restoreSlot p slots c k).baseline } := by
  unfold State.restoreSlot
  split
  · split <;> rfl
  · rfl

/-! ### States that write back alike -/

/-- Two states whose departures write the same back: tables, circuits, counts, entries, cache and the positions' states,
identities and marks agree. -/
structure State.CachesAlike (s u : State) : Prop where
  judges : s.JudgesAlike u
  entries : u.queue.entries = s.queue.entries
  cache : u.cache = s.cache
  state : ∀ p, (u.posAt p).state = (s.posAt p).state
  identity : ∀ p, (u.posAt p).identity = (s.posAt p).identity
  clash : ∀ p, (u.posAt p).identityClash = (s.posAt p).identityClash

namespace State.CachesAlike

section
variable {s u : State} (h : s.CachesAlike u)
include h

/-- Rewritten records that agree where the cache's moves look. -/
theorem updPos (p : Pos) {f : Position → Position}
    (hf : ∀ r k : Position, r.state = k.state → r.identity = k.identity → r.identityClash = k.identityClash →
      r.circuitCount = k.circuitCount → (f r).state = (f k).state ∧ (f r).identity = (f k).identity ∧
        (f r).identityClash = (f k).identityClash ∧ (f r).circuitCount = (f k).circuitCount) :
    (s.updPos p f).CachesAlike (u.updPos p f) := by
  have agree (q : Pos) : ((u.updPos p f).posAt q).state = ((s.updPos p f).posAt q).state ∧
      ((u.updPos p f).posAt q).identity = ((s.updPos p f).posAt q).identity ∧
      ((u.updPos p f).posAt q).identityClash = ((s.updPos p f).posAt q).identityClash ∧
      ((u.updPos p f).posAt q).circuitCount = ((s.updPos p f).posAt q).circuitCount := by
    rw [State.updPos_posAt, State.updPos_posAt]
    split
    · exact hf _ _ (h.state q) (h.identity q) (h.clash q) (h.judges.counts q)
    · exact ⟨h.state q, h.identity q, h.clash q, h.judges.counts q⟩
  exact ⟨⟨h.judges.tables, h.judges.circuits, fun q => (agree q).2.2.2⟩, h.entries, h.cache, fun q => (agree q).1,
    fun q => (agree q).2.1, fun q => (agree q).2.2.1⟩

theorem updCircs (p : Pos) (f : Circ → Circuit → Circuit) : (s.updCircs p f).CachesAlike (u.updCircs p f) :=
  ⟨⟨h.judges.tables, by simp only [State.updCircs_circuits, h.judges.circuits], h.judges.counts⟩, h.entries, h.cache, h.state,
    h.identity, h.clash⟩

theorem updImage (f g : ImageBuilder → ImageBuilder) : (s.updImage f).CachesAlike (u.updImage g) :=
  ⟨⟨h.judges.tables, h.judges.circuits, h.judges.counts⟩, h.entries, h.cache, h.state, h.identity, h.clash⟩

theorem dropRequests (p : Pos) : (s.dropRequests p).CachesAlike (u.dropRequests p) :=
  ⟨⟨h.judges.tables, h.judges.circuits, h.judges.counts⟩, h.entries, h.cache, h.state, h.identity, h.clash⟩

theorem mapEntries (f : Entry → Entry) : (s.updQueue fun q => { q with entries := q.entries.map f }).CachesAlike
    (u.updQueue fun q => { q with entries := q.entries.map f }) :=
  ⟨⟨h.judges.tables, h.judges.circuits, h.judges.counts⟩, congrArg (List.map f) h.entries, h.cache, h.state, h.identity, h.clash⟩

/-- After retirements the judged circuits agree as well. -/
theorem retired {s' u' : State} (a : s.RetiredFrom s') (b : u.RetiredFrom u') (judges : s'.JudgesAlike u')
    (entries : u'.queue.entries = s'.queue.entries) : s'.CachesAlike u' where
  judges := judges
  entries := entries
  cache := by rw [a.cache, b.cache, h.cache]
  state p := by rw [a.pos p, b.pos p]; exact h.state p
  identity p := by rw [a.pos p, b.pos p]; exact h.identity p
  clash p := by rw [a.pos p, b.pos p]; exact h.clash p

theorem slotOf (p : Pos) : u.slotOf p = s.slotOf p := by
  funext c
  unfold State.slotOf
  rw [h.judges.circAt, h.judges.rowAt]

theorem writeBack (p : Pos) : (s.writeBack p).CachesAlike (u.writeBack p) := by
  have same (cache : List CacheEntry) : ({ s with cache := cache } : State).CachesAlike { u with cache := cache } :=
    ⟨⟨h.judges.tables, h.judges.circuits, h.judges.counts⟩, h.entries, rfl, h.state, h.identity, h.clash⟩
  unfold State.writeBack
  rw [h.clash, h.identity, h.slotOf, h.cache]
  split
  · exact h
  · split
    · exact same _
    · exact h

theorem takeOff (p : Pos) : (s.takeOff p).CachesAlike (u.takeOff p) :=
  (((h.writeBack p).updCircs p fun _ _ => Circuit.clear).updImage (faultRemove p) (faultRemove p)).updPos p
    (f := fun r => { r with supplyLow := false, feedLost := false, linkDegraded := false, identityClash := false })
    fun _ _ state identity _ count => ⟨state, identity, rfl, count⟩

theorem makeAbsent (p : Pos) : (s.makeAbsent p).CachesAlike (u.makeAbsent p) :=
  (h.updPos p (f := fun r => Position.absent r.counters) fun _ _ _ _ _ _ => ⟨rfl, rfl, rfl, rfl⟩).dropRequests p

theorem heldElsewhere (p : Pos) (i : Identity) : u.heldElsewhere p i = s.heldElsewhere p i := by
  unfold State.heldElsewhere
  simp only [h.state, h.identity]

theorem reviewClash (i : Identity) (p : Pos) : (State.reviewClash i s p).CachesAlike (State.reviewClash i u p) := by
  unfold State.reviewClash
  rw [h.clash, h.identity, h.heldElsewhere]
  split
  · exact (h.updPos p (f := fun r => { r with identityClash := false })
      fun _ _ state identity _ count => ⟨state, identity, rfl, count⟩).updImage (faultHeal _) (faultHeal _)
  · exact h

end

theorem foldl {β : Type} {f : State → β → State} (hf : ∀ (s u : State) b, s.CachesAlike u → (f s b).CachesAlike (f u b))
    (l : List β) {s u : State} (h : s.CachesAlike u) : (l.foldl f s).CachesAlike (l.foldl f u) := by
  induction l generalizing s u with
  | nil => exact h
  | cons b l ih => exact ih (hf s u b h)

theorem reviewClashes {s u : State} (h : s.CachesAlike u) (i : Option Identity) :
    (s.reviewClashes i).CachesAlike (u.reviewClashes i) := by
  cases i with
  | none => exact h
  | some i =>
    change (allPos.foldl (State.reviewClash i) s).CachesAlike (allPos.foldl (State.reviewClash i) u)
    exact foldl (fun _ _ p h => h.reviewClash i p) allPos h

theorem retireOne {s u : State} (h : s.CachesAlike u) (e : Entry) (rest : List Entry) :
    (s.retireOne e rest).CachesAlike (u.retireOne e rest) := by
  have a := State.RetiredFrom.retireOne s e rest
  have b := State.RetiredFrom.retireOne u e rest
  refine h.retired a b ⟨by rw [a.tables, b.tables, h.judges.tables], ?_, fun p => ?_⟩ ?_
  · rw [(u.retireOne_judged e rest).1, (s.retireOne_judged e rest).1, (h.judges.handAnswers e).circuits]
  · rw [a.pos p, b.pos p]
    exact h.judges.counts p
  · rw [u.retireOne_queue, s.retireOne_queue]

theorem retireFrom (es : List Entry) {s u : State} (h : s.CachesAlike u) :
    (State.retireFrom es s).CachesAlike (State.retireFrom es u) := by
  induction es generalizing s u with
  | nil => exact h
  | cons e rest ih =>
    unfold State.retireFrom
    split
    · exact ih (h.retireOne e rest)
    · exact h

theorem leaveActive {s u : State} (h : s.CachesAlike u) (p : Pos) : (s.leaveActive p).CachesAlike (u.leaveActive p) := by
  have left := (h.updCircs p fun _ k => { k with due := false }).mapEntries (·.without p)
  have entries := left.entries
  unfold State.leaveActive State.retire
  rw [entries]
  exact left.retireFrom _

/-- Departures keep such states alike. -/
theorem goAbsent {s u : State} (h : s.CachesAlike u) (p : Pos) : (s.goAbsent p).CachesAlike (u.goAbsent p) := by
  unfold State.goAbsent
  rw [h.state, h.identity]
  split
  · exact h
  · exact h.makeAbsent p
  · exact h.makeAbsent p
  · exact (((h.leaveActive p).takeOff p).makeAbsent p).reviewClashes _
  · exact ((h.takeOff p).makeAbsent p).reviewClashes _

theorem departs {s u : State} (h : s.CachesAlike u) (l : List Pos) :
    (l.foldl State.goAbsent s).CachesAlike (l.foldl State.goAbsent u) := foldl (fun _ _ p h => h.goAbsent p) l h

end State.CachesAlike

end Sys2Proof.Machine
end

