-- ==== Sys2Proof/Proofs/Heard.lean ====
section
/-! SUPPORT. A position heard: its record, and what its downstream-load flag does to the position after it (R24, R26, R29,
R46). -/

namespace Sys2Proof.Machine

/-! ### The next position -/

theorem nextPos_iff {p q : Pos} : nextPos p = some q ↔ q.val = p.val + 1 := by
  refine ⟨nextPos_eq_some, fun h => ?_⟩
  unfold nextPos
  rw [dif_pos (h ▸ q.isLt)]
  exact congrArg some (Fin.ext h.symm)

section
variable {s : State} {p : Pos}

theorem State.probeNext_begins {q : Pos} (next : q.val = p.val + 1) (active : (s.posAt p).state = .active)
    (load : (s.posAt p).downstreamLoad = true) (absent : (s.posAt q).state = .absent) : s.probeNext p = s.beginProbe q := by
  unfold State.probeNext State.isActive
  rw [nextPos_iff.2 next]
  dsimp only
  rw [active, load, absent]
  rfl

theorem State.probeNext_stays (h : ∀ q : Pos, q.val = p.val + 1 → ¬((s.posAt p).state = .active ∧
    (s.posAt p).downstreamLoad = true ∧ (s.posAt q).state = .absent)) : s.probeNext p = s := by
  unfold State.probeNext State.isActive
  split
  · next q hq =>
    refine if_neg fun k => h q (nextPos_iff.1 hq) ?_
    simpa [and_assoc] using k
  · rfl

/-! ### The record and the flag (R46) -/

/-- The record of a position heard, before its flag tells on the next position. -/
def State.heardAt (s : State) (p : Pos) (load : Bool) : State :=
  s.updPos p fun r => { r with lastHeard := some s.now, downstreamLoad := load }

theorem State.heard_split (s : State) (p : Pos) (load : Bool) : s.heard p load =
    if load then (s.heardAt p load).probeNext p
    else match nextPos p with
      | some q => if ((s.heardAt p load).posAt q).state == .probing || ((s.heardAt p load).posAt q).state == .passive then
          (s.heardAt p load).cascade q else s.heardAt p load
      | none => s.heardAt p load := by
  have record : (s.updPos p fun r => { r with lastHeard := some s.now }).updPos p (fun r => { r with downstreamLoad := load }) =
      s.heardAt p load := State.updPos_updPos _ _ _ _
  unfold State.heard State.setLoad
  dsimp only
  rw [record]
  split
  · rfl
  · split
    · next q hq =>
      have same : (s.heardAt p load).posAt q = (s.updPos p fun r => { r with lastHeard := some s.now }).posAt q := by
        rw [State.heardAt, State.updPos_posAt_ne _ _ _ _ (nextPos_ne hq).symm, State.updPos_posAt_ne _ _ _ _ (nextPos_ne hq).symm]
      simp only [hq, same]
    · next hq => simp only [hq]

theorem State.heardAt_posAt (s : State) (p q : Pos) (load : Bool) : (s.heardAt p load).posAt q =
    if q = p then { s.posAt q with lastHeard := some s.now, downstreamLoad := load } else s.posAt q :=
  State.updPos_posAt _ _ _ _

theorem State.heard_begins {q : Pos} {load : Bool} (h : s.ProbeBegins p load q) :
    s.heard p load = (s.heardAt p load).beginProbe q := by
  obtain ⟨next, rfl, active, absent⟩ := h
  have other : q ≠ p := fun e => by rw [e] at next; omega
  rw [State.heard_split, if_pos rfl]
  refine State.probeNext_begins next ?_ ?_ ?_
  · rw [State.heardAt_posAt, if_pos rfl]
    exact active
  · rw [State.heardAt_posAt, if_pos rfl]
  · rw [State.heardAt_posAt, if_neg other]
    exact absent

theorem State.heard_ends (shape : s.ChainShape) {q : Pos} {load : Bool} (h : s.ProbeEnds p load q) :
    s.heard p load = (s.heardAt p load).makeAbsent q := by
  obtain ⟨next, rfl, gone⟩ := h
  have other : q ≠ p := fun e => by rw [e] at next; omega
  have same : (s.heardAt p false).posAt q = s.posAt q := by rw [State.heardAt_posAt, if_neg other]
  have shape : (s.heardAt p false).ChainShape := fun a b hab off => by
    have state (k : Pos) : ((s.heardAt p false).posAt k).state = (s.posAt k).state := by
      rw [State.heardAt_posAt]
      split <;> rfl
    rw [state] at off ⊢
    exact shape a b hab off
  rw [State.heard_split, if_neg Bool.false_ne_true, nextPos_iff.2 next]
  dsimp only
  rw [if_pos (by simpa [same] using gone)]
  exact shape.cascade_eq (by rwa [same])

theorem State.heard_stays {load : Bool} (h : ∀ q, ¬s.ProbeBegins p load q ∧ ¬s.ProbeEnds p load q) :
    s.heard p load = s.heardAt p load := by
  rw [State.heard_split]
  cases load with
  | true =>
    refine (if_pos rfl).trans (State.probeNext_stays fun q next k => (h q).1 ⟨next, rfl, ?_⟩)
    have other : q ≠ p := fun e => by rw [e] at next; omega
    obtain ⟨active, -, absent⟩ := k
    rw [State.heardAt_posAt, if_pos rfl] at active
    rw [State.heardAt_posAt, if_neg other] at absent
    exact ⟨active, absent⟩
  | false =>
    rw [if_neg Bool.false_ne_true]
    split
    · next q hq =>
      have same : (s.heardAt p false).posAt q = s.posAt q := by rw [State.heardAt_posAt, if_neg (nextPos_ne hq).symm]
      refine if_neg fun k => (h q).2 ⟨nextPos_iff.1 hq, rfl, ?_⟩
      simpa [same] using k
    · rfl

end

/-- `u` is `s` with `p` heard: its own record, and the next position's begun or ended probing. -/
structure State.HeardFrom (p : Pos) (load : Bool) (s u : State) : Prop where
  frame : u = { s with chain := { s.chain with
    positions := u.chain.positions, linkRequests := u.chain.linkRequests } }
  here : u.posAt p = { s.posAt p with lastHeard := some s.now, downstreamLoad := load }
  others : ∀ q : Pos, q ≠ p → u.posAt q =
    if s.ProbeBegins p load q then { s.posAt q with state := .probing, probeAttempts := 0 }
    else if s.ProbeEnds p load q then Position.absent (s.posAt q).counters else s.posAt q
  begins : ∀ q, s.ProbeBegins p load q → u.chain.linkRequests = s.chain.linkRequests ++ [.enum q]
  ends : ∀ q, s.ProbeEnds p load q →
    u.chain.linkRequests = s.chain.linkRequests.filter fun r => r != .enum q && r != .query q
  stays : (∀ q, ¬s.ProbeBegins p load q ∧ ¬s.ProbeEnds p load q) → u.chain.linkRequests = s.chain.linkRequests

theorem State.ProbeBegins.unique {s : State} {p q r : Pos} {load : Bool} (h : s.ProbeBegins p load q) :
    (s.ProbeBegins p load r → r = q) ∧ ¬s.ProbeEnds p load r := by
  refine ⟨fun k => Fin.ext (k.1.trans h.1.symm), fun k => ?_⟩
  have load := k.2.1.symm.trans h.2.1
  cases load

theorem State.ProbeEnds.unique {s : State} {p q r : Pos} {load : Bool} (h : s.ProbeEnds p load q) :
    (s.ProbeEnds p load r → r = q) ∧ ¬s.ProbeBegins p load r :=
  ⟨fun k => Fin.ext (k.1.trans h.1.symm), fun k => k.unique.2 h⟩

theorem State.heardFrom {s : State} (shape : s.ChainShape) (p : Pos) (load : Bool) :
    State.HeardFrom p load s (s.heard p load) := by
  have apart {q : Pos} (next : q.val = p.val + 1) : q ≠ p := fun e => by rw [e] at next; omega
  by_cases begins : ∃ q, s.ProbeBegins p load q
  · obtain ⟨q, h⟩ := begins
    rw [State.heard_begins h]
    refine ⟨rfl, ?_, fun r hr => ?_, fun r k => by rw [h.unique.1 k]; rfl, fun r k => absurd k h.unique.2,
      fun k => absurd h (k q).1⟩
    · rw [State.beginProbe_posAt, if_neg (apart h.1).symm, State.heardAt_posAt, if_pos rfl]
    · rw [State.beginProbe_posAt, State.heardAt_posAt, if_neg hr]
      by_cases same : r = q
      · rw [if_pos same, if_pos (same ▸ h)]
      · rw [if_neg same, if_neg fun k => same (h.unique.1 k), if_neg h.unique.2]
  · by_cases ends : ∃ q, s.ProbeEnds p load q
    · obtain ⟨q, h⟩ := ends
      rw [State.heard_ends shape h]
      refine ⟨rfl, ?_, fun r hr => ?_, fun r k => absurd k h.unique.2, fun r k => by rw [h.unique.1 k]; rfl,
        fun k => absurd h (k q).2⟩
      · rw [State.makeAbsent_posAt_ne _ (apart h.1).symm, State.heardAt_posAt, if_pos rfl]
      · by_cases same : r = q
        · rw [same, State.makeAbsent_posAt_same, if_neg h.unique.2, if_pos h, State.heardAt_posAt, if_neg (apart h.1)]
        · rw [State.makeAbsent_posAt_ne _ same, State.heardAt_posAt, if_neg hr, if_neg h.unique.2,
            if_neg fun k => same (h.unique.1 k)]
    · have quiet (q : Pos) : ¬s.ProbeBegins p load q ∧ ¬s.ProbeEnds p load q :=
        ⟨fun h => begins ⟨q, h⟩, fun h => ends ⟨q, h⟩⟩
      rw [State.heard_stays quiet]
      refine ⟨rfl, ?_, fun r hr => ?_, fun r k => absurd k (quiet r).1, fun r k => absurd k (quiet r).2, fun _ => rfl⟩
      · rw [State.heardAt_posAt, if_pos rfl]
      · rw [State.heardAt_posAt, if_neg hr, if_neg (quiet r).1, if_neg (quiet r).2]

end Sys2Proof.Machine
end

