-- ==== Sys2Proof/Proofs/Identities.lean ====
section
/-! SUPPORT. Identities held elsewhere, and the cache of an identity accepted (R27, R28, R108). -/

namespace Sys2Proof.Machine

/-! ### Identities held elsewhere (R28) -/

theorem State.heldElsewhere_iff {s : State} {p : Pos} {i : Identity} : s.heldElsewhere p i = true ↔ s.HeldByAnother p i := by
  simp [State.heldElsewhere, State.HeldByAnother, mem_allPos, and_assoc]

theorem State.heldElsewhere_eq (s : State) (p : Pos) (i : Identity) : s.heldElsewhere p i = decide (s.HeldByAnother p i) :=
  Bool.eq_iff_iff.2 (State.heldElsewhere_iff.trans decide_eq_true_iff.symm)

/-- Who else holds an identity depends on the other places that are ACTIVE or LOST alone. -/
theorem State.heldElsewhere_congr {s u : State} {p : Pos} (same : ∀ q, q ≠ p →
    (u.posAt q).state.onChain = (s.posAt q).state.onChain ∧
    ((s.posAt q).state.onChain = true → (u.posAt q).identity = (s.posAt q).identity)) (i : Identity) :
    u.heldElsewhere p i = s.heldElsewhere p i := by
  refine Bool.eq_iff_iff.2 (State.heldElsewhere_iff.trans (Iff.trans (exists_congr fun q => ?_) State.heldElsewhere_iff.symm))
  refine and_congr_right fun hq => ?_
  rw [(same q hq).1]
  exact and_congr_right fun on => by rw [(same q hq).2 on]

theorem State.HeardFrom.onChain {s u : State} {p : Pos} {load : Bool} (h : State.HeardFrom p load s u) {q : Pos} (hq : q ≠ p) :
    (u.posAt q).state.onChain = (s.posAt q).state.onChain ∧
    ((s.posAt q).state.onChain = true → u.posAt q = s.posAt q) := by
  rw [h.others q hq]
  split
  · next b =>
    obtain ⟨-, -, -, absent⟩ := b
    rw [absent]
    exact ⟨rfl, fun on => Bool.noConfusion on⟩
  · split
    · next e =>
      obtain ⟨-, -, gone⟩ := e
      rcases gone with gone | gone
      all_goals
        rw [gone]
        exact ⟨rfl, fun on => Bool.noConfusion on⟩
    · exact ⟨rfl, fun _ => rfl⟩

/-! ### What the cache keeps when an identity is accepted -/

theorem State.lookup_cache {s u : State} (same : u.cache = s.cache) (p q : Pos) (i : Identity) :
    (u.lookup p i).cache = (s.lookup q i).cache := by
  unfold State.lookup
  rw [same]
  split
  · rfl
  · exact same

theorem State.identified_cache (s : State) (i : IdentFields) : (s.identified i).cache =
    if s.heldElsewhere i.pos i.identity then s.cache else (s.lookup i.pos i.identity).cache := by
  unfold State.identified
  dsimp only
  split
  · rfl
  · exact State.lookup_cache (s := s) (u := s.updPos i.pos (identifyRecord s.now i (s.heldElsewhere i.pos i.identity))) rfl _ _ _

end Sys2Proof.Machine
end

