-- ==== Sys2Proof/Proofs/HistoryCache.lean ====
section
/-! SUPPORT and PROOF. Which operations write the cache, the cascade's write-backs, and the History Cache (O58). -/

namespace Sys2Proof.Machine

/-! ### Operations that leave the cache -/

theorem State.reviewClash_cache (i : Identity) (s : State) (p : Pos) : (State.reviewClash i s p).cache = s.cache := by
  unfold State.reviewClash
  split <;> rfl

theorem State.reviewClashes_cache (s : State) (i : Option Identity) : (s.reviewClashes i).cache = s.cache := by
  cases i with
  | none => rfl
  | some i =>
    exact foldl_keeps (fun s u : State => u.cache = s.cache) (fun _ => rfl) (fun _ _ _ h k => k.trans h) (State.reviewClash i)
      (State.reviewClash_cache i) allPos s

theorem State.probeNext_cache (s : State) (p : Pos) : (s.probeNext p).cache = s.cache := by
  unfold State.probeNext
  split
  · split <;> rfl
  · rfl

theorem State.requestResync_cache (s : State) : s.requestResync.cache = s.cache := by
  unfold State.requestResync
  split <;> rfl

theorem State.addFarEnd_cache (s : State) (p : Pos) (n : Nat) : (s.addFarEnd p n).cache = s.cache := by
  rw [State.addFarEnd_eq]
  rfl

/-- What is sent and composed after an event leaves the cache. -/
theorem State.sent_cache (s : State) : s.transmit.recompose.cache = s.cache := by
  rw [State.recompose_cache, (State.SentFrom.transmit s).cache]

/-! ### One departure (R107, R112) -/

theorem State.takenOff_cache (u : State) (p : Pos) (i : Option Identity) :
    (((u.takeOff p).makeAbsent p).reviewClashes i).cache = (u.writeBack p).cache := by
  rw [State.reviewClashes_cache]
  rfl

theorem State.goAbsent_cache_lost {s : State} {p : Pos} (lost : (s.posAt p).state = .lost) :
    (s.goAbsent p).cache = (s.writeBack p).cache := by
  unfold State.goAbsent
  rw [lost]
  exact s.takenOff_cache p _

theorem State.goAbsent_cache_active {s : State} {p : Pos} (active : (s.posAt p).state = .active) :
    (s.goAbsent p).cache = ((s.leaveActive p).writeBack p).cache := by
  unfold State.goAbsent
  rw [active]
  exact (s.leaveActive p).takenOff_cache p _

theorem State.goAbsent_cache_off {s : State} {p : Pos} (off : (s.posAt p).state.onChain = false) :
    (s.goAbsent p).cache = s.cache := by
  unfold State.goAbsent
  cases hs : (s.posAt p).state with
  | absent => rfl
  | probing => rfl
  | passive => rfl
  | active => rw [hs] at off; cases off
  | lost => rw [hs] at off; cases off

theorem State.foldl_goAbsent_cache_off (l : List Pos) {s : State} (off : ∀ q ∈ l, (s.posAt q).state.onChain = false) :
    (l.foldl State.goAbsent s).cache = s.cache := by
  induction l generalizing s with
  | nil => rfl
  | cons p l ih =>
    rw [List.foldl_cons, ih fun q hq => ?_, State.goAbsent_cache_off (off p (by simp))]
    rw [State.goAbsent_state]
    split
    · rfl
    · exact off q (List.mem_cons_of_mem _ hq)

/-! ### The cascade over an empty queue with no mark -/

theorem State.writeBack_posAt (s : State) (p q : Pos) : (s.writeBack p).posAt q = s.posAt q := by
  obtain ⟨cache, h⟩ := s.writeBack_frame p
  rw [h]
  rfl

theorem State.writeBack_slotOf (s : State) (p q : Pos) : (s.writeBack p).slotOf q = s.slotOf q := by
  obtain ⟨cache, h⟩ := s.writeBack_frame p
  rw [h]
  rfl

theorem State.slotOf_congr {s u : State} {q : Pos} (tables : u.tables = s.tables) (circ : ∀ c, u.circAt q c = s.circAt q c) :
    u.slotOf q = s.slotOf q := by
  funext c
  have row : u.rowAt q c = s.rowAt q c := by rw [State.rowAt, State.rowAt, tables]
  rw [State.slotOf, State.slotOf, circ, row]

/-- What a write-back makes of the cache: the mark, the identity and the slots tell. -/
theorem State.writeBack_cache_congr {s u : State} (p : Pos) (cache : u.cache = s.cache)
    (clash : (u.posAt p).identityClash = (s.posAt p).identityClash) (identity : (u.posAt p).identity = (s.posAt p).identity)
    (slots : u.slotOf p = s.slotOf p) : (u.writeBack p).cache = (s.writeBack p).cache := by
  unfold State.writeBack
  rw [clash, identity, slots, cache]
  split
  · exact cache
  · split
    · rfl
    · exact cache

theorem State.foldl_writeBack_congr (l : List Pos) {s u : State} (cache : u.cache = s.cache)
    (same : ∀ q ∈ l, (u.posAt q).identityClash = (s.posAt q).identityClash ∧ (u.posAt q).identity = (s.posAt q).identity ∧
      u.slotOf q = s.slotOf q) : (l.foldl State.writeBack u).cache = (l.foldl State.writeBack s).cache := by
  induction l generalizing s u with
  | nil => exact cache
  | cons p l ih =>
    obtain ⟨clash, identity, slots⟩ := same p (by simp)
    refine ih (State.writeBack_cache_congr p cache clash identity slots) fun q hq => ?_
    rw [State.writeBack_posAt, State.writeBack_posAt, State.writeBack_slotOf, State.writeBack_slotOf]
    exact same q (List.mem_cons_of_mem _ hq)

theorem State.updCircs_slotOf_due (s : State) (p q : Pos) :
    (s.updCircs p fun _ k => { k with due := false }).slotOf q = s.slotOf q := by
  funext c
  have baseline : ((s.updCircs p fun _ k => { k with due := false }).circAt q c).baseline = (s.circAt q c).baseline := by
    rw [State.updCircs_circAt]
    split <;> rfl
  unfold State.slotOf
  rw [baseline]
  rfl

/-- With no entry live, a departing position writes its own record back. -/
theorem State.goAbsent_cache_empty {s : State} (empty : s.queue.entries = []) {p : Pos}
    (on : (s.posAt p).state.onChain = true) : (s.goAbsent p).cache = (s.writeBack p).cache := by
  cases hs : (s.posAt p).state with
  | lost => exact State.goAbsent_cache_lost hs
  | active =>
    rw [State.goAbsent_cache_active hs, State.leaveActive_empty empty]
    exact State.writeBack_cache_congr p rfl rfl rfl (State.updCircs_slotOf_due s p p)
  | absent => rw [hs] at on; cases on
  | probing => rw [hs] at on; cases on
  | passive => rw [hs] at on; cases on

/-- With no entry live and no mark set, a departure leaves the other places as they stand. -/
theorem State.goAbsent_others_empty {s : State} (empty : s.queue.entries = []) {p q : Pos} (h : q ≠ p)
    (clear : (s.posAt q).identityClash = false) :
    (s.goAbsent p).posAt q = s.posAt q ∧ (s.goAbsent p).slotOf q = s.slotOf q := by
  have reviewed (u : State) (i : Option Identity) (pos : u.posAt q = s.posAt q) (slots : u.slotOf q = s.slotOf q) :
      (((u.takeOff p).makeAbsent p).reviewClashes i).posAt q = s.posAt q ∧
      (((u.takeOff p).makeAbsent p).reviewClashes i).slotOf q = s.slotOf q := by
    have gone : ((u.takeOff p).makeAbsent p).posAt q = s.posAt q := by
      rw [State.makeAbsent_posAt_ne _ h, (u.takeOff_frame p).2.2, if_neg h, pos]
    have off : (((u.takeOff p).makeAbsent p).reviewClashes i).circuits = (u.takeOff p).circuits :=
      (((u.takeOff p).makeAbsent p).reviewClashes_records i).1
    have tables := (((State.ChainFrom.takeOff u p).trans (.makeAbsent _ p)).trans (.reviewClashes _ i)).tables
    refine ⟨(State.reviewClashes_unmarked (by rw [gone]; exact clear) i).trans gone, slots ▸ State.slotOf_congr tables fun c => ?_⟩
    exact (congrArg (fun v : Vector (Vector Circuit 12) 6 => v[q][c]) off).trans ((State.SameAt.takeOff h).circ c)
  unfold State.goAbsent
  split
  · exact ⟨rfl, rfl⟩
  · exact ⟨State.makeAbsent_posAt_ne s h, rfl⟩
  · exact ⟨State.makeAbsent_posAt_ne s h, rfl⟩
  · rw [State.leaveActive_empty empty]
    exact reviewed _ _ rfl (State.updCircs_slotOf_due s p q)
  · exact reviewed _ _ rfl rfl

/-- A cascade with no entry live and no mark set writes back the places that are ACTIVE or LOST, in its order. -/
theorem State.foldl_goAbsent_writesBack (l : List Pos) (nodup : l.Nodup) {s : State} (empty : s.queue.entries = [])
    (clear : ∀ q, (s.posAt q).identityClash = false) : (l.foldl State.goAbsent s).cache =
      ((l.filter fun q => (s.posAt q).state.onChain).foldl State.writeBack s).cache := by
  induction l generalizing s with
  | nil => rfl
  | cons p l ih =>
    obtain ⟨fresh, nodup⟩ := List.nodup_cons.1 nodup
    have apart : ∀ q ∈ l, q ≠ p := fun q hq e => fresh (e ▸ hq)
    have others (q : Pos) (h : q ≠ p) := State.goAbsent_others_empty empty h (clear q)
    have after : ∀ q, ((s.goAbsent p).posAt q).identityClash = false := fun q => by
      by_cases hq : q = p
      · subst hq
        by_cases absent : (s.posAt q).state = .absent
        · rw [State.goAbsent_of_absent absent]
          exact clear q
        · rw [State.goAbsent_record absent]
          rfl
      · rw [(others q hq).1]
        exact clear q
    have still : (s.goAbsent p).queue.entries = [] := (State.QuietFrom.goAbsent empty p).queue ▸ empty
    rw [List.foldl_cons, ih nodup still after,
      List.filter_congr fun q hq => congrArg (fun r : Position => r.state.onChain) (others q (apart q hq)).1]
    have same (u : State) (cache : (s.goAbsent p).cache = u.cache) (pos : ∀ q, u.posAt q = s.posAt q)
        (slots : ∀ q, u.slotOf q = s.slotOf q) :
        ((l.filter fun q => (s.posAt q).state.onChain).foldl State.writeBack (s.goAbsent p)).cache =
          ((l.filter fun q => (s.posAt q).state.onChain).foldl State.writeBack u).cache :=
      State.foldl_writeBack_congr _ cache fun q hq => by
        obtain ⟨pos', slots'⟩ := others q (apart q (List.mem_of_mem_filter hq))
        rw [pos', slots', pos, slots]
        exact ⟨rfl, rfl, rfl⟩
    by_cases on : (s.posAt p).state.onChain = true
    · rw [List.filter_cons_of_pos (p := fun q : Pos => (s.posAt q).state.onChain) on, List.foldl_cons]
      exact same _ (State.goAbsent_cache_empty empty on) (State.writeBack_posAt s p) (State.writeBack_slotOf s p)
    · rw [List.filter_cons_of_neg (p := fun q : Pos => (s.posAt q).state.onChain) on]
      exact same _ (State.goAbsent_cache_off (Bool.eq_false_iff.2 on)) (fun _ => rfl) fun _ => rfl

/-! ### An identity change (R34, R112) -/

theorem State.acceptIdent_cache (s : State) (i : IdentFields) : (s.acceptIdent i).cache =
    if s.heldElsewhere i.pos i.identity then s.cache else (s.lookup i.pos i.identity).cache := by
  rw [State.acceptIdent_eq]
  have accepted : ((((s.identified i).addFarEnd i.pos i.farEnd).requestResync).probeNext i.pos).cache =
      (s.identified i).cache := by
    rw [State.probeNext_cache, State.requestResync_cache, State.addFarEnd_cache]
  rw [← State.identified_cache, ← accepted]
  unfold State.when
  split <;> rfl

theorem State.identityChange_cache {s : State} (shape : s.ChainShape) (i : IdentFields) : (s.identityChange i).cache =
    if s.HeldByAnother i.pos i.identity then (s.writeBack i.pos).cache
    else ((s.writeBack i.pos).lookup i.pos i.identity).cache := by
  have heard := State.heardFrom shape i.pos i.load
  unfold State.identityChange
  dsimp only
  generalize s.heard i.pos i.load = u at heard
  have frame := heard.frame
  have here := heard.here
  generalize hv : ((u.takeOff i.pos).updPos i.pos fun r => { r with linkErrors := 0, identity := none }) = v
  have written : (v.reviewClashes (u.posAt i.pos).identity).cache = (s.writeBack i.pos).cache := by
    rw [State.reviewClashes_cache, ← hv]
    refine State.writeBack_cache_congr (s := s) (u := u) i.pos (by rw [frame]) (by rw [here]) (by rw [here]) ?_
    exact State.slotOf_congr (by rw [frame]) fun c => by rw [frame]; rfl
  have held : (v.reviewClashes (u.posAt i.pos).identity).heldElsewhere i.pos i.identity =
      decide (s.HeldByAnother i.pos i.identity) := by
    rw [← State.heldElsewhere_eq]
    refine State.heldElsewhere_congr (fun q hq => ?_) i.identity
    have other : v.posAt q = u.posAt q := by
      rw [← hv, State.updPos_posAt_ne _ _ _ _ hq, (u.takeOff_frame i.pos).2.2, if_neg hq]
    obtain ⟨clash, same⟩ := (v.reviewClashes_frame (u.posAt i.pos).identity).2.2 q
    rw [same, other]
    obtain ⟨on, kept⟩ := heard.onChain hq
    exact ⟨on, fun h => show (u.posAt q).identity = _ by rw [kept h]⟩
  rw [State.acceptIdent_cache, held, written, State.lookup_cache written i.pos i.pos]
  simp only [decide_eq_true_eq]

theorem State.takeIdent_change {s : State} {i : IdentFields} (lost : (s.posAt i.pos).state = .lost)
    (window : (s.posAt i.pos).queryUntil ≠ none) (other : (s.posAt i.pos).identity ≠ some i.identity) :
    s.takeIdent i = s.identityChange i := by
  unfold State.takeIdent
  rw [lost]
  dsimp only
  rw [if_pos (Option.isSome_iff_ne_none.2 window), if_neg other]

theorem State.identEnds_parsed {t : UpTelegram} {i : IdentFields} (parsed : parseIdent t = some i) (s : State) :
    s.identEnds t = s.takeIdent i := by
  unfold State.identEnds
  rw [parsed]

/-! ### The History Cache -/

/-- The cascade of an absence writes back what its departures write back; with nothing on the chain above it, the place alone. -/
theorem State.cascadeFrom_cache {s : State} {p : Pos} (lost : (s.posAt p).state = .lost) :
    (s.cascadeFrom p).cache = ((allPos.filter fun q => p ≤ q).foldl State.goAbsent s).cache ∧
    ((∀ q : Pos, p < q → (s.posAt q).state.onChain = false) → (s.cascadeFrom p).cache = (s.writeBack p).cache) := by
  have cascade : (s.cascadeFrom p).cache = ((allPos.filter fun q => p ≤ q).foldl State.goAbsent s).cache := by
    unfold State.cascadeFrom
    split
    · exact State.probeNext_cache _ _
    · rfl
  refine ⟨cascade, fun above => ?_⟩
  rw [cascade, allPos_from, List.foldl_cons, State.foldl_goAbsent_cache_off _ fun q hq => ?_, State.goAbsent_cache_lost lost]
  have higher : p < q := by simpa using (List.mem_filter.1 hq).2
  rw [State.goAbsent_state]
  split
  · rfl
  · exact above q higher

theorem cascade_first (s : State) : s.cascade 0 = allPos.foldl State.goAbsent s := rfl

theorem State.probeAfterRestart_cache (s : State) : s.probeAfterRestart.cache = s.cache := by
  unfold State.probeAfterRestart State.probeFirst
  split
  · split <;> rfl
  · rfl

/-- What an entry-less change of the port, or of CONNECT, leaves as the cascades see it. -/
theorem State.CachesAlike.of_eq {s u : State} (tables : u.tables = s.tables) (circuits : u.circuits = s.circuits)
    (positions : u.chain.positions = s.chain.positions) (entries : u.queue.entries = s.queue.entries) (cache : u.cache = s.cache) :
    s.CachesAlike u := by
  have pos (p : Pos) : u.posAt p = s.posAt p := congrArg (fun v : Vector Position 6 => v[p]) positions
  exact ⟨⟨tables, circuits, fun p => by rw [pos]⟩, entries, cache, fun p => by rw [pos], fun p => by rw [pos], fun p => by rw [pos]⟩

theorem State.lookup_keeps {s : State} {p : Pos} {i : Identity} (sound : s.CacheSound) {a b : List CacheEntry} {e : CacheEntry}
    (split : s.cache = a ++ e :: b) (he : e.identity = i) : (s.lookup p i).cache = e :: (a ++ b) ∧
      s.lookup p i = { s with cache := e :: (a ++ b), circuits := (s.lookup p i).circuits } ∧
      (∀ q : Pos, q ≠ p → ∀ c : Circ, (s.lookup p i).circAt q c = s.circAt q c) ∧
      ∀ c : Circ, (s.lookup p i).circAt p c =
        { s.circAt p c with baseline := ((s.lookup p i).circAt p c).baseline } := by
  have hit := State.lookup_hits (p := p) sound split he
  have place (q : Pos) (c : Circ) : (s.lookup p i).circAt q c =
      if q = p then s.restoreSlot p e.slots c (s.circAt q c) else s.circAt q c := by
    rw [hit]
    exact State.updCircs_circAt _ _ _ _ _
  refine ⟨by rw [hit], by rw [hit]; rfl, fun q hq c => (place q c).trans (if_neg hq), fun c => ?_⟩
  rw [(place p c).trans (if_pos rfl)]
  exact State.restoreSlot_baseline s p e.slots c _

theorem exec_absenceExpiry {s : State} {p : Pos} {l : Time} (lost : (s.posAt p).state = .lost)
    (since : (s.posAt p).lostSince = some l) (due : l + s.settings.absenceInterval * 1000 ≤ s.now) :
    exec (.absenceIntervalExpiry p) s = .next (s.cascadeFrom p).transmit.recompose := by
  have late : s.absenceDue p = true := by
    simp only [State.absenceDue, lost, since]
    exact decide_eq_true due
  have expires : s.absenceExpiry p = s.cascadeFrom p := if_pos late
  rw [← expires]
  exact congrArg Host.Outcome.next (if_pos late)

/-- RESTART CHAIN's write-backs are those of its cascade over the flushed queue. -/
theorem State.Takes.restartChain_cache {s : State} {f : BusFrame} (ht : s.Takes f (0x06 :: f.data)) :
    ∃ t : State, exec (.restartChain f) s = .next t ∧
      t.cache = (allPos.foldl State.goAbsent { s with queue := { s.queue with entries := [] } }).cache := by
  have taken := ht.restartChain
  have alike : ({ s with queue := { s.queue with entries := [] } } : State).CachesAlike (s.buffering (0x06 :: f.data)).flush :=
    .of_eq rfl rfl rfl rfl rfl
  generalize (s.buffering (0x06 :: f.data)).flush = v at taken alike
  have kept : (v.cascade 0).restartChecks.probeAfterRestart.transmit.recompose.cache = (v.cascade 0).cache := by
    rw [State.sent_cache, State.probeAfterRestart_cache]
    generalize v.cascade 0 = w
    rfl
  generalize (v.cascade 0).restartChecks.probeAfterRestart.transmit.recompose = u at taken kept
  exact ⟨_, taken, kept.trans (alike.departs allPos).cache⟩

/-- An identity change's write-back and lookup, whatever its telegram's end leaves the line. -/
theorem exec_ident_change_cache {s : State} {t : UpTelegram} {i : IdentFields} (ab : Bool) (parsed : parseIdent t = some i)
    (shape : s.ChainShape) (lost : (s.posAt i.pos).state = .lost) (window : (s.posAt i.pos).queryUntil ≠ none)
    (other : (s.posAt i.pos).identity ≠ some i.identity) : ∃ u : State, exec (.ident t ab) s = .next u ∧
      u.cache = if s.HeldByAnother i.pos i.identity then (s.writeBack i.pos).cache
        else ((s.writeBack i.pos).lookup i.pos i.identity).cache := by
  refine ⟨_, rfl, ?_⟩
  have written : ((s.answerEnds ab).writeBack i.pos).cache = (s.writeBack i.pos).cache :=
    State.writeBack_cache_congr i.pos rfl rfl rfl rfl
  have changes := State.identityChange_cache (s := s.answerEnds ab) shape i
  rw [written, State.lookup_cache written i.pos i.pos] at changes
  rw [State.sent_cache, State.identEnds_parsed parsed, State.takeIdent_change (s := s.answerEnds ab) lost window other]
  exact changes

/-- Settles O58: the cache operations case by case, then each event traced to the write-backs and lookups it makes. -/
theorem historyCacheKeeps : Obligations.HistoryCacheKeeps := by
  unfold Obligations.HistoryCacheKeeps
  refine ⟨fun s p i sound => ⟨fun b vb c => State.slotOf_learned, fun c => State.slotOf_none, State.writeBack_marked,
    State.writeBack_cases sound, fun fresh => State.lookup_misses fresh p, fun a b e => State.lookup_keeps sound⟩,
    fun s q => ⟨State.goAbsent_cache_lost, State.goAbsent_cache_active, State.goAbsent_cache_off, State.goAbsent_record⟩,
    fun s p l lost since due => ?_, fun s raw high since => ?_, fun s f ht => ?_, fun s t ab i parsed sound =>
      exec_ident_change_cache ab parsed ((State.chainSound_iff s).1 sound).shape⟩
  · refine ⟨_, exec_absenceExpiry lost since due, ?_⟩
    rw [State.sent_cache]
    exact State.cascadeFrom_cache lost
  · refine ⟨_, exec_connectFall ((s.debounced_iff false).2 ⟨raw, by simp [high], since⟩), ?_⟩
    have alike : s.CachesAlike (s.debouncedTo false) := .of_eq rfl rfl rfl rfl rfl
    rw [State.recompose_cache, cascade_first]
    exact (alike.departs allPos).cache
  · obtain ⟨t, taken, cache⟩ := ht.restartChain_cache
    refine ⟨t, taken, cache, fun clear => cache.trans ?_⟩
    refine (State.foldl_goAbsent_writesBack allPos (by decide) (s := { s with queue := { s.queue with entries := [] } })
      rfl clear).trans ?_
    exact State.foldl_writeBack_congr _ rfl fun q _ => ⟨rfl, rfl, rfl⟩

end Sys2Proof.Machine
end

