-- ==== Sys2Proof/Proofs/Accepted.lean ====
section
/-! SUPPORT. The RESYNC a return asks for, the next position's probing, and an identity accepted at an empty place (R24, R27,
R59, R108, R109). -/

namespace Sys2Proof.Machine

/-! ### The RESYNC asked for (R59) -/

/-- The state with the RESYNC tracked. -/
def State.resyncTracked (s : State) : State :=
  { s with queue := { s.queue with
      entries := s.queue.entries ++ [s.resyncEntry]
      tagCounter := (s.queue.tagCounter + 1) % 255 } }

/-- `u` is `s` with a RESYNC tracked or diverted, as far as the queue, the untracked flags and the counters tell. -/
structure State.Resyncs (s u : State) : Prop where
  tracked : s.tables.mode = .run → s.queue.entries.length < 16 → s.queue.slot = none →
    u.queue = { s.queue with
      entries := s.queue.entries ++ [s.resyncEntry]
      tagCounter := (s.queue.tagCounter + 1) % 255 } ∧
    u.image.untracked = s.image.untracked ∧ u.chain.counters = s.chain.counters
  diverted : s.tables.mode = .setup ∨ 16 ≤ s.queue.entries.length ∨ s.queue.slot ≠ none →
    u.queue = { s.queue with slot := some s.port.commanded } ∧ u.image.untracked = s.image.untracked ||| s.port.commanded ∧
    u.chain.counters = s.chain.diverted

theorem State.requestResync_frame (s : State) : s.requestResync = { s with
    chain := { s.chain with counters := s.requestResync.chain.counters }
    queue := s.requestResync.queue
    image := { s.image with untracked := s.requestResync.image.untracked } } := by
  by_cases track : (s.tables.mode == .run && s.queue.canTrack) = true
  · rw [State.requestResync_tracks track]
    rfl
  · rw [State.requestResync_diverts track]
    rfl

theorem State.resyncs (s : State) : s.Resyncs s.requestResync where
  tracked run room slot := by
    rw [State.requestResync_tracks (s.canTrack_iff.2 ⟨run, room, slot⟩)]
    exact ⟨rfl, rfl, rfl⟩
  diverted full := by
    rw [State.requestResync_diverts (State.not_canTrack full)]
    exact ⟨rfl, rfl, rfl⟩

/-- The queue, the flags, the counters, the mode and the commanded image are all that is looked at. -/
theorem State.Resyncs.of_eq {a s u w : State} (h : s.Resyncs u) (mode : a.tables = s.tables) (queue : a.queue = s.queue)
    (flags : a.image.untracked = s.image.untracked) (counters : a.chain.counters = s.chain.counters)
    (commanded : a.port.commanded = s.port.commanded) (wqueue : w.queue = u.queue) (wflags : w.image.untracked = u.image.untracked)
    (wcounters : w.chain.counters = u.chain.counters) : a.Resyncs w := by
  have entry : a.resyncEntry = s.resyncEntry := by rw [State.resyncEntry, State.resyncEntry, queue, commanded]
  have diverted : a.chain.diverted = s.chain.diverted := by rw [Chain.diverted, Chain.diverted, counters]
  refine ⟨?_, ?_⟩
  · rw [mode, queue, flags, counters, wqueue, wflags, wcounters, entry]
    exact h.tracked
  · rw [mode, queue, flags, commanded, diverted, wqueue, wflags, wcounters]
    exact h.diverted

/-! ### The next position probed (R24) -/

/-- `u` is `s` with the position after `p` begun probing, when `p` is ACTIVE with its flag set and that one is ABSENT. -/
structure State.NextProbed (p : Pos) (s u : State) : Prop where
  frame : u = { s with chain := { s.chain with positions := u.chain.positions, linkRequests := u.chain.linkRequests } }
  here : u.posAt p = s.posAt p
  others : ∀ q, q ≠ p → u.posAt q = if s.ProbeBegins p (s.posAt p).downstreamLoad q then
    { s.posAt q with state := .probing, probeAttempts := 0 } else s.posAt q
  requests : ∀ k, k ∈ u.chain.linkRequests ↔
    k ∈ s.chain.linkRequests ∨ ∃ q, k = .enum q ∧ s.ProbeBegins p (s.posAt p).downstreamLoad q

theorem State.nextProbed (s : State) (p : Pos) : State.NextProbed p s (s.probeNext p) := by
  by_cases begins : ∃ q, s.ProbeBegins p (s.posAt p).downstreamLoad q
  · obtain ⟨q, h⟩ := begins
    obtain ⟨next, load, active, absent⟩ := id h
    have apart : q ≠ p := fun e => by rw [e] at next; omega
    rw [State.probeNext_begins next active load absent]
    refine ⟨rfl, ?_, fun r hr => ?_, fun k => ?_⟩
    · rw [State.beginProbe_posAt, if_neg apart.symm]
    · rw [State.beginProbe_posAt]
      by_cases same : r = q
      · rw [if_pos same, if_pos (same ▸ h)]
      · rw [if_neg same, if_neg fun k => same (h.unique.1 k)]
    · have requests : (s.beginProbe q).chain.linkRequests = s.chain.linkRequests ++ [.enum q] := rfl
      rw [requests, List.mem_append, List.mem_singleton]
      exact or_congr_right ⟨fun e => ⟨q, e, h⟩, fun ⟨r, e, k⟩ => h.unique.1 k ▸ e⟩
  · rw [State.probeNext_stays fun q next k => begins ⟨q, next, k.2.1, k.1, k.2.2⟩]
    refine ⟨rfl, rfl, fun r _ => (if_neg fun k => begins ⟨r, k⟩).symm, fun k => ?_⟩
    exact ⟨.inl, fun h => h.resolve_right fun ⟨q, _, b⟩ => begins ⟨q, b⟩⟩

/-! ### The record of the unit identified -/

/-- The baseline a circuit of the arriving unit has: restored from the cache's slot where R109 lets it be. -/
def State.restored (s : State) (cache : List CacheEntry) (i : IdentFields) (c : Circ) : Baseline :=
  match cache.find? (·.identity == i.identity) with
  | none => .none
  | some e => match e.slots[c] with
    | none => .none
    | some sl =>
      if ¬s.HeldByAnother i.pos i.identity ∧ (s.rowAt i.pos c).function.isSome = true ∧ c.val + 1 ≤ i.count ∧
          (s.rowAt i.pos c).profile = sl.profile ∧ (s.profileAt i.pos c).learn = true then
        .learned sl.current sl.voltage
      else .none

theorem State.restoreSlot_clear {s : State} {p : Pos} {slots : Vector (Option Slot) 12} {c : Circ} {k : Circuit}
    (none : k.baseline = .none) : (s.restoreSlot p slots c k).baseline = match slots[c] with
      | .none => .none
      | some sl =>
        if (s.rowAt p c).function.isSome = true ∧ countReaches (s.posAt p).circuitCount c = true ∧
            (s.rowAt p c).profile = sl.profile ∧ (s.profileAt p c).learn = true then .learned sl.current sl.voltage
        else .none := by
  unfold State.restoreSlot State.fitted
  cases slots[c] with
  | none => exact none
  | some sl =>
    dsimp only
    simp only [Bool.and_eq_true, beq_iff_eq, and_assoc]
    split
    · rfl
    · exact none

theorem State.lookup_circ {s : State} {p : Pos} {i : Identity} {c : Circ} (none : (s.circAt p c).baseline = .none) :
    (s.lookup p i).circAt p c = { s.circAt p c with baseline := match s.cache.find? (·.identity == i) with
      | .none => .none
      | some e => (s.restoreSlot p e.slots c (s.circAt p c)).baseline } := by
  unfold State.lookup
  cases s.cache.find? (·.identity == i) with
  | none => exact none ▸ rfl
  | some e =>
    have restored := (State.updCircs_circAt s p p c (s.restoreSlot p e.slots)).trans (if_pos rfl)
    exact restored.trans (State.restoreSlot_baseline s p e.slots c _)

/-- The circuits of the unit identified at an empty place. -/
theorem State.identified_circ {s : State} {i : IdentFields} {c : Circ} (clear : s.circAt i.pos c = Circuit.clear) :
    (s.identified i).circAt i.pos c = { Circuit.clear with baseline := s.restored s.cache i c } := by
  have noBaseline : (s.circAt i.pos c).baseline = .none := by rw [clear]; rfl
  by_cases held : s.heldElsewhere i.pos i.identity = true
  · have kept : (s.identified i).circAt i.pos c = s.circAt i.pos c := by
      unfold State.identified
      dsimp only
      rw [if_pos held]
      rfl
    have none : s.restored s.cache i c = .none := by
      unfold State.restored
      split
      · rfl
      · split
        · rfl
        · exact if_neg fun h => h.1 (State.heldElsewhere_iff.1 held)
    rw [kept, none, clear]
    rfl
  · have looked : (s.identified i).circAt i.pos c =
        ((s.updPos i.pos (identifyRecord s.now i (s.heldElsewhere i.pos i.identity))).lookup i.pos i.identity).circAt i.pos c := by
      unfold State.identified
      dsimp only
      rw [if_neg held]
      rfl
    have alone : ¬s.HeldByAnother i.pos i.identity := fun h => held (State.heldElsewhere_iff.2 h)
    have here : ((s.updPos i.pos (identifyRecord s.now i (s.heldElsewhere i.pos i.identity))).posAt i.pos).circuitCount =
        some i.count := by
      rw [State.updPos_posAt_same]
      rfl
    generalize hu : s.updPos i.pos (identifyRecord s.now i (s.heldElsewhere i.pos i.identity)) = u at looked here
    have circ : u.circAt i.pos c = s.circAt i.pos c := hu ▸ rfl
    have rows : u.rowAt i.pos c = s.rowAt i.pos c := hu ▸ rfl
    have profiles : u.profileAt i.pos c = s.profileAt i.pos c := hu ▸ rfl
    have cache : u.cache = s.cache := hu ▸ rfl
    rw [looked, State.lookup_circ (circ ▸ noBaseline), circ, cache, clear, State.restored]
    cases s.cache.find? (·.identity == i.identity) with
    | none => rfl
    | some e =>
      dsimp only
      rw [State.restoreSlot_clear rfl, rows, profiles, here]
      cases e.slots[c] with
      | none => rfl
      | some sl => simp only [alone, countReaches, not_false_eq_true, true_and, decide_eq_true_eq]

/-! ### An identity accepted -/

/-- `u` is `s` with the identity of `i` accepted at its place, which was empty: PROBING, or LOST with its unit taken off. -/
structure State.Accepts (i : IdentFields) (s u : State) : Prop where
  frame : u = { s with
    chain := { s.chain with
      positions := u.chain.positions, linkRequests := u.chain.linkRequests, counters := u.chain.counters }
    queue := u.queue, circuits := u.circuits, cache := u.cache
    image := { s.image with
      untracked := u.image.untracked, faults := u.image.faults, overflow := u.image.overflow, sequence := u.image.sequence } }
  here : u.posAt i.pos = { s.posAt i.pos with
    state := .active
    identity := some i.identity
    circuitCount := some i.count
    downstreamLoad := i.load
    lastHeard := some s.now
    lostSince := none
    enumTimeout := none
    queryUntil := none
    identityClash := decide (s.HeldByAnother i.pos i.identity)
    linkErrors := min 65535 ((s.posAt i.pos).linkErrors + i.farEnd)
    linkDegraded := decide (s.DegradedBy i.pos i.farEnd)
    counters := { (s.posAt i.pos).counters with
      linkErrorsTotal := min 65535 ((s.posAt i.pos).counters.linkErrorsTotal + i.farEnd) } }
  others : ∀ q, q ≠ i.pos → u.posAt q =
    if q.val = i.pos.val + 1 ∧ i.load = true ∧ (s.posAt q).state = .absent then
      { s.posAt q with state := .probing, probeAttempts := 0 } else s.posAt q
  requests : ∀ k, k ∈ u.chain.linkRequests ↔ (k ∈ s.chain.linkRequests ∧ k ≠ .enum i.pos ∧ k ≠ .query i.pos) ∨
    ∃ q : Pos, k = .enum q ∧ q.val = i.pos.val + 1 ∧ i.load = true ∧ (s.posAt q).state = .absent
  cache : u.cache = if s.HeldByAnother i.pos i.identity then s.cache else (s.lookup i.pos i.identity).cache
  resyncs : s.Resyncs u
  places : ∀ q, q ≠ i.pos → ∀ c, u.circAt q c = s.circAt q c
  circuits : ∀ c, s.circAt i.pos c = Circuit.clear →
    u.circAt i.pos c = { Circuit.clear with baseline := s.restored s.cache i c }
  faults :
    let linked := s.imageAfterErrors i.pos i.farEnd
    let ib := if s.HeldByAnother i.pos i.identity then faultAdd ⟨i.pos, none, .identityClash⟩ linked else linked
    u.image.faults = ib.faults ∧ u.image.overflow = ib.overflow ∧ u.image.sequence = ib.sequence

theorem State.identified_leaves (s : State) (i : IdentFields) : ∃ ps ls circuits cache, s.identified i = { s with
    chain := { s.chain with positions := ps, linkRequests := ls }, circuits := circuits, cache := cache } := by
  have looked (u : State) : ∃ circuits cache, u.lookup i.pos i.identity = { u with circuits := circuits, cache := cache } := by
    unfold State.lookup
    split
    · exact ⟨_, _, rfl⟩
    · exact ⟨_, _, rfl⟩
  unfold State.identified
  dsimp only
  split
  · exact ⟨_, _, s.circuits, s.cache, rfl⟩
  · obtain ⟨circuits, cache, h⟩ := looked (s.updPos i.pos (identifyRecord s.now i (s.heldElsewhere i.pos i.identity)))
    rw [h]
    exact ⟨_, _, circuits, cache, rfl⟩

theorem State.degradedBy_congr {s u : State} {p : Pos} (tables : u.tables = s.tables)
    (degraded : (u.posAt p).linkDegraded = (s.posAt p).linkDegraded) (errors : (u.posAt p).linkErrors = (s.posAt p).linkErrors)
    (n : Nat) : u.DegradedBy p n ↔ s.DegradedBy p n := by
  unfold State.DegradedBy State.settings
  rw [tables, degraded, errors]

theorem State.imageAfterErrors_congr {s u : State} {p : Pos} (tables : u.tables = s.tables)
    (degraded : (u.posAt p).linkDegraded = (s.posAt p).linkDegraded) (errors : (u.posAt p).linkErrors = (s.posAt p).linkErrors)
    (image : u.image = s.image) (n : Nat) : u.imageAfterErrors p n = s.imageAfterErrors p n := by
  unfold State.imageAfterErrors
  simp only [State.degradedBy_congr tables degraded errors, degraded, image]

theorem State.farEndRecord_of {s : State} {p : Pos} {n : Nat} {r : Position} {P : Prop} [Decidable P] (pos : s.posAt p = r)
    (test : s.DegradedBy p n ↔ P) : s.farEndRecord p n = { r with
      linkErrors := min 65535 (r.linkErrors + n)
      linkDegraded := decide P
      counters := { r.counters with linkErrorsTotal := min 65535 (r.counters.linkErrorsTotal + n) } } := by
  have bits : decide (s.DegradedBy p n) = decide P := decide_eq_decide.2 test
  unfold State.farEndRecord
  rw [bits, pos]
  rfl

/-- The last fault handed at an accepted identity (R139). -/
theorem State.when_add (s : State) (b : Bool) (k : FaultKey) : (s.when b fun s => s.add k) =
    { s with image := if b then faultAdd k s.image else s.image } := by
  unfold State.when
  cases b <;> rfl

theorem faultAdd_untracked (k : FaultKey) (ib : ImageBuilder) : (faultAdd k ib).untracked = ib.untracked := by
  rw [faultAdd_frame]

theorem faultAdd_flags (k : FaultKey) (ib : ImageBuilder) (x : FnSet) :
    faultAdd k { ib with untracked := x } = { faultAdd k ib with untracked := x } := by
  have same : ({ ib with untracked := x } : ImageBuilder).holds k = ib.holds k := rfl
  unfold faultAdd faultAppend
  rw [same]
  by_cases held : ib.holds k = true
  · rw [if_pos held, if_pos held]
  · rw [if_neg held, if_neg held]
    by_cases room : ib.faults.length < Config.faultCapacity
    · rw [if_pos room, if_pos room]
    · rw [if_neg room, if_neg room]
      by_cases inactive : (ib.faults.any (!·.active)) = true
      · rw [if_pos inactive, if_pos inactive]
      · rw [if_neg inactive, if_neg inactive]

theorem State.accepts (s : State) (i : IdentFields) : State.Accepts i s (s.acceptIdent i) := by
  obtain ⟨aqueue, aimage, arequests, apos, aothers, -⟩ := s.identified_frame i
  obtain ⟨ps, ls, acircuits, acache, ha⟩ := s.identified_leaves i
  have cache := s.identified_cache i
  have circuits (c : Circ) := State.identified_circ (s := s) (i := i) (c := c)
  have places : ∀ q, q ≠ i.pos → ∀ c, (s.identified i).circAt q c = s.circAt q c := fun q hq c =>
    (s.identified_frame i).2.2.2.2.2 q c (.inl hq)
  rw [State.acceptIdent_eq, State.when_add]
  generalize s.identified i = a at *
  have tables : a.tables = s.tables := by rw [ha]
  have degraded : (a.posAt i.pos).linkDegraded = (s.posAt i.pos).linkDegraded := by rw [apos]; rfl
  have errors : (a.posAt i.pos).linkErrors = (s.posAt i.pos).linkErrors := by rw [apos]; rfl
  have bimage := State.imageAfterErrors_congr tables degraded errors aimage i.farEnd
  have bframe := s.imageAfterErrors_frame i.pos i.farEnd
  have btest := State.degradedBy_congr tables degraded errors i.farEnd
  have hb := a.addFarEnd_eq i.pos i.farEnd
  have bhere : (a.addFarEnd i.pos i.farEnd).posAt i.pos = a.farEndRecord i.pos i.farEnd := by
    rw [hb]
    exact State.updPos_posAt_same _ _ _
  have bothers (q : Pos) (hq : q ≠ i.pos) : (a.addFarEnd i.pos i.farEnd).posAt q = s.posAt q := by
    rw [hb, ← aothers q hq]
    exact State.updPos_posAt_ne _ _ _ _ hq
  rw [bimage] at hb
  generalize a.addFarEnd i.pos i.farEnd = b at *
  have cpos (q : Pos) := b.requestResync_posAt q
  have resyncs := b.resyncs
  have cframe := b.requestResync_frame
  generalize b.requestResync = c at *
  have probed := c.nextProbed i.pos
  generalize c.probeNext i.pos = d at *
  have record := ((cpos i.pos).trans bhere).trans (State.farEndRecord_of apos btest)
  have state : (c.posAt i.pos).state = .active := by rw [record]
  have load : (c.posAt i.pos).downstreamLoad = i.load := by rw [record]; rfl
  have begins (q : Pos) : c.ProbeBegins i.pos (c.posAt i.pos).downstreamLoad q ↔
      q.val = i.pos.val + 1 ∧ i.load = true ∧ (s.posAt q).state = .absent := by
    rw [State.ProbeBegins, load, state]
    refine and_congr_right fun next => and_congr_right fun _ => ?_
    have other : q ≠ i.pos := fun e => by rw [e] at next; omega
    rw [cpos, bothers q other]
    exact and_iff_right rfl
  obtain ⟨dframe, dhere, dothers, drequests⟩ := probed
  have linked : d.image = { s.imageAfterErrors i.pos i.farEnd with untracked := c.image.untracked } := by
    rw [dframe]
    change c.image = _
    rw [cframe, hb]
  have requests : c.chain.linkRequests = a.chain.linkRequests := by rw [cframe, hb]; rfl
  have circuitsD : d.circuits = a.circuits := by rw [dframe, cframe, hb]; rfl
  have cacheD : d.cache = a.cache := by rw [dframe, cframe, hb]; rfl
  have held := s.heldElsewhere_eq i.pos i.identity
  have circD (q : Pos) (k : Circ) : d.circAt q k = a.circAt q k :=
    congrArg (fun v : Vector (Vector Circuit 12) 6 => v[q][k]) circuitsD
  have framed : d = { s with
      chain := { s.chain with
        positions := d.chain.positions, linkRequests := d.chain.linkRequests, counters := d.chain.counters }
      queue := d.queue, circuits := d.circuits, cache := d.cache, image := d.image } := by
    obtain ⟨qs, ks, hd⟩ : ∃ qs ks, d = { c with chain := { c.chain with positions := qs, linkRequests := ks } } := ⟨_, _, dframe⟩
    obtain ⟨counters, queue, flags, hc⟩ : ∃ counters queue flags, c = { b with
      chain := { b.chain with counters := counters }, queue := queue, image := { b.image with untracked := flags } } :=
      ⟨_, _, _, cframe⟩
    rw [hd, hc, hb, ha]
    rfl
  have image : (if s.heldElsewhere i.pos i.identity = true then faultAdd (posFault i.pos .identityClash) d.image else d.image) =
      { (if s.HeldByAnother i.pos i.identity then
          faultAdd ⟨i.pos, none, .identityClash⟩ (s.imageAfterErrors i.pos i.farEnd) else s.imageAfterErrors i.pos i.farEnd) with
        untracked := c.image.untracked } := by
    rw [linked]
    simp only [held, decide_eq_true_eq]
    split
    · exact faultAdd_flags _ _ _
    · rfl
  have listed (ib : ImageBuilder) (h : ib = { s.image with faults := ib.faults, overflow := ib.overflow, sequence := ib.sequence })
      (k : FaultKey) : faultAdd k ib = { s.image with
        faults := (faultAdd k ib).faults, overflow := (faultAdd k ib).overflow, sequence := (faultAdd k ib).sequence } := by
    have kept (l o n) : ({ ib with faults := l, overflow := o, sequence := n } : ImageBuilder) =
        { s.image with faults := l, overflow := o, sequence := n } := by rw [h]
    exact (faultAdd_frame k ib).trans (kept _ _ _)
  rw [image]
  generalize hj : (if s.HeldByAnother i.pos i.identity then
    faultAdd ⟨i.pos, none, .identityClash⟩ (s.imageAfterErrors i.pos i.farEnd) else s.imageAfterErrors i.pos i.farEnd) = j at *
  have jframe : j = { s.image with faults := j.faults, overflow := j.overflow, sequence := j.sequence } := by
    rw [← hj]
    split
    · exact listed _ bframe _
    · exact bframe
  refine ⟨?_, ?_, fun q hq => ?_, fun k => ?_, ?_, ?_, fun q hq k => ?_, fun k clear => ?_, ?_⟩
  · have kept (ib : ImageBuilder) : ({ d with image := ib } : State) = { s with
        chain := { s.chain with
          positions := d.chain.positions, linkRequests := d.chain.linkRequests, counters := d.chain.counters }
        queue := d.queue, circuits := d.circuits, cache := d.cache, image := ib } := by
      rw [framed]
    have placed (x : FnSet) : ({ j with untracked := x } : ImageBuilder) = { s.image with
        untracked := x, faults := j.faults, overflow := j.overflow, sequence := j.sequence } := by
      rw [jframe]
    exact (kept _).trans (congrArg (fun ib : ImageBuilder => ({ s with
        chain := { s.chain with
          positions := d.chain.positions, linkRequests := d.chain.linkRequests, counters := d.chain.counters }
        queue := d.queue, circuits := d.circuits, cache := d.cache, image := ib } : State)) (placed _))
  · refine dhere.trans (record.trans ?_)
    rw [held]
    rfl
  · refine (dothers q hq).trans ?_
    have same := (cpos q).trans (bothers q hq)
    simp only [begins, same]
  · change k ∈ d.chain.linkRequests ↔ _
    rw [drequests, requests, arequests]
    simp only [begins, List.mem_filter, Bool.and_eq_true, bne_iff_ne]
  · change d.cache = _
    rw [cacheD, cache, held]
    simp only [decide_eq_true_eq]
  · refine resyncs.of_eq ?_ ?_ ?_ ?_ ?_ ?_ ?_ ?_
    · rw [hb]; exact tables.symm
    · rw [hb]; exact aqueue.symm
    · rw [hb]
      change _ = (s.imageAfterErrors i.pos i.farEnd).untracked
      rw [bframe]
    · rw [hb, ha]; rfl
    · rw [hb, ha]; rfl
    · rw [dframe]
    · rfl
    · change d.chain.counters = _
      rw [dframe]
  · exact (circD q k).trans (places q hq k)
  · exact (circD i.pos k).trans (circuits k clear)
  · dsimp only
    rw [hj]
    exact ⟨rfl, rfl, rfl⟩

end Sys2Proof.Machine
end

