-- ==== Sys2Proof/Proofs/Identifies.lean ====
section
/-! SUPPORT and PROOF. An IDENT from a PROBING position, and one that is discarded (O45). -/

namespace Sys2Proof.Machine

/-- With no telegram begun at its end, an IDENT's effects are composed and nothing is sent. -/
theorem exec_ident_held {s : State} {t : UpTelegram} {i : IdentFields} {ab : Bool} (parsed : parseIdent t = some i)
    (held : s.lineHeld ab = true) : ∃ l, l ≠ .free ∧
      ((s.updChain fun ch => { ch with line := l }).takeIdent i).chain.line = l ∧
      exec (.ident t ab) s = .next ((s.updChain fun ch => { ch with line := l }).takeIdent i).recompose := by
  obtain ⟨l, busy, ends⟩ := State.answerEnds_held held
  have line : ((s.updChain fun ch => { ch with line := l }).takeIdent i).chain.line = l :=
    (State.Holds.takeIdent ⟨rfl, busy⟩ i).line
  refine ⟨l, busy, line, ?_⟩
  have run : exec (.ident t ab) s = .next ((s.answerEnds ab).identEnds t).transmit.recompose := rfl
  rw [run, State.identEnds_parsed parsed, ends, State.transmit_busy _ (by rw [line]; exact busy)]

theorem State.takeIdent_probing {s : State} {i : IdentFields} (probing : (s.posAt i.pos).state = .probing) :
    s.takeIdent i = s.acceptIdent i := by
  unfold State.takeIdent
  rw [probing]

theorem State.takeIdent_active {s : State} {i : IdentFields} (active : (s.posAt i.pos).state = .active) :
    s.takeIdent i = (s.heard i.pos i.load).addFarEnd i.pos i.farEnd := by
  unfold State.takeIdent
  rw [active]

theorem State.takeIdent_discarded {s : State} {i : IdentFields}
    (off : (s.posAt i.pos).state = .absent ∨ (s.posAt i.pos).state = .passive) : s.takeIdent i = s := by
  unfold State.takeIdent
  rcases off with off | off
  all_goals rw [off]

theorem State.lookup_cache_eq (s : State) (p : Pos) (i : Identity) : (s.lookup p i).cache =
    match s.cache.find? (·.identity == i) with
    | none => s.cache
    | some e => e :: s.cache.filter fun k => k.identity != i := by
  unfold State.lookup
  cases s.cache.find? (·.identity == i) <;> rfl

/-! ### A position heard with its far-end errors (R46, R49) -/

/-- `u` is `s` with `p` heard and its far-end errors added. -/
structure State.HeardFar (p : Pos) (load : Bool) (n : Nat) (s u : State) : Prop where
  frame : u = { s with
    chain := { s.chain with positions := u.chain.positions, linkRequests := u.chain.linkRequests }
    image := s.imageAfterErrors p n }
  here : u.posAt p = s.heardRecord p load n
  others : ∀ q : Pos, q ≠ p → u.posAt q =
    if s.ProbeBegins p load q then { s.posAt q with state := .probing, probeAttempts := 0 }
    else if s.ProbeEnds p load q then Position.absent (s.posAt q).counters else s.posAt q
  begins : ∀ q, s.ProbeBegins p load q → u.chain.linkRequests = s.chain.linkRequests ++ [.enum q]
  ends : ∀ q, s.ProbeEnds p load q →
    u.chain.linkRequests = s.chain.linkRequests.filter fun r => r != .enum q && r != .query q
  stays : (∀ q, ¬s.ProbeBegins p load q ∧ ¬s.ProbeEnds p load q) → u.chain.linkRequests = s.chain.linkRequests

theorem State.heardFar {s : State} (shape : s.ChainShape) (p : Pos) (load : Bool) (n : Nat) :
    State.HeardFar p load n s ((s.heard p load).addFarEnd p n) := by
  obtain ⟨frame, here, others, begins, ends, stays⟩ := State.heardFrom shape p load
  rw [State.addFarEnd_eq]
  generalize s.heard p load = h at *
  have tables : h.tables = s.tables := by rw [frame]
  have degraded : (h.posAt p).linkDegraded = (s.posAt p).linkDegraded := by rw [here]
  have errors : (h.posAt p).linkErrors = (s.posAt p).linkErrors := by rw [here]
  have image : h.image = s.image := by rw [frame]
  have record := State.farEndRecord_of here (State.degradedBy_congr tables degraded errors n)
  rw [State.imageAfterErrors_congr tables degraded errors image n]
  refine ⟨?_, ?_, fun q hq => ?_, begins, ends, stays⟩
  · have kept (ps : Vector Position 6) : ({ h with chain := { h.chain with positions := ps }, image := s.imageAfterErrors p n } : State) =
        { s with
          chain := { s.chain with positions := ps, linkRequests := h.chain.linkRequests }
          image := s.imageAfterErrors p n } := by
      rw [frame]
    exact kept _
  · exact (State.updPos_posAt_same _ _ _).trans record
  · exact (State.updPos_posAt_ne _ _ _ _ hq).trans (others q hq)

/-- The state of a place beside an ACTIVE position heard. -/
theorem State.heard_state {s : State} {p q : Pos} {load : Bool} (active : (s.posAt p).state = .active) :
    (if s.ProbeBegins p load q then { s.posAt q with state := .probing, probeAttempts := 0 }
      else if s.ProbeEnds p load q then Position.absent (s.posAt q).counters else s.posAt q : Position).state =
    if q.val = p.val + 1 ∧ load = true ∧ (s.posAt q).state = .absent then .probing
    else if q.val = p.val + 1 ∧ load = false ∧ ((s.posAt q).state = .probing ∨ (s.posAt q).state = .passive) then .absent
    else (s.posAt q).state := by
  have begins : s.ProbeBegins p load q ↔ q.val = p.val + 1 ∧ load = true ∧ (s.posAt q).state = .absent :=
    and_congr_right fun _ => and_congr_right fun _ => and_iff_right active
  simp only [begins]
  split
  · rfl
  · split <;> rfl

theorem State.imageAfterErrors_zero (s : State) (p : Pos) : s.imageAfterErrors p 0 = s.image :=
  if_neg fun ⟨clear, degraded⟩ => degraded.elim (fun h => by rw [clear] at h; cases h) fun h => h.1 rfl

/-! ### A PROBING position -/

section
variable {s : State} {i : IdentFields} (sound : s.Coherent) (probing : (s.posAt i.pos).state = .probing)
include sound probing

/-- What a PROBING position's record and circuits are before its IDENT (R23). -/
theorem State.Coherent.probing_clear : (s.posAt i.pos).linkErrors = 0 ∧ (∀ c, s.circAt i.pos c = Circuit.clear) ∧
    ∀ q : Pos, i.pos < q → (s.posAt q).state = .absent := by
  have off : (s.posAt i.pos).state.onChain = false := by rw [probing]; rfl
  obtain ⟨-, -, -, -, -, -, -, clear⟩ := (sound.parts.places i.pos).record
  exact ⟨(clear off).2.2.2.2.1, fun c => ((sound.parts.places i.pos).circuits c).1 off, fun q hq => sound.shape _ _ hq off⟩

end

theorem State.diverts_of_not_canTrack (s : State) (h : ¬(s.tables.mode == .run && s.queue.canTrack) = true) :
    s.tables.mode = .setup ∨ 16 ≤ s.queue.entries.length ∨ s.queue.slot ≠ none := by
  cases mode : s.tables.mode with
  | setup => exact .inl rfl
  | run =>
    refine .inr (Classical.or_iff_not_imp_left.2 fun room slot => h (s.canTrack_iff.2 ⟨mode, ?_, slot⟩))
    exact Nat.not_le.1 room

/-! ### The SET of a RESYNC asked for (R39, R41) -/

/-- Counts and states of the places are all a SET's masks, delay and active set look at. -/
theorem State.setParts_congr {s u : State} (tables : u.tables = s.tables)
    (place : ∀ p, (u.posAt p).circuitCount = (s.posAt p).circuitCount ∧ (u.posAt p).state = (s.posAt p).state) :
    (∀ i, u.masks i = s.masks i) ∧ (∀ fs, u.delayOver fs = s.delayOver fs) ∧ u.activeSet = s.activeSet := by
  have rows : u.rowAt = s.rowAt := by funext p c; simp only [State.rowAt, tables]
  have profiles : u.profileAt = s.profileAt := by funext p c; simp only [State.profileAt, rows, tables]
  have active : u.isActive = s.isActive := by funext p; simp only [State.isActive, (place p).2]
  have fitted : u.fitted = s.fitted := by funext p c; simp only [State.fitted, rows, (place p).1]
  have mask (i : Image) : u.maskOf i = s.maskOf i := by
    funext p
    unfold State.maskOf
    simp only [fitted, rows]
  refine ⟨fun i => ?_, fun fs => ?_, ?_⟩
  · rw [State.masks, mask, State.masks]
  · unfold State.delayOver
    simp only [fitted, rows, profiles, active]
  · rw [State.activeSet, active, State.activeSet]

section
variable {s w : State} (resyncs : s.Resyncs w) (line : w.chain.line = .free) (sets : s.queue.firstSet = none)
include resyncs line sets

/-- A RESYNC tracked is the SET that goes, its entry the last. -/
theorem State.Resyncs.sends (run : s.tables.mode = .run) (room : s.queue.entries.length < 16) (slot : s.queue.slot = none) :
    w.transmit = w.sendSet s.resyncEntry ∧ w.queue.entries = s.queue.entries ++ s.resyncEntry :: [] := by
  obtain ⟨queue, -, -⟩ := resyncs.tracked run room slot
  have entries : w.queue.entries = s.queue.entries ++ s.resyncEntry :: [] := by rw [queue]
  exact ⟨State.transmit_set line entries rfl rfl fun y hy h => List.find?_eq_none.1 sets y hy (by simp [h.1, h.2]), entries⟩

/-- A RESYNC diverted is the slot's SET. -/
theorem State.Resyncs.sendsSlot (full : s.tables.mode = .setup ∨ 16 ≤ s.queue.entries.length ∨ s.queue.slot ≠ none) :
    w.transmit = w.sendSlot s.port.commanded := by
  obtain ⟨queue, -, -⟩ := resyncs.diverted full
  have first : w.queue.firstSet = none := by
    rw [queue]
    exact sets
  exact State.transmit_slot line first (by rw [queue])

/-- The SET of the RESYNC tracked, its masks and delay those of the state it leaves. -/
theorem State.Resyncs.tracked_goes (run : s.tables.mode = .run) (room : s.queue.entries.length < 16)
    (slot : s.queue.slot = none) (nodup : (w.queue.entries.map (·.tag)).Nodup) {t : State} (ht : t = w.transmit.recompose) :
    (t.chain.transmitted = s.port.commanded ∧ (∀ g : Fn, t.chain.changeTimes[g] =
      if on s.port.commanded g = on w.chain.transmitted g then w.chain.changeTimes[g] else some w.now)) ∧
    (∀ p, (t.posAt p).state = (w.posAt p).state ∧ (t.posAt p).identity = (w.posAt p).identity ∧
      (t.posAt p).circuitCount = (w.posAt p).circuitCount) ∧
    t.chain.line = .sending (.set s.queue.tagCounter (t.delayOver s.port.commanded) (t.masks s.port.commanded)) ∧
    t.queue.tagCounter = (s.queue.tagCounter + 1) % 255 ∧ t.queue.slot = none ∧ t.queue.generation = s.queue.generation ∧
    t.queue.Keeps (w.sentNow s.resyncEntry [] s.port.commanded (t.delayOver s.port.commanded) t.chain.changeTimes
      t.activeSet) := by
  obtain ⟨sends, entries⟩ := resyncs.sends line sets run room slot
  obtain ⟨queue, -, -⟩ := resyncs.tracked run room slot
  have retired := State.sendSet_retired (s := w) (e := s.resyncEntry) (i := s.port.commanded) rfl
  obtain ⟨chain, times, kept, -, keeps⟩ := State.setGoes (s := w) (i := s.port.commanded) entries rfl
  rw [sends] at ht
  generalize w.sendSet s.resyncEntry = u at ht retired chain times kept keeps
  have place (p : Pos) : t.posAt p = { w.posAt p with
      supplyLow := (u.posAt p).supplyLow, feedLost := (u.posAt p).feedLost } := by
    rw [ht, State.recompose_posAt]
    exact retired.pos p
  have tables : t.tables = w.tables := by rw [ht, State.recompose_tables, retired.tables]; rfl
  obtain ⟨masks, delay, active⟩ := State.setParts_congr tables fun p => by rw [place]; exact ⟨rfl, rfl⟩
  have chainT : t.chain = u.chain := by rw [ht, State.recompose_chain]
  have queueT : t.queue = u.queue := by rw [ht, State.recompose_queue]
  have carries : s.resyncEntry.delaySet s.port.commanded = s.port.commanded := rfl
  rw [carries] at chain keeps
  rw [masks, delay, active, chainT, queueT]
  refine ⟨⟨by rw [chain], times⟩, fun p => by rw [place]; exact ⟨rfl, rfl, rfl⟩, ?_, ?_, ?_, ?_, keeps nodup⟩
  · rw [chain]
    rfl
  · rw [kept, queue]
  · rw [kept, queue]
    exact slot
  · rw [kept, queue]

/-- The slot's SET of the RESYNC diverted. -/
theorem State.Resyncs.diverted_goes (full : s.tables.mode = .setup ∨ 16 ≤ s.queue.entries.length ∨ s.queue.slot ≠ none)
    {t : State} (ht : t = w.transmit.recompose) :
    (t.chain.transmitted = s.port.commanded ∧ (∀ g : Fn, t.chain.changeTimes[g] =
      if on s.port.commanded g = on w.chain.transmitted g then w.chain.changeTimes[g] else some w.now)) ∧
    (∀ p, t.posAt p = w.posAt p) ∧
    t.chain.line = .sending (.set 255 (t.delayOver (s.port.commanded ^^^ w.chain.transmitted)) (t.masks s.port.commanded)) ∧
    t.queue = { s.queue with slot := none, generation := (s.queue.generation + 1) % 65536 } := by
  obtain ⟨queue, -, -⟩ := resyncs.diverted full
  have times := fun g => w.imageSent_changeTimes s.port.commanded g
  have eq := w.sendSlot_eq s.port.commanded
  rw [resyncs.sendsSlot line sets full] at ht
  generalize w.sendSlot s.port.commanded = u at ht eq
  have place (p : Pos) : t.posAt p = w.posAt p := by
    rw [ht, State.recompose_posAt, eq]
    rfl
  have tables : t.tables = w.tables := by rw [ht, State.recompose_tables, eq]
  obtain ⟨masks, delay, -⟩ := State.setParts_congr tables fun p => by rw [place]; exact ⟨rfl, rfl⟩
  have chainT : t.chain = u.chain := by rw [ht, State.recompose_chain]
  have queueT : t.queue = u.queue := by rw [ht, State.recompose_queue]
  rw [masks, delay, chainT, queueT, eq, queue]
  exact ⟨⟨rfl, times⟩, place, rfl, rfl⟩

end

/-- Settles O45: an accepted identity's effects stand on a held line and are followed by the pick on a free one; an IDENT that
is discarded leaves the record, or what its hearing makes of it. -/
theorem identIdentifies : Obligations.IdentIdentifies := by
  unfold Obligations.IdentIdentifies
  refine ⟨fun s t ab i parsed sound probing held => ?_, ?_, ?_⟩
  · obtain ⟨l, busy, line, run⟩ := exec_ident_held parsed held
    obtain ⟨errors, clear, above⟩ := ((State.chainSound_iff s).1 sound).probing_clear probing
    rw [State.takeIdent_probing (s := s.updChain fun ch => { ch with line := l }) probing] at run line
    have acc := State.accepts (s.updChain fun ch => { ch with line := l }) i
    generalize State.acceptIdent _ i = w at run line acc
    obtain ⟨frame, here, others, requests, cache, ⟨tracked, diverted⟩, places, circuits, faults⟩ := acc
    obtain ⟨retired, untracked, listed, overflow, sequence, -, -, -⟩ := w.recompose_records
    have port := State.PortFrom.recompose w
    have after (q : Pos) (next : q.val = i.pos.val + 1) : q ≠ i.pos ∧ (s.posAt q).state = .absent :=
      ⟨fun e => by rw [e] at next; omega, above q (Fin.lt_def.2 (by omega))⟩
    refine ⟨_, run, ?_⟩
    simp only [State.recompose_posAt, State.recompose_cache, State.recompose_chain, State.recompose_queue,
      State.recompose_circAt, State.recompose_checks, retired, untracked, listed, overflow, sequence]
    refine ⟨here.trans ?_, ?_, ?_, fun q next => ⟨fun load => ⟨?_, ?_⟩, fun load => ?_⟩, fun q hq far => ?_, tracked, diverted,
      ?_, ?_, ?_, ?_, places, fun c => ?_, faults, ?_, ?_, ?_, ?_, ?_, ?_, ?_⟩
    · dsimp only
      congr 1
      exact congrArg (min 65535) ((congrArg (· + i.farEnd) errors).trans (Nat.zero_add _))
    · refine cache.trans ?_
      rw [State.lookup_cache_eq]
      rfl
    · rw [requests]
      rintro (⟨-, other, -⟩ | ⟨q, same, next, -⟩)
      · exact other rfl
      · cases same
        omega
    · rw [others q (after q next).1, if_pos ⟨next, load, (after q next).2⟩]
    · exact (requests _).2 (.inr ⟨q, rfl, next, load, (after q next).2⟩)
    · exact (others q (after q next).1).trans (if_neg fun h => by rw [load] at h; exact Bool.noConfusion h.2.1)
    · exact (others q hq).trans (if_neg fun h => far h.1)
    · rw [frame]
      rfl
    · rw [line]
      exact busy
    · rw [frame]
      rfl
    · rw [frame]
      rfl
    · rw [circuits c (clear c), clear c]
      exact ⟨rfl, rfl, rfl⟩
    · exact port.now.trans (by rw [frame]; rfl)
    · exact port.tables.trans (by rw [frame]; rfl)
    · rw [frame]
      rfl
    · exact port.store.trans (by rw [frame]; rfl)
    · exact port.pending.trans (by rw [frame]; rfl)
    · have same : w.port = s.port := by
        rw [frame]
        rfl
      rw [← same]
      exact port.inputs
    · exact port.request.trans (by rw [frame]; rfl)
  · intro s t ab i parsed sound held other lost
    have shape := ((State.chainSound_iff s).1 sound).shape
    obtain ⟨l, busy, line, run⟩ := exec_ident_held parsed held
    refine ⟨_, run, ?_⟩
    by_cases active : (s.posAt i.pos).state = .active
    · rw [State.takeIdent_active (s := s.updChain fun ch => { ch with line := l }) active, if_pos active]
      have heard := State.heardFar (s := s.updChain fun ch => { ch with line := l }) shape i.pos i.load i.farEnd
      generalize (State.heard _ i.pos i.load).addFarEnd i.pos i.farEnd = w at heard
      obtain ⟨frame, here, others, -, -, -⟩ := heard
      have port := State.PortFrom.recompose w
      have records := w.recompose_records
      have image : w.image = s.imageAfterErrors i.pos i.farEnd := by rw [frame]; rfl
      have same : w.port = s.port := by rw [frame]; rfl
      rw [image] at records
      rw [← same]
      simp only [State.recompose_posAt, State.recompose_cache, State.recompose_chain, State.recompose_queue,
        State.recompose_circuits, State.recompose_checks]
      refine ⟨?_, ?_, ?_, ?_, port.now.trans ?_, port.tables.trans ?_, port.store.trans ?_, port.pending.trans ?_, port.inputs,
        port.request, ?_, records, fun h => absurd active h, fun _ => ⟨here, fun q hq => ?_⟩⟩
      iterate 9
        · rw [frame]
          rfl
      rw [others q hq]
      exact State.heard_state (s := s.updChain fun ch => { ch with line := l }) active
    · have off : (s.posAt i.pos).state = .absent ∨ (s.posAt i.pos).state = .passive := by
        cases hs : (s.posAt i.pos).state with
        | absent => exact .inl rfl
        | passive => exact .inr rfl
        | active => exact absurd hs active
        | probing => exact absurd hs other
        | lost => exact absurd hs lost
      rw [State.takeIdent_discarded (s := s.updChain fun ch => { ch with line := l }) off, if_neg active,
        State.imageAfterErrors_zero]
      have port := State.PortFrom.recompose (s.updChain fun ch => { ch with line := l })
      have records := (s.updChain fun ch => { ch with line := l }).recompose_records
      simp only [State.recompose_posAt, State.recompose_cache, State.recompose_chain, State.recompose_queue,
        State.recompose_circuits, State.recompose_checks]
      exact ⟨rfl, rfl, rfl, rfl, port.now, port.tables, port.store, port.pending, port.inputs, port.request, rfl, records,
        fun _ _ => rfl, fun h => absurd h active⟩
  · intro s t ab i parsed free
    have run : exec (.ident t ab) s = .next (s.onFreeLine.takeIdent i).transmit.recompose := by
      have ends : exec (.ident t ab) s = .next ((s.answerEnds ab).identEnds t).transmit.recompose := rfl
      rw [ends, State.identEnds_parsed parsed, State.answerEnds_free free]
    refine ⟨_, run, fun x => ?_, fun off x => ?_, fun sound probing sets => ?_⟩
    · exact exec_telegramDone_begun (State.OnLine.takeIdent (.refl s.onFreeLine) i).line x
    · rw [State.takeIdent_discarded (s := s.onFreeLine) off]
      exact exec_telegramDone_begun (v := s.onFreeLine) rfl x
    · rw [State.takeIdent_probing (s := s.onFreeLine) probing]
      have acc := State.accepts s.onFreeLine i
      generalize s.onFreeLine.acceptIdent i = w at acc
      obtain ⟨frame, here, -, -, -, resyncs, -, -, -⟩ := acc
      have line : w.chain.line = .free := by rw [frame]; rfl
      have transmitted : w.chain.transmitted = s.chain.transmitted := by rw [frame]; rfl
      have changeTimes : w.chain.changeTimes = s.chain.changeTimes := by rw [frame]; rfl
      have now : w.now = s.now := by rw [frame]; rfl
      generalize ht : w.transmit.recompose = u
      by_cases track : (s.tables.mode == .run && s.queue.canTrack) = true
      · obtain ⟨run, room, slot⟩ := s.canTrack_iff.1 track
        obtain ⟨queue, -, -⟩ := resyncs.tracked run room slot
        have tags : (w.queue.entries.map (·.tag)).Nodup := by
          rw [queue]
          exact (((State.chainSound_iff s).1 sound).parts.tags.allocate (decide_eq_true room) .resync (some s.port.commanded) 0
            none).nodup
        obtain ⟨⟨image, times⟩, place, goes⟩ := resyncs.tracked_goes line sets run room slot tags ht.symm
        obtain ⟨state, identity, count⟩ := place i.pos
        rw [transmitted, changeTimes, now] at times
        rw [State.sentNow_congr (s := s) now (by rw [queue]; rfl)] at goes
        refine ⟨state.trans ?_, identity.trans ?_, count.trans ?_, image, times, fun _ _ _ => goes,
          fun full => absurd track (State.not_canTrack full)⟩
        all_goals rw [here]
      · have full := s.diverts_of_not_canTrack track
        obtain ⟨⟨image, times⟩, place, goes⟩ := resyncs.diverted_goes line sets full ht.symm
        rw [transmitted, changeTimes, now] at times
        rw [transmitted] at goes
        rw [place, here]
        exact ⟨rfl, rfl, rfl, image, times, fun run room slot => absurd (s.canTrack_iff.2 ⟨run, room, slot⟩) track,
          fun _ => goes⟩

end Sys2Proof.Machine
end

