-- ==== Sys2Proof/Proofs/Reviews.lean ====
section
/-! SUPPORT. Which marks a review ends and which faults it heals (R28, R139), and a place whose unit was exchanged (R34). -/

namespace Sys2Proof.Machine

/-! ### Reviews of IDENTITY_CLASH -/

/-- The mark of `q` ends when `i` has left the chain elsewhere. -/
def State.clashOver (s : State) (i : Identity) (q : Pos) : Bool :=
  (s.posAt q).identityClash && (s.posAt q).identity == some i && !s.heldElsewhere q i

/-- `u` is `s` with the marks of the places `l` that are over cleared and their faults healed. -/
structure State.ReviewedFrom (i : Identity) (l : List Pos) (s u : State) : Prop where
  frame : u = { s with
    chain := { s.chain with positions := u.chain.positions }, image := { s.image with faults := u.image.faults } }
  posAt : ∀ q, u.posAt q = if q ∈ l ∧ s.clashOver i q = true then { s.posAt q with identityClash := false } else s.posAt q
  faults : u.image.faults = s.image.faults.map fun e =>
    if e.key.circ = none ∧ e.key.kind = .identityClash ∧ e.key.pos ∈ l ∧ s.clashOver i e.key.pos = true then
      { e with active := false } else e

theorem posFault_iff {k : FaultKey} {p : Pos} {kind : FaultKind} : k = posFault p kind ↔
    k.circ = none ∧ k.kind = kind ∧ k.pos = p := by
  obtain ⟨q, c, l⟩ := k
  simp only [posFault, FaultKey.mk.injEq]
  exact ⟨fun ⟨a, b, c⟩ => ⟨b, c, a⟩, fun ⟨a, b, c⟩ => ⟨c, a, b⟩⟩

theorem State.clashOver_congr {s u : State} (same : ∀ q, (u.posAt q).state = (s.posAt q).state ∧
    (u.posAt q).identity = (s.posAt q).identity) {q : Pos} (clash : (u.posAt q).identityClash = (s.posAt q).identityClash)
    (i : Identity) : u.clashOver i q = s.clashOver i q := by
  have elsewhere : u.heldElsewhere q i = s.heldElsewhere q i :=
    State.heldElsewhere_congr (fun r _ => ⟨by rw [(same r).1], fun _ => (same r).2⟩) i
  rw [State.clashOver, State.clashOver, clash, (same q).2, elsewhere]

theorem State.ReviewedFrom.clashOver {i : Identity} {l : List Pos} {s u : State} (h : State.ReviewedFrom i l s u) (q : Pos) :
    u.clashOver i q = true ↔ s.clashOver i q = true ∧ q ∉ l := by
  have same (q : Pos) : (u.posAt q).state = (s.posAt q).state ∧ (u.posAt q).identity = (s.posAt q).identity := by
    rw [h.posAt]
    split <;> exact ⟨rfl, rfl⟩
  by_cases ended : q ∈ l ∧ s.clashOver i q = true
  · have clear : (u.posAt q).identityClash = false := by rw [h.posAt, if_pos ended]
    refine ⟨fun marked => ?_, fun k => absurd ended.1 k.2⟩
    rw [State.clashOver, clear] at marked
    cases marked
  · rw [State.clashOver_congr same (by rw [h.posAt, if_neg ended])]
    exact ⟨fun marked => ⟨marked, fun listed => ended ⟨listed, marked⟩⟩, And.left⟩

theorem State.ReviewedFrom.trans {i : Identity} {l m : List Pos} {s t u : State} (a : State.ReviewedFrom i l s t)
    (b : State.ReviewedFrom i m t u) : State.ReviewedFrom i (l ++ m) s u where
  frame := by
    have kept (ps : Vector Position 6) (fs : List FaultEntry) :
        ({ t with chain := { t.chain with positions := ps }, image := { t.image with faults := fs } } : State) =
          { s with chain := { s.chain with positions := ps }, image := { s.image with faults := fs } } := by
      rw [a.frame]
    exact b.frame.trans (kept _ _)
  posAt q := by
    rw [b.posAt, a.posAt]
    by_cases marked : s.clashOver i q = true
    · by_cases listed : q ∈ l
      · simp only [a.clashOver, marked, listed, not_true, and_false, if_false, and_true, if_true, List.mem_append, true_or]
      · simp only [a.clashOver, marked, listed, not_false_eq_true, and_true, if_false, List.mem_append, false_or]
    · simp only [a.clashOver, marked, Bool.false_eq_true, false_and, and_false, if_false]
  faults := by
    rw [b.faults, a.faults, List.map_map]
    refine List.map_congr_left fun e _ => ?_
    dsimp only [Function.comp]
    by_cases marked : s.clashOver i e.key.pos = true
    · by_cases listed : e.key.circ = none ∧ e.key.kind = .identityClash ∧ e.key.pos ∈ l
      · obtain ⟨circ, kind, here⟩ := listed
        simp only [a.clashOver, marked, circ, kind, here, not_true, and_false, if_false, and_true, if_true, List.mem_append,
          true_or]
      · have off : ¬(e.key.circ = none ∧ e.key.kind = .identityClash ∧ e.key.pos ∈ l ∧ s.clashOver i e.key.pos = true) :=
          fun h => listed ⟨h.1, h.2.1, h.2.2.1⟩
        simp only [if_neg off]
        refine if_congr (and_congr_right fun circ => and_congr_right fun kind => ?_) rfl rfl
        have apart : e.key.pos ∉ l := fun h => listed ⟨circ, kind, h⟩
        rw [a.clashOver, List.mem_append]
        exact ⟨fun h => ⟨.inr h.1, marked⟩, fun h => ⟨h.1.resolve_left apart, marked, apart⟩⟩
    · simp only [a.clashOver, marked, Bool.false_eq_true, false_and, and_false, if_false]

theorem State.reviewedOne (i : Identity) (p : Pos) (s : State) : State.ReviewedFrom i [p] s (State.reviewClash i s p) := by
  by_cases ends : s.clashOver i p = true
  · have cleared : State.reviewClash i s p =
        (s.updPos p fun r => { r with identityClash := false }).heal (posFault p .identityClash) := if_pos ends
    rw [cleared]
    refine ⟨rfl, fun q => (State.updPos_posAt _ _ _ _).trans (if_congr ?_ rfl rfl), List.map_congr_left fun e _ =>
      if_congr ?_ rfl rfl⟩
    · rw [List.mem_singleton]
      exact ⟨fun h => ⟨h, h ▸ ends⟩, And.left⟩
    · rw [beq_iff_eq, posFault_iff, List.mem_singleton]
      exact ⟨fun ⟨circ, kind, here⟩ => ⟨circ, kind, here, here ▸ ends⟩, fun ⟨circ, kind, here, _⟩ => ⟨circ, kind, here⟩⟩
  · have kept : State.reviewClash i s p = s := if_neg ends
    rw [kept]
    refine ⟨rfl, fun q => (if_neg ?_).symm, ((List.map_congr_left fun e _ => if_neg ?_).trans (List.map_id _)).symm⟩
    · rintro ⟨here, marked⟩
      exact ends (List.mem_singleton.1 here ▸ marked)
    · rintro ⟨-, -, here, marked⟩
      exact ends (List.mem_singleton.1 here ▸ marked)

theorem State.reviewedFrom (i : Identity) (l : List Pos) (s : State) :
    State.ReviewedFrom i l s (l.foldl (State.reviewClash i) s) := by
  induction l generalizing s with
  | nil => exact ⟨rfl, fun q => (if_neg fun h => nomatch h.1).symm, ((List.map_congr_left fun e _ =>
      if_neg fun h => nomatch h.2.2.1).trans (List.map_id _)).symm⟩
  | cons p l ih => exact (State.reviewedOne i p s).trans (ih _)

/-! ### A unit exchanged (R34) -/

/-- The place of an identity change with its departing unit taken off, before the arriving one is identified. -/
def State.exchanged (s : State) (i : IdentFields) : State :=
  (((s.heard i.pos i.load).takeOff i.pos).updPos i.pos fun r => { r with linkErrors := 0, identity := none }).reviewClashes
    ((s.heard i.pos i.load).posAt i.pos).identity

theorem State.identityChange_eq (s : State) (i : IdentFields) : s.identityChange i = (s.exchanged i).acceptIdent i := rfl

/-- `w` is `s` with the unit of the LOST position of `i` taken off. -/
structure State.Exchanges (i : IdentFields) (s w : State) : Prop where
  frame : w = { s with
    chain := { s.chain with positions := w.chain.positions, linkRequests := w.chain.linkRequests }
    circuits := w.circuits, cache := w.cache
    image := { s.image with faults := w.image.faults, overflow := w.image.overflow } }
  here : w.posAt i.pos = { s.posAt i.pos with
    lastHeard := some s.now, downstreamLoad := i.load, linkErrors := 0, identity := none
    supplyLow := false, feedLost := false, linkDegraded := false, identityClash := false }
  state : ∀ q, q ≠ i.pos → (w.posAt q).state =
    if s.ProbeEnds i.pos i.load q then .absent else (s.posAt q).state
  clash : ∀ q, q ≠ i.pos → ((w.posAt q).identityClash = true ↔
    (s.posAt q).identityClash = true ∧ ¬s.ClashEnds (· = i.pos) q)
  held : w.HeldByAnother i.pos i.identity ↔ s.HeldByAnother i.pos i.identity
  cache : w.cache = (s.writeBack i.pos).cache
  clear : ∀ c, w.circAt i.pos c = Circuit.clear
  image : w.image = { faultRemove i.pos s.image with faults := (faultRemove i.pos s.image).faults.map fun e =>
    if e.key.circ = none ∧ e.key.kind = .identityClash ∧ s.ClashEnds (· = i.pos) e.key.pos
      then { e with active := false } else e }

/-- The mark of another place is over exactly when the departing unit was the last other holder of its identity. -/
theorem State.clashOver_exchanged {s v : State} {p q : Pos} {i : Identity} (sound : s.RecordsSound)
    (lost : (s.posAt p).state = .lost) (identity : (s.posAt p).identity = some i) (none : (v.posAt p).identity = none)
    (others : ∀ r, r ≠ p → (v.posAt r).state.onChain = (s.posAt r).state.onChain ∧
      ((s.posAt r).state.onChain = true → v.posAt r = s.posAt r)) (off : ∀ r, r ≠ p → (s.posAt r).state.onChain = false →
      (v.posAt r).identityClash = false) (hq : q ≠ p) : v.clashOver i q = true ↔ s.ClashEnds (· = p) q := by
  by_cases on : (s.posAt q).state.onChain = true
  · have same := (others q hq).2 on
    have held : v.HeldByAnother q i ↔ ∃ r, r ≠ q ∧ r ≠ p ∧ (s.posAt r).state.onChain = true ∧ (s.posAt r).identity = some i := by
      refine exists_congr fun r => and_congr_right fun _ => ?_
      by_cases hr : r = p
      · rw [hr, none]
        exact ⟨fun h => (nomatch h.2), fun h => absurd rfl h.1⟩
      · rw [(others r hr).1]
        exact ⟨fun h => ⟨hr, h.1, (others r hr).2 h.1 ▸ h.2⟩, fun h => ⟨h.2.1, ((others r hr).2 h.2.1).symm ▸ h.2.2⟩⟩
    have alone : v.heldElsewhere q i = false ↔ ¬v.HeldByAnother q i := by
      rw [← State.heldElsewhere_iff, Bool.not_eq_true]
    simp only [State.clashOver, Bool.and_eq_true, beq_iff_eq, Bool.not_eq_true', alone, held, same, and_assoc]
    refine and_congr_right fun _ => ⟨fun ⟨holds, single⟩ => ⟨⟨p, rfl, ?_, ?_⟩, fun r hr other chain same => ?_⟩,
      fun ⟨⟨r, hr, _, same⟩, single⟩ => ?_⟩
    · rw [lost]
      rfl
    · rw [identity, holds]
    · exact single ⟨r, hr, other, chain, same.trans holds⟩
    · subst hr
      have holds : (s.posAt q).identity = some i := same.symm.trans identity
      exact ⟨holds, fun ⟨r, hr, other, chain, same⟩ => single r hr other chain (same.trans holds.symm)⟩
  · have gone := Bool.eq_false_iff.2 on
    obtain ⟨-, -, -, -, -, -, -, clear⟩ := sound q
    refine ⟨fun h => ?_, fun h => ?_⟩
    · rw [State.clashOver, off q hq gone] at h
      cases h
    · have marked := h.1
      rw [(clear gone).2.2.2.1] at marked
      cases marked

theorem State.takeOff_leaves (s : State) (p : Pos) : ∃ ps circuits, s.takeOff p = { s with
    chain := { s.chain with positions := ps }, circuits := circuits, cache := (s.writeBack p).cache
    image := faultRemove p s.image } := by
  obtain ⟨cache, h⟩ := s.writeBack_frame p
  unfold State.takeOff
  rw [h]
  exact ⟨_, _, rfl⟩

theorem State.exchanges {s : State} {i : IdentFields} (sound : s.ChainSound) (lost : (s.posAt i.pos).state = .lost) :
    State.Exchanges i s (s.exchanged i) := by
  obtain ⟨shape, records, -⟩ := sound
  obtain ⟨frame, here, others, -, -, -⟩ := State.heardFrom shape i.pos i.load
  have on : (s.posAt i.pos).state.onChain = true := by rw [lost]; rfl
  obtain ⟨old, identity⟩ := Option.isSome_iff_exists.1 ((records i.pos).1.trans on)
  have noBegin (q : Pos) : ¬s.ProbeBegins i.pos i.load q := fun h => by
    have active := h.2.2.1
    rw [lost] at active
    cases active
  have beside (q : Pos) (hq : q ≠ i.pos) : (s.heard i.pos i.load).posAt q =
      if s.ProbeEnds i.pos i.load q then Position.absent (s.posAt q).counters else s.posAt q := by
    rw [others q hq, if_neg (noBegin q)]
  have chained (q : Pos) (hq : q ≠ i.pos) := (State.heardFrom shape i.pos i.load).onChain hq
  unfold State.exchanged
  generalize s.heard i.pos i.load = h at *
  have left : (h.posAt i.pos).identity = some old := by rw [here]; exact identity
  have written : (h.writeBack i.pos).cache = (s.writeBack i.pos).cache :=
    State.writeBack_cache_congr i.pos (by rw [frame]) (by rw [here]) (by rw [here])
      (State.slotOf_congr (by rw [frame]) fun c => by rw [frame]; rfl)
  obtain ⟨ps, circuits, off⟩ := h.takeOff_leaves i.pos
  have place := (h.takeOff_frame i.pos).2.2
  have clear := (h.takeOff_clear i.pos).1
  have vplace (q : Pos) : ((h.takeOff i.pos).updPos i.pos fun r => { r with linkErrors := 0, identity := none }).posAt q =
      if q = i.pos then { h.posAt q with
        supplyLow := false, feedLost := false, linkDegraded := false, identityClash := false, linkErrors := 0
        identity := none } else h.posAt q := by
    rw [State.updPos_posAt, place]
    split <;> rfl
  have vclear (c : Circ) : ((h.takeOff i.pos).updPos i.pos fun r => { r with linkErrors := 0, identity := none }).circAt i.pos c =
      Circuit.clear := clear c
  have vframe : ((h.takeOff i.pos).updPos i.pos fun r => { r with linkErrors := 0, identity := none }) = { s with
      chain := { s.chain with
        positions := ((h.takeOff i.pos).updPos i.pos fun r => { r with linkErrors := 0, identity := none }).chain.positions
        linkRequests := h.chain.linkRequests }
      circuits := (h.takeOff i.pos).circuits, cache := (s.writeBack i.pos).cache, image := faultRemove i.pos s.image } := by
    rw [off, written, frame]
    rfl
  rw [left]
  change State.Exchanges i s (allPos.foldl (State.reviewClash old)
    ((h.takeOff i.pos).updPos i.pos fun r => { r with linkErrors := 0, identity := none }))
  generalize (h.takeOff i.pos).updPos i.pos (fun r => { r with linkErrors := 0, identity := none }) = v at *
  obtain ⟨wframe, wpos, wfaults⟩ := State.reviewedFrom old allPos v
  generalize allPos.foldl (State.reviewClash old) v = w at *
  have vhere := (vplace i.pos).trans (if_pos rfl)
  have vbeside (q : Pos) (hq : q ≠ i.pos) : v.posAt q = h.posAt q := (vplace q).trans (if_neg hq)
  have single : v.clashOver old i.pos = false := by rw [State.clashOver, vhere]; rfl
  have ends (q : Pos) (hq : q ≠ i.pos) : v.clashOver old q = true ↔ s.ClashEnds (· = i.pos) q := by
    refine State.clashOver_exchanged records lost identity (by rw [vhere]) (fun r hr => ?_) (fun r hr gone => ?_) hq
    · rw [vbeside r hr]
      exact chained r hr
    · rw [vbeside r hr, beside r hr]
      split
      · rfl
      · exact ((records r).2.2.2.2.2.2.2 gone).2.2.2.1
  have whole (q : Pos) : w.posAt q = { v.posAt q with identityClash := (w.posAt q).identityClash } := by
    rw [wpos]
    split <;> rfl
  refine ⟨?_, ?_, fun q hq => ?_, fun q hq => ?_, ?_, ?_, fun c => ?_, ?_⟩
  · have kept (ps : Vector Position 6) (fs : List FaultEntry) :
        ({ v with chain := { v.chain with positions := ps }, image := { v.image with faults := fs } } : State) = { s with
          chain := { s.chain with positions := ps, linkRequests := v.chain.linkRequests }
          circuits := v.circuits, cache := v.cache, image := { s.image with faults := fs, overflow := v.image.overflow } } := by
      rw [vframe]
      rfl
    have whole := wframe.trans (kept _ _)
    have links : v.chain.linkRequests = w.chain.linkRequests := by rw [wframe]
    have circuits : v.circuits = w.circuits := by rw [wframe]
    have cache : v.cache = w.cache := by rw [wframe]
    have overflow : v.image.overflow = w.image.overflow := by rw [wframe]
    rw [links, circuits, cache, overflow] at whole
    exact whole
  · rw [wpos, single, vhere, here]
    exact if_neg fun k => Bool.noConfusion k.2
  · rw [whole, vbeside q hq, beside q hq]
    split <;> rfl
  · rw [wpos]
    by_cases marked : v.clashOver old q = true
    · rw [if_pos ⟨mem_allPos q, marked⟩]
      exact ⟨fun k => Bool.noConfusion k, fun k => absurd ((ends q hq).1 marked) k.2⟩
    · rw [if_neg fun k => marked k.2, vbeside q hq, beside q hq, and_iff_left (mt (ends q hq).2 marked)]
      split
      · next gone =>
        have off : (s.posAt q).state.onChain = false := by
          rcases gone.2.2 with gone | gone
          all_goals
            rw [gone]
            rfl
        rw [((records q).2.2.2.2.2.2.2 off).2.2.2.1]
        rfl
      · rfl
  · refine exists_congr fun q => and_congr_right fun hq => ?_
    rw [whole, vbeside q hq]
    dsimp only
    rw [(chained q hq).1]
    exact and_congr_right fun k => by rw [(chained q hq).2 k]
  · rw [wframe, vframe]
  · rw [← vclear c, wframe]
    rfl
  · have image : w.image = { v.image with faults := w.image.faults } := by rw [wframe]
    have removed : v.image = faultRemove i.pos s.image := by rw [vframe]
    rw [image, wfaults, removed]
    dsimp only
    congr 1
    refine List.map_congr_left fun e he => ?_
    have apart : e.key.pos ≠ i.pos := by simpa using (List.mem_filter.1 he).2
    refine if_congr ?_ rfl rfl
    rw [ends _ apart, and_iff_right (mem_allPos _)]

end Sys2Proof.Machine
end

