-- ==== Sys2Proof/Proofs/WarmReturn.lean ====
section
/-! SUPPORT and PROOF. Circuits that are no longer fitted (R33), the warm return and the identity change at it (O46). -/

namespace Sys2Proof.Machine

/-! ### Circuits no longer fitted -/

/-- A circuit that starts again: its condition, baseline and confirmation gone. -/
def Circuit.started (k : Circuit) : Circuit :=
  { k with candidate := none, agreement := 0, last := none, baseline := .none, condition := .unknown }

/-- The old count reaches the circuit and the new one does not. -/
def lostBy (old : Option Nat) (new : Nat) (c : Circ) : Prop := countReaches old c = true ∧ countReaches (some new) c = false

/-- `u` is `s` with the circuits of `l` at `p` that the new count loses started again and their faults healed. -/
structure State.UnfitFrom (p : Pos) (old : Option Nat) (new : Nat) (l : List Circ) (s u : State) : Prop where
  frame : u = { s with circuits := u.circuits, image := { s.image with faults := u.image.faults } }
  lost : ∀ c, c ∈ l → lostBy old new c → u.circAt p c = (s.circAt p c).started
  kept : ∀ c, ¬(c ∈ l ∧ lostBy old new c) → u.circAt p c = s.circAt p c
  healed : ∃ test : FaultEntry → Bool, (∀ e, test e = true ↔ ∃ c ∈ l, lostBy old new c ∧ s.namesAt p c e = true) ∧
    u.image.faults = s.image.faults.map fun e => if test e then { e with active := false } else e

theorem lostBy_iff {old : Option Nat} {new : Nat} {c : Circ} :
    (countReaches old c && !countReaches (some new) c) = true ↔ lostBy old new c := by
  simp [lostBy]

theorem State.unfit_lost {p : Pos} {old : Option Nat} {new : Nat} {c : Circ} (lost : lostBy old new c) (s : State) :
    State.unfit p old new s c = (s.healWhere (s.namesAt p c)).updCirc p c fun k => k.started := by
  rw [← State.healCondition_eq]
  refine (if_pos (lostBy_iff.2 lost)).trans ?_
  unfold State.healCondition
  split <;> rfl

theorem State.unfit_kept {p : Pos} {old : Option Nat} {new : Nat} {c : Circ} (kept : ¬lostBy old new c) (s : State) :
    State.unfit p old new s c = s := if_neg (mt lostBy_iff.1 kept)

theorem State.namesAt_congr {s u : State} {p : Pos} {c : Circ} (same : u.circAt p c = s.circAt p c) (e : FaultEntry) :
    u.namesAt p c e = s.namesAt p c e := by
  rw [Bool.eq_iff_iff, State.namesAt_iff, State.namesAt_iff, same]

theorem State.unfitFrom (p : Pos) (old : Option Nat) (new : Nat) (l : List Circ) (nodup : l.Nodup) (s : State) :
    State.UnfitFrom p old new l s (l.foldl (State.unfit p old new) s) := by
  induction l generalizing s with
  | nil => exact ⟨rfl, fun _ h => (nomatch h), fun _ _ => rfl, fun _ => false,
      fun e => ⟨fun h => (nomatch h), fun ⟨_, h, _⟩ => (nomatch h)⟩, (List.map_id _).symm⟩
  | cons c l ih =>
    obtain ⟨fresh, nodup⟩ := List.nodup_cons.1 nodup
    rw [List.foldl_cons]
    by_cases gone : lostBy old new c
    · obtain ⟨frame, lost, kept, test, names, faults⟩ := ih nodup (State.unfit p old new s c)
      have step := State.unfit_lost (p := p) gone s
      have here : (State.unfit p old new s c).circAt p c = (s.circAt p c).started := by
        rw [step, State.updCirc_circAt, if_pos ⟨rfl, rfl⟩]
        rfl
      have others (d : Circ) (hd : d ≠ c) : (State.unfit p old new s c).circAt p d = s.circAt p d := by
        rw [step, State.updCirc_circAt, if_neg fun h => hd h.2]
        rfl
      have listed : (State.unfit p old new s c).image.faults = s.image.faults.map fun e =>
          if s.namesAt p c e then { e with active := false } else e := by rw [step]; rfl
      have changed : ∃ circuits faults, State.unfit p old new s c =
          { s with circuits := circuits, image := { s.image with faults := faults } } := ⟨_, _, step⟩
      generalize State.unfit p old new s c = t at *
      refine ⟨?_, fun d hd lostD => ?_, fun d hd => ?_, fun e => s.namesAt p c e || test e, fun e => ?_, ?_⟩
      · obtain ⟨circuits, list, ht⟩ := changed
        have kept (cs : Vector (Vector Circuit 12) 6) (fs : List FaultEntry) :
            ({ t with circuits := cs, image := { t.image with faults := fs } } : State) =
              { s with circuits := cs, image := { s.image with faults := fs } } := by rw [ht]
        exact frame.trans (kept _ _)
      · rcases List.mem_cons.1 hd with rfl | hd
        · rw [kept d fun h => fresh h.1, here]
        · rw [lost d hd lostD, others d fun e => fresh (e ▸ hd)]
      · have apart : d ≠ c := fun e => hd ⟨e ▸ List.mem_cons_self, e ▸ gone⟩
        rw [kept d fun h => hd ⟨List.mem_cons_of_mem _ h.1, h.2⟩, others d apart]
      · simp only [Bool.or_eq_true, names, List.mem_cons, or_and_right, exists_or, exists_eq_left]
        refine or_congr ⟨fun h => ⟨gone, h⟩, And.right⟩ (exists_congr fun d => and_congr_right fun hd => ?_)
        rw [State.namesAt_congr (others d fun e => fresh (e ▸ hd))]
      · have blind (e : FaultEntry) : test { e with active := false } = test e := by
          rw [Bool.eq_iff_iff, names, names]
          rfl
        rw [faults, listed]
        exact congrArg (fun u : State => u.image.faults) (s.healWhere_healWhere (a := s.namesAt p c) blind)
    · rw [State.unfit_kept gone]
      obtain ⟨frame, lost, kept, test, names, faults⟩ := ih nodup s
      refine ⟨frame, fun d hd lostD => ?_, fun d hd => ?_, test, fun e => ?_, faults⟩
      · exact lost d ((List.mem_cons.1 hd).resolve_left fun e => gone (e ▸ lostD)) lostD
      · exact kept d fun h => hd ⟨List.mem_cons_of_mem _ h.1, h.2⟩
      · simp only [names, List.mem_cons, or_and_right, exists_or, exists_eq_left]
        exact (or_iff_right fun h => gone h.1).symm

theorem lostBy_unfits {s : State} {p : Pos} {new : Nat} {c : Circ} : lostBy (s.posAt p).circuitCount new c ↔ s.Unfits p new c := by
  unfold lostBy State.Unfits countReaches
  cases (s.posAt p).circuitCount with
  | none => simp
  | some n => simp

/-! ### The warm return (R33) -/

/-- The LOST position back ACTIVE, its circuits recounted, before the RESYNC is asked for. -/
def State.returned (s : State) (i : IdentFields) : State :=
  (((s.heard i.pos i.load).addFarEnd i.pos i.farEnd).recount i.pos i.count).updPos i.pos fun r =>
    { r with state := .active, lostSince := none, queryUntil := none }

theorem State.warmReturn_eq (s : State) (i : IdentFields) :
    s.warmReturn i = ((s.returned i).requestResync).probeNext i.pos := rfl

/-- `w` is `s` with the LOST position of `i` back ACTIVE. -/
structure State.Returns (i : IdentFields) (s w : State) : Prop where
  frame : w = { s with
    chain := { s.chain with positions := w.chain.positions, linkRequests := w.chain.linkRequests }
    circuits := w.circuits, image := { s.imageAfterErrors i.pos i.farEnd with faults := w.image.faults } }
  here : w.posAt i.pos = { s.heardRecord i.pos i.load i.farEnd with
    state := .active, circuitCount := some i.count, lostSince := none, queryUntil := none }
  state : ∀ q, q ≠ i.pos → (w.posAt q).state = if s.ProbeEnds i.pos i.load q then .absent else (s.posAt q).state
  circ : ∀ c, w.circAt i.pos c = if s.Unfits i.pos i.count c then (s.circAt i.pos c).started else s.circAt i.pos c
  faults : w.image.faults = (s.imageAfterErrors i.pos i.farEnd).faults.map fun e =>
    if e.key.pos = i.pos ∧ ∃ c : Circ, e.key.circ = some c ∧ s.Unfits i.pos i.count c ∧
      (s.circAt i.pos c).condition.fault = some e.key.kind then { e with active := false } else e

theorem State.heard_lost {s : State} {p q : Pos} {load : Bool} (lost : (s.posAt p).state = .lost) :
    (if s.ProbeBegins p load q then { s.posAt q with state := .probing, probeAttempts := 0 }
      else if s.ProbeEnds p load q then Position.absent (s.posAt q).counters else s.posAt q : Position).state =
    if s.ProbeEnds p load q then .absent else (s.posAt q).state := by
  have noBegin : ¬s.ProbeBegins p load q := fun h => by
    have active := h.2.2.1
    rw [lost] at active
    cases active
  rw [if_neg noBegin]
  split <;> rfl

theorem State.returns {s : State} {i : IdentFields} (shape : s.ChainShape) (lost : (s.posAt i.pos).state = .lost) :
    State.Returns i s (s.returned i) := by
  obtain ⟨frame, here, others, -, -, -⟩ := State.heardFar shape i.pos i.load i.farEnd
  unfold State.returned
  rw [State.recount_eq]
  generalize (s.heard i.pos i.load).addFarEnd i.pos i.farEnd = a at *
  have count : (a.posAt i.pos).circuitCount = (s.posAt i.pos).circuitCount := by rw [here]; rfl
  have circA (c : Circ) : a.circAt i.pos c = s.circAt i.pos c := by rw [frame]; rfl
  have image : a.image = s.imageAfterErrors i.pos i.farEnd := by rw [frame]
  rw [count]
  obtain ⟨bframe, gone, kept, test, names, faults⟩ :=
    State.unfitFrom i.pos (s.posAt i.pos).circuitCount i.count allCirc (by decide) a
  generalize allCirc.foldl (State.unfit i.pos (s.posAt i.pos).circuitCount i.count) a = b at *
  rw [State.updPos_updPos]
  have bpos (q : Pos) : b.posAt q = a.posAt q := by rw [bframe]; rfl
  refine ⟨?_, ?_, fun q hq => ?_, fun c => ?_, ?_⟩
  · have whole (ps : Vector Position 6) : ({ b with chain := { b.chain with positions := ps } } : State) = { s with
        chain := { s.chain with positions := ps, linkRequests := b.chain.linkRequests }
        circuits := b.circuits, image := { s.imageAfterErrors i.pos i.farEnd with faults := b.image.faults } } := by
      rw [bframe, frame]
    exact whole _
  · refine (State.updPos_posAt_same _ _ _).trans ?_
    rw [bpos, here]
  · refine (congrArg Position.state ((State.updPos_posAt_ne _ _ _ _ hq).trans ((bpos q).trans (others q hq)))).trans ?_
    exact State.heard_lost lost
  · rw [← circA]
    by_cases unfits : s.Unfits i.pos i.count c
    · rw [if_pos unfits]
      exact gone c (mem_allCirc c) (lostBy_unfits.2 unfits)
    · rw [if_neg unfits]
      exact kept c fun h => unfits (lostBy_unfits.1 h.2)
  · refine faults.trans ?_
    rw [image]
    refine List.map_congr_left fun e _ => if_congr ?_ rfl rfl
    rw [names]
    constructor
    · rintro ⟨c, -, lostC, named⟩
      obtain ⟨k, fault, key⟩ := (a.namesAt_iff i.pos c e).1 named
      rw [circA] at fault
      rw [key]
      exact ⟨rfl, c, rfl, lostBy_unfits.1 lostC, fault⟩
    · rintro ⟨pos, c, circ, unfits, fault⟩
      refine ⟨c, mem_allCirc c, lostBy_unfits.2 unfits, (a.namesAt_iff i.pos c e).2 ⟨e.key.kind, ?_, ?_⟩⟩
      · rw [circA]
        exact fault
      · rw [← pos, ← circ]

/-! ### An IDENT from a LOST position -/

theorem State.restored_congr {s u : State} {i : IdentFields} (tables : u.tables = s.tables)
    (held : u.HeldByAnother i.pos i.identity ↔ s.HeldByAnother i.pos i.identity) (cache : List CacheEntry) (c : Circ) :
    u.restored cache i c = s.restored cache i c := by
  have row : u.rowAt i.pos c = s.rowAt i.pos c := by rw [State.rowAt, State.rowAt, tables]
  have profile : u.profileAt i.pos c = s.profileAt i.pos c := by simp only [State.profileAt, row, tables]
  unfold State.restored
  simp only [held, row, profile]

theorem State.takeIdent_return {s : State} {i : IdentFields} (lost : (s.posAt i.pos).state = .lost)
    (window : (s.posAt i.pos).queryUntil ≠ none) (same : (s.posAt i.pos).identity = some i.identity) :
    s.takeIdent i = s.warmReturn i := by
  unfold State.takeIdent
  rw [lost]
  dsimp only
  rw [if_pos (Option.isSome_iff_ne_none.2 window), if_pos same]

theorem State.takeIdent_outside {s : State} {i : IdentFields} (lost : (s.posAt i.pos).state = .lost)
    (outside : (s.posAt i.pos).queryUntil = none) :
    s.takeIdent i = ((s.heard i.pos i.load).addFarEnd i.pos i.farEnd).askQuery i.pos := by
  unfold State.takeIdent
  rw [lost]
  dsimp only
  rw [if_neg (by rw [outside]; exact Bool.false_ne_true)]

theorem State.askQuery_leaves (s : State) (p : Pos) : ∃ ls, s.askQuery p = { s with chain := { s.chain with linkRequests := ls } } ∧
    ((s.posAt p).state = .lost → (s.posAt p).queryUntil = none → .query p ∈ ls) := by
  unfold State.askQuery
  split
  · exact ⟨_, rfl, fun _ _ => List.mem_append_right _ (List.mem_singleton_self _)⟩
  · next asked =>
    refine ⟨s.chain.linkRequests, rfl, fun lost outside => ?_⟩
    simpa [lost, outside] using asked

/-- `u` is `s` but for its chain, queue, circuits, cache and Image Builder. -/
def State.LeavesPort (s u : State) : Prop :=
  ∃ chain queue circuits cache image,
    u = { s with chain := chain, queue := queue, circuits := circuits, cache := cache, image := image }

theorem State.LeavesPort.recompose {s u : State} (h : s.LeavesPort u) : u.recompose.now = s.now ∧
    u.recompose.tables = s.tables ∧ u.recompose.checks = s.checks ∧ u.recompose.store = s.store ∧
    u.recompose.pending = s.pending ∧ s.port.SameInputs u.recompose.port ∧ u.recompose.port.request = s.port.request := by
  have port := State.PortFrom.recompose u
  obtain ⟨_, _, _, _, _, hu⟩ := h
  have same : s.port = u.port := by rw [hu]
  refine ⟨port.now.trans ?_, port.tables.trans ?_, u.recompose_checks.trans ?_, port.store.trans ?_, port.pending.trans ?_,
    same ▸ port.inputs, same ▸ port.request⟩
  all_goals rw [hu]

/-- What a position that answers its QUERY leaves beside its own record, whatever its identity (R24, R59). -/
structure State.Rejoins (i : IdentFields) (s u : State) : Prop where
  leaves : s.LeavesPort u
  state : ∀ q, q ≠ i.pos → (u.posAt q).state =
    if q.val = i.pos.val + 1 ∧ i.load = true ∧ (s.posAt q).state = .absent then .probing
    else if q.val = i.pos.val + 1 ∧ i.load = false ∧ ((s.posAt q).state = .probing ∨ (s.posAt q).state = .passive) then .absent
    else (s.posAt q).state
  requests : ∀ q : Pos, q.val = i.pos.val + 1 → i.load = true → (s.posAt q).state = .absent → .enum q ∈ u.chain.linkRequests
  resyncs : s.Resyncs u

/-- A place's state after the hearing of a LOST position and the probing that its return begins. -/
theorem State.rejoined_state {s : State} {p q : Pos} {load : Bool} {x : PosState}
    (hx : x = if s.ProbeEnds p load q then .absent else (s.posAt q).state) :
    (if q.val = p.val + 1 ∧ load = true ∧ x = .absent then .probing else x) =
    if q.val = p.val + 1 ∧ load = true ∧ (s.posAt q).state = .absent then .probing
    else if q.val = p.val + 1 ∧ load = false ∧ ((s.posAt q).state = .probing ∨ (s.posAt q).state = .passive) then .absent
    else (s.posAt q).state := by
  cases load with
  | true =>
    have stays : ¬s.ProbeEnds p true q := fun h => Bool.noConfusion h.2.1
    rw [if_neg stays] at hx
    rw [hx]
    simp
  | false =>
    rw [if_neg fun h => Bool.noConfusion h.2.1, if_neg fun h => Bool.noConfusion h.2.1]
    exact hx

section
variable {s : State} {i : IdentFields} (sound : s.ChainSound) (lost : (s.posAt i.pos).state = .lost)
include sound lost

theorem State.rejoins_return : State.Rejoins i s (s.warmReturn i) := by
  obtain ⟨frame, here, state, -, -⟩ := State.returns sound.1 lost
  rw [State.warmReturn_eq]
  generalize s.returned i = w at *
  have same (q : Pos) := w.requestResync_posAt q
  have resyncs := w.resyncs
  have cframe := w.requestResync_frame
  generalize w.requestResync = c at *
  obtain ⟨dframe, -, others, requests⟩ := c.nextProbed i.pos
  generalize c.probeNext i.pos = d at *
  have active : (c.posAt i.pos).state = .active := by rw [same, here]
  have load : (c.posAt i.pos).downstreamLoad = i.load := by rw [same, here]; rfl
  have begins (q : Pos) : c.ProbeBegins i.pos (c.posAt i.pos).downstreamLoad q ↔
      q.val = i.pos.val + 1 ∧ i.load = true ∧ (w.posAt q).state = .absent := by
    rw [State.ProbeBegins, load, active, same]
    exact and_congr_right fun _ => and_congr_right fun _ => and_iff_right rfl
  refine ⟨?_, fun q hq => ?_, fun q next loaded absent => ?_, ?_⟩
  · rw [dframe, cframe, frame]
    exact ⟨_, _, _, _, _, rfl⟩
  · have after := others q hq
    simp only [begins] at after
    simp only [same] at after
    rw [after, apply_ite Position.state]
    exact State.rejoined_state (state q hq)
  · have apart : q ≠ i.pos := fun e => by rw [e] at next; omega
    refine (requests _).2 (.inr ⟨q, rfl, (begins q).2 ⟨next, loaded, ?_⟩⟩)
    rw [state q apart, if_neg fun h => by rw [loaded] at h; exact Bool.noConfusion h.2.1]
    exact absent
  · have image : w.image.untracked = s.image.untracked := by
      rw [frame, s.imageAfterErrors_frame]
    refine resyncs.of_eq ?_ ?_ image.symm ?_ ?_ ?_ ?_ ?_
    iterate 4 rw [frame]
    iterate 3 rw [dframe]

theorem State.rejoins_change : State.Rejoins i s (s.identityChange i) := by
  obtain ⟨frame, -, state, -, -, -, -, -⟩ := State.exchanges sound lost
  rw [State.identityChange_eq]
  generalize s.exchanged i = w at *
  obtain ⟨uframe, -, others, requests, -, resyncs, -, -, -⟩ := State.accepts w i
  generalize w.acceptIdent i = u at *
  refine ⟨?_, fun q hq => ?_, fun q next loaded absent => ?_, ?_⟩
  · rw [uframe, frame]
    exact ⟨_, _, _, _, _, rfl⟩
  · rw [others q hq, apply_ite Position.state]
    exact State.rejoined_state (state q hq)
  · have apart : q ≠ i.pos := fun e => by rw [e] at next; omega
    refine (requests _).2 (.inr ⟨q, rfl, next, loaded, ?_⟩)
    rw [state q apart, if_neg fun h => by rw [loaded] at h; exact Bool.noConfusion h.2.1]
    exact absent
  · refine resyncs.of_eq ?_ ?_ ?_ ?_ ?_ rfl rfl rfl
    all_goals rw [frame]

/-- The position back with the identity held, its circuits and its faults (R33). -/
theorem State.warmReturn_own : (s.warmReturn i).cache = s.cache ∧
    (s.warmReturn i).posAt i.pos = { s.heardRecord i.pos i.load i.farEnd with
      state := .active, circuitCount := some i.count, lostSince := none, queryUntil := none } ∧
    (∀ c : Circ, (s.warmReturn i).circAt i.pos c =
      if s.Unfits i.pos i.count c then (s.circAt i.pos c).started else s.circAt i.pos c) ∧
    (s.warmReturn i).image.faults = ((s.imageAfterErrors i.pos i.farEnd).faults.map fun e =>
      if e.key.pos = i.pos ∧ ∃ c : Circ, e.key.circ = some c ∧ s.Unfits i.pos i.count c ∧
        (s.circAt i.pos c).condition.fault = some e.key.kind then { e with active := false } else e) ∧
    (s.warmReturn i).image.overflow = (s.imageAfterErrors i.pos i.farEnd).overflow ∧
    (s.warmReturn i).image.sequence = (s.imageAfterErrors i.pos i.farEnd).sequence := by
  obtain ⟨frame, here, -, circ, faults⟩ := State.returns sound.1 lost
  rw [State.warmReturn_eq]
  generalize s.returned i = w at *
  have same := w.requestResync_posAt i.pos
  have cframe := w.requestResync_frame
  generalize w.requestResync = c at *
  obtain ⟨dframe, dhere, -, -⟩ := c.nextProbed i.pos
  generalize c.probeNext i.pos = d at *
  have circuits : d.circuits = w.circuits := by rw [dframe, cframe]
  have image : d.image = { w.image with untracked := c.image.untracked } := by rw [dframe]; exact congrArg State.image cframe
  have kept : w.image.overflow = (s.imageAfterErrors i.pos i.farEnd).overflow ∧
      w.image.sequence = (s.imageAfterErrors i.pos i.farEnd).sequence := by
    rw [frame]
    exact ⟨rfl, rfl⟩
  refine ⟨?_, dhere.trans (same.trans here), fun k => ?_, ?_, ?_, ?_⟩
  · rw [dframe, cframe, frame]
  · exact (congrArg (fun v : Vector (Vector Circuit 12) 6 => v[i.pos][k]) circuits).trans (circ k)
  · rw [image]
    exact faults
  · rw [image]
    exact kept.1
  · rw [image]
    exact kept.2

/-- The arriving unit's record, faults, the others' marks and its circuits (R34). -/
theorem State.identityChange_own :
    let degraded := i.farEnd ≠ 0 ∧ s.settings.linkThreshold < min 65535 i.farEnd
    let gone := faultRemove i.pos s.image
    let healed : ImageBuilder := { gone with faults := gone.faults.map fun e =>
      if e.key.circ = none ∧ e.key.kind = .identityClash ∧ s.ClashEnds (· = i.pos) e.key.pos
        then { e with active := false } else e }
    let linked := if degraded then faultAdd ⟨i.pos, none, .linkDegraded⟩ healed else healed
    let ib := if s.HeldByAnother i.pos i.identity then faultAdd ⟨i.pos, none, .identityClash⟩ linked else linked
    (s.identityChange i).posAt i.pos = { s.posAt i.pos with
      state := .active
      identity := some i.identity
      circuitCount := some i.count
      downstreamLoad := i.load
      lastHeard := some s.now
      lostSince := none
      queryUntil := none
      supplyLow := false
      feedLost := false
      linkDegraded := decide degraded
      identityClash := decide (s.HeldByAnother i.pos i.identity)
      linkErrors := min 65535 i.farEnd
      counters := { (s.posAt i.pos).counters with
        linkErrorsTotal := min 65535 ((s.posAt i.pos).counters.linkErrorsTotal + i.farEnd) } } ∧
    ((s.identityChange i).image.faults = ib.faults ∧ (s.identityChange i).image.overflow = ib.overflow ∧
      (s.identityChange i).image.sequence = ib.sequence) ∧
    (∀ q : Pos, q ≠ i.pos → (((s.identityChange i).posAt q).identityClash = true ↔
      (s.posAt q).identityClash = true ∧ ¬s.ClashEnds (· = i.pos) q)) ∧
    ∀ c : Circ, (s.identityChange i).circAt i.pos c = { Circuit.clear with
      baseline := s.restored (s.writeBack i.pos).cache i c } := by
  obtain ⟨frame, here, -, clash, held, cache, clear, image⟩ := State.exchanges sound lost
  have timeout : (s.posAt i.pos).enumTimeout = none := by
    have running := (sound.2.2.1.2 i.pos).2.2.1
    rw [lost] at running
    exact Option.not_isSome_iff_eq_none.1 fun h => PosState.noConfusion (running h)
  rw [State.identityChange_eq]
  generalize s.exchanged i = w at *
  obtain ⟨-, uhere, others, -, -, -, -, circuits, faults⟩ := State.accepts w i
  generalize w.acceptIdent i = u at *
  have degraded : w.DegradedBy i.pos i.farEnd ↔ i.farEnd ≠ 0 ∧ s.settings.linkThreshold < min 65535 i.farEnd := by
    have settings : w.settings = s.settings := by rw [frame]; rfl
    rw [State.DegradedBy, here, settings]
    simp
  have linked : w.imageAfterErrors i.pos i.farEnd =
      if i.farEnd ≠ 0 ∧ s.settings.linkThreshold < min 65535 i.farEnd then
        faultAdd ⟨i.pos, none, .linkDegraded⟩ w.image else w.image := by
    unfold State.imageAfterErrors
    refine if_congr ?_ rfl rfl
    rw [degraded, here]
    exact and_iff_right rfl
  refine ⟨?_, ?_, fun q hq => ?_, fun c => ?_⟩
  · have now : w.now = s.now := by rw [frame]
    refine uhere.trans ?_
    dsimp only
    congr 1
    · rw [now]
    · rw [here]
    · rw [here]
    · rw [here]
    · exact decide_eq_decide.2 degraded
    · exact decide_eq_decide.2 held
    · rw [here, Nat.zero_add]
    · rw [here]
    · exact timeout.symm
  · simp only [held, linked, image] at faults
    exact faults
  · rw [others q hq]
    split
    · exact clash q hq
    · exact clash q hq
  · rw [circuits c (clear c), cache, State.restored_congr (by rw [frame]) held]

end

/-- Outside the QUERY window an IDENT is discarded after its hearing, and a QUERY is pending (R48). -/
theorem State.takeIdent_heard {s : State} {i : IdentFields} (shape : s.ChainShape) (lost : (s.posAt i.pos).state = .lost)
    (outside : (s.posAt i.pos).queryUntil = none) : s.LeavesPort (s.takeIdent i) ∧
    (∀ q, q ≠ i.pos → ((s.takeIdent i).posAt q).state =
      if s.ProbeEnds i.pos i.load q then .absent else (s.posAt q).state) ∧
    (s.takeIdent i).posAt i.pos = s.heardRecord i.pos i.load i.farEnd ∧ .query i.pos ∈ (s.takeIdent i).chain.linkRequests ∧
    (s.takeIdent i).queue = s.queue ∧ (s.takeIdent i).circuits = s.circuits ∧ (s.takeIdent i).cache = s.cache ∧
    (s.takeIdent i).chain.counters = s.chain.counters ∧ (s.takeIdent i).image = s.imageAfterErrors i.pos i.farEnd := by
  obtain ⟨frame, here, others, -, -, -⟩ := State.heardFar shape i.pos i.load i.farEnd
  rw [State.takeIdent_outside lost outside]
  generalize (s.heard i.pos i.load).addFarEnd i.pos i.farEnd = a at *
  obtain ⟨ls, asked, pending⟩ := a.askQuery_leaves i.pos
  have place (q : Pos) : (a.askQuery i.pos).posAt q = a.posAt q := by rw [asked]; rfl
  refine ⟨?_, fun q hq => ?_, (place _).trans here, ?_, ?_⟩
  · rw [asked, frame]
    exact ⟨_, _, _, _, _, rfl⟩
  · rw [place, others q hq]
    exact State.heard_lost lost
  · rw [asked]
    exact pending (by rw [here]; exact lost) (by rw [here]; exact outside)
  · rw [asked, frame]
    exact ⟨rfl, rfl, rfl, rfl, rfl⟩

/-- Settles O46: the identity held decides between the return and the exchange, each followed by the RESYNC and the probing;
outside the window there is the hearing alone. -/
theorem lostPositionReturns : Obligations.LostPositionReturns := by
  unfold Obligations.LostPositionReturns
  intro s t ab i parsed sound lost held
  obtain ⟨l, busy, line, run⟩ := exec_ident_held parsed held
  have soundV : (s.updChain fun ch => { ch with line := l }).ChainSound := sound
  refine ⟨_, run, ?_⟩
  by_cases outside : (s.posAt i.pos).queryUntil = none
  · obtain ⟨leaves, state, here, asks, queue, circuits, cache, counters, image⟩ :=
      State.takeIdent_heard (s := s.updChain fun ch => { ch with line := l }) sound.1 lost outside
    generalize State.takeIdent _ i = u at *
    obtain ⟨now, tables, checks, store, pending, inputs, request⟩ := leaves.recompose
    have records := u.recompose_records
    rw [image] at records
    refine ⟨now, tables, checks, store, pending, inputs, request, fun q hq => ?_, fun _ => ?_, fun window => absurd outside window⟩
    · rw [State.recompose_posAt, if_neg fun h => h.2.2.2 outside]
      exact state q hq
    · rw [State.recompose_posAt, State.recompose_chain, State.recompose_queue, State.recompose_circuits, State.recompose_cache]
      exact ⟨here, asks, queue, circuits, cache, counters, records⟩
  · by_cases same : (s.posAt i.pos).identity = some i.identity
    · have own := State.warmReturn_own soundV lost
      have rejoins := State.rejoins_return soundV lost
      rw [State.takeIdent_return (s := s.updChain fun ch => { ch with line := l }) lost outside same]
      generalize State.warmReturn _ i = u at *
      obtain ⟨leaves, state, requests, tracked, diverted⟩ := rejoins
      obtain ⟨now, tables, checks, store, pending, inputs, request⟩ := leaves.recompose
      obtain ⟨-, untracked, listed, overflow, sequence, -, -, -⟩ := u.recompose_records
      refine ⟨now, tables, checks, store, pending, inputs, request, fun q hq => ?_, fun out => absurd out outside, fun window => ?_⟩
      · simp only [State.recompose_posAt, outside, ne_eq, not_false_eq_true, and_true]
        exact state q hq
      · simp only [State.recompose_posAt, State.recompose_chain, State.recompose_queue, State.recompose_circAt,
          State.recompose_cache, untracked, listed, overflow, sequence]
        exact ⟨requests, tracked, diverted, fun _ => own, fun other => absurd same other⟩
    · have own := State.identityChange_own soundV lost
      have rejoins := State.rejoins_change soundV lost
      rw [State.takeIdent_change (s := s.updChain fun ch => { ch with line := l }) lost outside same]
      generalize State.identityChange _ i = u at *
      obtain ⟨leaves, state, requests, tracked, diverted⟩ := rejoins
      obtain ⟨now, tables, checks, store, pending, inputs, request⟩ := leaves.recompose
      obtain ⟨-, untracked, listed, overflow, sequence, -, -, -⟩ := u.recompose_records
      have written : ((s.updChain fun ch => { ch with line := l }).writeBack i.pos).cache = (s.writeBack i.pos).cache :=
        State.writeBack_cache_congr i.pos rfl rfl rfl rfl
      rw [written] at own
      obtain ⟨record, faults, marks, circuits⟩ := own
      refine ⟨now, tables, checks, store, pending, inputs, request, fun q hq => ?_, fun out => absurd out outside, fun window => ?_⟩
      · simp only [State.recompose_posAt, outside, ne_eq, not_false_eq_true, and_true]
        exact state q hq
      · simp only [State.recompose_posAt, State.recompose_chain, State.recompose_queue, State.recompose_circAt,
          State.recompose_cache, untracked, listed, overflow, sequence]
        exact ⟨requests, tracked, diverted, fun held => absurd held same, fun _ => ⟨⟨record, faults⟩, marks, circuits⟩⟩

end Sys2Proof.Machine
end

