-- ==== Sys2Proof/Proofs/Reports.lean ====
section
/-! SUPPORT and PROOF. A REPORT taken: its hearing, its match with a live entry, and the pick after it (O44). -/

namespace Sys2Proof.Machine

/-! ### The hearing (R46, R49), whatever the chain -/

theorem Position.FlagsApart.fields {r r' : Position} (h : r.FlagsApart r') : r'.state = r.state ∧ r'.lastHeard = r.lastHeard ∧
    r'.downstreamLoad = r.downstreamLoad ∧ r'.identity = r.identity ∧ r'.lostSince = r.lostSince ∧ r'.linkErrors = r.linkErrors ∧
    r'.linkDegraded = r.linkDegraded ∧ r'.counters = r.counters ∧ r'.queryUntil = r.queryUntil := by
  rw [h]
  exact ⟨rfl, rfl, rfl, rfl, rfl, rfl, rfl, rfl, rfl⟩

theorem State.heard_own (s : State) (p : Pos) (load : Bool) :
    Position.FlagsApart { s.posAt p with lastHeard := some s.now, downstreamLoad := load } ((s.heard p load).posAt p) := by
  have record : (s.heardAt p load).posAt p = { s.posAt p with lastHeard := some s.now, downstreamLoad := load } :=
    State.updPos_posAt_same _ _ _
  rw [← record, State.heard_split]
  split
  · rw [State.probeNext_posAt]
    exact .refl _
  · split
    · next q hq =>
      split
      · refine State.foldl_goAbsent_others _ _ fun listed => ?_
        have above : q ≤ p := by simpa using (List.mem_filter.1 listed).2
        have next := nextPos_eq_some hq
        rw [Fin.le_def] at above
        omega
      · exact .refl _
    · exact .refl _

/-- The record of a position after its REPORT (R46, R49). -/
def State.reportRecord (s : State) (r : ReportFields) : Position :=
  { s.heardRecord r.pos r.load r.farEnd with
    counters := { (s.heardRecord r.pos r.load r.farEnd).counters with
      superseded := if r.superseded = true then min 65535 ((s.posAt r.pos).counters.superseded + 1)
        else (s.posAt r.pos).counters.superseded } }

/-- The superseded answer counted, when the REPORT's flag says so. -/
def State.supersededCounted (s : State) (r : ReportFields) : State :=
  s.when r.superseded fun s => s.updPos r.pos fun k =>
    { k with counters := { k.counters with superseded := bump k.counters.superseded 1 } }

theorem State.reportHeard_eq (s : State) (r : ReportFields) : s.reportHeard r =
    (((s.heard r.pos r.load).addFarEnd r.pos r.farEnd).supersededCounted r).askQuery r.pos := rfl

theorem State.supersededCounted_leaves (s : State) (r : ReportFields) :
    (∃ ps, s.supersededCounted r = { s with chain := { s.chain with positions := ps } }) ∧
    (∀ q, q ≠ r.pos → (s.supersededCounted r).posAt q = s.posAt q) ∧
    (s.supersededCounted r).posAt r.pos = { s.posAt r.pos with counters := { (s.posAt r.pos).counters with
      superseded := if r.superseded = true then min 65535 ((s.posAt r.pos).counters.superseded + 1)
        else (s.posAt r.pos).counters.superseded } } := by
  unfold State.supersededCounted State.when
  cases r.superseded with
  | true => exact ⟨⟨_, rfl⟩, fun q hq => State.updPos_posAt_ne _ _ _ _ hq, State.updPos_posAt_same _ _ _⟩
  | false => exact ⟨⟨_, rfl⟩, fun _ _ => rfl, rfl⟩

/-- A REPORT's own record after its hearing, whatever the chain. -/
theorem State.reportHeard_own (s : State) (r : ReportFields) :
    (s.reportRecord r).FlagsApart ((s.reportHeard r).posAt r.pos) := by
  rw [State.reportHeard_eq]
  have own := s.heard_own r.pos r.load
  have tables := (State.ChainFrom.heard s r.pos r.load).tables
  generalize s.heard r.pos r.load = a at *
  obtain ⟨-, -, -, -, -, errors, degraded, -, -⟩ := own.fields
  have test := State.degradedBy_congr tables degraded errors r.farEnd
  have counted : (a.addFarEnd r.pos r.farEnd).posAt r.pos = a.farEndRecord r.pos r.farEnd := by
    rw [State.addFarEnd_eq]
    exact State.updPos_posAt_same _ _ _
  rw [State.farEndRecord_of rfl test] at counted
  generalize a.addFarEnd r.pos r.farEnd = b at *
  obtain ⟨-, -, here⟩ := b.supersededCounted_leaves r
  generalize b.supersededCounted r = c at *
  obtain ⟨ls, asked, -⟩ := c.askQuery_leaves r.pos
  have last : (c.askQuery r.pos).posAt r.pos = c.posAt r.pos := by rw [asked]; rfl
  rw [last, here, counted]
  unfold Position.FlagsApart at own ⊢
  rw [own]
  rfl

/-- A LOST position's REPORT leaves a QUERY pending (R32). -/
theorem State.reportHeard_asks {s : State} {r : ReportFields} (lost : (s.posAt r.pos).state = .lost)
    (outside : (s.posAt r.pos).queryUntil = none) : .query r.pos ∈ (s.reportHeard r).chain.linkRequests := by
  obtain ⟨state, -, -, -, -, -, -, -, window⟩ := (s.reportHeard_own r).fields
  have heard := s.reportHeard_eq r
  rw [heard] at state window ⊢
  generalize ((s.heard r.pos r.load).addFarEnd r.pos r.farEnd).supersededCounted r = c at *
  obtain ⟨ls, asked, pending⟩ := c.askQuery_leaves r.pos
  have last : (c.askQuery r.pos).posAt r.pos = c.posAt r.pos := by rw [asked]; rfl
  rw [last] at state window
  rw [asked]
  exact pending (state.trans lost) (window.trans outside)

/-! ### The match (R47) -/

theorem State.matchReport_leaves (s : State) (r : ReportFields) : (s.matchReport r).chain.linkRequests = s.chain.linkRequests ∧
    ∀ q, (s.matchReport r).posAt q = { s.posAt q with
      supplyLow := ((s.matchReport r).posAt q).supplyLow, feedLost := ((s.matchReport r).posAt q).feedLost } := by
  unfold State.matchReport
  split
  · split
    · have retired := State.RetiredFrom.retire (s.updEntry r.tag fun e => e.stash ⟨r.pos, r.supply, r.superseded, r.readings⟩)
      exact ⟨by rw [retired.chain]; rfl, retired.pos⟩
    · exact ⟨rfl, fun _ => rfl⟩
  · exact ⟨rfl, fun _ => rfl⟩

end Sys2Proof.Machine
end

