-- ==== Sys2Proof/Proofs/PickEvolves.lean ====
section
/-! SUPPORT. The pick rewrites WAITING entries alone, and retires from the head (R39, R64, R65, R69). -/

namespace Sys2Proof.Machine

/-- The entries of `u` are those of `s` with WAITING ones rewritten under their tags, less those retired at the head. -/
def State.Evolves (s u : State) : Prop := ∃ f : Entry → Entry, (∀ y, y.state ≠ .waiting → f y = y) ∧ (∀ y, (f y).tag = y.tag) ∧
  Retires (s.queue.entries.map f) u.queue.entries

theorem State.Evolves.of_retires {s u : State} (h : Retires s.queue.entries u.queue.entries) : s.Evolves u :=
  ⟨id, fun _ _ => rfl, fun _ => rfl, by rwa [List.map_id]⟩

theorem State.Evolves.trans {s t u : State} (h : s.Evolves t) (k : t.Evolves u) : s.Evolves u := by
  obtain ⟨f, keeps, tags, retires⟩ := h
  obtain ⟨g, keeps', tags', retires'⟩ := k
  refine ⟨g ∘ f, fun y hy => ?_, fun y => (tags' _).trans (tags y), ?_⟩
  · rw [Function.comp, keeps y hy, keeps' y hy]
  · rw [← List.map_map]
    refine (retires.map fun e final => ?_).trans retires'
    rwa [keeps' e fun waiting => by rw [waiting] at final; cases final]

/-- The WAITING entry of one tag rewritten, before retirements. -/
theorem State.Evolves.entry {s u : State} {tag : Nat} {g : Entry → Entry}
    (waiting : ∀ y ∈ s.queue.entries, y.tag = tag → y.state = .waiting) (tags : ∀ y, (g y).tag = y.tag)
    (retires : Retires (s.queue.entries.map fun y => if y.tag == tag then g y else y) u.queue.entries) : s.Evolves u := by
  refine ⟨fun y => if y.tag = tag ∧ y.state = .waiting then g y else y, fun y hy => if_neg fun h => hy h.2, fun y => ?_, ?_⟩
  · dsimp only
    split
    · exact tags y
    · rfl
  · have same : (s.queue.entries.map fun y => if y.tag = tag ∧ y.state = .waiting then g y else y) =
        s.queue.entries.map fun y => if y.tag == tag then g y else y := List.map_congr_left fun y hy => by
      by_cases ht : y.tag = tag
      · rw [if_pos ⟨ht, waiting y hy ht⟩, if_pos (beq_iff_eq.2 ht)]
      · rw [if_neg fun h => ht h.1, if_neg fun h => ht (beq_iff_eq.1 h)]
    rw [same]
    exact retires

/-- An entry that does not wait stands, if it is not final or something that is not final and does not wait is before it. -/
theorem State.Evolves.stands {s u : State} (h : s.Evolves u) {e : Entry} (he : e ∈ s.queue.entries) (sent : e.state ≠ .waiting)
    (live : e.state.final = false ∨ ∃ y rest, s.queue.entries = y :: rest ∧ y.state = .pending) : e ∈ u.queue.entries := by
  obtain ⟨f, keeps, -, retires⟩ := h
  have mem : e ∈ s.queue.entries.map f := List.mem_map.2 ⟨e, he, keeps e sent⟩
  rcases live with live | ⟨y, rest, head, pending⟩
  · exact retires.live mem live
  · rw [head, List.map_cons, keeps y (by rw [pending]; decide)] at retires mem
    obtain ⟨gone, split, final⟩ := retires
    cases gone with
    | nil => rwa [← List.nil_append u.queue.entries, ← split]
    | cons z gone =>
      have first : y = z := (List.cons.inj split).1
      have done := final z (by simp)
      rw [← first, pending] at done
      cases done

theorem State.Evolves.tags_sublist {s u : State} (h : s.Evolves u) :
    (u.queue.entries.map (·.tag)).Sublist (s.queue.entries.map (·.tag)) := by
  obtain ⟨f, -, tags, retires⟩ := h
  have same : (s.queue.entries.map f).map (·.tag) = s.queue.entries.map (·.tag) := by
    rw [List.map_map]
    exact List.map_congr_left fun y _ => tags y
  exact same ▸ retires.tags_sublist

section
variable {s : State}

theorem State.Evolves.transmitEntry {x : State} {e : Entry} (same : x.queue.entries = s.queue.entries)
    (waiting : ∀ y ∈ s.queue.entries, y.tag = e.tag → y.state = .waiting) (i : Image) (d : Nat) (r : PosSet)
    (g : State → State) (hg : ∀ v, (g v).queue = v.queue) : s.Evolves (g (x.transmitEntry e i d r)).retire := by
  refine .entry waiting (g := fun y => { y with
      image := some i
      tx := some {
        time := x.now, delay := d, deadline := deadlineFrom x.now y d r,
        changeTimes := x.chain.changeTimes, generation := x.queue.generation,
        overtaken := y.isPollCheck && x.queue.youngerSent y.tag }
      required := r
      state := if r = 0 then .complete else .pending }) (fun _ => rfl) ?_
  have entries := State.retires (g (x.transmitEntry e i d r))
  rw [hg, State.transmitEntry, State.updEntry, State.updQueue] at entries
  rw [← same]
  exact entries

theorem State.Evolves.sendSet {e : Entry} (waiting : ∀ y ∈ s.queue.entries, y.tag = e.tag → y.state = .waiting) :
    s.Evolves (s.sendSet e) := by
  unfold State.sendSet
  dsimp only
  generalize hx : (s.imageSent (e.image.getD 0)).beginTelegram _ = x
  have same : x.queue.entries = s.queue.entries := by rw [← hx]; rfl
  exact .transmitEntry same waiting _ _ _ id fun _ => rfl

theorem State.Evolves.sendPoll {e : Entry} (waiting : ∀ y ∈ s.queue.entries, y.tag = e.tag → y.state = .waiting) :
    s.Evolves (s.sendPoll e) :=
  .transmitEntry (x := s.beginTelegram (.poll e.tag)) rfl waiting s.chain.transmitted 0 s.activeSet id fun _ => rfl

theorem State.Evolves.sendCheck {e : Entry} (waiting : ∀ y ∈ s.queue.entries, y.tag = e.tag → y.state = .waiting)
    (t : CheckTarget) : s.Evolves (s.sendCheck e t) :=
  .transmitEntry (x := s.beginTelegram (.check e.tag t.pos t.circ t.pulse)) rfl waiting s.chain.transmitted 0
    (if s.isActive t.pos then posBit t.pos else 0) (fun v => v.checkSent t) fun _ => rfl

theorem State.Evolves.completeEmpty {tag : Nat} (waiting : ∀ y ∈ s.queue.entries, y.tag = tag → y.state = .waiting) :
    s.Evolves (s.completeEmpty tag) :=
  .entry waiting (g := fun y => { y with state := .complete }) (fun _ => rfl)
    (State.retires (s.updEntry tag fun e => { e with state := .complete }))

end

theorem State.waiting_of_found {s : State} (nodup : (s.queue.entries.map (·.tag)).Nodup) {p : Entry → Bool} {e : Entry}
    (found : s.queue.entries.find? (fun e => e.state == .waiting && p e) = some e) :
    ∀ y ∈ s.queue.entries, y.tag = e.tag → y.state = .waiting := fun y hy ht => by
  obtain rfl := List.inj_on_of_nodup_map nodup hy (List.mem_of_find?_eq_some found) ht
  have test := List.find?_some found
  simp only [Bool.and_eq_true, beq_iff_eq] at test
  exact test.1

theorem State.Evolves.pickPoll {s : State} (nodup : (s.queue.entries.map (·.tag)).Nodup) : s.Evolves s.pickPoll := by
  unfold State.pickPoll
  split
  · next e found => exact .sendPoll (State.waiting_of_found nodup found)
  · split
    · exact .of_retires (.refl _)
    · exact .of_retires (.refl _)

theorem State.Evolves.pickCheck (tags : List Nat) (fresh : tags.Nodup) {s : State} (nodup : (s.queue.entries.map (·.tag)).Nodup)
    (waiting : ∀ tag ∈ tags, ∀ y ∈ s.queue.entries, y.tag = tag → y.state = .waiting) : s.Evolves (State.pickCheck tags s) := by
  induction tags generalizing s with
  | nil => exact .pickPoll nodup
  | cons tag tags ih =>
    obtain ⟨first, fresh⟩ := List.nodup_cons.1 fresh
    have here := waiting tag (by simp)
    have skip := ih fresh nodup fun t ht => waiting t (List.mem_cons_of_mem _ ht)
    unfold State.pickCheck
    split
    · next e found =>
      have tagged : e.tag = tag := beq_iff_eq.1 (List.find?_some (p := fun y : Entry => y.tag == tag) found)
      split
      · next t _ =>
        split
        · have step := State.Evolves.completeEmpty here
          refine step.trans (ih fresh (nodup.sublist step.tags_sublist) fun t ht y hy hyt => ?_)
          have stayed := (State.retires (s.updEntry tag fun e => { e with state := .complete })).mem hy
          obtain ⟨x, hx, hxy⟩ := List.mem_map.1 stayed
          have other : x.tag ≠ tag := fun same => by
            rw [if_pos (beq_iff_eq.2 same)] at hxy
            have again : t = tag := by
              rw [← hyt, ← hxy]
              exact same
            exact first (again ▸ ht)
          rw [if_neg (mt beq_iff_eq.1 other)] at hxy
          subst hxy
          exact waiting t (List.mem_cons_of_mem _ ht) x hx hyt
        · split
          · exact .sendCheck (tagged ▸ here) t
          · exact skip
      · exact skip
    · exact skip

/-- The pick. -/
theorem State.Evolves.transmit {s : State} (nodup : (s.queue.entries.map (·.tag)).Nodup) : s.Evolves s.transmit := by
  have same : s.Evolves s := .of_retires (.refl _)
  unfold State.transmit
  split
  · exact same
  · split
    · next e found => exact .sendSet (State.waiting_of_found nodup found)
    · split
      · exact .of_retires (.refl _)
      · split
        · next r rest _ => cases r <;> exact .of_retires (.refl _)
        · refine .pickCheck _ (nodup.sublist ?_) nodup fun tag ht y hy hyt => ?_
          · exact List.filter_sublist.map _
          · obtain ⟨x, hx, rfl⟩ := List.mem_map.1 ht
            obtain ⟨mem, test⟩ := List.mem_filter.1 hx
            obtain rfl := List.inj_on_of_nodup_map nodup hy mem hyt
            simp only [Bool.and_eq_true, beq_iff_eq] at test
            exact test.1

end Sys2Proof.Machine
end

