-- ==== Sys2Proof/Proofs/ReportTaken.lean ====
section
/-! PROOF. A REPORT taken on a sound chain: the next position, the answer stashed, and the pick at its end (O44). -/

namespace Sys2Proof.Machine

/-! ### The hearing on a sound chain (R24, R26, R29, R32) -/

/-- `h` is `s` with the REPORT's hearing, before its match. -/
structure State.ReportFar (r : ReportFields) (s h : State) : Prop where
  frame : h = { s with
    chain := { s.chain with positions := h.chain.positions, linkRequests := h.chain.linkRequests }
    image := s.imageAfterErrors r.pos r.farEnd }
  others : ∀ q : Pos, q ≠ r.pos → h.posAt q =
    if s.ProbeBegins r.pos r.load q then { s.posAt q with state := .probing, probeAttempts := 0 }
    else if s.ProbeEnds r.pos r.load q then Position.absent (s.posAt q).counters else s.posAt q
  begins : ∀ q, s.ProbeBegins r.pos r.load q → h.chain.linkRequests = s.chain.linkRequests ++ [.enum q]
  ends : ∀ q, s.ProbeEnds r.pos r.load q → .enum q ∉ h.chain.linkRequests ∧ .query q ∉ h.chain.linkRequests
  kept : ∀ k : LinkRequest, k ≠ .query r.pos →
    (∀ q, s.ProbeBegins r.pos r.load q ∨ s.ProbeEnds r.pos r.load q → k ≠ .enum q ∧ k ≠ .query q) →
    (k ∈ h.chain.linkRequests ↔ k ∈ s.chain.linkRequests)

/-- A QUERY asked for is the only request that comes. -/
theorem State.askQuery_requests (s : State) (p : Pos) :
    (∀ k, k ≠ .query p → (k ∈ (s.askQuery p).chain.linkRequests ↔ k ∈ s.chain.linkRequests)) ∧
    ((s.posAt p).state ≠ .lost → s.askQuery p = s) := by
  unfold State.askQuery
  refine ⟨fun k hk => ?_, fun here => if_neg fun h => ?_⟩
  · split
    · refine List.mem_append.trans (or_iff_left fun h => hk (List.mem_singleton.1 h))
    · exact Iff.rfl
  · simp only [Bool.and_eq_true, beq_iff_eq] at h
    exact here h.1.1

theorem State.reportFar {s : State} (shape : s.ChainShape) (r : ReportFields) :
    State.ReportFar r s (s.reportHeard r) := by
  obtain ⟨frame, here, others, begins, ends, stays⟩ := State.heardFar shape r.pos r.load r.farEnd
  rw [State.reportHeard_eq]
  generalize (s.heard r.pos r.load).addFarEnd r.pos r.farEnd = a at *
  obtain ⟨⟨ps, counted⟩, beside, own⟩ := a.supersededCounted_leaves r
  generalize a.supersededCounted r = b at *
  have requests : b.chain.linkRequests = a.chain.linkRequests := by rw [counted]
  have state : (b.posAt r.pos).state = (s.posAt r.pos).state := by rw [own, here]; rfl
  obtain ⟨ls, asked, -⟩ := b.askQuery_leaves r.pos
  obtain ⟨alone, same⟩ := b.askQuery_requests r.pos
  have place (q : Pos) : (b.askQuery r.pos).posAt q = b.posAt q := by rw [asked]; rfl
  rw [requests] at alone
  refine ⟨?_, fun q hq => ?_, fun q hq => ?_, fun q hq => ?_, fun k hk apart => (alone k hk).trans ?_⟩
  · rw [asked, counted, frame]
  · rw [place, beside q hq, others q hq]
  · obtain ⟨-, -, active, -⟩ := id hq
    rw [same (by rw [state, active]; decide), requests, begins q hq]
  · have apart : q ≠ r.pos := fun e => by
      have next := hq.1
      rw [e] at next
      omega
    rw [alone _ (by simp), alone _ (by simp [apart]), ends q hq]
    simp
  · by_cases h : ∃ q, s.ProbeBegins r.pos r.load q
    · obtain ⟨q, hq⟩ := h
      rw [begins q hq, List.mem_append]
      exact or_iff_left fun e => (apart q (.inl hq)).1 (List.mem_singleton.1 e)
    · by_cases k' : ∃ q, s.ProbeEnds r.pos r.load q
      · obtain ⟨q, hq⟩ := k'
        obtain ⟨enum, query⟩ := apart q (.inr hq)
        rw [ends q hq, List.mem_filter]
        exact and_iff_left (by simp [enum, query])
      · rw [stays fun q => ⟨fun b => h ⟨q, b⟩, fun e => k' ⟨q, e⟩⟩]

/-! ### The match (R47, R56, R66) -/

/-- A live entry awaits the REPORT (R47). -/
def State.Awaited (s : State) (r : ReportFields) : Prop :=
  ∃ e ∈ s.queue.entries, e.tag = r.tag ∧ hasPos e.required r.pos = true ∧ hasPos e.answered r.pos = false ∧ e.state ≠ .expired

theorem Entry.awaits_iff {e : Entry} {p : Pos} : e.awaits p = true ↔
    hasPos e.required p = true ∧ hasPos e.answered p = false ∧ e.state ≠ .expired := by
  simp [Entry.awaits, and_assoc]

theorem State.matchReport_stale {s : State} {r : ReportFields} (h : ¬s.Awaited r) : s.matchReport r = s.countStale := by
  unfold State.matchReport
  split
  · next e found =>
    refine if_neg fun awaits => h ⟨e, List.mem_of_find?_eq_some found, ?_, Entry.awaits_iff.1 awaits⟩
    exact beq_iff_eq.1 (List.find?_some (p := fun y : Entry => y.tag == r.tag) found)
  · rfl

/-- The answer a REPORT brings. -/
def ReportFields.answer (r : ReportFields) : Answer := ⟨r.pos, r.supply, r.superseded, r.readings⟩

theorem State.matchReport_taken {s : State} {r : ReportFields} (nodup : (s.queue.entries.map (·.tag)).Nodup) {e : Entry}
    (he : e ∈ s.queue.entries) (tag : e.tag = r.tag) (awaits : e.awaits r.pos = true) :
    s.matchReport r = (s.updEntry r.tag fun e => e.stash r.answer).retire := by
  unfold State.matchReport
  rw [← tag, Queue.find_of_nodup nodup he]
  exact if_pos awaits

/-- What a match leaves of the queue: the answer stashed, before the retirements. -/
def State.stashed (s : State) (r : ReportFields) : State := s.updEntry r.tag fun e => e.stash r.answer

theorem Entry.stash_missing {e : Entry} {a : Answer} (more : addPos e.answered a.pos ≠ e.required) :
    e.stash a = { e with answered := addPos e.answered a.pos, answers := e.answers ++ [a] } := by
  unfold Entry.stash
  dsimp only
  rw [if_neg (by simpa using more)]

theorem Entry.stash_last {e : Entry} {a : Answer} (last : addPos e.answered a.pos = e.required) :
    e.stash a = { e with answered := addPos e.answered a.pos, answers := e.answers ++ [a], state := .complete } := by
  unfold Entry.stash
  dsimp only
  rw [if_pos (by simpa using last)]

theorem State.stashed_tags (s : State) (r : ReportFields) :
    (s.stashed r).queue.entries.map (·.tag) = s.queue.entries.map (·.tag) := by
  refine List.map_map.trans (List.map_congr_left fun y _ => ?_)
  dsimp only [Function.comp]
  split <;> rfl

section
variable {s : State} {r : ReportFields} {e : Entry} (tag : e.tag = r.tag)
include tag

theorem State.stashed_mem (he : e ∈ s.queue.entries) : e.stash r.answer ∈ (s.stashed r).queue.entries :=
  List.mem_map.2 ⟨e, he, if_pos (beq_iff_eq.2 tag)⟩

theorem State.stashed_head (nodup : (s.queue.entries.map (·.tag)).Nodup) {rest : List Entry}
    (head : s.queue.entries = e :: rest) : (s.stashed r).queue.entries = e.stash r.answer :: rest := by
  rw [head] at nodup
  have apart := map_tag_of_nodup (a := []) nodup fun e => e.stash r.answer
  rw [tag] at apart
  rw [State.stashed, State.updEntry, State.updQueue, head]
  exact apart

theorem State.stashed_behind {h : Entry} {rest : List Entry} (head : s.queue.entries = h :: rest) (other : h.tag ≠ e.tag) :
    ∃ rest', (s.stashed r).queue.entries = h :: rest' := by
  refine ⟨rest.map fun y => if y.tag == r.tag then y.stash r.answer else y, ?_⟩
  rw [State.stashed, State.updEntry, State.updQueue, head]
  dsimp only
  rw [List.map_cons, if_neg fun same => other ((beq_iff_eq.1 same).trans tag.symm)]

end

/-! ### The REPORT -/

theorem State.takeReport_onChain {s : State} {r : ReportFields} (on : (s.posAt r.pos).state.onChain = true) :
    s.takeReport r = (s.reportHeard r).matchReport r := if_pos on

theorem State.takeReport_off {s : State} {r : ReportFields} (off : (s.posAt r.pos).state.onChain = false) :
    s.takeReport r = s.countStale := if_neg (by rw [off]; exact Bool.false_ne_true)

/-- The record of a position on the chain after its REPORT. -/
theorem State.takeReport_record {s : State} {r : ReportFields} (on : (s.posAt r.pos).state.onChain = true) :
    (s.reportRecord r).FlagsApart ((s.takeReport r).posAt r.pos) := by
  rw [State.takeReport_onChain on]
  refine (s.reportHeard_own r).trans ?_
  have place := (State.matchReport_leaves (s.reportHeard r) r).2 r.pos
  unfold Position.FlagsApart
  rw [place]

/-- What the REPORT that an entry awaits leaves of the entry and the queue, the pick and the composition done (R56, R66, R69). -/
structure State.Answers (s : State) (r : ReportFields) (e : Entry) (u : State) : Prop where
  missing : addPos e.answered r.pos ≠ e.required →
    { e with answered := addPos e.answered r.pos, answers := e.answers ++ [r.answer] } ∈ u.queue.entries
  behind : addPos e.answered r.pos = e.required → ∀ (h : Entry) (rest : List Entry), s.queue.entries = h :: rest →
    h.tag ≠ e.tag → h.state = .pending →
    { e with answered := addPos e.answered r.pos, answers := e.answers ++ [r.answer], state := .complete } ∈ u.queue.entries
  head : addPos e.answered r.pos = e.required → ∀ rest : List Entry, s.queue.entries = e :: rest →
    ∀ y ∈ u.queue.entries, y.tag ≠ e.tag

theorem State.answers {s : State} {r : ReportFields} {e : Entry} (nodup : (s.queue.entries.map (·.tag)).Nodup)
    (he : e ∈ s.queue.entries) (tag : e.tag = r.tag) (pending : e.state = .pending) :
    s.Answers r e (s.stashed r).retire.transmit := by
  have tags := s.stashed_tags r
  have retired : (s.stashed r).Evolves (s.stashed r).retire := .of_retires (State.retires _)
  have step : (s.stashed r).retire.Evolves (s.stashed r).retire.transmit :=
    .transmit ((tags ▸ nodup).sublist retired.tags_sublist)
  have mem := State.stashed_mem tag he
  refine ⟨fun more => ?_, fun last h rest head other live => ?_, fun last rest head y hy same => ?_⟩
  · rw [Entry.stash_missing more] at mem
    exact (retired.trans step).stands mem (by dsimp only; rw [pending]; decide) (.inl (by dsimp only; rw [pending]; rfl))
  · rw [Entry.stash_last last] at mem
    obtain ⟨rest', head'⟩ := State.stashed_behind tag head other
    exact (retired.trans step).stands mem (by dsimp only; decide) (.inr ⟨h, rest', head', live⟩)
  · have gone : ∀ y ∈ (s.stashed r).retire.queue.entries, y ∈ rest := fun y hy => by
      rw [State.retire_entries, State.stashed_head tag nodup head, Entry.stash_last last, List.dropWhile_cons_of_pos (by rfl)] at hy
      exact (List.dropWhile_sublist _).subset hy
    have listed := step.tags_sublist.subset (List.mem_map_of_mem (f := (·.tag)) hy)
    obtain ⟨z, hz, hzy⟩ := List.mem_map.1 listed
    rw [head, List.map_cons, List.nodup_cons] at nodup
    exact nodup.1 (List.mem_map.2 ⟨z, gone z hz, hzy.trans same⟩)

/-- The state with its line as `l` says. -/
def State.lineSet (s : State) (l : Line) : State := s.updChain fun ch => { ch with line := l }

/-- The line at an upstream telegram's end, whether a telegram can begin there or not (R18). -/
theorem State.answerEnds_line (s : State) (ab : Bool) : ∃ l, s.answerEnds ab = (s.lineSet l) ∧
    (s.lineHeld ab = true → l ≠ .free) ∧ (s.lineHeld ab = false → l = .free) := by
  cases held : s.lineHeld ab with
  | true =>
    obtain ⟨l, busy, ends⟩ := State.answerEnds_held held
    exact ⟨l, ends, fun _ => busy, fun h => Bool.noConfusion h⟩
  | false => exact ⟨.free, State.answerEnds_free held, fun h => Bool.noConfusion h, fun _ => rfl⟩

/-- Settles O44: the hearing, then the match, then the pick, which leaves the records' counts and rewrites WAITING entries
alone. -/
theorem reportTaken : Obligations.ReportTaken := by
  unfold Obligations.ReportTaken
  intro s t ab r parsed
  dsimp only
  obtain ⟨l, ends, busy, free⟩ := s.answerEnds_line ab
  have run : exec (.report t ab) s =
      .next ((s.lineSet l).takeReport r).transmit.recompose := by
    have begun : exec (.report t ab) s = .next ((s.answerEnds ab).reportEnds t).transmit.recompose := rfl
    rw [begun, ends, State.reportEnds, parsed]
  have line : ((s.lineSet l).takeReport r).chain.line = l :=
    (State.OnLine.takeReport (.refl (s.lineSet l)) r).line
  have port := (((State.ChainFrom.takeReport (s.lineSet l) r).trans (.transmit _)).portFrom).trans
    (.recompose _)
  refine ⟨_, run, port.now, port.tables, port.store, port.pending, port.inputs, port.request, fun held x => ?_, fun on => ?_,
    fun lost outside held => ?_, fun off => ?_, fun sound on held => ?_, fun sound on stale => ?_,
    fun sound e he tag required answered pending => ?_⟩
  · obtain rfl := free held
    refine ⟨exec_telegramDone_begun line x, fun off => ?_⟩
    have stale := State.takeReport_off (s := s.onFreeLine) (r := r) off
    exact (exec_telegramDone_begun (v := s.onFreeLine.countStale) rfl x).trans
      (congrArg (fun w : State => Host.Outcome.next w.transmit.recompose) stale.symm)
  · have own := State.takeReport_record (s := s.lineSet l) on
    generalize State.takeReport _ r = w at *
    obtain ⟨state, heard, load, identity, lost, errors, degraded, counters, -⟩ := own.fields
    have place := (State.SentFrom.transmit w).pos r.pos
    rw [State.recompose_posAt, place]
    refine ⟨state, heard, load, identity, lost, errors, ?_, counters⟩
    exact (congrArg (· = true) degraded).to_iff.trans decide_eq_true_iff
  · have on : (s.posAt r.pos).state.onChain = true := by rw [lost]; rfl
    rw [State.recompose_chain, State.transmit_busy _ (by rw [line]; exact busy held), State.takeReport_onChain (s := s.lineSet l) on,
      (State.matchReport_leaves _ r).1]
    exact State.reportHeard_asks (s := s.lineSet l) lost outside
  · rw [State.takeReport_off (s := s.lineSet l) off]
    have sent := State.SentFrom.transmit (s.lineSet l).countStale
    generalize hu : (s.lineSet l).countStale.transmit = u at *
    rw [State.recompose_posAt, State.recompose_chain, sent.pos, sent.chain]
    exact ⟨rfl, rfl, rfl, rfl⟩
  · have heard := State.reportFar (s := s.lineSet l) sound.1 r
    have match' := (State.matchReport_leaves ((s.lineSet l).reportHeard r) r)
    have quiet (none : ¬((s.lineSet l).reportHeard r).Awaited r) := State.matchReport_stale none
    have entries : ((s.lineSet l).reportHeard r).queue = s.queue := by rw [heard.frame]; rfl
    rw [State.Awaited, entries] at quiet
    rw [State.transmit_busy _ (by rw [line]; exact busy held), State.takeReport_onChain (s := s.lineSet l) on]
    simp only [State.recompose_posAt, State.recompose_chain]
    generalize (s.lineSet l).reportHeard r = h at *
    obtain ⟨-, others, begins, ends, kept⟩ := heard
    rw [match'.1]
    refine ⟨fun q hq => ⟨?_, fun none => ?_⟩, begins, ends, kept⟩
    · refine (match'.2 q).trans ?_
      rw [others q hq]
      rfl
    · rw [quiet none]
      exact others q hq
  · have heard := State.reportFar (s := s.lineSet l) sound.1 r
    have entries : ((s.lineSet l).reportHeard r).queue = s.queue := by rw [heard.frame]; rfl
    have none : ¬((s.lineSet l).reportHeard r).Awaited r := by
      rw [State.Awaited, entries]
      exact stale
    have taken : (s.lineSet l).takeReport r = ((s.lineSet l).reportHeard r).countStale :=
      (State.takeReport_onChain (s := s.lineSet l) on).trans (State.matchReport_stale none)
    have frame := heard.frame
    rw [taken] at line ⊢
    generalize (s.lineSet l).reportHeard r = h at *
    refine ⟨?_, fun held => ?_⟩
    · rw [State.recompose_chain, (State.SentFrom.transmit h.countStale).chain, frame]
      rfl
    · rw [State.transmit_busy _ (by rw [line]; exact busy held)]
      have records := h.countStale.recompose_records
      have image : h.countStale.image = s.imageAfterErrors r.pos r.farEnd := by rw [frame]; rfl
      rw [image] at records
      simp only [State.recompose_queue, State.recompose_circuits, State.recompose_cache]
      refine ⟨entries, ?_, ?_, records⟩
      · rw [frame]
        rfl
      · rw [frame]
        rfl
  · have coherent := (State.chainSound_iff s).1 sound
    have active : (s.posAt r.pos).state = .active := by
      simpa [State.isActive] using ((coherent.parts.entries e he).2 r.pos).1 required
    have on : (s.posAt r.pos).state.onChain = true := by rw [active]; rfl
    have heard := State.reportFar (s := s.lineSet l) sound.1 r
    have queue : ((s.lineSet l).reportHeard r).queue = s.queue := by rw [heard.frame]; rfl
    have awaits : e.awaits r.pos = true := Entry.awaits_iff.2 ⟨required, answered, by rw [pending]; decide⟩
    have taken : (s.lineSet l).takeReport r = (((s.lineSet l).reportHeard r).stashed r).retire :=
      (State.takeReport_onChain (s := s.lineSet l) on).trans
        (State.matchReport_taken (queue ▸ coherent.parts.tags.nodup) (queue ▸ he) tag awaits)
    have frame := heard.frame
    rw [taken] at line ⊢
    generalize (s.lineSet l).reportHeard r = h at *
    have nodup : (h.queue.entries.map (·.tag)).Nodup := queue ▸ coherent.parts.tags.nodup
    obtain ⟨missing, behind, head⟩ := State.answers nodup (queue ▸ he) tag pending
    rw [queue] at behind head
    rw [State.recompose_queue]
    refine ⟨?_, missing, fun last => ⟨behind last, fun rest first => ⟨head last rest first, fun held next => ?_⟩⟩⟩
    · rw [State.recompose_chain, (State.SentFrom.transmit (h.stashed r).retire).chain,
        (State.RetiredFrom.retire (h.stashed r)).chain, State.stashed, frame]
      rfl
    · rw [State.transmit_busy _ (by rw [line]; exact busy held)]
      have listed := State.stashed_head tag nodup (by rw [queue]; exact first)
      have done : (e.stash r.answer).state.final = true := by rw [Entry.stash_last last]; rfl
      rw [State.retire_one listed done next, State.retireOne_queue, State.recompose_retired, State.retireOne_retired]
      refine ⟨?_, ?_⟩
      · have same : (h.stashed r).queue = { s.queue with entries := (h.stashed r).queue.entries } := by
          rw [← queue]
          rfl
        rw [same]
      · have image : (h.stashed r).image.retired = s.image.retired := by
          have kept : (h.stashed r).image = h.image := rfl
          rw [kept, frame]
          change (s.imageAfterErrors r.pos r.farEnd).retired = _
          rw [s.imageAfterErrors_frame]
        rw [image]
        rfl

end Sys2Proof.Machine
end

