-- ==== Sys2Proof/Proofs/Loss.lean ====
section
/-! SUPPORT. Retirements leave a position alone that no retiring entry holds an answer of, and the LOSS_INTERVAL_EXPIRY (R30, R68,
R80). -/

namespace Sys2Proof.Machine

/-! ### Judging another position's answer (R80) -/

namespace State.SameAt

theorem ite {s u v : State} {q : Pos} {b : Prop} [Decidable b] (hu : s.SameAt u q) (hv : s.SameAt v q) :
    s.SameAt (if b then u else v) q := ite_cases (fun x => s.SameAt x q) hu hv

theorem foldl {β : Type} {q : Pos} (f : State → β → State) (h : ∀ (s : State) b, s.SameAt (f s b) q) (l : List β) (s : State) :
    s.SameAt (l.foldl f s) q := foldl_keeps (fun s u => s.SameAt u q) (fun s => .refl s q) (fun _ _ _ => .trans) f h l s

theorem add {s : State} {k : FaultKey} {q : Pos} (h : q ≠ k.pos) : s.SameAt (s.add k) q :=
  ⟨rfl, fun _ => rfl, fun _ h _ => h, fun _ he hq => (mem_faultAdd he).resolve_left fun hk => h (by rw [← hq, hk])⟩

variable {p q : Pos} (h : q ≠ p)
include h

theorem feedTest (s : State) (js : List Judged) : s.SameAt (s.feedTest p js) q := by
  have raised : s.SameAt (s.raiseFeedLost p) q := ite (.refl s q) ((updPos h _).trans (add h))
  have cleared : s.SameAt (s.clearFeedLost p) q := ite ((updPos h _).trans (heal h)) (.refl s q)
  exact ite raised (ite cleared (.refl s q))

theorem addCondition (s : State) (c : Circ) (k : Condition) : s.SameAt (s.addCondition p c k) q := by
  unfold State.addCondition
  split
  · exact add h
  · exact .refl s q

theorem confirm (s : State) (c : Circ) (v : Verdict) : s.SameAt (s.confirm p c v) q :=
  ite (.refl s q) (((updCirc h c _).trans (healCondition h c _)).trans (addCondition h _ c _))

theorem takeReading (kind : EntryKind) (loss : Bool) (s : State) (j : Judged) : s.SameAt (State.takeReading p kind loss s j) q := by
  have recorded : s.SameAt (s.record p kind loss j) q := updCirc h j.circ _
  have handed (s : State) : s.SameAt (s.handBaseline p loss j) q := ite (updCirc h j.circ _) (.refl s q)
  have confirmed (s : State) : s.SameAt (s.toConfirmation p loss j) q :=
    ite (.refl s q) (ite ((updCirc h j.circ _).trans (confirm h _ _ _)) (updCirc h j.circ _))
  exact (recorded.trans (handed _)).trans (confirmed _)

omit h in
theorem reconcile (s : State) (e : Entry) (x : Transmission) {a : Answer} (h : q ≠ a.pos) : s.SameAt (s.reconcile e x a) q :=
  ite (.refl s q) (ite (updPos h _) ((updPos h _).trans
    ((feedTest h _ _).trans (foldl _ (fun t j => takeReading h _ _ t j) _ _))))

end State.SameAt

/-! ### Retirements that hold no answer of a position (R70) -/

section
variable {q : Pos}

theorem State.SameAt.handAnswers (s : State) {e : Entry} (none : ∀ a ∈ e.answers, a.pos ≠ q) : s.SameAt (s.handAnswers e) q := by
  unfold State.handAnswers
  split
  · refine .foldl _ (fun t p => ?_) _ _
    split
    · next a found => exact .reconcile t e _ fun here => none a (List.mem_of_find?_eq_some found) here.symm
    · exact .refl t q
  · exact .refl s q

theorem State.SameAt.retireOne (s : State) {e : Entry} (none : ∀ a ∈ e.answers, a.pos ≠ q) (rest : List Entry) :
    s.SameAt (s.retireOne e rest) q := by
  have image (s : State) (f : ImageBuilder → ImageBuilder) (faults : (f s.image).faults = s.image.faults) :
      s.SameAt (s.updImage f) q := .of_eq s (s.updImage f) rfl rfl rfl faults q
  have retired (s : State) : s.SameAt (s.setRetired e) q := by
    unfold State.setRetired
    split
    · exact .ite (.refl s q) (image s _ rfl)
    · exact .refl s q
  have untracked (s : State) : s.SameAt (s.clearUntracked e) q := by
    unfold State.clearUntracked
    split
    · exact .ite (image s _ rfl) (.refl s q)
    · exact .refl s q
  exact (((State.SameAt.handAnswers s none).trans (retired _)).trans (untracked _)).trans (.updQueue _ _ q)

theorem State.SameAt.retireFrom (l : List Entry) (s : State) (none : ∀ e ∈ l, ∀ a ∈ e.answers, a.pos ≠ q) :
    s.SameAt (State.retireFrom l s) q := by
  induction l generalizing s with
  | nil => exact .refl s q
  | cons e rest ih =>
    exact .ite ((State.SameAt.retireOne s (none e (by simp)) rest).trans
      (ih _ fun y hy => none y (List.mem_cons_of_mem e hy))) (.refl s q)

theorem State.SameAt.retire (s : State) (none : ∀ e ∈ s.queue.entries, ∀ a ∈ e.answers, a.pos ≠ q) : s.SameAt s.retire q :=
  .retireFrom _ s none

end

/-! ### Leaving ACTIVE (R31, R68) -/

/-- `s` with position `p` taken out of every live entry and its due marks clear, the retirements still due. -/
def State.leftBy (s : State) (p : Pos) : State :=
  { s with
    circuits := upd s.circuits p fun cs => mapIdx cs fun _ k => { k with due := false }
    queue := { s.queue with entries := s.queue.entries.map (·.leftBy p) } }

theorem State.leaveActive_eq (s : State) (p : Pos) : s.leaveActive p = (s.leftBy p).retire := by
  have entries : (fun e : Entry => e.without p) = fun e => e.leftBy p := funext fun e => e.without_eq_leftBy p
  unfold State.leaveActive
  rw [entries]
  rfl

theorem State.leftBy_circAt (s : State) (p q : Pos) (c : Circ) : (s.leftBy p).circAt q c =
    if q = p then { s.circAt q c with due := false } else s.circAt q c :=
  State.updCircs_circAt s p q c fun _ k => { k with due := false }

theorem Entry.leftBy_gone (e : Entry) (p : Pos) : hasPos (e.leftBy p).required p = false ∧
    hasPos (e.leftBy p).answered p = false ∧ ∀ a ∈ (e.leftBy p).answers, a.pos ≠ p := by
  refine ⟨?_, ?_, fun a ha => ?_⟩
  · simp [Entry.leftBy]
  · simp [Entry.leftBy]
  · simpa using (List.mem_filter.1 ha).2

/-- What a position's leaving ACTIVE does to the queue. -/
theorem State.leaveActive_queue (s : State) (p : Pos) :
    (s.leaveActive p).queue = { s.queue with entries := entriesLeftBy p s.queue.entries } := by
  have entries : (s.leftBy p).retire.queue.entries = entriesLeftBy p s.queue.entries := State.retire_entries _
  rw [State.leaveActive_eq, (State.RetiredFrom.retire _).queue, entries]
  rfl

/-- The position's own place keeps all but its due marks: what retires holds no answer of it. -/
theorem State.leaveActive_here (s : State) (p : Pos) : (s.leaveActive p).posAt p = s.posAt p ∧
    ∀ c, (s.leaveActive p).circAt p c = { s.circAt p c with due := false } := by
  have same : (s.leftBy p).SameAt (s.leftBy p).retire p := .retire _ fun e he => by
    obtain ⟨e, -, rfl⟩ := List.mem_map.1 he
    exact (e.leftBy_gone p).2.2
  rw [State.leaveActive_eq]
  exact ⟨same.pos, fun c => by rw [same.circ, State.leftBy_circAt, if_pos rfl]⟩

/-! ### LOSS_INTERVAL_EXPIRY (R30) -/

theorem Entry.leftBy_waiting {e : Entry} {p : Pos} (waiting : e.state = .waiting) (required : e.required = 0)
    (answered : e.answered = 0) (answers : e.answers = []) (target : ∀ g ∈ e.target, g.pos ≠ p) : e.leftBy p = e := by
  have keeps : ¬((e.state = .waiting ∧ ∃ g ∈ e.target, g.pos = p) ∨
      (e.state = .pending ∧ dropPos e.answered p = dropPos e.required p)) := by
    rintro (⟨-, g, hg, here⟩ | ⟨pending, -⟩)
    · exact target g hg here
    · rw [waiting] at pending
      cases pending
  have drop : dropPos 0 p = 0 := by simp [dropPos]
  obtain ⟨tag, kind, state, image, changed, t, tx, r, a, l⟩ := e
  obtain rfl : r = 0 := required
  obtain rfl : a = 0 := answered
  obtain rfl : l = [] := answers
  unfold Entry.leftBy
  rw [if_neg keeps, drop]
  rfl

theorem Entry.leftBy_alone {e : Entry} {p : Pos} (pending : e.state = .pending) (required : e.required = posBit p)
    (answered : e.answered = 0) (answers : e.answers = []) : e.leftBy p = { e with required := 0, state := .complete } := by
  have drop : dropPos 0 p = 0 ∧ dropPos (posBit p) p = 0 := by simp [dropPos]
  unfold Entry.leftBy
  rw [if_pos (.inr ⟨pending, by rw [required, answered, drop.1, drop.2]⟩), required, answered, answers, drop.1, drop.2]
  rfl

theorem exec_lossExpiry (s : State) (p : Pos) : exec (.lossIntervalExpiry p) s =
    .next (if s.lossDue p then (s.lossExpiry p).recompose else s) := rfl

theorem State.lossDue_iff {s : State} {p : Pos} {h : Time} (active : (s.posAt p).state = .active)
    (heard : (s.posAt p).lastHeard = some h) : s.lossDue p = true ↔ h + s.settings.lossInterval ≤ s.now := by
  simp only [State.lossDue, active, heard, past, beq_self_eq_true, Bool.true_and, decide_eq_true_eq]

end Sys2Proof.Machine
end

