-- ==== Sys2Proof/Proofs/Cascade.lean ====
section
/-! SUPPORT. What a cascade does to the requests, the entries, the marks of the places it leaves and the listed faults (R28, R35,
R36, R68, R139). -/

namespace Sys2Proof.Machine

/-! ### One departure -/

/-- A listed fault once the places of `gone` have left the chain: the fault of a mark that ends is healed. -/
def State.clashHealed (s : State) (gone : List Pos) (e : FaultEntry) : FaultEntry :=
  if e.key.circ = none ∧ e.key.kind = .identityClash ∧ s.ClashEnds (· ∈ gone) e.key.pos then { e with active := false } else e

theorem State.clashHealed_key (s : State) (gone : List Pos) (e : FaultEntry) : (s.clashHealed gone e).key = e.key := by
  unfold State.clashHealed
  split <;> rfl

/-- `u` is `s` with the places of `l` gone, in this order. -/
structure State.EmptiedFrom (l : List Pos) (s u : State) : Prop where
  requests : u.chain.linkRequests =
    s.chain.linkRequests.filter fun k => decide (∀ q ∈ l, k ≠ .enum q ∧ k ≠ .query q)
  entries : u.queue.entries = (l.filter fun q => decide ((s.posAt q).state = .active)).foldl
    (fun es q => entriesLeftBy q es) s.queue.entries
  clash : ∀ r ∉ l, ((u.posAt r).identityClash = true ↔ (s.posAt r).identityClash = true ∧ ¬s.ClashEnds (· ∈ l) r)
  faults : s.queue.entries = [] → u.image.faults =
    (s.image.faults.filter fun e => decide (e.key.pos ∉ l)).map (s.clashHealed l)

theorem entriesLeft_nil (qs : List Pos) : qs.foldl (fun es q => entriesLeftBy q es) [] = [] := by
  induction qs with
  | nil => rfl
  | cons q qs ih => exact ih

/-- The requests that do not name `p`. -/
theorem dropped_eq (rs : List LinkRequest) (p : Pos) : (rs.filter fun r => r != .enum p && r != .query p) =
    rs.filter fun k => decide (∀ q ∈ [p], k ≠ .enum q ∧ k ≠ .query q) :=
  List.filter_congr fun k _ => by simp [bne, Bool.beq_eq_decide_eq]

theorem State.clashEnds_congr {s u : State} (same : ∀ r, (u.posAt r).state = (s.posAt r).state ∧
    (u.posAt r).identity = (s.posAt r).identity ∧ (u.posAt r).identityClash = (s.posAt r).identityClash)
    (gone : Pos → Prop) (q : Pos) : u.ClashEnds gone q ↔ s.ClashEnds gone q := by
  unfold State.ClashEnds
  simp only [(same _).1, (same _).2.1, (same _).2.2]

/-- No mark ends with a place that holds no identity on the chain. -/
theorem State.not_clashEnds_off {s : State} {p : Pos} (off : (s.posAt p).state.onChain = false) (q : Pos) :
    ¬s.ClashEnds (· ∈ [p]) q := by
  rintro ⟨-, ⟨r, here, on, -⟩, -⟩
  rw [List.mem_singleton.1 here, off] at on
  cases on

/-- The mark of another place is over exactly when the departed unit was the last other holder of its identity. -/
theorem State.clashOver_departed {s w : State} {p q : Pos} {i : Identity} (on : (s.posAt p).state.onChain = true)
    (identity : (s.posAt p).identity = some i) (off : (w.posAt p).state.onChain = false)
    (others : ∀ r, r ≠ p → w.posAt r = s.posAt r) (hq : q ≠ p) : w.clashOver i q = true ↔ s.ClashEnds (· ∈ [p]) q := by
  have held : w.HeldByAnother q i ↔ ∃ r, r ≠ q ∧ r ≠ p ∧ (s.posAt r).state.onChain = true ∧ (s.posAt r).identity = some i := by
    refine exists_congr fun r => and_congr_right fun _ => ?_
    by_cases hr : r = p
    · subst hr
      rw [off]
      exact ⟨fun h => (nomatch h.1), fun h => absurd rfl h.1⟩
    · rw [others r hr]
      exact (and_iff_right hr).symm
  have alone : w.heldElsewhere q i = false ↔ ¬w.HeldByAnother q i := by
    rw [← State.heldElsewhere_iff, Bool.not_eq_true]
  simp only [State.clashOver, Bool.and_eq_true, beq_iff_eq, Bool.not_eq_true', alone, held, others q hq, and_assoc,
    State.ClashEnds, List.mem_singleton]
  refine and_congr_right fun _ => ⟨fun ⟨holds, single⟩ => ⟨⟨p, rfl, on, identity.trans holds.symm⟩,
    fun r hr other chain same => single ⟨r, hr, other, chain, same.trans holds⟩⟩, fun ⟨⟨r, here, _, same⟩, single⟩ => ?_⟩
  subst here
  have holds : (s.posAt q).identity = some i := same.symm.trans identity
  exact ⟨holds, fun ⟨r, hr, other, chain, same⟩ => single r hr other chain (same.trans holds.symm)⟩

/-- A place taken off, made ABSENT, and the marks that its identity left behind reviewed. -/
def State.departed (s : State) (p : Pos) : State := ((s.takeOff p).makeAbsent p).reviewClashes (s.posAt p).identity

/-- What taking a place of the chain off does. -/
theorem State.departed_emptied {s : State} {p : Pos} (on : (s.posAt p).state.onChain = true)
    (named : (s.posAt p).identity.isSome = true) :
    (s.departed p).chain.linkRequests = s.chain.linkRequests.filter (fun r => r != .enum p && r != .query p) ∧
    (s.departed p).queue = s.queue ∧
    (∀ r, r ≠ p → (((s.departed p).posAt r).identityClash = true ↔
      (s.posAt r).identityClash = true ∧ ¬s.ClashEnds (· ∈ [p]) r)) ∧
    (s.departed p).image.faults = (s.image.faults.filter fun e => decide (e.key.pos ∉ [p])).map (s.clashHealed [p]) := by
  obtain ⟨i, identity⟩ := Option.isSome_iff_exists.1 named
  obtain ⟨queue, requests, -⟩ := s.takeOff_frame p
  obtain ⟨ps, circuits, off⟩ := s.takeOff_leaves p
  have image : ((s.takeOff p).makeAbsent p).image = faultRemove p s.image := by
    rw [off]
    rfl
  have absent : (((s.takeOff p).makeAbsent p).posAt p).state.onChain = false := by
    rw [State.makeAbsent_posAt_same]
    rfl
  have others (r : Pos) (hr : r ≠ p) : ((s.takeOff p).makeAbsent p).posAt r = s.posAt r := by
    rw [State.makeAbsent_posAt_ne _ hr, (s.takeOff_frame p).2.2, if_neg hr]
  have asks : ((s.takeOff p).makeAbsent p).chain.linkRequests =
      s.chain.linkRequests.filter fun r => r != .enum p && r != .query p := by
    rw [← requests]
    rfl
  have entries : ((s.takeOff p).makeAbsent p).queue = s.queue := queue
  unfold State.departed
  rw [identity]
  generalize (s.takeOff p).makeAbsent p = w at *
  have ended (r : Pos) (hr : r ≠ p) : w.clashOver i r = true ↔ s.ClashEnds (· ∈ [p]) r :=
    State.clashOver_departed on identity absent others hr
  have reviewed : State.ReviewedFrom i allPos w (w.reviewClashes (some i)) := State.reviewedFrom i allPos w
  generalize w.reviewClashes (some i) = u at reviewed
  obtain ⟨frame, posAt, faults⟩ := reviewed
  refine ⟨?_, ?_, fun r hr => ?_, ?_⟩
  · rw [frame]
    exact asks
  · rw [frame]
    exact entries
  · rw [posAt, others r hr]
    by_cases ends : s.ClashEnds (· ∈ [p]) r
    · rw [if_pos ⟨mem_allPos r, (ended r hr).2 ends⟩]
      exact ⟨fun h => (nomatch h), fun h => absurd ends h.2⟩
    · rw [if_neg fun h => ends ((ended r hr).1 h.2)]
      exact (and_iff_left ends).symm
  · have removed : w.image.faults = s.image.faults.filter fun e => decide (e.key.pos ∉ [p]) := by
      rw [image]
      exact List.filter_congr fun e _ => by simp [bne, Bool.beq_eq_decide_eq]
    rw [faults, removed]
    refine List.map_congr_left fun e he => ?_
    have apart : e.key.pos ≠ p := by simpa using (List.mem_filter.1 he).2
    unfold State.clashHealed
    refine if_congr (and_congr_right fun _ => and_congr_right fun _ => ?_) rfl rfl
    rw [ended _ apart]
    exact and_iff_right (mem_allPos _)

/-- One position that goes ABSENT. -/
theorem State.PartsSound.emptied {s : State} (h : s.PartsSound) (p : Pos) : State.EmptiedFrom [p] s (s.goAbsent p) := by
  have unmarked (off : (s.posAt p).state.onChain = false) : ∀ e ∈ s.image.faults, s.clashHealed [p] e = e := fun e _ =>
    if_neg fun k => State.not_clashEnds_off off _ k.2.2
  have offChain (off : (s.posAt p).state.onChain = false) (u : State) (queue : u.queue = s.queue)
      (faults : u.image.faults = s.image.faults) (others : ∀ r, r ≠ p → u.posAt r = s.posAt r)
      (requests : u.chain.linkRequests = s.chain.linkRequests.filter fun r => r != .enum p && r != .query p) :
      State.EmptiedFrom [p] s u := by
    refine ⟨requests.trans (dropped_eq _ p), ?_, fun r hr => ?_, fun _ => ?_⟩
    · have idle : ¬(s.posAt p).state = .active := fun active => by
        rw [active] at off
        cases off
      rw [queue, List.filter_cons, if_neg (by simpa using idle)]
      rfl
    · rw [others r (by simpa using hr)]
      exact (and_iff_left (State.not_clashEnds_off off r)).symm
    · have kept : (s.image.faults.filter fun e => decide (e.key.pos ∉ [p])) = s.image.faults :=
        List.filter_eq_self.2 fun e he => by simpa using ((h.places p).empty off).2 e he
      rw [faults, kept, List.map_congr_left (unmarked off), List.map_id']
  have onChain (on : (s.posAt p).state.onChain = true) : (s.posAt p).identity.isSome = true :=
    ((Position.sound_onChain on).1 (h.places p).record).1
  cases hs : (s.posAt p).state with
  | absent =>
    have off : (s.posAt p).state.onChain = false := by rw [hs]; rfl
    rw [State.goAbsent_of_absent hs]
    refine offChain off s rfl rfl (fun _ _ => rfl) (List.filter_eq_self.2 fun r hr => ?_).symm
    have noEnum := (h.places p).no_enum (by rw [hs]; decide)
    have noQuery := (h.places p).no_query (by rw [hs]; decide)
    simp only [Bool.and_eq_true, bne_iff_ne]
    exact ⟨fun k => noEnum (k ▸ hr), fun k => noQuery (k ▸ hr)⟩
  | probing =>
    have made : s.goAbsent p = s.makeAbsent p := by rw [State.goAbsent, hs]
    rw [made]
    exact offChain (by rw [hs]; rfl) _ rfl rfl (fun r hr => State.makeAbsent_posAt_ne s hr) rfl
  | passive =>
    have made : s.goAbsent p = s.makeAbsent p := by rw [State.goAbsent, hs]
    rw [made]
    exact offChain (by rw [hs]; rfl) _ rfl rfl (fun r hr => State.makeAbsent_posAt_ne s hr) rfl
  | lost =>
    have on : (s.posAt p).state.onChain = true := by rw [hs]; rfl
    have taken : s.goAbsent p = s.departed p := by rw [State.goAbsent, hs]; rfl
    obtain ⟨requests, queue, clash, faults⟩ := State.departed_emptied on (onChain on)
    rw [taken]
    refine ⟨requests.trans (dropped_eq _ p), ?_, fun r hr => clash r (by simpa using hr), fun _ => faults⟩
    rw [queue, List.filter_cons, if_neg (by simp [hs])]
    rfl
  | active =>
    have left := State.RetiredFrom.retire (s.leftBy p)
    rw [← State.leaveActive_eq] at left
    have same (r : Pos) : ((s.leaveActive p).posAt r).state = (s.posAt r).state ∧
        ((s.leaveActive p).posAt r).identity = (s.posAt r).identity ∧
        ((s.leaveActive p).posAt r).identityClash = (s.posAt r).identityClash := by
      rw [left.pos]
      exact ⟨rfl, rfl, rfl⟩
    have on : ((s.leaveActive p).posAt p).state.onChain = true := by rw [(same p).1, hs]; rfl
    have taken : s.goAbsent p = (s.leaveActive p).departed p := by
      rw [State.goAbsent, hs, State.departed, (same p).2.1]
    obtain ⟨requests, queue, clash, faults⟩ := State.departed_emptied on (by
      rw [(same p).2.1]
      exact onChain (by rw [hs]; rfl))
    rw [taken]
    refine ⟨requests.trans ?_, ?_, fun r hr => ?_, fun empty => faults.trans ?_⟩
    · rw [dropped_eq, left.chain]
      rfl
    · rw [queue, State.leaveActive_queue, List.filter_cons, if_pos (by simp [hs])]
      rfl
    · rw [clash r (by simpa using hr), (same r).2.2, State.clashEnds_congr same]
    · have listed : (s.leaveActive p).image.faults = s.image.faults := by
        rw [State.leaveActive_empty empty]
        rfl
      rw [listed]
      refine List.map_congr_left fun e _ => ?_
      unfold State.clashHealed
      exact if_congr (by rw [State.clashEnds_congr same]) rfl rfl

/-! ### Departures in turn -/

/-- A mark ends with the first departure or with the later ones. -/
theorem State.clashEnds_cons {s u : State} {p r : Pos} {l : List Pos} (hr : r ≠ p) (gone : (u.posAt p).state.onChain = false)
    (others : ∀ x, x ≠ p → (u.posAt x).state = (s.posAt x).state ∧ (u.posAt x).identity = (s.posAt x).identity)
    (clash : (u.posAt r).identityClash = true ↔ (s.posAt r).identityClash = true ∧ ¬s.ClashEnds (· ∈ [p]) r) :
    s.ClashEnds (· ∈ p :: l) r ↔ s.ClashEnds (· ∈ [p]) r ∨ u.ClashEnds (· ∈ l) r := by
  have apart {x : Pos} (on : (u.posAt x).state.onChain = true) : x ≠ p := fun h => by
    rw [h, gone] at on
    cases on
  constructor
  · rintro ⟨marked, ⟨g, hg, on, same⟩, single⟩
    by_cases first : s.ClashEnds (· ∈ [p]) r
    · exact .inl first
    · have later : ∃ g ∈ l, g ≠ p ∧ (s.posAt g).state.onChain = true ∧ (s.posAt g).identity = (s.posAt r).identity := by
        by_contra none
        refine first ⟨marked, ⟨g, ?_, on, same⟩, fun x hx other chain same => ?_⟩
        · by_contra hgp
          have hgp : g ≠ p := by simpa using hgp
          exact none ⟨g, (List.mem_cons.1 hg).resolve_left hgp, hgp, on, same⟩
        · have hxp : x ≠ p := by simpa using other
          refine single x hx (fun hm => ?_) chain same
          exact none ⟨x, (List.mem_cons.1 hm).resolve_left hxp, hxp, chain, same⟩
      obtain ⟨g, hg, hgp, on, same⟩ := later
      refine .inr ⟨clash.2 ⟨marked, first⟩, ⟨g, hg, by rw [(others g hgp).1]; exact on,
        by rw [(others g hgp).2, (others r hr).2]; exact same⟩, fun x hx hl chain => ?_⟩
      have hxp := apart chain
      rw [(others x hxp).1] at chain
      rw [(others x hxp).2, (others r hr).2]
      exact single x hx (by simp [hxp, hl]) chain
  · rintro (⟨marked, ⟨g, hg, on, same⟩, single⟩ | ⟨marked, ⟨g, hg, on, same⟩, single⟩)
    · exact ⟨marked, ⟨g, by simp [List.mem_singleton.1 hg], on, same⟩, fun x hx hl =>
        single x hx fun h => hl (by simp [List.mem_singleton.1 h])⟩
    · have hgp := apart on
      rw [(others g hgp).1] at on
      rw [(others g hgp).2, (others r hr).2] at same
      refine ⟨(clash.1 marked).1, ⟨g, List.mem_cons_of_mem p hg, on, same⟩, fun x hx hl chain => ?_⟩
      obtain ⟨hxp, hxl⟩ := not_or.1 fun h => hl (List.mem_cons.2 h)
      have single := single x hx hxl (by rw [(others x hxp).1]; exact chain)
      rwa [(others x hxp).2, (others r hr).2] at single

theorem State.EmptiedFrom.cons {s t u : State} {p : Pos} {l : List Pos} (fresh : p ∉ l) (a : State.EmptiedFrom [p] s t)
    (b : State.EmptiedFrom l t u) (gone : (t.posAt p).state.onChain = false)
    (others : ∀ x, x ≠ p → (t.posAt x).state = (s.posAt x).state ∧ (t.posAt x).identity = (s.posAt x).identity) :
    State.EmptiedFrom (p :: l) s u := by
  have ends (r : Pos) (hr : r ≠ p) : s.ClashEnds (· ∈ p :: l) r ↔ s.ClashEnds (· ∈ [p]) r ∨ t.ClashEnds (· ∈ l) r :=
    State.clashEnds_cons hr gone others (a.clash r (by simpa using hr))
  refine ⟨?_, ?_, fun r hr => ?_, fun empty => ?_⟩
  · rw [b.requests, a.requests, List.filter_filter]
    refine List.filter_congr fun k _ => ?_
    rw [← Bool.decide_and, decide_eq_decide, List.forall_mem_singleton, List.forall_mem_cons]
    exact and_comm
  · have active : (l.filter fun q => decide ((t.posAt q).state = .active)) =
        l.filter fun q => decide ((s.posAt q).state = .active) :=
      List.filter_congr fun q hq => by rw [(others q fun h => fresh (h ▸ hq)).1]
    rw [b.entries, a.entries, active, ← List.foldl_append, ← List.filter_append]
    rfl
  · obtain ⟨hp, hl⟩ := not_or.1 fun h => hr (List.mem_cons.2 h)
    rw [b.clash r hl, a.clash r (by simpa using hp), ends r hp, not_or, and_assoc]
  · have emptied : t.queue.entries = [] := by
      rw [a.entries, empty, entriesLeft_nil]
    rw [b.faults emptied, a.faults empty, List.filter_map, List.map_map, List.filter_filter]
    have listed : (s.image.faults.filter fun e => decide (e.key.pos ∉ p :: l)) = s.image.faults.filter fun e =>
        ((fun e => decide (e.key.pos ∉ l)) ∘ s.clashHealed [p]) e && decide (e.key.pos ∉ [p]) :=
      List.filter_congr fun e _ => by simp [State.clashHealed_key, Bool.and_comm]
    rw [listed]
    refine List.map_congr_left fun e he => ?_
    have hp : e.key.pos ≠ p := by
      have he := (List.mem_filter.1 he).2
      simp only [Bool.and_eq_true, decide_eq_true_eq, List.mem_singleton] at he
      exact he.2
    dsimp only [Function.comp]
    by_cases clash : e.key.circ = none ∧ e.key.kind = .identityClash
    · obtain ⟨circ, kind⟩ := clash
      have healed (v : State) (gone : List Pos) (x : FaultEntry) (key : x.key = e.key) : v.clashHealed gone x =
          if v.ClashEnds (· ∈ gone) e.key.pos then { x with active := false } else x := by
        unfold State.clashHealed
        rw [key]
        exact if_congr ⟨fun h => h.2.2, fun h => ⟨circ, kind, h⟩⟩ rfl rfl
      rw [healed t l _ (State.clashHealed_key s [p] e), healed s [p] e rfl, healed s (p :: l) e rfl]
      by_cases first : s.ClashEnds (· ∈ [p]) e.key.pos
      · rw [if_pos first, if_pos ((ends _ hp).2 (.inl first))]
        exact ite_self _
      · rw [if_neg first]
        exact if_congr ((ends _ hp).trans (or_iff_right first)).symm rfl rfl
    · have kept (v : State) (gone : List Pos) (x : FaultEntry) (key : x.key = e.key) : v.clashHealed gone x = x :=
        if_neg fun h => clash (key ▸ ⟨h.1, h.2.1⟩)
      rw [kept t l _ (State.clashHealed_key s [p] e), kept s [p] e rfl, kept s (p :: l) e rfl]

theorem State.foldl_goAbsent_emptied (l : List Pos) (nodup : l.Nodup) {s : State} (h : s.PartsSound) :
    State.EmptiedFrom l s (l.foldl State.goAbsent s) := by
  induction l generalizing s with
  | nil =>
    refine ⟨(List.filter_eq_self.2 fun k _ => by simp).symm, rfl, fun r _ => (and_iff_left ?_).symm, fun _ => ?_⟩
    · rintro ⟨-, ⟨g, hg, -⟩, -⟩
      cases hg
    · have kept : ∀ e ∈ s.image.faults, s.clashHealed [] e = e := fun e _ => if_neg fun ⟨_, _, _, ⟨g, hg, _⟩, _⟩ => nomatch hg
      rw [List.filter_eq_self.2 fun e _ => by simp, List.map_congr_left kept, List.map_id']
      rfl
  | cons p l ih =>
    obtain ⟨fresh, nodup⟩ := List.nodup_cons.1 nodup
    refine State.EmptiedFrom.cons fresh (h.emptied p) (ih nodup (h.goAbsent p)) ?_ fun x hx => ?_
    · rw [State.goAbsent_state, if_pos rfl]
      rfl
    · rw [s.goAbsent_others hx]
      exact ⟨rfl, rfl⟩

end Sys2Proof.Machine
end

