-- ==== Sys2Proof/Proofs/LossAndAbsence.lean ====
section
/-! PROOF. LOSS_INTERVAL_EXPIRY and ABSENCE_INTERVAL_EXPIRY (O49). -/

namespace Sys2Proof.Machine

/-! ### A position LOST (R30, R31) -/

/-- `s` with position `p` LOST from now. -/
def State.lostFrom (s : State) (p : Pos) : State :=
  (s.leaveActive p).updPos p fun r => { r with state := .lost, lostSince := some s.now }

theorem exec_lossExpiry_due {s : State} {p : Pos} (due : s.lossDue p = true) :
    exec (.lossIntervalExpiry p) s = .next (s.lostFrom p).recompose := by
  have expires : s.lossExpiry p = s.lostFrom p := if_pos due
  rw [exec_lossExpiry, if_pos due, expires]

theorem State.lostFrom_posAt (s : State) (p q : Pos) : (s.lostFrom p).posAt q =
    if q = p then { s.posAt p with state := .lost, lostSince := some s.now } else (s.leaveActive p).posAt q := by
  refine (State.updPos_posAt _ _ _ _).trans ?_
  split
  · next here => rw [here, (s.leaveActive_here p).1]
  · rfl

theorem State.lostFrom_state (s : State) (p q : Pos) :
    ((s.lostFrom p).posAt q).state = if q = p then .lost else (s.posAt q).state := by
  rw [State.lostFrom_posAt]
  split
  · rfl
  · exact s.leaveActive_state p q

theorem State.lostFrom_entries (s : State) (p : Pos) : ∀ e ∈ (s.lostFrom p).queue.entries,
    hasPos e.required p = false ∧ hasPos e.answered p = false ∧ ∀ a ∈ e.answers, a.pos ≠ p := by
  have queue : (s.lostFrom p).queue = _ := s.leaveActive_queue p
  rw [queue]
  intro e he
  obtain ⟨x, -, rfl⟩ := List.mem_map.1 ((List.dropWhile_sublist _).subset he)
  exact x.leftBy_gone p

theorem State.lostFrom_frame (s : State) (p : Pos) :
    (s.lostFrom p).chain = { s.chain with positions := (s.lostFrom p).chain.positions } ∧ (s.lostFrom p).cache = s.cache ∧
    (s.lostFrom p).circuits = (s.leftBy p).retire.circuits ∧ (s.lostFrom p).image = (s.leftBy p).retire.image := by
  have left := State.RetiredFrom.retire (s.leftBy p)
  have kept (ps : Vector Position 6) : ({ (s.leftBy p).retire.chain with positions := ps } : Chain) =
      { s.chain with positions := ps } := by
    rw [left.chain]
    rfl
  unfold State.lostFrom
  rw [State.leaveActive_eq]
  exact ⟨kept _, left.cache, rfl, rfl⟩

/-- An entry that is not final and that the position's leaving does not touch stays live. -/
theorem mem_entriesLeftBy {e : Entry} {p : Pos} {es : List Entry} (he : e ∈ es) (same : e.leftBy p = e)
    (live : e.state.final = false) : e ∈ entriesLeftBy p es := by
  have mapped : e ∈ es.map (·.leftBy p) := List.mem_map.2 ⟨e, he, same⟩
  rw [← List.takeWhile_append_dropWhile (p := fun e : Entry => e.state.final) (l := es.map (·.leftBy p)), List.mem_append]
    at mapped
  refine mapped.resolve_left fun final => ?_
  have final : e.state.final = true := List.mem_takeWhile_imp (p := fun e : Entry => e.state.final) final
  rw [live] at final
  cases final

/-! ### The cascade of an absence (R24, R36) -/

/-- The position before `p` is ACTIVE with its flag set. -/
abbrev State.ProbedFrom (s : State) (p : Pos) : Prop :=
  ∃ q : Pos, q.val + 1 = p.val ∧ (s.posAt q).state = .active ∧ (s.posAt q).downstreamLoad = true

theorem prevPos_some {p q : Pos} (h : q.val + 1 = p.val) : prevPos p = some q := by
  have first : ¬p.val = 0 := by omega
  rw [prevPos, if_neg first]
  exact congrArg some (Fin.ext (by simp only; omega))

theorem of_prevPos {p q : Pos} (h : prevPos p = some q) : q.val + 1 = p.val := by
  unfold prevPos at h
  split at h
  · cases h
  · cases h
    simp only
    omega

/-- The places an absence at `p` takes off. -/
def placesFrom (p : Pos) : List Pos := allPos.filter fun q => decide (p ≤ q)

theorem mem_placesFrom {p q : Pos} : q ∈ placesFrom p ↔ p ≤ q := by simp [placesFrom, mem_allPos]

theorem placesFrom_nodup (p : Pos) : (placesFrom p).Nodup := List.Nodup.filter _ (by decide)

/-- The cascade leaves the lower records but for flags, and its own places ABSENT. -/
theorem State.PartsSound.cascade_records {s : State} (h : s.PartsSound) (p : Pos) :
    (∀ q, q < p → (s.posAt q).FlagsApart ((s.cascade p).posAt q)) ∧
    ∀ q, p ≤ q → (s.cascade p).posAt q = Position.absent (s.posAt q).counters := by
  obtain ⟨parts, states⟩ := h.cascade p
  refine ⟨fun q hq => State.foldl_goAbsent_others (placesFrom p) s fun hm => ?_, fun q hq => ?_⟩
  · exact absurd (mem_placesFrom.1 hm) (not_le.2 hq)
  · have counters : ((s.cascade p).posAt q).counters = (s.posAt q).counters := State.foldl_goAbsent_counters _ _ q
    rw [← counters]
    exact (parts.places q).record.2.2.2.2.2.2.1 (by rw [states, if_pos hq])

/-- The position is probed again exactly when the one before it asks for it. -/
theorem State.PartsSound.cascadeFrom_eq {s : State} (h : s.PartsSound) (p : Pos) :
    (s.ProbedFrom p → s.cascadeFrom p = (s.cascade p).beginProbe p) ∧ (¬s.ProbedFrom p → s.cascadeFrom p = s.cascade p) := by
  obtain ⟨lower, gone⟩ := h.cascade_records p
  have before {q : Pos} (hq : q.val + 1 = p.val) : ((s.cascade p).posAt q).state = (s.posAt q).state ∧
      ((s.cascade p).posAt q).downstreamLoad = (s.posAt q).downstreamLoad := by
    rw [lower q (Fin.lt_def.2 (by omega))]
    exact ⟨rfl, rfl⟩
  refine ⟨fun ⟨q, hq, active, load⟩ => ?_, fun idle => ?_⟩
  · obtain ⟨state, flag⟩ := before hq
    rw [State.cascadeFrom, prevPos_some hq]
    exact State.probeNext_begins hq.symm (state.trans active) (flag.trans load) (by rw [gone p le_rfl]; rfl)
  · unfold State.cascadeFrom
    split
    · next q hq =>
      obtain ⟨state, flag⟩ := before (of_prevPos hq)
      exact State.probeNext_stays fun r hr ⟨active, load, _⟩ =>
        idle ⟨q, of_prevPos hq, state.symm.trans active, flag.symm.trans load⟩
    · rfl

/-- The requests of the places below `p`. -/
def State.requestsBelow (s : State) (p : Pos) : List LinkRequest :=
  s.chain.linkRequests.filter fun k => decide (∀ q : Pos, p ≤ q → k ≠ .enum q ∧ k ≠ .query q)

/-- The entries once the ACTIVE places above `p` have left them. -/
def State.entriesBelow (s : State) (p : Pos) : List Entry :=
  (allPos.filter fun q => decide (p < q ∧ (s.posAt q).state = .active)).foldl (fun es q => entriesLeftBy q es) s.queue.entries

/-- `w` is `s` after the cascade of an absence at `p`, before the pick. -/
structure State.Vanishes (p : Pos) (s w : State) : Prop where
  chain : w.chain = { s.chain with positions := w.chain.positions, linkRequests := w.chain.linkRequests }
  queue : w.queue = { s.queue with entries := s.entriesBelow p }
  requests : w.chain.linkRequests = if s.ProbedFrom p then s.requestsBelow p ++ [.enum p] else s.requestsBelow p
  here : w.posAt p = if s.ProbedFrom p then { Position.absent (s.posAt p).counters with state := .probing }
    else Position.absent (s.posAt p).counters
  higher : ∀ q, p < q → w.posAt q = Position.absent (s.posAt q).counters
  lower : ∀ q, q < p → (s.posAt q).FlagsApart (w.posAt q)
  clash : ∀ q, q < p → ((w.posAt q).identityClash = true ↔ (s.posAt q).identityClash = true ∧ ¬s.ClashEnds (p ≤ ·) q)
  faults : s.queue.entries = [] → w.image.faults = (s.image.faults.filter fun e => e.key.pos < p).map fun e =>
    if e.key.circ = none ∧ e.key.kind = .identityClash ∧ s.ClashEnds (p ≤ ·) e.key.pos then { e with active := false } else e

theorem State.clashEnds_from (s : State) (p q : Pos) : s.ClashEnds (· ∈ placesFrom p) q ↔ s.ClashEnds (p ≤ ·) q := by
  simp only [State.ClashEnds, mem_placesFrom]

theorem State.EmptiedFrom.entriesBelow {s u : State} {p : Pos} (h : State.EmptiedFrom (placesFrom p) s u)
    (lost : (s.posAt p).state = .lost) : u.queue.entries = s.entriesBelow p := by
  have above : ((placesFrom p).filter fun q => decide ((s.posAt q).state = .active)) =
      allPos.filter fun q => decide (p < q ∧ (s.posAt q).state = .active) := by
    rw [placesFrom, List.filter_filter]
    refine List.filter_congr fun q _ => ?_
    rw [← Bool.decide_and, decide_eq_decide]
    refine ⟨fun ⟨active, hq⟩ => ⟨lt_of_le_of_ne hq fun here => ?_, active⟩, fun ⟨hq, active⟩ => ⟨active, hq.le⟩⟩
    rw [← here, lost] at active
    cases active
  rw [h.entries, above]
  rfl

theorem State.PartsSound.vanishes {s : State} (h : s.PartsSound) {p : Pos} (lost : (s.posAt p).state = .lost) :
    State.Vanishes p s (s.cascadeFrom p) := by
  obtain ⟨probed, idle⟩ := h.cascadeFrom_eq p
  obtain ⟨lower, gone⟩ := h.cascade_records p
  have emptied : State.EmptiedFrom (placesFrom p) s (s.cascade p) := State.foldl_goAbsent_emptied _ (placesFrom_nodup p) h
  have placed := State.PlacedFrom.cascade s p
  have entries := emptied.entriesBelow lost
  have requests : (s.cascade p).chain.linkRequests = s.requestsBelow p := by
    rw [emptied.requests]
    exact List.filter_congr fun k _ => decide_eq_decide.2 (by simp only [mem_placesFrom])
  have clash (q : Pos) (hq : q < p) : ((s.cascade p).posAt q).identityClash = true ↔
      (s.posAt q).identityClash = true ∧ ¬s.ClashEnds (p ≤ ·) q := by
    rw [emptied.clash q fun hm => absurd (mem_placesFrom.1 hm) (not_le.2 hq), State.clashEnds_from]
  have faults (empty : s.queue.entries = []) : (s.cascade p).image.faults =
      (s.image.faults.filter fun e => e.key.pos < p).map fun e =>
        if e.key.circ = none ∧ e.key.kind = .identityClash ∧ s.ClashEnds (p ≤ ·) e.key.pos then { e with active := false }
        else e := by
    have below : (s.image.faults.filter fun e => decide (e.key.pos ∉ placesFrom p)) =
        s.image.faults.filter fun e => e.key.pos < p :=
      List.filter_congr fun e _ => decide_eq_decide.2 (by rw [mem_placesFrom, not_le])
    rw [emptied.faults empty, below]
    refine List.map_congr_left fun e _ => ?_
    unfold State.clashHealed
    exact if_congr (by rw [State.clashEnds_from]) rfl rfl
  have queue : (s.cascade p).queue = { s.queue with entries := s.entriesBelow p } := by rw [placed.queue, entries]
  by_cases again : s.ProbedFrom p
  · have place (q : Pos) := (s.cascade p).beginProbe_posAt p q
    have other {q : Pos} (hq : q ≠ p) : ((s.cascade p).beginProbe p).posAt q = (s.cascade p).posAt q := by
      rw [place, if_neg hq]
    rw [probed again]
    refine ⟨(placed.trans (.beginProbe _ p)).chain, queue, ?_, ?_, fun q hq => ?_, fun q hq => ?_, fun q hq => ?_, faults⟩
    · rw [if_pos again, ← requests]
      rfl
    · rw [if_pos again, place, if_pos rfl, gone p le_rfl]
      rfl
    · rw [other hq.ne', gone q hq.le]
    · rw [other hq.ne]
      exact lower q hq
    · rw [other hq.ne]
      exact clash q hq
  · rw [idle again]
    refine ⟨placed.chain, queue, ?_, ?_, fun q hq => gone q hq.le, lower, clash, faults⟩
    · rw [if_neg again, requests]
    · rw [if_neg again, gone p le_rfl]

/-! ### The pick of an absence (R39) -/

/-- Every WAITING entry left was a WAITING entry of the same kind. -/
theorem mem_entriesLeft (qs : List Pos) {es : List Entry} {e : Entry} (he : e ∈ qs.foldl (fun es q => entriesLeftBy q es) es)
    (waiting : e.state = .waiting) : ∃ x ∈ es, x.state = .waiting ∧ x.kind = e.kind := by
  induction qs generalizing es with
  | nil => exact ⟨e, he, waiting, rfl⟩
  | cons q qs ih =>
    obtain ⟨y, hy, waits, kind⟩ := ih he
    obtain ⟨x, hx, rfl⟩ := List.mem_map.1 ((List.dropWhile_sublist _).subset hy)
    refine ⟨x, hx, ?_, kind⟩
    simp only [Entry.leftBy] at waits
    split at waits
    · cases waits
    · exact waits

theorem State.entriesBelow_noSet {s : State} (sets : s.queue.firstSet = none) (p : Pos) :
    ({ s.queue with entries := s.entriesBelow p } : Queue).firstSet = none := by
  refine List.find?_eq_none.2 fun e he set => ?_
  obtain ⟨waiting, isSet⟩ := (Bool.and_eq_true _ _).mp set
  obtain ⟨x, hx, waits, kind⟩ := mem_entriesLeft _ he (beq_iff_eq.1 waiting)
  refine List.find?_eq_none.1 sets x hx ?_
  rw [Entry.isSet, kind, waits]
  exact isSet

section
variable {s w : State} {p : Pos} (h : State.Vanishes p s w)
include h

/-- The ENUM of the position probed again goes when nothing goes before it. -/
theorem State.Vanishes.sends (line : s.chain.line = .free) (sets : s.queue.firstSet = none) (slot : s.queue.slot = none)
    (none : s.requestsBelow p = []) (again : s.ProbedFrom p) : w.transmit = w.sendLink (.enum p) [] := by
  refine State.transmit_request ?_ ?_ ?_ ?_
  · rw [h.chain]
    exact line
  · rw [h.queue]
    exact State.entriesBelow_noSet sets p
  · rw [h.queue]
    exact slot
  · rw [h.requests, if_pos again, none]
    rfl

theorem State.Vanishes.rests (idle : ∀ e ∈ s.queue.entries, e.state ≠ .waiting) (slot : s.queue.slot = none)
    (none : s.requestsBelow p = []) (still : ¬s.ProbedFrom p) (tables : w.tables = s.tables)
    (quiet : ¬(s.tables.mode = .setup ∧ s.chain.livenessPoll = true)) : w.transmit = w := by
  refine State.transmit_quiet (fun e he waiting => ?_) ?_ ?_ ?_
  · rw [h.queue] at he
    obtain ⟨x, hx, waits, -⟩ := mem_entriesLeft _ he waiting
    exact idle x hx waits
  · rw [h.queue]
    exact slot
  · rw [h.requests, if_neg still, none]
  · rw [tables, h.chain]
    exact quiet

end

/-- Settles O49: a position LOST is taken out of the entries, of which none that retires holds an answer of its; an absence is
the cascade, whose departures compose one by one, then the probe and the pick. -/
theorem lossAndAbsence : Obligations.LossAndAbsence := by
  unfold Obligations.LossAndAbsence
  refine ⟨fun s p h active heard => ?_, fun s p l sound lost since => ?_⟩
  · have due := State.lossDue_iff active heard
    refine ⟨fun early => by rw [exec_lossExpiry, if_neg (mt due.1 (Nat.not_le.2 early))], fun late =>
      ⟨_, exec_lossExpiry_due (due.2 late), ?_⟩⟩
    have placed := State.PlacedFrom.leaveActive s p
    have port := ((State.ChainFrom.leaveActive s p).trans (.updPos _ p fun r => { r with
      state := .lost, lostSince := some s.now })).portFrom.trans (.recompose _)
    have queue : (s.lostFrom p).queue = { s.queue with entries := entriesLeftBy p s.queue.entries } := s.leaveActive_queue p
    obtain ⟨chain, cache, circuits, image⟩ := s.lostFrom_frame p
    have records := (s.lostFrom p).recompose_records
    rw [image] at records
    simp only [State.recompose_posAt, State.recompose_circAt, State.recompose_queue, State.recompose_chain,
      State.recompose_circuits, State.recompose_cache, State.recompose_checks]
    refine ⟨by rw [State.lostFrom_posAt, if_pos rfl], s.lostFrom_state p, (s.leaveActive_here p).2, s.lostFrom_entries p, queue,
      fun e he waiting required answered answers target => ?_, fun e _ pending required answered answers =>
        Entry.leftBy_alone pending required answered answers, ⟨circuits, fun q hq => ?_, records⟩, chain, cache, placed.checks,
      port.tables, port.store, port.now, port.pending⟩
    · rw [queue]
      exact mem_entriesLeftBy he (Entry.leftBy_waiting waiting required answered answers target) (by rw [waiting]; rfl)
    · rw [State.lostFrom_posAt, if_neg hq, State.leaveActive_eq]
      rfl
  · have coherent := (State.chainSound_iff s).1 sound
    refine ⟨fun early => ?_, fun late => ⟨_, exec_absenceExpiry lost since late, ?_⟩⟩
    · have waits : ¬s.absenceDue p = true := by
        simp only [State.absenceDue, lost, since, past, beq_self_eq_true, Bool.true_and, decide_eq_true_eq]
        exact Nat.not_le.2 early
      exact congrArg Host.Outcome.next (if_neg waits)
    have vanishes := coherent.parts.vanishes lost
    have after := (coherent.cascadeFrom p).transmit
    have frame := State.ChainFrom.cascadeFrom s p
    generalize s.cascadeFrom p = w at vanishes after frame
    have sent := State.SentFrom.transmit w
    have port := (frame.trans (.transmit w)).portFrom.trans (.recompose _)
    have held : s.chain.line ≠ .free → w.transmit = w := fun busy => w.transmit_busy (by rw [vanishes.chain]; exact busy)
    have sends := vanishes.sends
    have rests := vanishes.rests
    have quiet (empty : w.queue.entries = []) : w.transmit.image = w.image := by
      obtain ⟨c, q, same, -⟩ := State.transmit_empty empty
      rw [same]
    have enumRecord (q : Pos) := w.sendLink_enum_posAt p q []
    have stateHere : (w.transmit.posAt p).state = if s.ProbedFrom p then .probing else .absent := by
      rw [sent.state, vanishes.here]
      split <;> rfl
    have stateHigher (q : Pos) (hq : p < q) : (w.transmit.posAt q).state = .absent := by
      rw [sent.state, vanishes.higher q hq]
      rfl
    have off (q : Pos) (hq : p ≤ q) : (w.transmit.posAt q).state.onChain = false := by
      rcases eq_or_lt_of_le hq with rfl | hq
      · rw [stateHere]
        split <;> rfl
      · rw [stateHigher q hq]
        rfl
    have identityHere : (w.posAt p).identity = none ∧ (w.posAt p).counters = (s.posAt p).counters := by
      rw [vanishes.here]
      split <;> exact ⟨rfl, rfl⟩
    simp only [State.recompose_posAt, State.recompose_circAt, State.recompose_queue, State.recompose_chain,
      State.recompose_faults]
    refine ⟨fun q hq => ?_, ?_, ?_, stateHere, fun q hq => ?_, fun q c hq => ?_, fun e he => ?_, fun q hq => ?_,
      ⟨fun still => ?_, fun busy => ?_, fun line sets slot none again => ?_, fun line idle slot none still live => ?_⟩,
      fun empty => ?_, port.tables, port.store, port.now, port.pending⟩
    · rw [after.absent_record (stateHigher q hq), sent.pos, vanishes.higher q hq]
      rfl
    · rw [sent.pos]
      exact identityHere.2
    · rw [sent.pos]
      exact identityHere.1
    · rw [sent.pos, vanishes.lower q hq]
      exact ⟨rfl, rfl⟩
    · rw [((after.parts.places q).empty (off q hq)).1 c]
      exact ⟨rfl, rfl⟩
    · by_contra above
      exact ((after.parts.places e.key.pos).empty (off _ (not_lt.1 above))).2 e he rfl
    · rw [sent.pos]
      exact vanishes.clash q hq
    · rw [after.absent_record (by rw [stateHere, if_neg still]), sent.pos]
      exact congrArg Position.absent identityHere.2
    · rw [held busy]
      refine ⟨vanishes.queue, by rw [vanishes.chain], fun again => ⟨?_, ?_⟩, fun still => ?_⟩
      · rw [vanishes.requests, if_pos again]
        rfl
      · rw [vanishes.here, if_pos again]
      · rw [vanishes.requests, if_neg still]
        rfl
    · rw [sends line sets slot none again, enumRecord, if_pos rfl, vanishes.here, if_pos again, frame.now]
      exact ⟨vanishes.queue, rfl, rfl, rfl⟩
    · rw [rests idle slot none still frame.tables live]
      refine ⟨vanishes.queue, by rw [vanishes.chain]; exact line, ?_⟩
      rw [vanishes.requests, if_neg still]
      exact none
    · have gone : w.queue.entries = [] := by
        rw [vanishes.queue]
        unfold State.entriesBelow
        rw [empty, entriesLeft_nil]
      rw [quiet gone]
      exact vanishes.faults empty

end Sys2Proof.Machine
end

