-- ==== Sys2Proof/Proofs/QueueMoves.lean ====
section
/-! SUPPORT. What the operations of the machine can do to the Expectation Queue: rewrite the live entries and drop some at the
head, take one more at the tail, or empty it. -/

namespace Sys2Proof.Machine

/-- `u` is reached from `a` by moves of the live entries. A move keeps tags and kinds where it keeps entries, allocates in RUN
alone and within the capacities (R53, R57, R59, R61), and keeps the mode, enters RUN or leaves no entry (R75). -/
inductive State.QueueFrom (a : State) : State → Prop
  | refl : a.QueueFrom a
  | rewrites {s u : State} (h : a.QueueFrom s) (mode : u.tables.mode = .setup → s.tables.mode = .setup) (f : Entry → Entry)
    (same : ∀ e, (f e).tag = e.tag ∧ (f e).kind = e.kind) (entries : u.queue.entries <:+ s.queue.entries.map f)
    (counter : u.queue.tagCounter = s.queue.tagCounter) : a.QueueFrom u
  | allocates {s u : State} (h : a.QueueFrom s) (run : u.tables.mode = .run) (room : s.queue.hasRoom = true)
    (kind : EntryKind) (limit : kind = .poll ∨ kind = .check → s.queue.hasPollCheckRoom = true) (image : Option Image)
    (changed : FnSet) (target : Option CheckTarget) (queue : u.queue = s.queue.allocate kind image changed target) :
    a.QueueFrom u
  | empties {s u : State} (h : a.QueueFrom s) (entries : u.queue.entries = [])
    (counter : u.queue.tagCounter = s.queue.tagCounter ∨ u.queue.tagCounter = 0) : a.QueueFrom u

/-- The room of a POLL or CHECK is room for an entry. -/
theorem Queue.hasRoom_of_pollCheck {q : Queue} (room : q.hasPollCheckRoom = true) : q.hasRoom = true :=
  (Bool.and_eq_true_iff.1 room).1

namespace State.QueueFrom

variable {a s : State}

/-! ### Operations that leave the live entries -/

theorem same (h : a.QueueFrom s) {u : State} (entries : u.queue.entries = s.queue.entries)
    (counter : u.queue.tagCounter = s.queue.tagCounter) (mode : u.tables.mode = s.tables.mode) : a.QueueFrom u :=
  h.rewrites (fun setup => mode ▸ setup) id (fun _ => ⟨rfl, rfl⟩) (by rw [List.map_id, entries]) counter

/-- An operation of the chain, the queue or the checks that leaves the queue. -/
theorem unmoved (h : a.QueueFrom s) {u : State} (frame : s.ChainFrom u) (queue : u.queue = s.queue) : a.QueueFrom u :=
  h.same (by rw [queue]) (by rw [queue]) (by rw [frame.tables])

theorem updPos (h : a.QueueFrom s) (p : Pos) (f : Position → Position) : a.QueueFrom (s.updPos p f) := h.same rfl rfl rfl

theorem updChain (h : a.QueueFrom s) (f : Chain → Chain) : a.QueueFrom (s.updChain f) := h.same rfl rfl rfl

theorem updCounters (h : a.QueueFrom s) (f : ChainCounters → ChainCounters) : a.QueueFrom (s.updCounters f) :=
  h.same rfl rfl rfl

theorem updCircs (h : a.QueueFrom s) (p : Pos) (f : Circ → Circuit → Circuit) : a.QueueFrom (s.updCircs p f) :=
  h.same rfl rfl rfl

theorem mapCircuits (h : a.QueueFrom s) (f : Pos → Circ → Circuit → Circuit) : a.QueueFrom (s.mapCircuits f) :=
  h.same rfl rfl rfl

theorem updImage (h : a.QueueFrom s) (f : ImageBuilder → ImageBuilder) : a.QueueFrom (s.updImage f) := h.same rfl rfl rfl

theorem updPort (h : a.QueueFrom s) (f : Port → Port) : a.QueueFrom (s.updPort f) := h.same rfl rfl rfl

theorem updStore (h : a.QueueFrom s) (f : Store → Store) : a.QueueFrom (s.updStore f) := h.same rfl rfl rfl

theorem handTelltale (h : a.QueueFrom s) : a.QueueFrom s.handTelltale := h.same rfl rfl rfl

theorem recompose (h : a.QueueFrom s) : a.QueueFrom s.recompose :=
  h.same (by rw [State.recompose_queue]) (by rw [State.recompose_queue]) (by rw [State.recompose_tables])

theorem foldl {β : Type} (f : State → β → State) (hf : ∀ s b, a.QueueFrom s → a.QueueFrom (f s b)) (l : List β)
    (h : a.QueueFrom s) : a.QueueFrom (l.foldl f s) := by
  induction l generalizing s with
  | nil => exact h
  | cons b l ih => exact ih (hf s b h)

/-! ### Entries rewritten and retired (R65 to R69) -/

theorem mapEntries (h : a.QueueFrom s) (f : Entry → Entry) (same : ∀ e, (f e).tag = e.tag ∧ (f e).kind = e.kind) :
    a.QueueFrom (s.updQueue fun q => { q with entries := q.entries.map f }) :=
  h.rewrites id f same (List.suffix_refl _) rfl

theorem updEntry (h : a.QueueFrom s) (tag : Nat) (f : Entry → Entry)
    (same : ∀ e, (f e).tag = e.tag ∧ (f e).kind = e.kind) : a.QueueFrom (s.updEntry tag f) :=
  h.mapEntries _ fun e => by
    split
    · exact same e
    · exact ⟨rfl, rfl⟩

theorem retire (h : a.QueueFrom s) : a.QueueFrom s.retire := by
  have frame := State.RetiredFrom.retire s
  refine h.rewrites (fun setup => frame.tables ▸ setup) id (fun _ => ⟨rfl, rfl⟩) ?_ (by rw [frame.queue])
  rw [List.map_id, State.retire_entries]
  exact List.dropWhile_suffix _

theorem completeEmpty (h : a.QueueFrom s) (tag : Nat) : a.QueueFrom (s.completeEmpty tag) :=
  (h.updEntry tag (fun e => { e with state := .complete }) fun _ => ⟨rfl, rfl⟩).retire

theorem restartChecks (h : a.QueueFrom s) : a.QueueFrom s.restartChecks := h.same rfl rfl rfl

theorem flush (h : a.QueueFrom s) : a.QueueFrom s.flush := h.empties rfl (.inl rfl)

/-! ### The transmitter's pick (R39) -/

theorem transmitEntry (h : a.QueueFrom s) (e : Entry) (i : Image) (d : Nat) (r : PosSet) :
    a.QueueFrom (s.transmitEntry e i d r) := h.updEntry e.tag _ fun _ => ⟨rfl, rfl⟩

theorem sendSet (h : a.QueueFrom s) (e : Entry) : a.QueueFrom (s.sendSet e) :=
  (((h.updChain _).updChain _).transmitEntry e _ _ _).retire

theorem sendSlot (h : a.QueueFrom s) (i : Image) : a.QueueFrom (s.sendSlot i) := h.same rfl rfl rfl

theorem sendLink (h : a.QueueFrom s) (r : LinkRequest) (rest : List LinkRequest) : a.QueueFrom (s.sendLink r rest) := by
  cases r <;> exact h.same rfl rfl rfl

theorem sendCheck (h : a.QueueFrom s) (e : Entry) (t : CheckTarget) : a.QueueFrom (s.sendCheck e t) := by
  have begun : a.QueueFrom (s.beginTelegram (.check e.tag t.pos t.circ t.pulse)) := h.updChain _
  exact State.QueueFrom.retire ((begun.transmitEntry e s.chain.transmitted 0 _).same rfl rfl rfl)

theorem sendPoll (h : a.QueueFrom s) (e : Entry) : a.QueueFrom (s.sendPoll e) :=
  ((h.updChain _).transmitEntry e _ _ _).retire

theorem pickPoll (h : a.QueueFrom s) : a.QueueFrom s.pickPoll := by
  unfold State.pickPoll
  split
  · exact h.sendPoll _
  · exact ite_cases _ (h.same rfl rfl rfl) h

theorem pickCheck (tags : List Nat) (h : a.QueueFrom s) : a.QueueFrom (State.pickCheck tags s) := by
  induction tags generalizing s with
  | nil => exact h.pickPoll
  | cons tag tags ih =>
    unfold State.pickCheck
    split
    · split
      · split
        · exact ih (h.completeEmpty tag)
        · exact ite_cases _ (h.sendCheck _ _) (ih h)
      · exact ih h
    · exact ih h

theorem transmit (h : a.QueueFrom s) : a.QueueFrom s.transmit := by
  unfold State.transmit
  split
  · exact h
  · split
    · exact h.sendSet _
    · split
      · exact h.sendSlot _
      · split
        · exact h.sendLink _ _
        · exact h.pickCheck _

/-! ### Allocation (R53, R57 to R61, R117) -/

theorem allocate (h : a.QueueFrom s) (run : s.tables.mode = .run) (room : s.queue.hasRoom = true) (kind : EntryKind)
    (limit : kind = .poll ∨ kind = .check → s.queue.hasPollCheckRoom = true) (image : Option Image) (changed : FnSet)
    (target : Option CheckTarget) : a.QueueFrom (s.updQueue fun q => q.allocate kind image changed target) :=
  h.allocates run room kind limit image changed target rfl

theorem divert (h : a.QueueFrom s) (changed : FnSet) : a.QueueFrom (s.divert changed) := h.same rfl rfl rfl

/-- A SET is tracked by an entry in RUN, or diverted (R57 to R59). -/
theorem tracked (h : a.QueueFrom s) (kind : EntryKind) (set : ¬(kind = .poll ∨ kind = .check)) (image : Option Image)
    (changed diverted : FnSet) : a.QueueFrom (if s.tables.mode == .run && s.queue.canTrack then
      s.updQueue fun q => q.allocate kind image changed none else s.divert diverted) := by
  split
  · next track =>
    simp only [Bool.and_eq_true, beq_iff_eq, Queue.canTrack] at track
    obtain ⟨run, room, -⟩ := track
    exact h.allocate run room kind (fun limited => absurd limited set) image changed none
  · exact h.divert _

theorem requestChange (h : a.QueueFrom s) (old : Image) : a.QueueFrom (s.requestChange old) :=
  h.tracked .change (by decide) _ _ _

theorem requestResync (h : a.QueueFrom s) : a.QueueFrom s.requestResync := h.tracked .resync (by decide) _ _ _

theorem requestPoll (h : a.QueueFrom s) (run : s.tables.mode = .run) : a.QueueFrom s.requestPoll := by
  unfold State.requestPoll
  split
  · next room => exact h.allocate run (Queue.hasRoom_of_pollCheck room) .poll (fun _ => room) _ _ _
  · exact h.updCounters _

theorem runChecks (ps : List Pos) (h : a.QueueFrom s) (run : s.tables.mode = .run) : a.QueueFrom (State.runChecks ps s) := by
  induction ps generalizing s with
  | nil => exact h
  | cons p ps ih =>
    unfold State.runChecks
    split
    · split
      · next c _ =>
        split
        · next room =>
          have asked := h.allocate run (Queue.hasRoom_of_pollCheck room) .check (fun _ => room) none 0
            (some ⟨p, c, (s.profileAt p c).checkPulse⟩)
          exact ih (asked.same rfl rfl rfl) run
        · exact h
      · exact ih h run
    · exact ih h run

theorem pollExpiry (h : a.QueueFrom s) : a.QueueFrom s.pollExpiry := by
  refine ite_cases _ ?_ h
  have next : a.QueueFrom (s.updQueue fun q => { q with lastPoll := q.lastPoll + s.settings.pollPeriod }) := h.same rfl rfl rfl
  dsimp only
  split
  · next run =>
    refine State.QueueFrom.transmit ((next.requestPoll run).transmit.runChecks _ ?_)
    rw [(State.ChainFrom.transmit _).tables, (State.ChainFrom.requestPoll _).tables]
    exact run
  · exact (next.updChain _).transmit

/-! ### Positions that leave ACTIVE, go ABSENT or are probed -/

theorem leaveActive (h : a.QueueFrom s) (p : Pos) : a.QueueFrom (s.leaveActive p) := by
  refine State.QueueFrom.retire ((h.updCircs p _).mapEntries _ fun e => ?_)
  rw [Entry.without_eq_leftBy]
  exact ⟨rfl, rfl⟩

theorem makeAbsent (h : a.QueueFrom s) (p : Pos) : a.QueueFrom (s.makeAbsent p) := h.same rfl rfl rfl

theorem takeOff (h : a.QueueFrom s) (p : Pos) : a.QueueFrom (s.takeOff p) :=
  h.unmoved (.takeOff s p) (s.takeOff_frame p).1

theorem reviewClashes (h : a.QueueFrom s) (i : Option Identity) : a.QueueFrom (s.reviewClashes i) :=
  h.unmoved (.reviewClashes s i) (s.reviewClashes_frame i).1

theorem goAbsent (h : a.QueueFrom s) (p : Pos) : a.QueueFrom (s.goAbsent p) := by
  unfold State.goAbsent
  split
  · exact h
  · exact h.makeAbsent p
  · exact h.makeAbsent p
  · exact (((h.leaveActive p).takeOff p).makeAbsent p).reviewClashes _
  · exact ((h.takeOff p).makeAbsent p).reviewClashes _

theorem cascade (h : a.QueueFrom s) (p : Pos) : a.QueueFrom (s.cascade p) :=
  .foldl State.goAbsent (fun _ q h => h.goAbsent q) _ h

theorem beginProbe (h : a.QueueFrom s) (p : Pos) : a.QueueFrom (s.beginProbe p) := (h.updPos p _).updChain _

theorem probeNext (h : a.QueueFrom s) (p : Pos) : a.QueueFrom (s.probeNext p) := by
  unfold State.probeNext
  split
  · exact ite_cases _ (h.beginProbe _) h
  · exact h

theorem probeFirst (h : a.QueueFrom s) : a.QueueFrom s.probeFirst := ite_cases _ (h.beginProbe 0) h

theorem lossExpiry (h : a.QueueFrom s) (p : Pos) : a.QueueFrom (s.lossExpiry p) :=
  ite_cases _ ((h.leaveActive p).updPos p _) h

theorem absenceExpiry (h : a.QueueFrom s) (p : Pos) : a.QueueFrom (s.absenceExpiry p) := by
  refine ite_cases _ ?_ h
  unfold State.cascadeFrom
  split
  · exact (h.cascade p).probeNext _
  · exact h.cascade p

theorem enumExpiry (h : a.QueueFrom s) (p : Pos) : a.QueueFrom (s.enumExpiry p) :=
  ite_cases _ (ite_cases _ ((h.updPos p _).updChain _) (h.updPos p _)) h

theorem queryExpiry (h : a.QueueFrom s) (p : Pos) : a.QueueFrom (s.queryExpiry p) := ite_cases _ (h.updPos p _) h

/-! ### Link errors and deadlines (R49, R50, R67) -/

theorem addFarEnd (h : a.QueueFrom s) (p : Pos) (n : Nat) : a.QueueFrom (s.addFarEnd p n) :=
  h.unmoved (.addFarEnd s p n) (State.CountedFrom.addFarEnd p s n).queue

theorem addMissed (h : a.QueueFrom s) (p : Pos) : a.QueueFrom (s.addMissed p) :=
  h.unmoved (.addMissed s p) (State.CountedFrom.addMissed p s).queue

theorem linkIntervalExpiry (h : a.QueueFrom s) : a.QueueFrom s.linkIntervalExpiry := by
  have ended (s : State) (p : Pos) (h : a.QueueFrom s) : a.QueueFrom (s.endLinkInterval p) :=
    h.unmoved (.endLinkInterval s p) (s.endLinkInterval_frame p).1
  exact ite_cases _ ((State.QueueFrom.foldl _ ended allPos h).updChain _) h

theorem expire (h : a.QueueFrom s) (e : Entry) : a.QueueFrom (s.expire e) :=
  State.QueueFrom.retire (.foldl _ (fun _ p h => ite_cases _ (h.addMissed p) h) allPos
    (h.updEntry e.tag _ fun _ => ⟨rfl, rfl⟩))

/-! ### Upstream telegrams and CONNECT (R25, R27, R46, R47) -/

theorem heard (h : a.QueueFrom s) (p : Pos) (load : Bool) : a.QueueFrom (s.heard p load) := by
  have flagged := (h.updPos p fun r => { r with lastHeard := some s.now }).updPos p fun r => { r with downstreamLoad := load }
  unfold State.heard State.setLoad
  refine ite_cases _ (flagged.probeNext p) ?_
  split
  · exact ite_cases _ (flagged.cascade _) flagged
  · exact flagged

theorem askQuery (h : a.QueueFrom s) (p : Pos) : a.QueueFrom (s.askQuery p) := ite_cases _ (h.updChain _) h

theorem countStale (h : a.QueueFrom s) : a.QueueFrom s.countStale := h.updCounters _

theorem countBad (h : a.QueueFrom s) : a.QueueFrom s.countBad := h.updCounters _

theorem takeReport (h : a.QueueFrom s) (r : ReportFields) : a.QueueFrom (s.takeReport r) := by
  have counted (u : State) (hu : a.QueueFrom u) : a.QueueFrom (u.when r.superseded fun s => s.updPos r.pos fun k =>
      { k with counters := { k.counters with superseded := bump k.counters.superseded 1 } }) :=
    ite_cases _ (hu.updPos r.pos _) hu
  have heard : a.QueueFrom (s.reportHeard r) := (counted _ ((h.heard r.pos r.load).addFarEnd r.pos r.farEnd)).askQuery r.pos
  refine ite_cases _ ?_ h.countStale
  unfold State.matchReport
  split
  · exact ite_cases _ (heard.updEntry r.tag (·.stash ⟨r.pos, r.supply, r.superseded, r.readings⟩) fun _ => ⟨rfl, rfl⟩).retire
      heard.countStale
  · exact heard.countStale

theorem acceptIdent (h : a.QueueFrom s) (i : IdentFields) : a.QueueFrom (s.acceptIdent i) := by
  rw [State.acceptIdent_eq]
  have identified : a.QueueFrom (s.identified i) := h.unmoved (.identified s i) (s.identified_frame i).1
  have probed := ((identified.addFarEnd i.pos i.farEnd).requestResync).probeNext i.pos
  exact ite_cases _ (probed.updImage _) probed

theorem recount (h : a.QueueFrom s) (p : Pos) (new : Nat) : a.QueueFrom (s.recount p new) := by
  refine h.unmoved (.recount s p new) ?_
  rw [State.recount_eq]
  exact foldl_keeps (fun s u : State => u.queue = s.queue) (fun _ => rfl) (fun _ _ _ first second => second.trans first) _
    (fun s c => (State.unfit_frame p _ new s c).1) allCirc s

theorem takeIdent (h : a.QueueFrom s) (i : IdentFields) : a.QueueFrom (s.takeIdent i) := by
  have farEnd := (h.heard i.pos i.load).addFarEnd i.pos i.farEnd
  have returned := ((farEnd.recount i.pos i.count).updPos i.pos fun r =>
    { r with state := .active, lostSince := none, queryUntil := none }).requestResync.probeNext i.pos
  have departed := ((h.heard i.pos i.load).takeOff i.pos).updPos i.pos fun r => { r with linkErrors := 0, identity := none }
  unfold State.takeIdent
  split
  · exact h.acceptIdent i
  · exact farEnd
  · exact ite_cases _ (ite_cases _ returned ((departed.reviewClashes _).acceptIdent i)) (farEnd.askQuery _)
  · exact h
  · exact h

theorem reportEnds (h : a.QueueFrom s) (t : UpTelegram) : a.QueueFrom (s.reportEnds t) := by
  unfold State.reportEnds
  split
  · exact h.takeReport _
  · exact h.countBad

theorem identEnds (h : a.QueueFrom s) (t : UpTelegram) : a.QueueFrom (s.identEnds t) := by
  unfold State.identEnds
  split
  · exact h.takeIdent _
  · exact h.countBad

theorem telegramEnds (h : a.QueueFrom s) (bytes : List Byte) : a.QueueFrom (s.telegramEnds bytes) := by
  unfold State.telegramEnds
  split
  · exact ite_cases _ (h.reportEnds _) (ite_cases _ (h.identEnds _) h.countBad)
  · exact h.countBad

theorem telegramDone (h : a.QueueFrom s) (begins : Bool) : a.QueueFrom (s.telegramDone begins) := by
  unfold State.telegramDone
  split
  · exact ite_cases _ (h.updChain _) (h.updChain _).transmit
  · exact h

theorem connectRise (h : a.QueueFrom s) : a.QueueFrom s.connectRise := ite_cases _ (h.updChain _).probeFirst h

theorem connectFall (h : a.QueueFrom s) : a.QueueFrom s.connectFall := ite_cases _ ((h.updChain _).cascade 0) h

/-! ### Resets and modes (R74, R75, R166, R167, R171 to R173) -/

theorem hardReset (h : a.QueueFrom s) : a.QueueFrom s.hardReset := h.empties rfl (.inr rfl)

theorem probeAfterRestart (h : a.QueueFrom s) : a.QueueFrom s.probeAfterRestart := ite_cases _ h.probeFirst h

theorem softRestart (h : a.QueueFrom s) : a.QueueFrom s.softRestart := by
  rw [State.softRestart_eq]
  have restarted : a.QueueFrom s.restarted := h.empties rfl (.inr rfl)
  exact restarted.probeAfterRestart.transmit.recompose

theorem chainRestart (h : a.QueueFrom s) : a.QueueFrom s.chainRestart := by
  unfold State.chainRestart
  exact (h.flush.cascade 0).restartChecks.probeAfterRestart.transmit.recompose

theorem setupEntry (h : a.QueueFrom s) : a.QueueFrom s.setupEntry := by
  have flushed : a.QueueFrom (s.updTables fun t => { t with mode := .setup }).flush := h.empties rfl (.inl rfl)
  have diverted : a.QueueFrom (s.updTables fun t => { t with mode := .setup }).flush.divertUnsent :=
    ite_cases _ (flushed.divert _) flushed
  unfold State.setupEntry
  exact (diverted.mapCircuits _).transmit.recompose

theorem runEntry (h : a.QueueFrom s) : a.QueueFrom s.runEntry := by
  rw [State.runEntry_eq]
  have entered : a.QueueFrom s.entered :=
    h.rewrites (fun setup => nomatch setup) id (fun _ => ⟨rfl, rfl⟩) (by rw [List.map_id]; exact List.suffix_refl _) rfl
  exact entered.requestResync.transmit.recompose

/-! ### Frames (R159 to R163) -/

theorem expireAtWrite (h : a.QueueFrom s) (i : Nat) : a.QueueFrom (s.expireAtWrite i) := by
  unfold State.expireAtWrite
  split
  · exact h.pollExpiry
  · exact .foldl State.lossExpiry (fun _ p h => h.lossExpiry p) allPos h
  · exact .foldl State.absenceExpiry (fun _ p h => h.absenceExpiry p) allPos h
  · exact ite_cases _ (h.updImage _) h
  · exact ite_cases _ h.handTelltale h
  · exact h

theorem setRow (h : a.QueueFrom s) (p : Pos) (c : Circ) (r : MapRow) : a.QueueFrom (s.setRow p c r) := h.same rfl rfl rfl

theorem setProfile (h : a.QueueFrom s) (i : ProfileNo) (pr : Profile) : a.QueueFrom (s.setProfile i pr) := h.same rfl rfl rfl

theorem setSetting (h : a.QueueFrom s) (i v : Nat) : a.QueueFrom (s.setSetting i v) := h.same rfl rfl rfl

theorem snapshotCounters (h : a.QueueFrom s) (d : List Byte) : a.QueueFrom (handleSnapshotCounters d s).1 := by
  have snapped (s : State) (p : Pos) (h : a.QueueFrom s) : a.QueueFrom (s.snapPos p) := (h.updChain _).updPos p _
  unfold handleSnapshotCounters
  split
  · exact (State.QueueFrom.foldl _ snapped allPos h).same rfl rfl rfl
  · split
    · exact snapped _ _ h
    · exact h

/-- Every request moves the live entries so (R163). -/
theorem handled (hs : a.QueueFrom s) {h : Handler} (hh : h ∈ readHandlers ++ effectHandlers) (d : List Byte) :
    a.QueueFrom (h d s).1 := by
  rcases List.mem_append.1 hh with hh | hh
  · rw [readHandlers_fst hh]
    exact hs
  · simp only [effectHandlers, List.mem_cons, List.not_mem_nil, or_false] at hh
    rcases hh with rfl | rfl | rfl | rfl | rfl | rfl | rfl | rfl | rfl | rfl | rfl | rfl | rfl | rfl
    · -- ENTER SETUP
      refine State.gate_cases a.QueueFrom hs ?_
      split
      · exact hs.setupEntry
      · exact hs
    · -- ENTER RUN
      refine State.gate_cases a.QueueFrom hs ?_
      split
      · exact hs
      · split
        · exact hs
        · dsimp only
          exact hs.runEntry
    · refine State.gate_cases a.QueueFrom hs ?_ -- COMMIT
      exact hs.same rfl rfl rfl
    · refine State.gate_cases a.QueueFrom hs ?_ -- RESTART
      exact hs.softRestart
    · unfold handleRestartChain -- RESTART CHAIN
      dsimp only
      exact hs.chainRestart
    · -- WRITE MAP ROW
      refine State.gate_cases a.QueueFrom hs ?_
      split
      · split
        · exact (hs.setRow _ _ _).recompose
        · exact hs
      · exact hs
    · -- WRITE PROFILE A
      refine State.gate_cases a.QueueFrom hs ?_
      split
      · exact hs.setProfile _ _
      · exact hs
    · -- WRITE PROFILE B
      refine State.gate_cases a.QueueFrom hs ?_
      split
      · exact hs.setProfile _ _
      · exact hs
    · -- WRITE SETTING
      refine State.gate_cases a.QueueFrom hs ?_
      dsimp only
      split
      · split
        · exact hs
        · exact ((hs.setSetting _ _).expireAtWrite _).transmit.recompose
      · exact hs
    · exact (hs.updImage _).recompose -- CLEAR HEALED
    · exact hs.snapshotCounters d -- SNAPSHOT COUNTERS
    · refine State.gate_cases a.QueueFrom hs ?_ -- FULL CHECK
      exact hs.mapCircuits _
    · unfold handleForgetBaselines -- FORGET BASELINES
      split
      · exact hs.mapCircuits _
      · split
        · exact hs.updCircs _ _
        · exact hs
    · exact hs.same rfl rfl rfl -- FORGET HISTORY

theorem takeCommandFrame (h : a.QueueFrom s) (d : List Byte) : a.QueueFrom (s.takeCommandFrame d) := by
  have refreshed := (h.updPort fun po => { po with lastCommand := s.now }).updImage fun ib => { ib with commandStale := false }
  exact ite_cases _ (ite_cases _ refreshed.recompose ((refreshed.updPort _).requestChange _).transmit.recompose)
    (h.updCounters _)

theorem takeFrame (hs : a.QueueFrom s) {h : Handler} (hh : h ∈ readHandlers ++ effectHandlers) (f : BusFrame)
    (d : List Byte) : a.QueueFrom (s.takeFrame f d h) :=
  ite_cases _ (ite_cases _ (hs.takeCommandFrame d) (ite_cases _ (State.takeRequest_cases _
    (fun _ _ _ => ((hs.updPort fun po => { po with request := some d }).handled hh d).updPort _) (hs.updCounters _)) hs)) hs

theorem frameCarried (h : a.QueueFrom s) : a.QueueFrom s.frameCarried := by
  unfold State.frameCarried
  split
  · exact h
  · exact ite_cases _ ((h.updPort _).updPort _) (h.updPort _)

theorem commitDone (h : a.QueueFrom s) : a.QueueFrom s.commitDone := by
  unfold State.commitDone
  split
  · exact ite_cases _ ((h.updStore _).updPort _) h
  · exact h

end State.QueueFrom

/-! ### The step -/

/-- What a command can do to the live entries. -/
theorem exec_queueFrom (c : Instr) {a s : State} (h : a.QueueFrom s) : ∃ u, exec c s = .next u ∧ a.QueueFrom u := by
  have ended (b : Bool) : a.QueueFrom (s.answerEnds b) := h.updChain _
  cases c with
  | hardReset => exact ⟨_, rfl, h.hardReset⟩
  | connectChange high => exact ⟨_, rfl, ite_cases _ h (h.updChain _)⟩
  | connectDebouncedRise => exact ⟨_, rfl, ite_cases _ h.connectRise.transmit.recompose h⟩
  | connectDebouncedFall => exact ⟨_, rfl, ite_cases _ h.connectFall.recompose h⟩
  | commitComplete => exact ⟨_, rfl, h.commitDone⟩
  | frameCarried => exact ⟨_, rfl, h.frameCarried⟩
  | telltaleSpacingExpiry => exact ⟨_, rfl, ite_cases _ h.handTelltale h⟩
  | telltalePeriodExpiry => exact ⟨_, rfl, ite_cases _ h.handTelltale h⟩
  | commandSilenceExpiry => exact ⟨_, rfl, ite_cases _ (State.QueueFrom.recompose (ite_cases _ (h.updImage _) h)) h⟩
  | operatingSecond => exact ⟨_, rfl, ite_cases _ (h.updImage _) h⟩
  | pollDue => exact ⟨_, rfl, ite_cases _ h.pollExpiry.recompose h⟩
  | checkBudgetReady => exact ⟨_, rfl, ite_cases _ h.transmit.recompose h⟩
  | downstreamTelegramDone b => exact ⟨_, rfl, (h.telegramDone b).recompose⟩
  | report t b => exact ⟨_, rfl, ((ended b).reportEnds t).transmit.recompose⟩
  | ident t b => exact ⟨_, rfl, ((ended b).identEnds t).transmit.recompose⟩
  | enumTimeout p => exact ⟨_, rfl, ite_cases _ (h.enumExpiry p).transmit.recompose h⟩
  | queryWindowEnd p => exact ⟨_, rfl, h.queryExpiry p⟩
  | lossIntervalExpiry p => exact ⟨_, rfl, ite_cases _ (h.lossExpiry p).recompose h⟩
  | absenceIntervalExpiry p => exact ⟨_, rfl, ite_cases _ (h.absenceExpiry p).transmit.recompose h⟩
  | deadline tag =>
    refine ⟨_, rfl, ?_⟩
    split
    · exact ite_cases _ (h.expire _).recompose h
    · exact h
  | linkErrorIntervalEnd => exact ⟨_, rfl, ite_cases _ h.linkIntervalExpiry.recompose h⟩
  | badUpstreamTelegram bytes b => exact ⟨_, rfl, ((ended b).telegramEnds bytes).transmit.recompose⟩
  | _ => exact exec_of_frame rfl fun k hk => h.takeFrame hk _ _

/-- What a step can do to the live entries; the passing of a millisecond leaves them. -/
theorem step_queueFrom {s t : State} (ht : step s = .next t) : s.QueueFrom t :=
  step_keeps s.QueueFrom (fun c _ h => exec_queueFrom c h) (fun _ _ h => h.same rfl rfl rfl)
    (fun _ h => h.same rfl rfl rfl) .refl ht

end Sys2Proof.Machine
end

