-- ==== Sys2Proof/Proofs/QueueSound.lean ====
section
/-! PROOF. Every move of the live entries keeps the capacities and the order of the tags (O6), and a queue empty in SETUP (O7). -/

namespace Sys2Proof.Machine

/-- Tags and capacities are facts of the queue alone. -/
theorem State.TagsInOrder.of_queue {s u : State} (h : s.TagsInOrder) (entries : u.queue.entries = s.queue.entries)
    (counter : u.queue.tagCounter = s.queue.tagCounter) : u.TagsInOrder := by
  simpa only [State.TagsInOrder, entries, counter] using h

/-- The tags stay in order when entries leave at the head (R53, R69). -/
theorem State.TagsInOrder.drop {s : State} (h : s.TagsInOrder) (gone kept : List Entry)
    (entries : s.queue.entries = gone ++ kept) : (s.updQueue fun q => { q with entries := kept }).TagsInOrder := by
  induction gone generalizing s with
  | nil => exact h.of_queue entries.symm rfl
  | cons e gone ih => exact ih (s := s.updQueue fun q => { q with entries := gone ++ kept }) (h.tail entries) rfl

/-- An entry rewritten under its kind is a POLL or CHECK entry if it was one. -/
theorem Entry.isPollCheck_congr {e x : Entry} (kind : x.kind = e.kind) : x.isPollCheck = e.isPollCheck := by
  rw [Entry.isPollCheck, kind, Entry.isPollCheck]

theorem State.QueueBounded.rewrites {s u : State} (h : s.QueueBounded) {f : Entry → Entry}
    (kind : ∀ e, (f e).kind = e.kind) (entries : u.queue.entries <:+ s.queue.entries.map f) : u.QueueBounded := by
  obtain ⟨live, limited⟩ := h
  have same : (s.queue.entries.map f).countP Entry.isPollCheck = s.queue.entries.countP Entry.isPollCheck := by
    rw [List.countP_map]
    exact congrArg (List.countP · s.queue.entries) (funext fun e => Entry.isPollCheck_congr (kind e))
  exact ⟨entries.length_le.trans (by rwa [List.length_map]), (entries.sublist.countP_le).trans (same ▸ limited)⟩

/-- One more entry fits: a POLL or CHECK only within their limit (R60, R61). -/
theorem State.QueueBounded.allocates {s u : State} (h : s.QueueBounded) (room : s.queue.hasRoom = true) {kind : EntryKind}
    (limit : kind = .poll ∨ kind = .check → s.queue.hasPollCheckRoom = true) {image : Option Image} {changed : FnSet}
    {target : Option CheckTarget} (queue : u.queue = s.queue.allocate kind image changed target) : u.QueueBounded := by
  obtain ⟨-, limited⟩ := h
  have room : s.queue.entries.length < Config.queueCapacity := of_decide_eq_true room
  rw [State.QueueBounded, queue, Queue.allocate, List.length_append, List.countP_append, List.countP_singleton]
  refine ⟨room, ?_⟩
  split
  · next counted =>
    have asked : kind = .poll ∨ kind = .check := by simpa [Entry.isPollCheck] using counted
    exact of_decide_eq_true (Bool.and_eq_true_iff.1 (limit asked)).2
  · exact limited

theorem State.QueueFrom.keeps_bounded {s u : State} (m : s.QueueFrom u) (h : s.QueueBounded) : u.QueueBounded := by
  induction m with
  | refl => exact h
  | rewrites _ _ f same entries _ ih => exact ih.rewrites (fun e => (same e).2) entries
  | allocates _ _ room kind limit _ _ _ queue ih => exact ih.allocates room limit queue
  | empties _ entries _ _ =>
    rw [State.QueueBounded, entries]
    exact ⟨Nat.zero_le _, Nat.zero_le _⟩

theorem State.QueueFrom.keeps_tags {s u : State} (m : s.QueueFrom u) (h : s.TagsInOrder) : u.TagsInOrder := by
  induction m with
  | refl => exact h
  | rewrites _ _ f same entries counter ih =>
    obtain ⟨gone, split⟩ := entries
    exact ((ih.mapEntries f fun e _ => (same e).1).drop gone _ split.symm).of_queue rfl counter
  | allocates _ _ room kind _ image changed target queue ih =>
    exact (ih.allocate room kind image changed target).of_queue (by rw [queue]; rfl) (by rw [queue]; rfl)
  | empties _ entries counter ih =>
    refine ⟨?_, by rw [entries]; exact Nat.zero_le _, by rw [entries]; rfl⟩
    rcases counter with kept | zero
    · exact kept ▸ ih.1
    · rw [zero]
      decide

theorem State.QueueFrom.keeps_quiet {s u : State} (m : s.QueueFrom u) (h : s.SetupQuiet) : u.SetupQuiet := by
  induction m with
  | refl => exact h
  | rewrites _ mode f _ entries _ ih =>
    intro setup
    rw [ih (mode setup)] at entries
    exact List.suffix_nil.1 entries
  | allocates _ run => exact fun setup => nomatch run.symm.trans setup
  | empties _ entries => exact fun _ => entries

/-- Settles O6: a step moves the live entries, and each move keeps the capacities and the order of the tags. -/
theorem queueStaysSound : Obligations.QueueStaysSound :=
  ⟨fun _ _ h ht => (step_queueFrom ht).keeps_bounded h, fun _ _ h ht => (step_queueFrom ht).keeps_tags h⟩

/-- Settles O7: no move allocates in SETUP, and the one that enters SETUP leaves no entry. -/
theorem setupStaysQuiet : Obligations.SetupStaysQuiet := fun _ _ h ht => (step_queueFrom ht).keeps_quiet h

end Sys2Proof.Machine
end

