-- ==== Sys2Proof/Proofs/RetirementSteps.lean ====
section
/-! PROOF. The entries at the head retire one after the other, and what one retirement does (O51). -/

namespace Sys2Proof.Machine

/-! ### The order of retirement (R69) -/

theorem EntryState.final_iff (x : EntryState) : x.final = true ↔ x = .complete ∨ x = .expired := by
  cases x <;> decide

theorem EntryState.not_final_iff (x : EntryState) : x.final = false ↔ x = .waiting ∨ x = .pending := by
  cases x <;> decide

/-- Retirements stop at an entry that is not final. -/
theorem State.retire_stops (s : State) : ∀ e ∈ s.retire.queue.entries.head?, e.state.final = false := by
  intro e he
  rw [State.retire_entries] at he
  simpa [Option.mem_def.1 he] using List.head?_dropWhile_not (fun e : Entry => e.state.final) s.queue.entries

/-- A final head retires first, and the others after it. -/
theorem State.retire_head {s : State} {e : Entry} {rest : List Entry} (entries : s.queue.entries = e :: rest)
    (done : e.state.final = true) : s.retire = (s.retireOne e rest).retire := by
  rw [State.retire, entries, State.retireFrom, if_pos done]
  rfl

/-! ### Answers in ascending position order (R70) -/

/-- Looking an entry's answers up position by position gives them in ascending order. -/
theorem filterMap_find_pos {as l : List Answer} (perm : l.Perm as) (sorted : l.Pairwise fun a b => a.pos < b.pos) :
    (allPos.filterMap fun p => as.find? (·.pos == p)) = l := by
  have nodup : (as.map (·.pos)).Nodup :=
    (perm.map _).nodup_iff.1 (List.pairwise_map.2 (sorted.imp fun lt => ne_of_lt lt))
  have placed {p : Pos} {a : Answer} (found : as.find? (·.pos == p) = some a) : a.pos = p :=
    beq_iff_eq.1 (List.find?_some (p := fun a : Answer => a.pos == p) found)
  have found {a : Answer} (mem : a ∈ as) : as.find? (·.pos == a.pos) = some a := by
    cases look : as.find? (·.pos == a.pos) with
    | none => exact absurd (beq_self_eq_true a.pos) (List.find?_eq_none.1 look a mem)
    | some b => rw [List.inj_on_of_nodup_map nodup (List.mem_of_find?_eq_some look) mem (placed look)]
  have ascending : allPos.Pairwise (· < ·) := by decide
  refine List.Pairwise.eq_of_mem_iff (r := InvImage (· < ·) Answer.pos)
    (ascending.filterMap _ fun p q lt a look b look' => ?_) sorted fun a => ?_
  · rw [InvImage, placed look, placed look']
    exact lt
  · rw [List.mem_filterMap, perm.mem_iff]
    exact ⟨fun ⟨_, _, look⟩ => List.mem_of_find?_eq_some look, fun mem => ⟨a.pos, mem_allPos _, found mem⟩⟩

/-- The answers of a transmitted entry, handed position by position. -/
theorem State.handAnswers_sent (s : State) {e : Entry} {x : Transmission} (sent : e.tx = some x) :
    s.handAnswers e =
      (allPos.filterMap fun p => e.answers.find? (·.pos == p)).foldl (fun u a => u.reconcile e x a) s := by
  rw [State.handAnswers, sent, List.foldl_filterMap]
  dsimp only
  congr 1
  funext u p
  cases e.answers.find? (·.pos == p) <;> rfl

theorem State.handAnswers_unsent (s : State) {e : Entry} (unsent : e.tx = none) : s.handAnswers e = s := by
  rw [State.handAnswers, unsent]

/-! ### One retirement (R71 to R73) -/

/-- The untracked flags clear at the retirement of an entry sent in the current generation, not overtaken, the slot empty
(R72). -/
theorem State.clearUntracked_untracked (s : State) (e : Entry) : (s.clearUntracked e).image.untracked =
    if (∃ x ∈ e.tx, x.overtaken = false ∧ x.generation = s.queue.generation) ∧ s.queue.slot = none then 0
    else s.image.untracked := by
  unfold State.clearUntracked
  cases e.tx with
  | none => simp
  | some x =>
    simp only [Option.mem_some_iff, exists_eq_left', Bool.and_eq_true, Bool.not_eq_true', beq_iff_eq,
      Option.isNone_iff_eq_none, and_assoc]
    split <;> rfl

theorem State.setRetired_kept (s : State) (e : Entry) :
    (s.setRetired e).queue = s.queue ∧ (s.setRetired e).chain = s.chain ∧
    (s.setRetired e).image.untracked = s.image.untracked := by
  unfold State.setRetired
  split
  · split <;> exact ⟨rfl, rfl, rfl⟩
  · exact ⟨rfl, rfl, rfl⟩

theorem State.clearUntracked_chain (s : State) (e : Entry) : (s.clearUntracked e).chain = s.chain := by
  unfold State.clearUntracked
  split
  · split <;> rfl
  · rfl

theorem State.retireOne_untracked (s : State) (e : Entry) (rest : List Entry) : (s.retireOne e rest).image.untracked =
    if (∃ x ∈ e.tx, x.overtaken = false ∧ x.generation = s.queue.generation) ∧ s.queue.slot = none then 0
    else s.image.untracked := by
  have handed := State.JudgedFrom.handAnswers s e
  obtain ⟨queue, -, untracked⟩ := (s.handAnswers e).setRetired_kept e
  rw [State.retireOne, State.updQueue_image, State.clearUntracked_untracked, queue, untracked, handed.queue, handed.image]

theorem State.retireOne_chain (s : State) (e : Entry) (rest : List Entry) :
    (s.retireOne e rest).chain = (s.handAnswers e).chain := by
  rw [State.retireOne, State.updQueue_chain, State.clearUntracked_chain, ((s.handAnswers e).setRetired_kept e).2.1]

/-- Settles O51: retirements drop the final entries at the head, answers are looked up in ascending position order, and each
step of a retirement sets its own record alone. -/
theorem retirementSteps : Obligations.RetirementSteps := by
  unfold Obligations.RetirementSteps
  simp only [← EntryState.final_iff, ← EntryState.not_final_iff]
  refine ⟨fun s => ⟨?_, fun e rest entries done => State.retire_head entries done, State.retire_of_head⟩,
    fun s e x l sent perm sorted => ?_, fun s e idle => idle.elim s.handAnswers_unsent State.handAnswers_none,
    fun s e rest => ?_⟩
  · obtain ⟨gone, entries, final⟩ := s.retires
    exact ⟨gone, _, entries, rfl, final, s.retire_stops⟩
  · rw [s.handAnswers_sent sent, filterMap_find_pos perm sorted]
  · have frame := State.RetiredFrom.retireOne s e rest
    obtain ⟨circuits, faults⟩ := s.retireOne_judged e rest
    exact ⟨s.retireOne_queue e rest, s.retireOne_retired e rest, s.retireOne_untracked e rest, circuits, faults,
      s.retireOne_chain e rest, frame.tables, frame.cache, frame.checks, frame.port, frame.store, frame.now⟩

end Sys2Proof.Machine
end
